-- ==== Sys2Proof/Word.lean ====
section
/-! DEFINITION. The word types of the 80386 (10_state.md rules R20, R21; 20_memory.md rule R131): a
byte, a word of 16 bits, a doubleword of 32 bits. Arithmetic on them is modulo their width
(92_eei_decisions.md D7). -/

namespace Sys2Proof

/-- A byte: one unit of memory or one 8-bit port (rule R80). -/
abbrev Byte := BitVec 8

/-- A word of 16 bits: a selector, a 16-bit operand (rule R131). -/
abbrev Half := BitVec 16

/-- A doubleword of 32 bits: a general register, an address (rules R20, R80). -/
abbrev Word := BitVec 32

end Sys2Proof
end

