-- ==== Sys2Proof/Config.lean ====
section
/-! DEFINITION. The values the spec leaves open (93_implementation_defined.md, treatment "any value";
00_scope.md rule R6, parameters; 92_eei_decisions.md, OPEN rows). Each is an opaque constant: nothing
can be proved of what it is, so a statement about the model holds whatever it is. Most are applied to
the counter `State.draws`, which every use advances, so that two uses need not agree. -/

namespace Sys2Proof.Config

/-- Values the spec calls undefined: upper halves of stored selectors (U22), reserved bits of LAR's
result (U2), of a pushed error code (U3), of a PDE (U5), flags after a special-register move (U25),
AF after OR (rule R215). -/
opaque freeWord : Nat → Word

/-- Whether the write of a descriptor's accessed bit is byte 5 alone (rule R97) or the doubleword at +4 (rules R256,
R257), where the two differ (log entry 56). -/
opaque accessedByteAlone : Bool

/-- What an I/O device returns to a port read (00_scope.md rule R11; the argument is the draw). -/
opaque portInput : Nat → Word

/-- Whether an entry of the TLB is still there when a translation looks for it (decision D18). -/
opaque tlbKeeps : Nat → Bool

/-- Whether a table walk enters its translation in the TLB (rule R110, decision D18). -/
opaque tlbFills : Nat → Bool

/-- The block a table walk enters its translation in (rule R123: the policy is never stated). -/
opaque tlbBlock : Nat → BitVec 2

/-- A TLB attribute bit written or matched with its pair 00 or 11 (rules R128, R129; U4). -/
opaque tlbAttr : Nat → Bool

/-- The block a translation looks at first when more than one valid entry is for its page (rule R110:
"a valid entry"). -/
opaque tlbOrder : Nat → BitVec 2

/-- The result of a TLB lookup that the spec leaves unpredictable, and of a match with the pair 00 or 11
(rule R129; U4, U11). -/
opaque tlbLookup : Nat → Bool

/-- A byte read from an address that the memory map gives neither as RAM nor as ROM (decision D4). -/
opaque deviceByte : Nat → Byte

/-- When a data breakpoint is reported if neither LE nor GE is set: 0 at once, 1 one boundary later,
2 or 3 never (61_debug.md rule R609; U28). -/
opaque lateReport : Nat → BitVec 2

/-- Whether Bn of DR6 is set for a breakpoint that matched but need not set it: one that is not enabled (rule R607), or,
beside a debug trap, one at the next instruction (rules R601, R620; log entry 85). -/
opaque setsDisabledB : Nat → Bool

/-- Whether a debug trap also sets BD, where the next instruction would raise general detect (rules R601, R620; log
entry 85). -/
opaque trapTakesBd : Nat → Bool

/-- Whether a pending INTR is taken at the boundary right after STI set IF (decision D28). -/
opaque stiRecognises : Nat → Bool

/-- Whether an ESC instruction tests ERROR# (decision D33: `ESC_TESTS_ERROR` of its opcode bytes,
the escape number of the first and the ModR/M byte). -/
opaque escTestsError : BitVec 3 → Byte → Bool

/-- Bytes of the memory operand of an ESC instruction, taken modulo 109 (rule R131: at most 108; the
numerics instruction set is outside the source). It may differ from one use to the next. -/
opaque escLength : BitVec 3 → Byte → Nat → Nat

/-- Whether an ESC instruction with a memory operand stores to it (rule R478). -/
opaque escStores : BitVec 3 → Byte → Bool

/-- Whether a register form of ESC writes AX (rule R472: the coprocessor's effects on registers are
the environment's). -/
opaque escWritesAx : BitVec 3 → Byte → Bool

/-- A byte the coprocessor delivers (rules R11, R478). -/
opaque coprocessorByte : Nat → Byte

end Sys2Proof.Config
end

