-- ==== Sys2Proof/Syntax.lean ====
section
/-! DEFINITION. The instructions of spec/opcode_table.json as syntax, one constructor per row, with
every operand form of 30_encoding.md rules R191 to R216. Prefix bytes appear as what they select:
an operand size, an address size, a segment override, a repeat or a lock target. -/

namespace Sys2Proof

/-- Operand size selected by CS.D and the 66H byte (rule R192). -/
inductive OpSize where
  | w16 | w32
deriving DecidableEq, Repr

/-- Address size selected by CS.D and the 67H byte (rule R192). -/
inductive AddrSize where
  | a16 | a32
deriving DecidableEq, Repr

/-- The eight general registers, in the order of rule R20 (numbers: rule R196). -/
inductive Reg where
  | eax | ecx | edx | ebx | esp | ebp | esi | edi
deriving DecidableEq, Repr

/-- The eight byte registers (rule R196). -/
inductive Reg8 where
  | al | cl | dl | bl | ah | ch | dh | bh
deriving DecidableEq, Repr

/-- The six segment registers, in the order of rule R196. -/
inductive SegReg where
  | es | cs | ss | ds | fs | gs
deriving DecidableEq, Repr

/-- The base part of a 16-bit effective address, in the order of the `rm` table of rule R193. -/
inductive Base16 where
  | bxSi | bxDi | bpSi | bpDi | si | di | bp | bx
deriving DecidableEq, Repr

/-- A displacement as it stands in the instruction (rules R193 to R195). -/
inductive Disp where
  | none
  | d8 (v : BitVec 8)
  | d16 (v : BitVec 16)
  | d32 (v : BitVec 32)
deriving DecidableEq, Repr

/-- A memory effective address (rules R193, R194). -/
inductive Ea where
  /-- 32-bit: a base register other than ESP, and a displacement. -/
  | base (r : Reg) (d : Disp)
  /-- 32-bit: a displacement alone. -/
  | abs32 (a : BitVec 32)
  /-- 32-bit: base, scaled index (none when the index field is 100B) and displacement. -/
  | sib (scale : BitVec 2) (index : Option Reg) (b : Reg) (d : Disp)
  /-- 32-bit: scaled index and a displacement, no base register. -/
  | sibAbs (scale : BitVec 2) (index : Option Reg) (a : BitVec 32)
  /-- 16-bit: one of the eight base forms and a displacement. -/
  | mem16 (k : Base16) (d : Disp)
  /-- 16-bit: a displacement alone. -/
  | abs16 (a : BitVec 16)
deriving DecidableEq, Repr

/-- A memory operand: its effective address and the segment-override byte, if one stands before the
instruction (rule R192). -/
structure MemOp where
  ovr : Option SegReg
  ea : Ea
deriving DecidableEq, Repr

/-- A word or doubleword operand given by a ModR/M byte (rule R193). -/
inductive Rm where
  | reg (r : Reg)
  | mem (m : MemOp)
deriving DecidableEq, Repr

/-- A byte operand given by a ModR/M byte (rule R193). -/
inductive Rm8 where
  | reg (r : Reg8)
  | mem (m : MemOp)
deriving DecidableEq, Repr

/-- An immediate of the operand size (rule R195). -/
inductive Imm where
  | i16 (v : BitVec 16)
  | i32 (v : BitVec 32)
deriving DecidableEq, Repr

/-- What a REP byte (F3) stands before (45_io.md rule R381). -/
inductive RepTarget where
  | insb (asz : AddrSize)
  | ins (osz : OpSize) (asz : AddrSize)
  | outsb (asz : AddrSize) (ovr : Option SegReg)
  | outs (osz : OpSize) (asz : AddrSize) (ovr : Option SegReg)
  /-- An instruction of Part I, which the spec does not describe (rule R201). -/
  | application
deriving DecidableEq, Repr

/-- What a LOCK byte (F0) stands before (48_coprocessor_and_lock.md rule R480). -/
inductive LockTarget where
  | xchg8 (m : MemOp) (r : Reg8)
  | xchg (osz : OpSize) (m : MemOp) (r : Reg)
  /-- One of rule R480's listed instructions of Part I, with a destination in memory. -/
  | application
  /-- Any other instruction, or a listed one whose destination is a register. -/
  | illegal
deriving DecidableEq, Repr

/-- The instructions: one constructor per row of spec/opcode_table.json, in the table's order. -/
inductive Instr where
  -- 40_pointer_validation.md
  | arpl (dst : Rm) (src : Reg)
  | lar (osz : OpSize) (dst : Reg) (src : Rm)
  | lsl (osz : OpSize) (dst : Reg) (src : Rm)
  | verr (src : Rm)
  | verw (src : Rm)
  -- 41_descriptor_table_registers.md
  | sldt (osz : OpSize) (dst : Rm)
  | str (osz : OpSize) (dst : Rm)
  | lldt (src : Rm)
  | ltr (src : Rm)
  | sgdt (osz : OpSize) (dst : Rm)
  | sidt (osz : OpSize) (dst : Rm)
  | lgdt (osz : OpSize) (src : Rm)
  | lidt (osz : OpSize) (src : Rm)
  -- 42_segment_register_loads.md
  | movSregRm (num : BitVec 3) (src : Rm)
  | movRmSreg (osz : OpSize) (dst : Rm) (sr : SegReg)
  | popEs (osz : OpSize)
  | popSs (osz : OpSize)
  | popDs (osz : OpSize)
  | popFs (osz : OpSize)
  | popGs (osz : OpSize)
  | pushEs (osz : OpSize)
  | pushCs (osz : OpSize)
  | pushSs (osz : OpSize)
  | pushDs (osz : OpSize)
  | pushFs (osz : OpSize)
  | pushGs (osz : OpSize)
  | lds (osz : OpSize) (dst : Reg) (src : Rm)
  | les (osz : OpSize) (dst : Reg) (src : Rm)
  | lss (osz : OpSize) (dst : Reg) (src : Rm)
  | lfs (osz : OpSize) (dst : Reg) (src : Rm)
  | lgs (osz : OpSize) (dst : Reg) (src : Rm)
  -- 43_control_transfer.md
  | jmpRel8 (osz : OpSize) (rel : BitVec 8)
  | jmpRel (rel : Imm)
  | jmpRm (osz : OpSize) (src : Rm)
  | jmpFar (off : Imm) (sel : BitVec 16)
  | jmpFarM (osz : OpSize) (src : Rm)
  | callRel (rel : Imm)
  | callRm (osz : OpSize) (src : Rm)
  | callFar (off : Imm) (sel : BitVec 16)
  | callFarM (osz : OpSize) (src : Rm)
  | ret (osz : OpSize)
  | retImm (osz : OpSize) (n : BitVec 16)
  | retFar (osz : OpSize)
  | retFarImm (osz : OpSize) (n : BitVec 16)
  -- 45_io.md
  | inAlImm (port : BitVec 8)
  | inEaxImm (osz : OpSize) (port : BitVec 8)
  | inAlDx
  | inEaxDx (osz : OpSize)
  | outImmAl (port : BitVec 8)
  | outImmEax (osz : OpSize) (port : BitVec 8)
  | outDxAl
  | outDxEax (osz : OpSize)
  | insb (asz : AddrSize)
  | ins (osz : OpSize) (asz : AddrSize)
  | outsb (asz : AddrSize) (ovr : Option SegReg)
  | outs (osz : OpSize) (asz : AddrSize) (ovr : Option SegReg)
  | rep (t : RepTarget)
  | cli
  | sti
  | pushf (osz : OpSize)
  | popf (osz : OpSize)
  -- 46_interrupt_instructions.md
  | int3
  | intN (n : BitVec 8)
  | into
  | iret (osz : OpSize)
  | bound (osz : OpSize) (r : Reg) (src : Rm)
  -- 47_system_control.md
  | smsw (osz : OpSize) (dst : Rm)
  | lmsw (src : Rm)
  | clts
  | hlt
  | movRegCr (dst : Reg) (n : BitVec 3)
  | movCrReg (n : BitVec 3) (src : Reg)
  | movRegDr (dst : Reg) (n : BitVec 3)
  | movDrReg (n : BitVec 3) (src : Reg)
  | movRegTr (dst : Reg) (n : BitVec 3)
  | movTrReg (n : BitVec 3) (src : Reg)
  -- 48_coprocessor_and_lock.md
  | esc (op : BitVec 3) (ext : BitVec 3) (rm : Rm)
  | wait
  | lock (t : LockTarget)
  | xchg8 (rm : Rm8) (r : Reg8)
  | xchg (osz : OpSize) (rm : Rm) (r : Reg)
  -- 30_encoding.md rule R215
  | nop
  | movRegImm (dst : Reg) (v : Imm)
  | movReg8Imm (dst : Reg8) (v : BitVec 8)
  | movRmReg (osz : OpSize) (dst : Rm) (src : Reg)
  | movRegRm (osz : OpSize) (dst : Reg) (src : Rm)
  | pushReg (osz : OpSize) (src : Reg)
  | popReg (osz : OpSize) (dst : Reg)
  | orEaxImm (v : Imm)
  | orAlImm (v : BitVec 8)
deriving DecidableEq, Repr

end Sys2Proof
end

