-- ==== Sys2Proof/Machine/Bits.lean ====
section
/-! DEFINITION. Bit-field, sign-extension and byte-order helpers (20_memory.md rules R84, R85;
30_encoding.md rules R195, R196), and the numbers of the registers. -/

namespace Sys2Proof

/-- The little-endian value of a list of at most four bytes, first byte lowest (rule R84; the byte
order is decision D1). -/
def leWord : List Byte → Word
  | [] => 0
  | b :: bs => b.zeroExtend 32 ||| (leWord bs <<< 8)

/-- The `n` low bytes of a doubleword, low byte first (rule R84; decision D1). -/
def leBytes : Nat → Word → List Byte
  | 0, _ => []
  | n + 1, v => v.truncate 8 :: leBytes n (v >>> 8)

/-- Sign extension of a byte to a doubleword (rule R195). -/
def sext8 (v : BitVec 8) : Word := v.signExtend 32

/-- Bits 15:0 of a doubleword. -/
def lo16 (v : Word) : Half := v.truncate 16

/-- A word zero-extended to a doubleword. -/
def zx16 (v : Half) : Word := v.zeroExtend 32

/-- A doubleword made of a high and a low word. -/
def hiLo (hi lo : Half) : Word := (zx16 hi <<< 16) ||| zx16 lo

/-- A doubleword with its low word replaced (rule R21: the other bits stay). -/
def setLo16 (old : Word) (v : Half) : Word := (old &&& 0xFFFF0000#32) ||| zx16 v

/-- A doubleword with bits 7:0 replaced (rule R21). -/
def setLo8 (old : Word) (v : Byte) : Word := (old &&& 0xFFFFFF00#32) ||| v.zeroExtend 32

/-- A doubleword with bits 15:8 replaced (rule R21). -/
def setHi8 (old : Word) (v : Byte) : Word := (old &&& 0xFFFF00FF#32) ||| (v.zeroExtend 32 <<< 8)

/-- A doubleword with bit `k` set to a given value. -/
def setBit (v : Word) (k : Nat) (b : Bool) : Word :=
  if b then v ||| (1#32 <<< k) else v &&& ~~~(1#32 <<< k)

/-- Register numbers of rule R196. -/
def Reg.num : Reg → BitVec 3
  | .eax => 0 | .ecx => 1 | .edx => 2 | .ebx => 3
  | .esp => 4 | .ebp => 5 | .esi => 6 | .edi => 7

/-- The general register with a given number (rule R196). -/
def Reg.ofNum (n : BitVec 3) : Reg :=
  match n.toNat with
  | 0 => .eax | 1 => .ecx | 2 => .edx | 3 => .ebx
  | 4 => .esp | 5 => .ebp | 6 => .esi | _ => .edi

/-- Byte-register numbers of rule R196. -/
def Reg8.num : Reg8 → BitVec 3
  | .al => 0 | .cl => 1 | .dl => 2 | .bl => 3
  | .ah => 4 | .ch => 5 | .dh => 6 | .bh => 7

/-- The byte register with a given number (rule R196). -/
def Reg8.ofNum (n : BitVec 3) : Reg8 :=
  match n.toNat with
  | 0 => .al | 1 => .cl | 2 => .dl | 3 => .bl
  | 4 => .ah | 5 => .ch | 6 => .dh | _ => .bh

/-- Segment-register numbers of rule R196. -/
def SegReg.num : SegReg → BitVec 3
  | .es => 0 | .cs => 1 | .ss => 2 | .ds => 3 | .fs => 4 | .gs => 5

/-- The segment register with a given number; 6 and 7 name none (rule R196). -/
def SegReg.ofNum (n : BitVec 3) : Option SegReg :=
  match n.toNat with
  | 0 => some .es | 1 => some .cs | 2 => some .ss
  | 3 => some .ds | 4 => some .fs | 5 => some .gs | _ => none

/-- The `rm` numbers of the 16-bit forms (rule R193). -/
def Base16.num : Base16 → BitVec 3
  | .bxSi => 0 | .bxDi => 1 | .bpSi => 2 | .bpDi => 3
  | .si => 4 | .di => 5 | .bp => 6 | .bx => 7

/-- The 16-bit base form with a given `rm` number (rule R193). -/
def Base16.ofNum (n : BitVec 3) : Base16 :=
  match n.toNat with
  | 0 => .bxSi | 1 => .bxDi | 2 => .bpSi | 3 => .bpDi
  | 4 => .si | 5 => .di | 6 => .bp | _ => .bx

/-- The operand size an immediate carries. -/
def Imm.osz : Imm → OpSize
  | .i16 _ => .w16
  | .i32 _ => .w32

/-- An immediate as a doubleword, zero-extended. -/
def Imm.word : Imm → Word
  | .i16 v => zx16 v
  | .i32 v => v

/-- A relative displacement as a doubleword, sign-extended (rule R195). -/
def Imm.sword : Imm → Word
  | .i16 v => v.signExtend 32
  | .i32 v => v

/-- Bytes moved by an operand size (rule R131). -/
def OpSize.bytes : OpSize → Nat
  | .w16 => 2
  | .w32 => 4

/-- The address size of an effective address (rule R193). -/
def Ea.asz : Ea → AddrSize
  | .base _ _ | .abs32 _ | .sib _ _ _ _ | .sibAbs _ _ _ => .a32
  | .mem16 _ _ | .abs16 _ => .a16

/-- The doubleword register that holds a byte register (rules R21, R196). -/
def Reg8.parent : Reg8 → Reg
  | .al | .ah => .eax | .cl | .ch => .ecx | .dl | .dh => .edx | .bl | .bh => .ebx

/-- Whether a byte register is bits 15:8 of its register (rule R21). -/
def Reg8.high : Reg8 → Bool
  | .ah | .ch | .dh | .bh => true
  | .al | .cl | .dl | .bl => false

/-- A displacement as a doubleword, sign-extended (rules R193, R195); with 16-bit addresses too, where R193 only names
disp8 (PRESUMED, log entry 80). -/
def Disp.value : Disp → Word
  | .none => 0
  | .d8 v => v.signExtend 32
  | .d16 v => v.signExtend 32
  | .d32 v => v

/-- The default segment of an effective address (rules R193, R194). -/
def Ea.seg : Ea → SegReg
  | .base .ebp _ | .base .esp _ => .ss
  | .sib _ _ .ebp _ | .sib _ _ .esp _ => .ss
  | .mem16 .bpSi _ | .mem16 .bpDi _ | .mem16 .bp _ => .ss
  | _ => .ds

/-- The segment of a memory operand (rule R192). -/
def MemOp.seg (m : MemOp) : SegReg := m.ovr.getD (m.ea.seg)

end Sys2Proof
end

