-- ==== Sys2Proof/Machine/Flags.lean ====
section
/-! DEFINITION. EFLAGS: its fields, what a load of it may write, and the status flags of OR
(10_state.md rule R25; 45_io.md rules R393, R394; 46_interrupt_instructions.md rule R422; 30_encoding.md
rule R215). -/

namespace Sys2Proof.Machine

/-- Bit 0, CF (rule R25). -/
def bitCF : Nat := 0
/-- Bit 2, PF (rule R25). -/
def bitPF : Nat := 2
/-- Bit 4, AF (rule R25). -/
def bitAF : Nat := 4
/-- Bit 6, ZF (rule R25). -/
def bitZF : Nat := 6
/-- Bit 7, SF (rule R25). -/
def bitSF : Nat := 7
/-- Bit 8, TF (rule R26). -/
def bitTF : Nat := 8
/-- Bit 9, IF (rule R27). -/
def bitIF : Nat := 9
/-- Bit 10, DF (rule R25). -/
def bitDF : Nat := 10
/-- Bit 11, OF (rule R25). -/
def bitOF : Nat := 11
/-- Bit 14, NT (rule R29). -/
def bitNT : Nat := 14
/-- Bit 16, RF (rule R30). -/
def bitRF : Nat := 16
/-- Bit 17, VM (rule R32). -/
def bitVM : Nat := 17

/-- The defined bits of EFLAGS (rule R25). -/
def eflagsDefined : Word := 0x00037FD5

/-- An EFLAGS image with its reserved bits as drawn: bit 1 one, the others zero (rule R25, decision
D8). -/
def normFlags (v : Word) : Word := (v &&& eflagsDefined) ||| 2#32

/-- IOPL, bits 13:12 (rule R28). -/
def ioplOf (v : Word) : BitVec 2 := v.extractLsb' 12 2

/-- CF, PF, AF, ZF, SF, TF, DF, OF and NT: what POPF and IRET always load (rules R393, R422). -/
def popAlways : Word := 0x00004DD5

/-- The bits a POPF or IRET of a given size may load at a given level: RF only with 32 bits, IOPL only
at level 0, IF only where the level is at most the IOPL in force (rules R393, R394, R422; without
protection both are loadable, rules R393, R647). -/
def popMask (osz : OpSize) (pe : Bool) (cpl : BitVec 2) (old : Word) : Word :=
  popAlways
    ||| (if osz = .w32 then 0x10000#32 else 0)
    ||| (if !pe || cpl = 0 then 0x3000#32 else 0)
    ||| (if !pe || cpl ≤ ioplOf old then 0x200#32 else 0)

/-- EFLAGS after a POPF or IRET of image `v` (rules R393, R422). -/
def loadFlags (osz : OpSize) (pe : Bool) (cpl : BitVec 2) (old v : Word) : Word :=
  (old &&& ~~~(popMask osz pe cpl old)) ||| (v &&& popMask osz pe cpl old)

/-- Even parity of a byte, which PF reports (rule R215: PF from result). -/
def evenParity (b : Byte) : Bool :=
  ((List.range 8).foldl (fun n k => if b.getLsbD k then n + 1 else n) 0) % 2 = 0

/-- EFLAGS after OR with result `r` of width `w` bits: OF and CF 0, SF, ZF and PF of the result, AF
the given free bit (rule R215). -/
def orFlags (old r : Word) (w : Nat) (af : Bool) : Word :=
  let v := setBit (setBit old bitOF false) bitCF false
  let v := setBit v bitSF (r.getLsbD (w - 1))
  let v := setBit v bitZF (r.extractLsb' 0 w == 0)
  let v := setBit v bitPF (evenParity (r.truncate 8))
  setBit v bitAF af

/-- OF, SF, ZF, AF, PF, CF, which a special-register move leaves undefined (rule R436, U25). -/
def statusBits : Word := 0x000008D5

/-- EFLAGS with the six status flags taken from a free value (rule R436, U25). -/
def freeStatus (old free : Word) : Word := (old &&& ~~~statusBits) ||| (free &&& statusBits)

end Sys2Proof.Machine
end

