-- ==== Sys2Proof/Machine/State.lean ====
section
/-! DEFINITION. The state of the 80386 as 10_state.md gives it, plain data throughout; the environment's
inputs and outputs (00_scope.md rule R11) as data beside it; the reasons a step can stop; and the
state right after reset (rules R70 to R72). -/

namespace Sys2Proof.Machine

/-- The eight general registers (rule R20). -/
structure Gprs where
  eax : Word
  ecx : Word
  edx : Word
  ebx : Word
  esp : Word
  ebp : Word
  esi : Word
  edi : Word
deriving DecidableEq, Repr

/-- A segment register: visible selector and hidden descriptor (rule R33, decision D9). `attr` is
G, B/D, AVL's neighbour and AVL (descriptor dword 4 bits 23:20) above the access byte (bits 15:8). -/
structure SegCache where
  sel : BitVec 16
  base : Word
  limit : Word
  attr : BitVec 12
  valid : Bool
deriving DecidableEq, Repr

/-- The six segment registers (rule R33). -/
structure Segs where
  es : SegCache
  cs : SegCache
  ss : SegCache
  ds : SegCache
  fs : SegCache
  gs : SegCache
deriving DecidableEq, Repr

/-- GDTR or IDTR (rules R36, R37). -/
structure TableReg where
  base : Word
  limit : BitVec 16
deriving DecidableEq, Repr

/-- LDTR (rule R38). -/
structure LdtReg where
  sel : BitVec 16
  base : Word
  limit : Word
  valid : Bool
deriving DecidableEq, Repr

/-- TR (rule R39). `loaded` is the MODEL's: LTR or a task switch has loaded TR since reset (U23). -/
structure TaskReg where
  sel : BitVec 16
  base : Word
  limit : Word
  loaded : Bool
deriving DecidableEq, Repr

/-- The control registers CR0, CR2, CR3 (rules R40 to R50); CR1 has no content (rule R48). `cr3Written` is
the MODEL's: MOV CR3 has been executed since reset (rule R671 row 3). -/
structure CtrlRegs where
  cr0 : Word
  cr2 : Word
  cr3 : Word
  cr3Written : Bool
deriving DecidableEq, Repr

/-- The debug registers (rules R51 to R54); DR4 and DR5 have no content (rule R51). -/
structure DebugRegs where
  dr0 : Word
  dr1 : Word
  dr2 : Word
  dr3 : Word
  dr6 : Word
  dr7 : Word
deriving DecidableEq, Repr

/-- The test registers (rules R55 to R57). -/
structure TestRegs where
  tr6 : Word
  tr7 : Word
deriving DecidableEq, Repr

/-- One entry of the TLB: tag (linear page, V, D, U, W) and physical page (rules R59, R127). `known` is
the MODEL's: the tag is initialised, by a write command or by a walk (rule R129, U11). -/
structure TlbEntry where
  page : BitVec 20
  v : Bool
  d : Bool
  u : Bool
  w : Bool
  phys : BitVec 20
  known : Bool
deriving DecidableEq, Repr

/-- Run state (rule R65); `waiting` after an instruction that waits on BUSY# (rules R473, R684). -/
inductive RunState where
  | running | halted | shutdown | waiting
deriving DecidableEq, Repr

/-- Debug traps awaiting the boundary (rules R67, R608): data breakpoints that matched and are enabled
(`hits`, one bit each), matched and not enabled (`others`), to be reported one boundary late (`late`,
rule R609), matched and not enabled beside one that is now reported late (`carried`, rule R607), the
single-step condition and the task-switch condition. -/
structure Pending where
  hits : BitVec 4
  others : BitVec 4
  late : BitVec 4
  carried : BitVec 4
  bs : Bool
  bt : Bool
deriving DecidableEq, Repr

/-- What the environment presents at an instruction boundary (rules R11, R62, R64, R640, R691): the
level on INTR with the vector the interrupt controller supplies when acknowledged, an NMI request (held
pending until it is accepted), BUSY#, ERROR#, RESET, and the bytes other bus masters have written to physical memory since the
last boundary. -/
structure Pins where
  intr : Option Byte
  nmi : Bool
  busy : Bool
  error : Bool
  reset : Bool
  writes : List Host.Cell
deriving DecidableEq, Repr

/-- What the processor has put on the bus for the environment to see (rules R11, R88, R472, R478): the
port reads and writes it made, with the number of bytes and the value; the bytes it read and wrote at
physical addresses that are neither RAM nor ROM (decision D4); and the ESC instructions handed to the
coprocessor, with escape number, ModR/M byte, selector and offset of a memory operand, and the bytes
moved. -/
inductive IoEvent where
  | portRead (port : BitVec 16) (n : Nat) (v : Word)
  | portWrite (port : BitVec 16) (n : Nat) (v : Word)
  | memRead (addr : Nat) (v : Byte)
  | memWrite (addr : Nat) (v : Byte)
  | escape (op : BitVec 3) (modrm : Byte) (addr : Option (BitVec 16 × Word)) (operand : List Byte)
deriving DecidableEq, Repr

/-- What answers at a physical address (decision D4): RAM, ROM, or the environment (a device, or
nothing at all). -/
inductive MemKind where
  | ram | rom | device
deriving DecidableEq, Repr

/-- A range of physical addresses, with what answers there (decision D4). -/
structure Region where
  base : Nat
  size : Nat
  kind : MemKind
deriving DecidableEq, Repr

/-- The parameters of 00_scope.md rule R6: stepping identifier, 80387 present, whether a self-test that
BUSY# requests at the end of RESET passes, an ICE-386 owning the debug registers, and the physical
memory map PHYS_MEM: the first region that holds an address says what answers there, and RAM does
where none holds it (log entry 10). -/
structure Platform where
  steppingId : Byte
  cop387 : Bool
  selfTestPasses : Bool
  iceActive : Bool
  map : List Region
deriving DecidableEq, Repr

/-- A prefetch obligation of the last instruction: it set PE, or PG, or both (rules R653, R658), or
it set PG and the next instruction's page turned out to map to itself. -/
inductive Hazard where
  | none | pe | pg | pePg | pgIdentity
deriving DecidableEq, Repr

/-- How the last instruction ended: it completed, or it raised the exception with this vector. -/
inductive Ended where
  | completed
  | raised (vector : Byte)
deriving DecidableEq, Repr

/-- The machine. Fields marked MODEL are the model's own bookkeeping, not the spec's registers. -/
structure State where
  /-- General registers (rule R20). -/
  gpr : Gprs
  /-- Instruction pointer (rule R23). -/
  eip : Word
  /-- MODEL: the offset of the instruction after the current one, set by the step once the
  instruction's length is known (rule R503). -/
  eipNext : Word
  /-- EFLAGS (rule R25). -/
  eflags : Word
  /-- Segment registers (rule R33). -/
  seg : Segs
  /-- GDTR (rule R36). -/
  gdtr : TableReg
  /-- IDTR (rule R37). -/
  idtr : TableReg
  /-- LDTR (rule R38). -/
  ldtr : LdtReg
  /-- TR (rule R39). -/
  tr : TaskReg
  /-- Control registers (rule R40). -/
  cr : CtrlRegs
  /-- Debug registers (rule R51). -/
  dr : DebugRegs
  /-- Test registers (rule R55). -/
  test : TestRegs
  /-- The TLB, entry `8 * block + set` (rules R59, R127). -/
  tlb : List TlbEntry
  /-- The record of CPL (rules R31, R156). -/
  cpl : BitVec 2
  /-- NMI-in-service latch (rule R61). -/
  nmiLatch : Bool
  /-- Interrupt-inhibit latch of a load of SS (rule R63). -/
  inhibit : Bool
  /-- MODEL: STI has just set IF (decision D28). -/
  stiShadow : Bool
  /-- Run state (rule R65). -/
  run : RunState
  /-- High-address latch (rule R66). -/
  highLatch : Bool
  /-- Pending debug traps (rule R67). -/
  pend : Pending
  /-- External requests and coprocessor pins (rules R62, R64). -/
  pins : Pins
  /-- MODEL: what the environment will present at the coming boundaries, first first; when it is empty
  the pins keep their levels. -/
  env : List Pins
  /-- MODEL: the prefetch queue's obligation (rules R60, R653, R658). -/
  hazard : Hazard
  /-- MODEL: physical addresses stored to since the last control transfer (rules R60, R138). -/
  dirty : List Nat
  /-- MODEL: how many free values have been drawn. -/
  draws : Nat
  /-- MODEL: what the environment has seen, last first (rule R11). -/
  io : List IoEvent
  /-- Parameters (rule R6). -/
  plat : Platform
  /-- MODEL: how the last instruction or event ended. -/
  ended : Ended
  /-- Physical memory, in canonical form (rule R80). -/
  mem : List Host.Cell
deriving DecidableEq, Repr

/-- Why the machine stops with a fault. -/
inductive Fault where
  /-- Shutdown, with no further input from the environment: only RESET leaves it (60_exceptions.md rule
  R557, decision D38). Raised by the step. Safe: the hardware executes nothing either. -/
  | shutdown
  /-- Halted, with no further input from the environment and no request that ends the halt
  (70_reset_and_hazards.md rule R690). Raised by the step. Safe: the hardware executes nothing either. -/
  | haltedForever
  /-- Waiting on BUSY#, held active with no further input from the environment, and no request that is taken during the
  wait: a stuck run (48_coprocessor_and_lock.md rule R473). Raised by the step. Safe: the hardware executes nothing
  either. -/
  | waitingForever
deriving DecidableEq, Repr

/-- Why the model has no meaning for what the machine is about to do. -/
inductive Refusal where
  /-- The instruction has no meaning in this model yet. Raised by Dispatch only. Safe: nothing is claimed. -/
  | notModelled (mnemonic : String)
  /-- Virtual 8086 mode (rule R32, decision D2): a state with VM = 1 (raised by the step), an IRET or
  a task switch that would set VM (raised by those). Safe: no rule of the mode is given. -/
  | virtual8086
  /-- An 80286-format TSS or gate used (rule R146, decision D21). Raised by far transfers, LTR, task gates
  and delivery. Safe: the formats are not given. -/
  | descriptor286
  /-- An instruction of Part I (rule R201, decision D22). Raised by the step for an opcode outside the
  syntax and by REP and LOCK before one. Safe: not described. -/
  | applicationOpcode
  /-- MOV CR0 that clears PE (rule R439, decision D31). Safe: the mode's return is not described. -/
  | clearPE
  /-- DR4 or DR5 named (rule R441, U14). Raised by MOV DRn. Safe: no content, no effect given. -/
  | debugRegister45
  /-- A test register other than TR6 and TR7 named (rule R442, U14). Raised by MOV TRn. Safe: as above. -/
  | testRegister
  /-- A port access past FFFFH (rule R88, U20). Raised by IN, OUT, INS, OUTS. Safe: no effect given. -/
  | portWrap
  /-- A task switch out of a task whose TSS cannot hold the state (rule R656, U23). Safe. -/
  | tssTooSmall
  /-- The TSS needed while TR was never loaded since reset: a task switch, an interlevel transfer, an
  access to the I/O permission map (rules R341, R386, R656, R671 row 9; U23: "refuse"). Safe. -/
  | trNeverLoaded
  /-- PG set while no MOV CR3 was executed since reset (rule R671 row 3: "undefined CR3 refused (U1)"; rule
  R658). Raised by MOV CR0. Safe. -/
  | cr3NeverWritten
  /-- REPNE before INS or OUTS (rule R381, U24). Raised by the step. Safe. -/
  | repneString
  /-- An enabled breakpoint with an undefined encoding (rules R604, R605, R610; U27). Raised by the
  step. Safe. -/
  | breakpointUndefined
  /-- No JMP after PE or PG was set (rules R653, R658; U29). Raised by the step. Safe. -/
  | prefetchHazard
  /-- Bytes stored since the last transfer are about to execute (rule R138, decision D19). Raised by the
  step. Safe. -/
  | staleCode
  /-- A TLB write command with HT = 0 (rule R128; U4). Raised by MOV TR6. Safe. -/
  | tlbWriteHt
  /-- A TLB write command that would duplicate a tag (rule R128; U10). Raised by MOV TR6. Safe. -/
  | tlbDuplicate
deriving DecidableEq, Repr

/-- A segment register after reset: base of the selector times 16, limit FFFFH, present writable
data, valid (rule R35, decision D10). That it is accessed, of DPL 0, byte-granular, with B or D clear and
expand-up is the model's choice (DESIGN CHOICE, log entry 64). -/
def SegCache.ofReset (sel : BitVec 16) : SegCache :=
  { sel := sel, base := sel.zeroExtend 32 <<< 4, limit := 0xFFFF, attr := 0x093, valid := true }

/-- No request and inactive pins. -/
def Pins.idle : Pins :=
  { intr := none, nmi := false, busy := false, error := false, reset := false, writes := [] }

/-- No pending debug trap. -/
def Pending.none : Pending := { hits := 0, others := 0, late := 0, carried := 0, bs := false, bt := false }

/-- A TLB entry after reset: invalid, its tag not initialised (rule R59, U1). -/
def TlbEntry.invalid : TlbEntry :=
  { page := 0, v := false, d := false, u := false, w := false, phys := 0, known := false }

/-- The machine right after RESET (rules R70 to R72). EIP, EFLAGS, DH, the selectors, IDTR and the defined
bits of CR0 are the spec's; the hidden parts of the segment registers, the NMI latch and the enable bits of
DR7 are its decisions D10, D12, D13; every other register is undefined there and holds 0 here (DESIGN
CHOICE, log entries 1 to 6), the platform's parameters are those of log entry 7, and memory has nothing
listed. -/
def State.reset : State where
  gpr := { eax := 0, ecx := 0, edx := 0x300, ebx := 0, esp := 0, ebp := 0, esi := 0, edi := 0 }
  eip := 0xFFF0
  eipNext := 0xFFF0
  eflags := 2
  seg := { es := .ofReset 0, cs := .ofReset 0xF000, ss := .ofReset 0, ds := .ofReset 0,
           fs := .ofReset 0, gs := .ofReset 0 }
  gdtr := { base := 0, limit := 0 }
  idtr := { base := 0, limit := 0x3FF }
  ldtr := { sel := 0, base := 0, limit := 0, valid := false }
  tr := { sel := 0, base := 0, limit := 0, loaded := false }
  cr := { cr0 := 0, cr2 := 0, cr3 := 0, cr3Written := false }
  dr := { dr0 := 0, dr1 := 0, dr2 := 0, dr3 := 0, dr6 := 0, dr7 := 0 }
  test := { tr6 := 0, tr7 := 0 }
  tlb := List.replicate 32 .invalid
  cpl := 0
  nmiLatch := false
  inhibit := false
  stiShadow := false
  run := .running
  highLatch := true
  pend := .none
  pins := .idle
  env := []
  hazard := .none
  dirty := []
  draws := 0
  io := []
  plat := { steppingId := 0, cop387 := false, selfTestPasses := true, iceActive := false, map := [] }
  ended := .completed
  mem := []

end Sys2Proof.Machine
end

