-- ==== Sys2Proof/Machine/Memory.lean ====
section
/-! DEFINITION. How an instruction runs (a state, or an exit), free values, physical memory, the TLB and
page translation (20_memory.md), and the data breakpoints that an access meets (61_debug.md). -/

namespace Sys2Proof.Machine

/-! ## Instructions as computations -/

/-- An exception's error code before its undefined upper part is drawn (rules R547, R560, R577). -/
inductive ErrorCode where
  | none
  | sel (c : BitVec 16)
  | page (c : BitVec 3)
deriving DecidableEq, Repr

/-- An exception raised by an instruction or inside a delivery (rule R504): its vector, its error
code, whether it is a fault (as against an abort), whether it is raised in the incoming task of a task
switch (rule R345). -/
structure Exc where
  vector : Byte
  code : ErrorCode := .none
  fault : Bool := true
  incoming : Bool := false
deriving DecidableEq, Repr

/-- Why a computation ended early. -/
inductive Exit where
  | exc (e : Exc)
  | fault (f : Fault)
  | refuse (r : Refusal)
deriving DecidableEq, Repr

/-- A computation of the machine: it reads and changes the state, and may exit; the state at the exit
is kept, because accessed and dirty bits, TLB entries and CR2 survive a fault (rule R502). -/
abbrev M (α : Type) := EStateM Exit State α

/-- Raise an exception. -/
def raise {α : Type} (e : Exc) : M α := throw (.exc e)

/-- Refuse. -/
def refuse {α : Type} (r : Refusal) : M α := throw (.refuse r)

/-- A field of the state. -/
def look {α : Type} (f : State → α) : M α := fun s => .ok (f s) s

/-- A change of the state. -/
def change (f : State → State) : M Unit := fun s => .ok () (f s)

/-- Draw a free value (Config): a fresh one at every use. -/
def draw {α : Type} (f : Nat → α) : M α := fun s => .ok (f s.draws) { s with draws := s.draws + 1 }

/-- The low bit of a selector error code (rule R560, EXT). -/
def extBit (ext : Bool) : BitVec 16 := if ext then 1 else 0

/-- The error code of a selector (rule R10, sel_err). -/
def selErr (sel : BitVec 16) (ext : Bool) : ErrorCode := .sel ((sel &&& 0xFFFC) ||| extBit ext)

/-- The error code of an IDT entry (rule R10, idt_err). -/
def idtErr (n : Byte) (ext : Bool) : ErrorCode := .sel ((n.zeroExtend 16 <<< 3) ||| 2 ||| extBit ext)

/-- An error code with no selector: zero but for EXT (rule R560). -/
def nullErr (ext : Bool) : ErrorCode := .sel (extBit ext)

/-- #UD (rule R569). -/
def excUD : Exc := { vector := 6 }
/-- #NM (rule R474). -/
def excNM : Exc := { vector := 7 }
/-- #MP, an abort (rule R475). -/
def excMP : Exc := { vector := 9, fault := false }
/-- #TS (rule R571). -/
def excTS (c : ErrorCode) : Exc := { vector := 10, code := c }
/-- #NP (rule R572). -/
def excNP (c : ErrorCode) : Exc := { vector := 11, code := c }
/-- #SS (rule R573). -/
def excSS (c : ErrorCode) : Exc := { vector := 12, code := c }
/-- #GP (rule R574). -/
def excGP (c : ErrorCode) : Exc := { vector := 13, code := c }
/-- #GP(0) (rule R575). -/
def excGP0 : Exc := excGP (nullErr false)
/-- #MF (rule R476). -/
def excMF : Exc := { vector := 16 }
/-- #BR (rule R415). -/
def excBR : Exc := { vector := 5 }

/-- Raise an exception unless a condition holds. -/
def require (b : Bool) (e : Exc) : M Unit := if b then pure () else raise e

/-- Run only under a condition. -/
def onlyIf (b : Bool) (m : M Unit) : M Unit := if b then m else pure ()

/-- Run only under a condition; no elements otherwise. -/
def listIf {α : Type} (b : Bool) (m : M (List α)) : M (List α) := if b then m else pure []

/-- Run and say whether it raised an exception, which is forgotten with what it put in CR2. -/
def attempt {α : Type} (m : M α) : M (Option α) := fun s =>
  match m s with
  | .ok a s' => .ok (some a) s'
  | .error (.exc _) s' => .ok none { s' with cr := s.cr }
  | .error e s' => .error e s'

/-- Run the first of two computations; where it raises an exception and `b` holds, the second instead, from the state
in which the first began. -/
def retry {α : Type} (b : Bool) (m m' : M α) : M α := fun s =>
  match m s with
  | .error (.exc e) s' => if b then m' s else .error (.exc e) s'
  | r => r

/-! ## Mode and level -/

/-- CR0.PE (rule R42). -/
def State.pe (s : State) : Bool := s.cr.cr0.getLsbD 0
/-- CR0.PG (rule R47). -/
def State.pg (s : State) : Bool := s.cr.cr0.getLsbD 31
/-- A bit of EFLAGS. -/
def State.flag (s : State) (k : Nat) : Bool := s.eflags.getLsbD k
/-- IOPL (rule R28). -/
def State.iopl (s : State) : BitVec 2 := ioplOf s.eflags
/-- CPL: the processor's record in protected mode, 0 in real-address mode (rules R31, R156, R166). -/
def State.level (s : State) : BitVec 2 := if s.pe then s.cpl else 0
/-- User level for paging: CPL 3 (rule R182). -/
def State.user (s : State) : Bool := s.level = 3

/-! ## Physical memory -/

/-- What an address that is not listed reads as (log entry 8: the contents after power-on are not the
spec's; DESIGN CHOICE). -/
def unlisted : Byte := 0

/-- The byte at a physical address. -/
def memGet : List Host.Cell → Nat → Byte
  | [], _ => unlisted
  | (k, v) :: r, a => if a = k then v else memGet r a

/-- Memory with one byte stored, in canonical form. -/
def memSet : List Host.Cell → Nat → Byte → List Host.Cell
  | [], a, v => if v = unlisted then [] else [(a, v)]
  | (k, w) :: r, a, v =>
    if a < k then (if v = unlisted then (k, w) :: r else (a, v) :: (k, w) :: r)
    else if a = k then (if v = unlisted then r else (a, v) :: r)
    else (k, w) :: memSet r a v

/-- The size of the physical address space (rule R80). -/
def physSize : Nat := 4294967296

/-- Canonical form from an address on: strictly rising, below the size of the space, no entry equal
to what an unlisted address reads as. -/
def Memory.wfFrom : Nat → List Host.Cell → Bool
  | _, [] => true
  | lo, (k, v) :: r => decide (lo ≤ k) && decide (k < physSize) && (v != unlisted) && wfFrom (k + 1) r

/-- Canonical form of memory. -/
def Memory.wf (m : List Host.Cell) : Bool := Memory.wfFrom 0 m

/-- One byte at a physical address (rule R80: 32 bits). -/
def State.byteAt (s : State) (a : Nat) : Byte := memGet s.mem (a % physSize)

/-- Bytes at a list of physical addresses. -/
def State.bytesAt (s : State) (ps : List Nat) : List Byte := ps.map s.byteAt

/-- Whether a region holds a physical address. -/
def Region.covers (r : Region) (a : Nat) : Bool := decide (r.base ≤ a) && decide (a < r.base + r.size)

/-- What answers at a physical address (decision D4; log entry 10). -/
def State.kindAt (s : State) (a : Nat) : MemKind :=
  match s.plat.map.find? fun r => r.covers (a % physSize) with
  | some r => r.kind
  | none => .ram

/-- Whether the environment answers at a physical address, not memory (decision D4). -/
def State.isDevice (s : State) (a : Nat) : Bool := s.kindAt a == .device

/-- One byte changed in RAM; where it differs from what stood there its address is remembered until the
next control transfer (rule R138). -/
def State.storeRam (s : State) (a : Nat) (v : Byte) : State :=
  { s with mem := memSet s.mem (a % physSize) v,
           dirty := if s.byteAt a = v then s.dirty else (a % physSize) :: s.dirty }

/-- One byte stored: in RAM; not in ROM; elsewhere the environment sees it (decision D4). -/
def State.store (s : State) (a : Nat) (v : Byte) : State :=
  match s.kindAt a with
  | .ram => s.storeRam a v
  | .rom => s
  | .device => { s with io := .memWrite (a % physSize) v :: s.io }

/-- Bytes stored at a list of physical addresses, in order. -/
def State.storeAll (s : State) : List Nat → List Byte → State
  | a :: as, v :: vs => (s.store a v).storeAll as vs
  | _, _ => s

/-- Read one physical byte: from memory, or from the environment, which sees the read and gives any value
(decision D4). -/
def readByte (a : Nat) : M Byte := do
  let s ← get
  if s.isDevice a then do
    let v ← draw Config.deviceByte
    change fun s => { s with io := .memRead (a % physSize) v :: s.io }
    return v
  else return s.byteAt a

/-- Read physical bytes (rule R12, PhysRead). -/
def readBytes : List Nat → M (List Byte)
  | [] => return []
  | a :: as => do
    let b ← readByte a
    let bs ← readBytes as
    return b :: bs

/-- Write physical bytes (rule R12, PhysWrite). -/
def writeBytes (ps : List Nat) (bs : List Byte) : M Unit := change fun s => s.storeAll ps bs

/-- The physical addresses of `n` bytes from `a` on, modulo 2^32. -/
def physRange (a n : Nat) : List Nat := (List.range n).map fun i => (a + i) % physSize

/-- A little-endian physical read (rules R12, R84). -/
def physRead (a : Word) (n : Nat) : M Word := do
  let bs ← readBytes (physRange a.toNat n)
  return leWord bs

/-- A little-endian physical write (rules R12, R84). -/
def physWrite (a : Word) (n : Nat) (v : Word) : M Unit :=
  writeBytes (physRange a.toNat n) (leBytes n v)

/-! ## Paging -/

/-- The linear page of an address (rule R107: DIR and PAGE). -/
def pageOf (lin : Word) : BitVec 20 := lin.extractLsb' 12 20

/-- A page frame and the OFFSET of a linear address (rules R107, R110). -/
def frameAddr (phys : BitVec 20) (lin : Word) : Word := phys ++ lin.extractLsb' 0 12

/-- The page check (rule R183): attributes U and W against level and access. -/
def pageOk (write user u w : Bool) : Bool := !user || (u && (!write || w))

/-- Raise #PF: CR2 takes the linear address, the error code U/S, W/R, P (rules R110, R577). -/
def pageFault {α : Type} (lin : Word) (present write user : Bool) : M α := do
  change fun s => { s with cr := { s.cr with cr2 := lin } }
  raise { vector := 14, code := .page (BitVec.ofBool user ++ BitVec.ofBool write ++ BitVec.ofBool present) }

/-- The place of a linear page in block `b` of the TLB: set = linear address bits 14:12 (rule R127). -/
def tlbIndex (b : BitVec 2) (page : BitVec 20) : Nat := 8 * b.toNat + (page.extractLsb' 0 3).toNat

/-- An entry of the TLB. -/
def tlbAt (t : List TlbEntry) (i : Nat) : TlbEntry := t.getD i .invalid

/-- Whether an entry is valid for a linear page. -/
def TlbEntry.holds (e : TlbEntry) (page : BitVec 20) : Bool := e.v && e.page == page

/-- The place of the valid entry for a linear page (rule R110). -/
def tlbFind (t : List TlbEntry) (page : BitVec 20) : Option Nat :=
  [0#2, 1#2, 2#2, 3#2].findSome? fun b =>
    if (tlbAt t (tlbIndex b page)).holds page then some (tlbIndex b page) else none

/-- The four blocks, from one on. -/
def blocksFrom (b : BitVec 2) : List (BitVec 2) := [b, b + 1, b + 2, b + 3]

/-- The places of the valid entries for a linear page, looked at from block `b` on. -/
def tlbHits (t : List TlbEntry) (b : BitVec 2) (page : BitVec 20) : List Nat :=
  ((blocksFrom b).map fun c => tlbIndex c page).filter fun i => (tlbAt t i).holds page

/-- Replace an entry of the TLB. -/
def setTlb (i : Nat) (e : TlbEntry) : M Unit := change fun s => { s with tlb := s.tlb.set i e }

/-- A TLB without an entry. -/
def tlbWithout (t : List TlbEntry) (i : Nat) : List TlbEntry :=
  t.set i { tlbAt t i with v := false, known := false }

/-- An entry of the TLB gone (decision D18). -/
def dropTlb (i : Nat) : M Unit := change fun s => { s with tlb := tlbWithout s.tlb i }

/-- Invalidate every entry of the TLB; the rest of their tags stays (rule R124). -/
def State.flushTlb (s : State) : State :=
  { s with tlb := s.tlb.map fun e => { e with v := false } }

/-- Whether two entries have one tag (rule R127: page, V, D, U, W). -/
def TlbEntry.sameTag (e f : TlbEntry) : Bool :=
  e.page == f.page && e.v == f.v && e.d == f.d && e.u == f.u && e.w == f.w

/-- An entry of which nothing is known but its set. -/
def anyEntry (k i : Nat) : TlbEntry :=
  let x := Config.freeWord (k + 2 * i)
  { page := x.extractLsb' 12 17 ++ BitVec.ofNat 3 i, v := x.getLsbD 0, d := x.getLsbD 1,
    u := x.getLsbD 2, w := x.getLsbD 3, phys := (Config.freeWord (k + 2 * i + 1)).extractLsb' 12 20,
    known := x.getLsbD 0 || x.getLsbD 4 }

/-- A TLB of which nothing is known but that no two valid entries have one tag. -/
def anyTlb (k : Nat) : List TlbEntry :=
  (List.range 32).map fun i =>
    let e := anyEntry k i
    { e with v := e.v && (List.range i).all fun j => !(anyEntry k j).sameTag e }

/-- The TLB unconstrained, as a test command with paging on leaves it, or a change of PG (rule R130, U21,
decision D18). -/
def State.unknownTlb (s : State) : State := { s with tlb := anyTlb s.draws, draws := s.draws + 64 }

/-- The TLB after a change of PG: unconstrained, unless it holds no valid entry, as just after a flush
(U21, rule R658, decision D18). -/
def State.loosenTlb (s : State) : State := if s.tlb.any (·.v) then s.unknownTlb else s

/-- A translation entered in the TLB in place of what it holds for the page. -/
def enterTlb (t : List TlbEntry) (b : BitVec 2) (e : TlbEntry) : List TlbEntry :=
  (t.map fun x => if x.holds e.page then { x with v := false, known := false } else x).set
    (tlbIndex b e.page) e

/-- Enter a translation in the TLB, or not, in a block of free choice (rules R110, R123; decision D18). -/
def fillTlb (e : TlbEntry) : M Unit := do
  let fill ← draw Config.tlbFills
  if fill then
    let b ← draw Config.tlbBlock
    change fun s => { s with tlb := enterTlb s.tlb b e }
  else pure ()

/-- Write back a page-table entry if it changed (rule R112). -/
def updateEntry (a old new : Word) : M Unit := if new = old then pure () else physWrite a 4 new

/-- Address of the directory entry for a linear address (rule R110). -/
def pdeAddr (cr3 lin : Word) : Word := (cr3 &&& 0xFFFFF000#32) ||| (lin.extractLsb' 22 10 ++ 0#2).zeroExtend 32

/-- Address of the table entry for a linear address (rule R110). -/
def pteAddr (pde lin : Word) : Word := (pde &&& 0xFFFFF000#32) ||| (lin.extractLsb' 12 10 ++ 0#2).zeroExtend 32

/-- The walk of both levels of page tables (rules R110, R112, R184): presence, protection, the accessed
and dirty bits, and a free bit 6 of the directory entry (U5). -/
def walk (lin : Word) (write user : Bool) : M Word := do
  let cr3 ← look (·.cr.cr3)
  let pde ← physRead (pdeAddr cr3 lin) 4
  if !pde.getLsbD 0 then pageFault lin false write user else
  let pte ← physRead (pteAddr pde lin) 4
  if !pte.getLsbD 0 then pageFault lin false write user else
  let u := pde.getLsbD 2 && pte.getLsbD 2
  let w := pde.getLsbD 1 && pte.getLsbD 1
  if !pageOk write user u w then pageFault lin true write user else
  let d6 ← draw Config.freeWord
  updateEntry (pdeAddr cr3 lin) pde (setBit (pde ||| 0x20#32) 6 (d6.getLsbD 6))
  let pte' := pte ||| 0x20#32 ||| (if write then 0x40#32 else 0)
  updateEntry (pteAddr pde lin) pte pte'
  fillTlb { page := pageOf lin, v := true, d := pte'.getLsbD 6, u := u, w := w,
            phys := pte.extractLsb' 12 20, known := true }
  return frameAddr (pte.extractLsb' 12 20) lin

/-- A translation by an entry of the TLB (rules R110, R112, R183): a protection fault by its attributes; a
walk where a write finds D clear. -/
def byEntry (e : TlbEntry) (lin : Word) (write user : Bool) : M Word :=
  if !pageOk write user e.u e.w then pageFault lin true write user
  else if write && !e.d then walk lin write user
  else return frameAddr e.phys lin

/-- A translation by the first of some entries that is still in the TLB, a free choice (decision D18): one
that is not is gone for good; without any, the walk. -/
def byEntries (lin : Word) (write user : Bool) : List Nat → M Word
  | [] => walk lin write user
  | i :: is => do
    let kept ← draw Config.tlbKeeps
    if kept then do
      let s ← get
      byEntry (tlbAt s.tlb i) lin write user
    else do
      dropTlb i
      byEntries lin write user is

/-- Linear to physical (rule R110): by an entry of the TLB for the page, from a block of free choice on, or
by the walk. -/
def translate (lin : Word) (write user : Bool) : M Word := do
  let s ← get
  if !s.pg then return lin
  else if tlbFind s.tlb (pageOf lin) = none then walk lin write user
  else do
    let b ← draw Config.tlbOrder
    byEntries lin write user (tlbHits s.tlb b (pageOf lin))

/-- Bytes from a linear address to the end of its page (rule R107). -/
def pageLeft (lin : Word) : Nat := 4096 - (lin.extractLsb' 0 12).toNat

/-- The physical addresses of an access, page by page, all pages before any byte moves (rule R111,
decision D17). No operand exceeds 108 bytes, so two pages suffice. -/
def translateRange (lin : Word) (n : Nat) (write user : Bool) : M (List Nat) := do
  let p ← translate lin write user
  if n ≤ pageLeft lin then return physRange p.toNat n
  else
    let q ← translate (lin + BitVec.ofNat 32 (pageLeft lin)) write user
    return physRange p.toNat (pageLeft lin) ++ physRange q.toNat (n - pageLeft lin)

/-- A supervisor read at a linear address (rules R12, R186). -/
def sysRead (lin : Word) (n : Nat) : M Word := do
  let ps ← translateRange lin n false false
  let bs ← readBytes ps
  return leWord bs

/-- A supervisor write at a linear address (rules R12, R186). -/
def sysWrite (lin : Word) (n : Nat) (v : Word) : M Unit := do
  let ps ← translateRange lin n true false
  writeBytes ps (leBytes n v)

/-! ## Breakpoint matching -/

/-- DR0 to DR3 (rule R52). -/
def DebugRegs.addr (d : DebugRegs) (n : Nat) : Word :=
  match n with
  | 0 => d.dr0 | 1 => d.dr1 | 2 => d.dr2 | _ => d.dr3

/-- R/Wn of DR7 (rule R54). -/
def DebugRegs.rw (d : DebugRegs) (n : Nat) : BitVec 2 := d.dr7.extractLsb' (16 + 4 * n) 2

/-- LENn of DR7 (rule R54). -/
def DebugRegs.len (d : DebugRegs) (n : Nat) : BitVec 2 := d.dr7.extractLsb' (18 + 4 * n) 2

/-- Ln or Gn of DR7 (rule R603). -/
def DebugRegs.enabled (d : DebugRegs) (n : Nat) : Bool :=
  d.dr7.getLsbD (2 * n) || d.dr7.getLsbD (2 * n + 1)

/-- LE or GE of DR7 (rule R609). -/
def DebugRegs.exact (d : DebugRegs) : Bool := d.dr7.getLsbD 8 || d.dr7.getLsbD 9

/-- Bytes in the field of breakpoint n (rule R604; LEN 10 is undefined and matches nothing here). -/
def fieldSize (len : BitVec 2) : Nat :=
  match len.toNat with
  | 0 => 1 | 1 => 2 | 3 => 4 | _ => 0

/-- Data breakpoint match of an access of `k` bytes at `lin` (rules R604, R605): the access begins in the
field, or the field begins in the access, addresses modulo 2^32. -/
def DebugRegs.dataMatch (d : DebugRegs) (n : Nat) (lin : Word) (k : Nat) (write : Bool) : Bool :=
  let size := fieldSize (d.len n)
  let start := d.addr n &&& ~~~(BitVec.ofNat 32 (size - 1))
  (d.rw n = 3 || (d.rw n = 1 && write)) &&
    decide (0 < size) && (decide ((start - lin).toNat < k) || decide ((lin - start).toNat < size))

/-- The breakpoints among 0 to 3 with a property, as a mask. -/
def maskOf (p : Nat → Bool) : BitVec 4 :=
  BitVec.ofBool (p 3) ++ BitVec.ofBool (p 2) ++ BitVec.ofBool (p 1) ++ BitVec.ofBool (p 0)

/-- One enabled match recorded: at once if exact, else by a free draw (rule R609, U28). A match that is late or never
reported leaves its Bn as it is in a #DB that another condition raises at the boundary on time (DESIGN CHOICE, log
entry 74). -/
def State.noteHit (s : State) (exact : Bool) (n : Nat) : State :=
  let now := { s.pend with hits := s.pend.hits ||| (1#4 <<< n) }
  let later := { s.pend with late := s.pend.late ||| (1#4 <<< n) }
  if exact then { s with pend := now }
  else
    let r := Config.lateReport s.draws
    { s with draws := s.draws + 1, pend := if r = 0 then now else if r = 1 then later else s.pend }

/-- The enabled matches of an access recorded, one breakpoint after another. -/
def State.noteHits (s : State) (exact : Bool) (p : Nat → Bool) : List Nat → State
  | [] => s
  | n :: ns => (if p n then s.noteHit exact n else s).noteHits exact p ns

/-- What an instruction's own access does to the pending debug traps (rules R605, R608; the implicit
accesses of the processor are not recorded, decision D39). -/
def State.noteAccess (s : State) (lin : Word) (k : Nat) (write : Bool) : State :=
  let d := s.dr
  let t := s.noteHits d.exact (fun n => d.enabled n && d.dataMatch n lin k write) [0, 1, 2, 3]
  let o := maskOf fun n => !d.enabled n && d.dataMatch n lin k write
  { t with pend := { t.pend with others := t.pend.others ||| o } }

end Sys2Proof.Machine
end

