-- ==== Sys2Proof/Machine/Segments.lean ====
section
/-! DEFINITION. Segment registers, checked accesses, the stack, descriptors and the loads of segment
registers (20_memory.md section 5, 21_protection.md, 42_segment_register_loads.md section 1). -/

namespace Sys2Proof.Machine

/-! ## Segment registers -/

/-- A segment register (rule R33). -/
def State.segOf (s : State) (x : SegReg) : SegCache :=
  match x with
  | .es => s.seg.es | .cs => s.seg.cs | .ss => s.seg.ss
  | .ds => s.seg.ds | .fs => s.seg.fs | .gs => s.seg.gs

/-- Replace a segment register. -/
def State.setSegOf (s : State) (x : SegReg) (c : SegCache) : State :=
  match x with
  | .es => { s with seg := { s.seg with es := c } }
  | .cs => { s with seg := { s.seg with cs := c } }
  | .ss => { s with seg := { s.seg with ss := c } }
  | .ds => { s with seg := { s.seg with ds := c } }
  | .fs => { s with seg := { s.seg with fs := c } }
  | .gs => { s with seg := { s.seg with gs := c } }

/-- Executable: descriptor bit 11 (rule R142). -/
def SegCache.exec (c : SegCache) : Bool := c.attr.getLsbD 3
/-- Expand-down, or conforming: descriptor bit 10 (rule R143). -/
def SegCache.ec (c : SegCache) : Bool := c.attr.getLsbD 2
/-- Writable, or readable: descriptor bit 9 (rule R143). -/
def SegCache.wr (c : SegCache) : Bool := c.attr.getLsbD 1
/-- DPL (rule R145). -/
def SegCache.dpl (c : SegCache) : BitVec 2 := c.attr.extractLsb' 5 2
/-- B or D: descriptor bit 22 (rule R144). -/
def SegCache.big (c : SegCache) : Bool := c.attr.getLsbD 10

/-- Default size of code: D of CS in protected mode, 16 bits in real-address mode (rule R192). -/
def State.code32 (s : State) : Bool := s.pe && s.seg.cs.big

/-- The limit check (rule R152). -/
def limitOk (c : SegCache) (off : Word) (n : Nat) : Bool :=
  if !c.exec && c.ec then
    decide (c.limit.toNat < off.toNat) &&
      decide (off.toNat + n - 1 ≤ if c.big then 0xFFFFFFFF else 0xFFFF)
  else decide (off.toNat + n - 1 ≤ c.limit.toNat)

/-- The exception of a violation through a segment register: #SS(0) through SS, else #GP(0) (rules
R150, R152). -/
def segExc (x : SegReg) : Exc := if x = .ss then excSS (nullErr false) else excGP0

/-- The checks of one access (rules R149, R150, R152); type and null only with protection on (rule
R140), the limit in both modes (rule R105, log entry 21). -/
def segCheck (x : SegReg) (off : Word) (n : Nat) (write : Bool) : M Unit := do
  let s ← get
  let c := s.segOf x
  require (!s.pe || c.valid) (segExc x)
  require (!s.pe || !write || (!c.exec && c.wr)) excGP0
  require (!s.pe || write || !c.exec || c.wr) excGP0
  require (limitOk c off n) (segExc x)

/-- Physical address bits 31:20 forced to one (rule R66). -/
def forceHigh (a : Nat) : Nat := 0xFFF00000 + a % 0x100000

/-- A checked and translated access, ready to be made: linear address, length, physical addresses,
and whether data breakpoints watch it (decision D39). -/
structure Win where
  lin : Word
  n : Nat
  phys : List Nat
  watch : Bool := true
deriving DecidableEq, Repr

/-- Check and translate an access through a segment register (rules R104, R110, R188; the high-address
latch applies to CS, decision D43). -/
def segWindow (x : SegReg) (off : Word) (n : Nat) (write : Bool) : M Win := do
  segCheck x off n write
  let s ← get
  let lin := (s.segOf x).base + off
  let ps ← translateRange lin n write s.user
  return { lin := lin, n := n,
           phys := if s.highLatch && x == .cs then ps.map forceHigh else ps }

/-- An access of a window seen by the data breakpoints, unless it is not watched. -/
def State.watched (s : State) (w : Win) (write : Bool) : State :=
  if w.watch then s.noteAccess w.lin w.n write else s

/-- Bytes stored in a window. -/
def State.putList (s : State) (w : Win) (bs : List Byte) : State :=
  (s.watched w true).storeAll w.phys bs

/-- A value stored in a window, low byte first (rule R84). -/
def State.put (s : State) (w : Win) (v : Word) : State := s.putList w (leBytes w.n v)

/-- Values stored in windows, one after another. -/
def State.puts (s : State) : List Win → List Word → State
  | w :: ws, v :: vs => (s.put w v).puts ws vs
  | _, _ => s

/-- Make the read of a window of any length, as bytes. -/
def Win.readList (w : Win) : M (List Byte) := do
  change fun s => s.watched w false
  readBytes w.phys

/-- Make the read of a window. -/
def Win.read (w : Win) : M Word := do
  let bs ← w.readList
  return leWord bs

/-- Make the write of a window, from bytes. -/
def Win.writeList (w : Win) (bs : List Byte) : M Unit := change fun s => s.putList w bs

/-- Make the write of a window. -/
def Win.write (w : Win) (v : Word) : M Unit := change fun s => s.put w v

/-- A read through a segment register (rule R12, SegRead). -/
def segRead (x : SegReg) (off : Word) (n : Nat) : M Word := do
  let w ← segWindow x off n false
  w.read

/-- A write through a segment register (rule R12, SegWrite). -/
def segWrite (x : SegReg) (off : Word) (n : Nat) (v : Word) : M Unit := do
  let w ← segWindow x off n true
  w.write v

/-! ## The stack -/

/-- Whether a stack segment uses ESP (B = 1) or SP (rules R144, R216); SP in real-address mode. -/
def stackBig (pe : Bool) (c : SegCache) : Bool := pe && c.big

/-- A stack address at the width of the stack pointer. -/
def stackOff (b : Bool) (v : Word) : Word := if b then v else v &&& 0xFFFF#32

/-- The stack pointer moved, at its width: the upper half stays when SP is used (rule R216). -/
def stackSet (b : Bool) (old v : Word) : Word := if b then v else setLo16 old (lo16 v)

/-- Offset `k` bytes above the top of stack (modulo the width of the pointer). -/
def State.stackAt (s : State) (k : Word) : Word :=
  stackOff (stackBig s.pe s.seg.ss) (s.gpr.esp + k)

/-- Move the stack pointer by `k` (rule R216). -/
def State.moveSp (s : State) (k : Word) : State :=
  { s with gpr := { s.gpr with
      esp := stackSet (stackBig s.pe s.seg.ss) s.gpr.esp (s.gpr.esp + k) } }

/-- The limit check of a whole range of the stack, in protected mode (rules R276, R300, R544). The range is tested
as one that does not wrap, so that with B = 0 and a limit above FFFFH it may pass where the items, one by one, wrap
modulo 2^16 (decision D20 leaves B = 0 open; DESIGN CHOICE, log entry 71). -/
def stackRange (off : Word) (n : Nat) : M Unit := do
  let s ← get
  require (!s.pe || (s.seg.ss.valid && limitOk s.seg.ss off n)) (excSS (nullErr false))

/-- The windows of pushes of the given sizes, the first pushed first, below `k` bytes already
pushed. -/
def pushWindows (watch : Bool) : Word → List Nat → M (List Win)
  | _, [] => return []
  | k, n :: ns => do
    let k' := k - BitVec.ofNat 32 n
    let s ← get
    let w ← segWindow .ss (s.stackAt k') n true
    let ws ← pushWindows watch k' ns
    return { w with watch := watch } :: ws

/-- Check and translate a group of pushes before any of them is made (rule R276). -/
def preparePushes (watch : Bool) (sizes : List Nat) : M (List Win) := do
  let s ← get
  stackRange (s.stackAt (-(BitVec.ofNat 32 sizes.sum))) sizes.sum
  pushWindows watch 0 sizes

/-- Write each value into its window. -/
def writeWins (ws : List Win) (vs : List Word) : M Unit := change fun s => s.puts ws vs

/-- Push one value of `n` bytes (rule R216): the checks come before ESP changes. -/
def push (n : Nat) (v : Word) : M Unit := do
  let ws ← preparePushes true [n]
  writeWins ws [v]
  change fun s => s.moveSp (-(BitVec.ofNat 32 n))

/-- Read `n` bytes `k` above the top of stack (rule R216); ESP does not change. -/
def stackRead (k : Word) (n : Nat) : M Word := do
  let s ← get
  segRead .ss (s.stackAt k) n

/-! ## Descriptors -/

/-- A descriptor with the linear address it was read from (rule R91). -/
structure Desc where
  d0 : Word
  d1 : Word
  addr : Word
deriving DecidableEq, Repr

/-- S (rule R91): code or data. -/
def Desc.s (d : Desc) : Bool := d.d1.getLsbD 12
/-- Executable (rule R142). -/
def Desc.exec (d : Desc) : Bool := d.d1.getLsbD 11
/-- C or E (rule R143). -/
def Desc.ec (d : Desc) : Bool := d.d1.getLsbD 10
/-- R or W (rule R143). -/
def Desc.rw (d : Desc) : Bool := d.d1.getLsbD 9
/-- A (rule R97). -/
def Desc.accessed (d : Desc) : Bool := d.d1.getLsbD 8
/-- The busy bit of a TSS descriptor (rule R323). -/
def Desc.busy (d : Desc) : Bool := d.d1.getLsbD 9
/-- System type (rule R146). -/
def Desc.type (d : Desc) : BitVec 4 := d.d1.extractLsb' 8 4
/-- DPL (rule R145). -/
def Desc.dpl (d : Desc) : BitVec 2 := d.d1.extractLsb' 13 2
/-- P (rule R96). -/
def Desc.present (d : Desc) : Bool := d.d1.getLsbD 15
/-- Code segment. -/
def Desc.isCode (d : Desc) : Bool := d.s && d.exec
/-- Conforming code segment (rule R143). -/
def Desc.isConforming (d : Desc) : Bool := d.s && d.exec && d.ec
/-- Writable data segment (rule R148). -/
def Desc.isWritable (d : Desc) : Bool := d.s && !d.exec && d.rw
/-- The base (rule R91). -/
def Desc.base (d : Desc) : Word :=
  d.d1.extractLsb' 24 8 ++ d.d1.extractLsb' 0 8 ++ d.d0.extractLsb' 16 16
/-- The 20-bit limit field (rule R91). -/
def Desc.rawLimit (d : Desc) : BitVec 20 := d.d1.extractLsb' 16 4 ++ d.d0.extractLsb' 0 16
/-- The effective limit (rule R95). -/
def Desc.limit (d : Desc) : Word :=
  if d.d1.getLsbD 23 then (d.rawLimit.zeroExtend 32 <<< 12) ||| 0xFFF#32
  else d.rawLimit.zeroExtend 32
/-- Selector field of a gate (rules R147, R326, R522). -/
def Desc.gateSel (d : Desc) : BitVec 16 := d.d0.extractLsb' 16 16
/-- Offset field of a gate (rules R147, R522). -/
def Desc.gateOff (d : Desc) : Word := d.d1.extractLsb' 16 16 ++ d.d0.extractLsb' 0 16
/-- Doubleword count of a call gate (rule R147). -/
def Desc.gateCount (d : Desc) : Nat := (d.d1.extractLsb' 0 5).toNat
/-- The segment register a load of this descriptor leaves, A set (rules R256, R257). -/
def Desc.cache (d : Desc) (sel : BitVec 16) : SegCache :=
  { sel := sel, base := d.base, limit := d.limit,
    attr := d.d1.extractLsb' 20 4 ++ d.d1.extractLsb' 8 8 ||| 1, valid := true }

/-- RPL of a selector (rule R101). -/
def rpl (sel : BitVec 16) : BitVec 2 := sel.extractLsb' 0 2
/-- TI of a selector (rule R101). -/
def ti (sel : BitVec 16) : Bool := sel.getLsbD 2
/-- A null selector (rule R103). -/
def isNull (sel : BitVec 16) : Bool := sel.extractLsb' 2 14 == 0
/-- Byte offset of a descriptor in its table (rule R101). -/
def tableOff (sel : BitVec 16) : Word := (sel &&& 0xFFF8).zeroExtend 32
/-- A selector with its RPL replaced (rule R284). -/
def withRpl (sel : BitVec 16) (p : BitVec 2) : BitVec 16 := sel.extractLsb' 2 14 ++ p
/-- The larger of two levels. -/
def maxLevel (a b : BitVec 2) : BitVec 2 := if a < b then b else a

/-- The 8 bytes at a linear address, as a descriptor (rule R102). -/
def readDesc (addr : Word) : M Desc := do
  let d0 ← sysRead addr 4
  let d1 ← sysRead (addr + 4) 4
  return { d0 := d0, d1 := d1, addr := addr }

/-- Base and limit of the table a selector names; none when that is an LDT that is not there (rule
R102). -/
def State.tableOf (s : State) (sel : BitVec 16) : Option (Word × Nat) :=
  if ti sel then (if s.ldtr.valid then some (s.ldtr.base, s.ldtr.limit.toNat) else none)
  else some (s.gdtr.base, s.gdtr.limit.toNat)

/-- The descriptor a selector names; none when it is out of its table (rules R102, R155). -/
def fetchDesc (sel : BitVec 16) : M (Option Desc) := do
  let s ← get
  match s.tableOf sel with
  | none => return none
  | some (base, limit) =>
    if (tableOff sel).toNat + 7 ≤ limit then do
      let d ← readDesc (base + tableOff sel)
      return some d
    else return none

/-- The descriptor a selector names, or an exception. -/
def fetchOr (sel : BitVec 16) (e : Exc) : M Desc := do
  let r ← fetchDesc sel
  match r with
  | some d => return d
  | none => raise e

/-- A task must be current whose TSS can be used: TR never loaded since reset is refused (rules R341, R386,
R656, R671 row 9; U23). -/
def needTr : M Unit := do
  let s ← get
  if s.tr.loaded then pure () else refuse .trNeverLoaded

/-- What the write of the accessed bit covers in a direct load of a data or stack segment register, an offset and a
length: the doubleword at +4 (rules R256, R257), or, where that lies across two pages, that or byte 5 alone (rule R97),
a free choice (log entry 56). -/
def Desc.accessedSpan (d : Desc) (pg : Bool) : Word × Nat :=
  if pg && decide (pageLeft (d.addr + 4) < 4) && Config.accessedByteAlone then (5, 1) else (4, 4)

/-- Translate the write of the accessed bit where A is clear, byte 5 of the descriptor (rule R97, decision D15):
nothing to write where it is set. So it is in every load by a transfer, a delivery, a return or a task switch (rules
R284, R296, R300, R305, R346, R543, R544). -/
def prepareA (d : Desc) : M (List Nat) :=
  if d.accessed then return [] else translateRange (d.addr + 5) 1 true false

/-- The same for a direct load of DS, ES, FS, GS or SS, whose rules write the doubleword at +4 (rules R256, R257).
Where that write raises #PF, CR2 holds the address of the doubleword, or of byte 5 alone (rules R97, R110): a free
choice, the same as everywhere (DESIGN CHOICE, log entry 56). -/
def prepareLoad (d : Desc) : M (List Nat) := do
  let pg ← look State.pg
  if d.accessed then return []
  else
    retry Config.accessedByteAlone
      (translateRange (d.addr + (d.accessedSpan pg).1) (d.accessedSpan pg).2 true false) (prepareA d)

/-- Whether a write of the doubleword at +4, at `ps`, could be told from a write of byte 5: a device answers at it, or
memory has changed there since the descriptor was read. -/
def State.accessedShows (s : State) (d : Desc) (ps : List Nat) : Bool :=
  decide (ps.length = 4) && (ps.any s.isDevice || s.bytesAt ps != leBytes 4 d.d1)

/-- The accessed bit of a descriptor written where it was clear (rule R97), `ps` as `prepareA` or `prepareLoad`
answers: byte 5 where that alone was translated, else the doubleword at +4 (rules R256, R257), or, where the two could
be told apart, that or byte 5, a free choice (log entry 56). -/
def State.markA (s : State) (d : Desc) (ps : List Nat) : State :=
  let bs := leBytes 4 (d.d1 ||| 0x100#32)
  if ps.length = 1 then s.storeAll ps (bs.drop 1)
  else if s.accessedShows d ps && Config.accessedByteAlone then s.storeAll (ps.drop 1) ((bs.drop 1).take 1)
  else s.storeAll ps bs

/-- Write the accessed bit where it was found clear. -/
def commitA (d : Desc) (ps : List Nat) : M Unit := change fun s => s.markA d ps

/-- Set the accessed bit if it is clear (rule R97). -/
def setA (d : Desc) : M Unit := do
  let ps ← prepareA d
  commitA d ps

/-- The same in a direct load of DS, ES, FS, GS or SS (rules R256, R257). -/
def setLoaded (d : Desc) : M Unit := do
  let ps ← prepareLoad d
  commitA d ps

/-! ## Loads of segment registers -/

/-- DS, ES, FS or GS in protected mode (rule R256). -/
def loadData (x : SegReg) (sel : BitVec 16) : M Unit := do
  if isNull sel then
    change fun s => s.setSegOf x { s.segOf x with sel := sel, valid := false }
  else
    let cpl ← look State.level
    let d ← fetchOr sel (excGP (selErr sel false))
    require d.s (excGP (selErr sel false))
    require (!d.exec || d.rw) (excGP (selErr sel false))
    require (d.isConforming || maxLevel cpl (rpl sel) ≤ d.dpl) (excGP (selErr sel false))
    require d.present (excNP (selErr sel false))
    setLoaded d
    change fun s => s.setSegOf x (d.cache sel)

/-- SS in protected mode (rule R257). -/
def loadSS (sel : BitVec 16) : M Unit := do
  require (!isNull sel) excGP0
  let cpl ← look State.level
  let d ← fetchOr sel (excGP (selErr sel false))
  require (rpl sel == cpl) (excGP (selErr sel false))
  require d.isWritable (excGP (selErr sel false))
  require (d.dpl == cpl) (excGP (selErr sel false))
  require d.present (excSS (selErr sel false))
  setLoaded d
  change fun s => s.setSegOf .ss (d.cache sel)

/-- A segment register loaded in real-address mode: base 16 times the selector, limit and attributes
as they were (rule R258). -/
def SegCache.realLoad (c : SegCache) (sel : BitVec 16) : SegCache :=
  { c with sel := sel, base := sel.zeroExtend 32 <<< 4 }

/-- A direct load of a segment register other than CS, in the current mode (rules R256 to R258). -/
def loadSeg (x : SegReg) (sel : BitVec 16) : M Unit := do
  let pe ← look State.pe
  if !pe then change fun s => s.setSegOf x ((s.segOf x).realLoad sel)
  else if x = .ss then loadSS sel
  else loadData x sel

/-- A data-segment register is nulled when the new level may not use it (rule R306). -/
def State.nullIfInaccessible (s : State) (x : SegReg) : State :=
  let c := s.segOf x
  if c.valid && decide (c.dpl < s.cpl) && !(c.exec && c.ec) then
    s.setSegOf x { c with sel := 0, valid := false }
  else s

/-- All four data-segment registers (rule R305). -/
def State.nullOuter (s : State) : State :=
  (((s.nullIfInaccessible .ds).nullIfInaccessible .es).nullIfInaccessible .fs).nullIfInaccessible .gs

end Sys2Proof.Machine
end

