-- ==== Sys2Proof/Machine/Operands.lean ====
section
/-! DEFINITION. General registers by number and size, effective addresses, and ModR/M operands
(10_state.md rule R21; 30_encoding.md rules R193, R194, R196). -/

namespace Sys2Proof.Machine

/-- A general register (rule R20). -/
def State.reg (s : State) (r : Reg) : Word :=
  match r with
  | .eax => s.gpr.eax | .ecx => s.gpr.ecx | .edx => s.gpr.edx | .ebx => s.gpr.ebx
  | .esp => s.gpr.esp | .ebp => s.gpr.ebp | .esi => s.gpr.esi | .edi => s.gpr.edi

/-- Replace a general register. -/
def State.setReg (s : State) (r : Reg) (v : Word) : State :=
  match r with
  | .eax => { s with gpr := { s.gpr with eax := v } }
  | .ecx => { s with gpr := { s.gpr with ecx := v } }
  | .edx => { s with gpr := { s.gpr with edx := v } }
  | .ebx => { s with gpr := { s.gpr with ebx := v } }
  | .esp => { s with gpr := { s.gpr with esp := v } }
  | .ebp => { s with gpr := { s.gpr with ebp := v } }
  | .esi => { s with gpr := { s.gpr with esi := v } }
  | .edi => { s with gpr := { s.gpr with edi := v } }

/-- A register at an operand size, zero-extended (rule R21). -/
def State.regSz (s : State) (osz : OpSize) (r : Reg) : Word :=
  match osz with
  | .w16 => zx16 (lo16 (s.reg r))
  | .w32 => s.reg r

/-- Replace a register at an operand size; bits above it stay (rule R21). -/
def State.setRegSz (s : State) (osz : OpSize) (r : Reg) (v : Word) : State :=
  match osz with
  | .w16 => s.setReg r (setLo16 (s.reg r) (lo16 v))
  | .w32 => s.setReg r v

/-- A byte register (rule R21). -/
def State.reg8 (s : State) (r : Reg8) : Byte :=
  if r.high then (s.reg r.parent).extractLsb' 8 8 else (s.reg r.parent).extractLsb' 0 8

/-- Replace a byte register; the other bits stay (rule R21). -/
def State.setReg8 (s : State) (r : Reg8) (v : Byte) : State :=
  s.setReg r.parent (if r.high then setHi8 (s.reg r.parent) v else setLo8 (s.reg r.parent) v)

/-- The scaled index (rule R194). -/
def State.scaled (s : State) (scale : BitVec 2) (x : Option Reg) : Word :=
  match x with
  | none => 0
  | some r => s.reg r <<< scale.toNat

/-- The register part of a 16-bit form (rule R193). -/
def State.base16 (s : State) (k : Base16) : Word :=
  match k with
  | .bxSi => s.gpr.ebx + s.gpr.esi
  | .bxDi => s.gpr.ebx + s.gpr.edi
  | .bpSi => s.gpr.ebp + s.gpr.esi
  | .bpDi => s.gpr.ebp + s.gpr.edi
  | .si => s.gpr.esi
  | .di => s.gpr.edi
  | .bp => s.gpr.ebp
  | .bx => s.gpr.ebx

/-- An effective address (rules R193, R194); a 16-bit one is truncated to 16 bits. -/
def State.eaOf (s : State) (e : Ea) : Word :=
  match e with
  | .base r d => s.reg r + d.value
  | .abs32 a => a
  | .sib sc x b d => s.reg b + s.scaled sc x + d.value
  | .sibAbs sc x a => s.scaled sc x + a
  | .mem16 k d => (s.base16 k + d.value) &&& 0xFFFF#32
  | .abs16 a => zx16 a

/-- The offset of a memory operand, plus `k` bytes, at its address size (rules R193, D7). -/
def State.offsetOf (s : State) (m : MemOp) (k : Word) : Word :=
  match m.ea.asz with
  | .a32 => s.eaOf m.ea + k
  | .a16 => (s.eaOf m.ea + k) &&& 0xFFFF#32

/-- Check and translate `n` bytes of a memory operand, `k` bytes from its start. -/
def memWindow (m : MemOp) (k : Word) (n : Nat) (write : Bool) : M Win := do
  let s ← get
  segWindow m.seg (s.offsetOf m k) n write

/-- Read `n` bytes of a memory operand, `k` bytes from its start. -/
def memRead (m : MemOp) (k : Word) (n : Nat) : M Word := do
  let w ← memWindow m k n false
  w.read

/-- Read a word or doubleword operand, zero-extended (rule R193). -/
def readRm (osz : OpSize) (rm : Rm) : M Word :=
  match rm with
  | .reg r => look fun s => s.regSz osz r
  | .mem m => memRead m 0 osz.bytes

/-- Read a 16-bit operand (a selector or machine status word). -/
def readRm16 (rm : Rm) : M (BitVec 16) := do
  let v ← readRm .w16 rm
  return lo16 v

/-- Write a word or doubleword operand (rule R193). -/
def writeRm (osz : OpSize) (rm : Rm) (v : Word) : M Unit :=
  match rm with
  | .reg r => change fun s => s.setRegSz osz r v
  | .mem m => do
    let w ← memWindow m 0 osz.bytes true
    w.write v

/-- Store a selector or the machine status word: 16 bits to memory or to a word register; to a
doubleword register with a free upper half (rules R242, R244, R264, R447; U22). -/
def storeSel (osz : OpSize) (dst : Rm) (v : BitVec 16) : M Unit :=
  match dst with
  | .mem _ => writeRm .w16 dst (zx16 v)
  | .reg r =>
    match osz with
    | .w16 => change fun s => s.setRegSz .w16 r (zx16 v)
    | .w32 => do
      let u ← draw Config.freeWord
      change fun s => s.setReg r (hiLo (lo16 u) v)

/-- The memory operand of a form that admits no register: #UD otherwise (rule R198). -/
def memOnly (rm : Rm) : M MemOp :=
  match rm with
  | .mem m => pure m
  | .reg _ => raise excUD

/-- The offset register of a string element at its address size (rules R373, R374). -/
def State.strOff (s : State) (asz : AddrSize) (r : Reg) : Word :=
  match asz with
  | .a32 => s.reg r
  | .a16 => zx16 (lo16 (s.reg r))

/-- A string index or a count moved by `k` at its address size (rules R380, R381). -/
def State.bumpStr (s : State) (asz : AddrSize) (r : Reg) (k : Word) : State :=
  match asz with
  | .a32 => s.setReg r (s.reg r + k)
  | .a16 => s.setReg r (setLo16 (s.reg r) (lo16 (s.reg r + k)))

end Sys2Proof.Machine
end

