-- ==== Sys2Proof/Machine/Tasks.lean ====
section
/-! DEFINITION. The task switch (44_task_switch.md): its phases, its checks, and the ways that lead to
it from a TSS descriptor, a task gate and a back link. -/

namespace Sys2Proof.Machine

/-- What switches tasks (rule R327). -/
inductive SwitchKind where
  | jmp | call | int | iret
deriving DecidableEq, Repr

/-- Whether the incoming task is linked to the outgoing one: CALL, interrupts and exceptions (rule R347,
Table 7-2). -/
def SwitchKind.nests : SwitchKind → Bool
  | .call | .int => true
  | .jmp | .iret => false

/-- Run in the context of the incoming task: an exception raised here is raised there (rule R345). -/
def inIncoming {α : Type} (m : M α) : M α := fun s =>
  match m s with
  | .error (.exc e) s' => .error (.exc { e with incoming := true }) s'
  | r => r

/-- The error code of an exception raised while an event with this EXT bit is delivered (rule R549). -/
def ErrorCode.withExt (c : ErrorCode) (ext : Bool) : ErrorCode :=
  match c with
  | .sel v => .sel (v ||| extBit ext)
  | .none => .none
  | .page v => .page v

/-- Run with the EXT bit put into the selector error codes raised (rule R549). -/
def withExt {α : Type} (ext : Bool) (m : M α) : M α := fun s =>
  match m s with
  | .error (.exc e) s' => .error (.exc { e with code := e.code.withExt ext }) s'
  | r => r

/-- The bytes 20H to 5FH of the outgoing TSS: EIP, EFLAGS, the general registers, and the six selectors
with free upper halves (rules R321, R341; U22). -/
def saveImage (s : State) (ret fl : Word) (u : List Word) : List Byte :=
  let slot (k : Nat) (sel : BitVec 16) : List Byte := leBytes 4 (hiLo (lo16 (u.getD k 0)) sel)
  leBytes 4 ret ++ leBytes 4 fl ++
    leBytes 4 s.gpr.eax ++ leBytes 4 s.gpr.ecx ++ leBytes 4 s.gpr.edx ++ leBytes 4 s.gpr.ebx ++
    leBytes 4 s.gpr.esp ++ leBytes 4 s.gpr.ebp ++ leBytes 4 s.gpr.esi ++ leBytes 4 s.gpr.edi ++
    slot 0 s.seg.es.sel ++ slot 1 s.seg.cs.sel ++ slot 2 s.seg.ss.sel ++
    slot 3 s.seg.ds.sel ++ slot 4 s.seg.fs.sel ++ slot 5 s.seg.gs.sel

/-- EFLAGS of the incoming task: the image, NT set or cleared by kind (rule R343, Table 7-2). -/
def incomingFlags (kind : SwitchKind) (image : Word) : Word :=
  normFlags (match kind with
    | .call | .int => setBit image bitNT true
    | .jmp => setBit image bitNT false
    | .iret => image)

/-- A segment register with a new selector and no usable hidden part (rule R340, phase D). -/
def SegCache.unchecked (c : SegCache) (sel : BitVec 16) : SegCache := { c with sel := sel, valid := false }

/-- A selector of the incoming TSS in its segment register. -/
def State.loadSel (s : State) (x : SegReg) (v : Word) : State := s.setSegOf x ((s.segOf x).unchecked (lo16 v))

/-- The registers that follow LDTR and EFLAGS, each with the place of its doubleword in the TSS, in the order they are
loaded; the level is that of the CS selector (rule R340, phase D). -/
def tssFields : List (Nat × (Word → State → State)) :=
  [(0x20, fun v s => { s with eip := v }),
   (0x28, fun v s => s.setReg .eax v), (0x2C, fun v s => s.setReg .ecx v),
   (0x30, fun v s => s.setReg .edx v), (0x34, fun v s => s.setReg .ebx v),
   (0x38, fun v s => s.setReg .esp v), (0x3C, fun v s => s.setReg .ebp v),
   (0x40, fun v s => s.setReg .esi v), (0x44, fun v s => s.setReg .edi v),
   (0x48, fun v s => s.loadSel .es v), (0x4C, fun v s => { s.loadSel .cs v with cpl := rpl (lo16 v) }),
   (0x50, fun v s => s.loadSel .ss v), (0x54, fun v s => s.loadSel .ds v),
   (0x58, fun v s => s.loadSel .fs v), (0x5C, fun v s => s.loadSel .gs v)]

/-- CR3 of the incoming task: the TLB is flushed if it differs (rules R124, R340). -/
def State.switchCr3 (s : State) (v : Word) : State :=
  let t := if v = s.cr.cr3 then s else s.flushTlb
  { t with cr := { t.cr with cr3 := v } }

/-- Run under the paging that a CR3 would put in force; CR3 and the TLB are as before afterwards. -/
def underCr3 {α : Type} (v : Word) (m : M α) : M α := fun s =>
  match m (s.switchCr3 v) with
  | .ok a t => .ok a { t with cr := { t.cr with cr3 := s.cr.cr3 }, tlb := s.tlb }
  | .error e t => .error e { t with cr := { t.cr with cr3 := s.cr.cr3 }, tlb := s.tlb }

/-- LDTR of the incoming task (rule R346, CheckLDT). -/
def checkLdt (ext : Bool) : M Unit := do
  let sel ← look (·.ldtr.sel)
  if isNull sel then pure () else
  require (!ti sel) (excTS (selErr sel ext))
  let d ← fetchOr sel (excTS (selErr sel ext))
  require (!d.s && d.type == 2) (excTS (selErr sel ext))
  require d.present (excTS (selErr sel ext))
  change fun s => { s with ldtr := { sel := sel, base := d.base, limit := d.limit, valid := true } }

/-- CS of the incoming task (rule R346, CheckCS). The #GP(0) of an offset past the limit has EXT = 0 in a delivery too
(DESIGN CHOICE, log entry 73). -/
def checkCs (ext : Bool) : M Unit := do
  let sel ← look (·.seg.cs.sel)
  let e := selErr sel ext
  require (!isNull sel) (excTS e)
  let d ← fetchOr sel (excTS e)
  require d.isCode (excTS e)
  require (d.ec || d.dpl == rpl sel) (excTS e)
  require (!d.ec || d.dpl ≤ rpl sel) (excTS e)
  require d.present (excNP e)
  setA d
  change fun s => s.setSegOf .cs (d.cache sel)
  let eip ← look (·.eip)
  require (eip ≤ d.limit) excGP0

/-- SS of the incoming task (rule R346, CheckSS). -/
def checkSs (ext : Bool) : M Unit := do
  let sel ← look (·.seg.ss.sel)
  let cpl ← look (·.cpl)
  let e := selErr sel ext
  require (!isNull sel) (excTS e)
  let d ← fetchOr sel (excTS e)
  require d.isWritable (excTS e)
  require (rpl sel == cpl) (excTS e)
  require (d.dpl == cpl) (excTS e)
  require d.present (excSS e)
  setA d
  change fun s => s.setSegOf .ss (d.cache sel)

/-- A data-segment register of the incoming task (rule R346, CheckData). -/
def checkData (ext : Bool) (x : SegReg) : M Unit := do
  let sel ← look fun s => (s.segOf x).sel
  let cpl ← look (·.cpl)
  let e := selErr sel ext
  if isNull sel then pure () else
  let d ← fetchOr sel (excTS e)
  require (d.s && (!d.exec || d.rw)) (excTS e)
  require (d.isConforming || maxLevel cpl (rpl sel) ≤ d.dpl) (excGP e)
  require d.present (excNP e)
  setA d
  change fun s => s.setSegOf x (d.cache sel)

/-- The checks of phase E, in order (rule R340, decision D26). -/
def phaseE (ext : Bool) : M Unit := do
  checkLdt ext
  checkCs ext
  checkSs ext
  checkData ext .ds
  checkData ext .es
  checkData ext .fs
  checkData ext .gs

/-- What phase A of a switch found: physical addresses of the incoming TSS's first 104 bytes, of the
outgoing TSS's save area, of the doubleword with the back link, and of the doublewords with the busy
bits; and of the incoming TSS's bytes 20H to 67H under the paging that phase D will put in force. -/
structure SwitchPlan where
  newTss : List Nat
  save : List Nat
  link : List Nat
  oldBusy : List Nat
  newBusy : List Nat
  image : List Nat
deriving DecidableEq, Repr

/-- The bytes 20H to 67H of the incoming TSS, translated under the paging in force (rules R340, R343). -/
def translateImage (d : Desc) : M (List Nat) := translateRange (d.base + 0x20) 0x48 false false

/-- The end of phase A: where phase D will find the bytes 20H to 67H of the incoming TSS. Where the incoming task has
a page directory of its own they are translated under it now, so that a page fault on them is a fault of the
outgoing task with nothing written (rule R578, decision D27; log entry 51). -/
def probeTss (d : Desc) (newTss : List Nat) : M (List Nat) := do
  let s ← get
  let v := leWord (s.bytesAt ((newTss.drop 0x1C).take 4))
  if s.pg && v != s.cr.cr3 then underCr3 v (translateImage d) else return newTss.drop 0x20

/-- Phase A: the checks in the outgoing task's context and every translation (rule R340, decision D27); of
the back link's doubleword the two bytes that are written are translated for writing. TR never loaded, or an
outgoing TSS too small for the state, is refused (U23). Of several translations that would fault the first is: the
incoming TSS, the outgoing save area, the back link, the busy bits, outgoing then incoming, then the incoming image
(DESIGN CHOICE, log entry 82). -/
def phaseA (kind : SwitchKind) (tsel : BitVec 16) (d : Desc) (ext : Bool) : M SwitchPlan := do
  require (kind != .iret || d.busy) (excTS (selErr tsel ext))
  require (kind == .iret || !d.busy) (excGP (selErr tsel ext))
  require d.present (excNP (selErr tsel ext))
  require (103 ≤ d.limit.toNat) (excTS (selErr tsel ext))
  needTr
  let s ← get
  if s.tr.limit.toNat < 103 then refuse .tssTooSmall else
  let newTss ← translateRange d.base 104 false false
  let save ← translateRange (s.tr.base + 0x20) 0x40 true false
  let link ← listIf kind.nests (translateRange d.base 2 true false)
  let oldBusy ← listIf (!kind.nests)
    (translateRange (s.gdtr.base + tableOff s.tr.sel + 4) 4 true false)
  let newBusy ← listIf (kind != .iret) (translateRange (d.addr + 4) 4 true false)
  let image ← probeTss d newTss
  return { newTss := newTss, save := save, oldBusy := oldBusy, newBusy := newBusy, image := image,
           link := if kind.nests then link ++ (newTss.drop 2).take 2 else [] }

/-- Clear or set bits of a doubleword in memory (rule R323: a locked update). -/
def updateWord (ps : List Nat) (f : Word → Word) : M Unit := do
  let bs ← readBytes ps
  writeBytes ps (leBytes bs.length (f (leWord bs)))

/-- Six free values, for the reserved halves of the selector slots (U22). -/
def drawSix : M (List Word) := do
  let a ← draw Config.freeWord
  let b ← draw Config.freeWord
  let c ← draw Config.freeWord
  let d ← draw Config.freeWord
  let e ← draw Config.freeWord
  let f ← draw Config.freeWord
  return [a, b, c, d, e, f]

/-- Phase B: the outgoing task's state goes to its TSS and, where it is not linked, its busy bit goes
(rules R323, R341). `rf` sets RF in the image, for a fault delivered through a task gate (rule R548). -/
def phaseB (kind : SwitchKind) (plan : SwitchPlan) (ret : Word) (rf : Bool) : M Unit := do
  let u ← drawSix
  let s ← get
  let fl := if kind == .iret then setBit s.eflags bitNT false else s.eflags
  let fl := if rf then setBit fl bitRF true else fl
  writeBytes plan.save (saveImage s ret fl u)
  updateWord plan.oldBusy fun w => w &&& ~~~0x200#32

/-- Phase C: the incoming task becomes the current one; the upper half of the back link's doubleword is
free (rules R342, R347; U22). -/
def phaseC (tsel : BitVec 16) (d : Desc) (plan : SwitchPlan) : M Unit := do
  let old ← look (·.tr.sel)
  updateWord plan.newBusy fun w => w ||| 0x200#32
  change fun s => { s with tr := { sel := tsel, base := d.base, limit := d.limit, loaded := true },
                           cr := { s.cr with cr0 := s.cr.cr0 ||| 8#32 } }
  let u ← draw Config.freeWord
  writeBytes plan.link (leBytes 4 (hiLo (lo16 u) old))

/-- CR3 loaded from the incoming TSS, with paging on (rules R340, R343). -/
def loadCr3 (plan : SwitchPlan) : M Unit := do
  let bs ← readBytes ((plan.newTss.drop 0x1C).take 4)
  change fun s => s.switchCr3 (leWord bs)

/-- Where phase D reads the incoming TSS: as the paging now in force translates it, and where that would fault, as
phase A did, so that no read of phase D raises an exception (rules R340, R578; decision D27, log entry 51). -/
def imageAddrs (d : Desc) (plan : SwitchPlan) : M (List Nat) := do
  let ps ← attempt (translateImage d)
  return ps.getD plan.image

/-- The doubleword at `k` of a TSS whose bytes 20H to 67H stand at `ps`, read (rule R340, SysRead). -/
def imageWord (ps : List Nat) (k : Nat) : M Word := do
  let bs ← readBytes ((ps.drop (k - 0x20)).take 4)
  return leWord bs

/-- Doublewords of the incoming TSS read and loaded, one after another. -/
def loadFields (ps : List Nat) : List (Nat × (Word → State → State)) → M Unit
  | [] => pure ()
  | (k, f) :: r => do
    let v ← imageWord ps k
    change (f v)
    loadFields ps r

/-- The registers of the incoming task, from its TSS's bytes at `ps`; an image with VM set is refused
(rules R340, R343, R606; decision D2). The value is the T bit. -/
def loadTask (kind : SwitchKind) (ps : List Nat) : M Bool := do
  loadFields ps [(0x60, fun v s => { s with ldtr := { s.ldtr with sel := lo16 v, valid := false } })]
  let fl ← imageWord ps 0x24
  if fl.getLsbD bitVM then refuse .virtual8086 else
  change fun s => { s with eflags := incomingFlags kind fl }
  loadFields ps tssFields
  let t ← imageWord ps 0x64
  change fun s => { s with dr := { s.dr with dr7 := s.dr.dr7 &&& ~~~0x155#32 } }
  return t.getLsbD 0

/-- Phase D: CR3, then the registers under the paging that it puts in force (rules R340, R343). -/
def phaseD (kind : SwitchKind) (d : Desc) (plan : SwitchPlan) : M Bool := do
  let pg ← look State.pg
  onlyIf pg (loadCr3 plan)
  let ps ← imageAddrs d plan
  loadTask kind ps

/-- The error code of an exception whose handler is a task, pushed on that task's stack (rule R349). An #SS of this
push is raised inside the delivery, and has its EXT bit (rule R549). -/
def pushErr (ext : Bool) (err : Option Word) : M Unit :=
  match err with
  | none => pure ()
  | some v => do
    let ws ← withExt ext (preparePushes false [4])
    writeWins ws [v]
    change fun s => s.moveSp (-4)

/-- The task switch (rule R340): `d` is the descriptor that `tsel` names, `ret` where the outgoing
task resumes, `err` an error code for the handler. -/
def taskSwitch (kind : SwitchKind) (tsel : BitVec 16) (d : Desc) (ext : Bool) (ret : Word) (rf : Bool)
    (err : Option Word) : M Unit := do
  let plan ← phaseA kind tsel d ext
  phaseB kind plan ret rf
  phaseC tsel d plan
  let t ← phaseD kind d plan
  inIncoming (phaseE ext)
  onlyIf t (change fun s => { s with pend := { s.pend with bt := true } })
  inIncoming (pushErr ext err)

/-- JMP or CALL to a TSS descriptor (rule R330). -/
def viaTss (kind : SwitchKind) (sel : BitVec 16) (d : Desc) : M Unit := do
  require (!ti sel) (excGP (selErr sel false))
  let cpl ← look State.level
  require (maxLevel cpl (rpl sel) ≤ d.dpl) (excGP (selErr sel false))
  let ret ← look (·.eipNext)
  taskSwitch kind sel d false ret false none

/-- From the selector of a task gate to the switch (rule R331, GateToTSS); an 80286 TSS is refused
(decision D21). -/
def gateToTss (kind : SwitchKind) (tsel : BitVec 16) (ext : Bool) (ret : Word) (rf : Bool)
    (err : Option Word) : M Unit := do
  let e := excGP (selErr tsel ext)
  require (!isNull tsel && !ti tsel) e
  let d ← fetchOr tsel e
  require (!d.s) e
  if d.type == 1 || d.type == 3 then refuse .descriptor286 else
  require (d.type == 9 || d.type == 11) e
  taskSwitch kind tsel d ext ret rf err

/-- JMP or CALL to a task gate (rule R331). -/
def viaTaskGate (kind : SwitchKind) (gsel : BitVec 16) (g : Desc) : M Unit := do
  let cpl ← look State.level
  require (maxLevel cpl (rpl gsel) ≤ g.dpl) (excGP (selErr gsel false))
  require g.present (excNP (selErr gsel false))
  let ret ← look (·.eipNext)
  gateToTss kind g.gateSel false ret false none

/-- IRET with NT set: back to the task of the back link (rule R332); an 80286 TSS is refused (decision
D21). -/
def iretTask : M Unit := do
  needTr
  let s ← get
  let v ← sysRead s.tr.base 2
  let tsel := lo16 v
  let e := excTS (selErr tsel false)
  require (!isNull tsel && !ti tsel) e
  let d ← fetchOr tsel e
  require (!d.s) e
  if d.type == 1 || d.type == 3 then refuse .descriptor286 else
  require (d.type == 9 || d.type == 11) e
  taskSwitch .iret tsel d false s.eipNext false none

end Sys2Proof.Machine
end

