-- ==== Sys2Proof/Machine/Ops.lean ====
section
/-! DEFINITION. How an instruction ends, TAKING AN EXCEPTION (60_exceptions.md), the switch to an inner
stack (43_control_transfer.md rule R297), and the return from an exception (46_interrupt_instructions.md
rules R420 to R424). -/

namespace Sys2Proof.Machine

/-! ## How an instruction ends -/

/-- How the body of an instruction ended: EIP moves on and RF is cleared; the same with RF as loaded
(POPF); EIP was set by the body; the same with RF as loaded (IRET, a task switch); one repetition is
done and the instruction stands again (REP); the instruction waits on BUSY#. -/
inductive Done where
  | next | nextKeepRf | transfer | transferKeepRf | again | waiting
deriving DecidableEq, Repr

/-- The single-step condition recorded: TF as it was when the instruction began (rule R620). -/
def State.stepped (s : State) (tf : Bool) : State :=
  { s with pend := { s.pend with bs := tf }, ended := .completed }

/-- RF cleared (rule R613). -/
def State.clearRf (s : State) : State := { s with eflags := setBit s.eflags bitRF false }

/-- A control transfer discards what was prefetched (rule R670): bytes stored so far are visible to
fetch (rule R138), and the obligation of rules R653 and R658 is met. -/
def State.fresh (s : State) : State := { s with dirty := [], hazard := .none }

/-- The machine at the boundary after an instruction (rules R24, R613, R620); `tf` is TF at its start. An instruction
that starts to wait on BUSY# makes no single-step trap; a data match of an earlier instruction that is reported one
boundary late (rule R609) is reported during the wait, with the waiting instruction's own address (DESIGN CHOICE, log
entry 75). -/
def complete (tf : Bool) (d : Done) (s : State) : State :=
  match d with
  | .next => { (s.stepped tf).clearRf with eip := s.eipNext }
  | .nextKeepRf => { s.stepped tf with eip := s.eipNext }
  | .transfer => ((s.stepped tf).clearRf).fresh
  | .transferKeepRf => (s.stepped tf).fresh
  | .again => s.stepped tf
  | .waiting => { s.stepped false with run := .waiting }

/-! ## Inner stacks -/

/-- The stack of an inner level, from the TSS (rule R297, InnerStack): selector, ESP, descriptor. -/
def innerStack (newCpl : BitVec 2) (ext : Bool) : M (BitVec 16 × Word × Desc) := do
  needTr
  let s ← get
  let o := 4 + 8 * newCpl.toNat
  require (o + 5 ≤ s.tr.limit.toNat) (excTS (selErr s.tr.sel ext))
  let esp ← sysRead (s.tr.base + BitVec.ofNat 32 o) 4
  let v ← sysRead (s.tr.base + BitVec.ofNat 32 (o + 4)) 2
  let sel := lo16 v
  let e := excTS (selErr sel ext)
  require (!isNull sel) e
  let d ← fetchOr sel e
  require (rpl sel == newCpl) e
  require d.isWritable e
  require (d.dpl == newCpl) (excSS (nullErr ext))
  require d.present (excSS (selErr sel ext))
  return (sel, esp, d)

/-- Whether the `n` bytes below `esp` lie inside a stack segment (rule R297, StackRoom); where B = 0 and the limit
exceeds FFFFH as `stackRange` (DESIGN CHOICE, log entry 71). -/
def stackRoom (c : SegCache) (esp : Word) (n : Nat) : Bool :=
  limitOk c (stackOff c.big (esp - BitVec.ofNat 32 n)) n

/-- Translate pushes on the stack of an inner level, as supervisor accesses (rules R186, R296): the
first pushed first, below `k` bytes already pushed. `watch` says whether data breakpoints watch them (rule
R605, decision D39). -/
def innerWindows (watch : Bool) (c : SegCache) (esp : Word) : Word → List Nat → M (List Win)
  | _, [] => return []
  | k, n :: ns => do
    let k' := k - BitVec.ofNat 32 n
    let lin := c.base + stackOff c.big (esp + k')
    let ps ← translateRange lin n true false
    let ws ← innerWindows watch c esp k' ns
    return { lin := lin, n := n, phys := ps, watch := watch } :: ws

/-- SS:ESP switched to an inner stack on which `n` bytes stand (rules R296, R543). -/
def State.setInner (s : State) (c : SegCache) (esp : Word) (n : Nat) : State :=
  let s' := s.setSegOf .ss c
  { s' with gpr := { s'.gpr with esp := stackSet c.big esp (esp - BitVec.ofNat 32 n) } }

/-- A selector as pushed: with 32 bits its upper half is free (rules R265, R284; U22). -/
def pushedSel (osz : OpSize) (sel : BitVec 16) : M Word :=
  match osz with
  | .w16 => return zx16 sel
  | .w32 => do
    let u ← draw Config.freeWord
    return hiLo (lo16 u) sel

/-- The error code as pushed: its undefined upper part is free (rules R547, R560, R577; U3). -/
def pushedCode (c : ErrorCode) : M (Option Word) := do
  let u ← draw Config.freeWord
  match c with
  | .none => return none
  | .sel v => return some (hiLo (u.extractLsb' 16 16) v)
  | .page v => return some (u.extractLsb' 3 29 ++ v)

/-! ## Delivery -/

/-- Class of an event (rule R500). -/
inductive EventClass where
  | software | external | exception
deriving DecidableEq, Repr

/-- An event to deliver (rule R540): identifier, class, error code, whether it is a fault (rule R612),
return address (rule R503), EXT for what its delivery raises (rule R549). -/
structure Event where
  vector : Byte
  cls : EventClass
  code : ErrorCode := .none
  fault : Bool := false
  ret : Word
  ext : Bool
deriving DecidableEq, Repr

/-- The handler's code segment (rule R542, HandlerSegment). -/
def handlerSegment (sel : BitVec 16) (ext : Bool) : M Desc := do
  require (!isNull sel) (excGP (nullErr ext))
  let cpl ← look State.level
  let d ← fetchOr sel (excGP (selErr sel ext))
  require d.isCode (excGP (selErr sel ext))
  require (d.dpl ≤ cpl) (excGP (selErr sel ext))
  require d.present (excNP (selErr sel ext))
  return d

/-- EFLAGS in a handler entered through an interrupt or trap gate (rule R546). -/
def handlerFlags (fl : Word) (isInt : Bool) : Word :=
  let v := setBit (setBit (setBit fl bitTF false) bitNT false) bitRF false
  if isInt then setBit v bitIF false else v

/-- The flags image that is pushed: RF set for a fault (rules R540, R612). -/
def pushedFlags (fl : Word) (fault : Bool) : Word := if fault then setBit fl bitRF true else fl

/-- What a frame holds, first pushed first: flags, CS, return address, error code (Figure 9-5, rules
R543, R544). -/
def frameTail (img cs ret : Word) (err : Option Word) : List Word :=
  [img, cs, ret] ++ err.toList

/-- Entry without a change of level (rule R544, EnterSame). -/
def enterSame (tsel : BitVec 16) (toff : Word) (t : Desc) (img : Word) (err : Option Word)
    (ev : Event) : M Unit := do
  let n := 3 + err.toList.length
  let s ← get
  withExt ev.ext (stackRange (s.stackAt (-(BitVec.ofNat 32 (4 * n)))) (4 * n))
  require (toff ≤ t.limit) (excGP (nullErr ev.ext))
  let pa ← prepareA t
  let ws ← withExt ev.ext (preparePushes false (List.replicate n 4))
  let cs ← pushedSel .w32 s.seg.cs.sel
  commitA t pa
  writeWins ws (frameTail img cs ev.ret err)
  let c := t.cache (withRpl tsel s.level)
  change fun s => { (s.moveSp (-(BitVec.ofNat 32 (4 * n)))).setSegOf .cs c with eip := toff }

/-- Entry with a change of level (rule R543, EnterInner). -/
def enterInner (tsel : BitVec 16) (toff : Word) (t : Desc) (img : Word) (err : Option Word)
    (ev : Event) : M Unit := do
  let (nss, nesp, sd) ← innerStack t.dpl ev.ext
  let n := 5 + err.toList.length
  let ss := sd.cache nss
  require (stackRoom ss nesp (4 * n)) (excSS (selErr nss ev.ext))
  require (toff ≤ t.limit) (excGP (nullErr ev.ext))
  let pa ← prepareA t
  let pb ← prepareA sd
  let ws ← innerWindows false ss nesp 0 (List.replicate n 4)
  let s ← get
  let oldSs ← pushedSel .w32 s.seg.ss.sel
  let oldCs ← pushedSel .w32 s.seg.cs.sel
  commitA t pa
  commitA sd pb
  writeWins ws ([oldSs, s.gpr.esp] ++ frameTail img oldCs ev.ret err)
  let c := t.cache (withRpl tsel t.dpl)
  change fun s => { (s.setInner ss nesp (4 * n)).setSegOf .cs c with cpl := t.dpl, eip := toff }

/-- Entry through an interrupt or trap gate, at the current level or a more privileged one (rules R542 to
R546). -/
def enterGate (g : Desc) (err : Option Word) (ev : Event) : M Unit := do
  let t ← handlerSegment g.gateSel ev.ext
  let s ← get
  let img := pushedFlags s.eflags ev.fault
  if !t.ec && t.dpl < s.level then enterInner g.gateSel g.gateOff t img err ev
  else enterSame g.gateSel g.gateOff t img err ev

/-- Delivery in protected mode (rule R540). The value says whether a task was switched. -/
def deliverProtected (ev : Event) : M Bool := do
  let s ← get
  let n := ev.vector
  require (8 * n.toNat + 7 ≤ s.idtr.limit.toNat) (excGP (idtErr n ev.ext))
  let g ← readDesc (s.idtr.base + BitVec.ofNat 32 (8 * n.toNat))
  if !g.s && (g.type == 6 || g.type == 7) then refuse .descriptor286 else
  require (!g.s && (g.type == 5 || g.type == 14 || g.type == 15)) (excGP (idtErr n ev.ext))
  require (ev.cls != .software || s.level ≤ g.dpl) (excGP (idtErr n false))
  require g.present (excNP (idtErr n ev.ext))
  let err ← pushedCode ev.code
  if g.type == 5 then
    gateToTss .int g.gateSel ev.ext ev.ret ev.fault err
    return true
  else
    enterGate g err ev
    change fun s => { s with eflags := handlerFlags s.eflags (g.type == 14) }
    return false

/-- Delivery in real-address mode (rule R646); no error code is pushed. -/
def deliverReal (ev : Event) : M Bool := do
  let s ← get
  let n := ev.vector
  require (4 * n.toNat + 3 ≤ s.idtr.limit.toNat) { vector := 13 }
  let v ← physRead (s.idtr.base + BitVec.ofNat 32 (4 * n.toNat)) 4
  let ws ← preparePushes false [2, 2, 2]
  writeWins ws [s.eflags, zx16 s.seg.cs.sel, ev.ret]
  let fl := setBit (setBit s.eflags bitIF false) bitTF false
  let cs := s.seg.cs.realLoad (v.extractLsb' 16 16)
  change fun s => { (s.moveSp (-6)).setSegOf .cs cs with eip := zx16 (lo16 v), eflags := fl }
  return false

/-- Deliver an event (rule R540): in the current mode, whatever table IDTR describes (rule R660). -/
def deliver (ev : Event) : M Bool := do
  let pe ← look State.pe
  if pe then deliverProtected ev else deliverReal ev

/-! ## Exceptions during delivery -/

/-- Contributory exceptions (Table 9-3, rule R551). -/
def contributory (n : Byte) : Bool := n == 0 || n == 9 || n == 10 || n == 11 || n == 12 || n == 13

/-- Whether a second exception makes a double fault (Table 9-4, rule R552). INTR, NMI and software
interrupts are benign whatever their identifier (rule R551). -/
def doubles (ev : Event) (second : Byte) : Bool :=
  ev.cls == .exception &&
    ((contributory ev.vector && contributory second) ||
      (ev.vector == 14 && (contributory second || second == 14)))

/-- The double fault is being delivered: any exception now is shutdown (rule R557). -/
def Event.isDouble (ev : Event) : Bool := ev.cls == .exception && ev.vector == 8

/-- What is delivered after an exception inside a delivery (rules R550, R552, R553): #DF, or the second
exception; the return address is the first's, or the incoming task's when the second arose in it. -/
def secondEvent (ev : Event) (e : Exc) (here : Word) : Event :=
  if doubles ev e.vector then
    { vector := 8, cls := .exception, code := .sel 0, fault := false, ret := ev.ret, ext := true }
  else
    { vector := e.vector, cls := .exception, code := e.code, fault := e.fault,
      ret := if e.incoming then here else ev.ret, ext := true }

/-- Deliver an event, and what its delivery raises, and so on to shutdown (rules R550 to R557). At most
four deliveries follow one another: benign, contributory, page fault, double fault. A T-bit trap that a task
switch recorded is dropped when what follows in the delivery faults, as decision D40 has it for phase E; for the
push of the error code, after phase E, that is the model's choice (DESIGN CHOICE, log entry 57). -/
def deliverChain : Nat → Event → State → Host.Outcome State Fault Refusal
  | 0, _, s => .next { s with run := .shutdown }
  | k + 1, ev, s =>
    match deliver ev s with
    | .ok _ s' => .next s'.fresh
    | .error (.exc e) s' =>
      if ev.isDouble then .next { s' with run := .shutdown, pend := .none }
      else deliverChain k (secondEvent ev e s'.eip) { s' with pend := .none }
    | .error (.fault f) _ => .fault f
    | .error (.refuse r) _ => .refused r

/-- Deliver an event at a boundary. -/
def deliverEvent (ev : Event) (s : State) : Host.Outcome State Fault Refusal := deliverChain 5 ev s

/-- The saved EIP of an exception raised by an instruction (rule R503): the instruction's own address,
or the incoming task's; for the abort #MP a free offset within the code segment (rule R568; U26). -/
def excRet (e : Exc) (s : State) : Word :=
  if e.vector == 9 then
    BitVec.ofNat 32 ((Config.freeWord s.draws).toNat % (s.seg.cs.limit.toNat + 1))
  else s.eip

/-- TAKE AN EXCEPTION that an instruction raised: the debug traps the instruction collected are dropped
(rule R608), and the event is delivered (rule R540). -/
def takeException (e : Exc) (s : State) : Host.Outcome State Fault Refusal :=
  let s' := { s with pend := .none, ended := .raised e.vector, draws := s.draws + 1 }
  deliverEvent { vector := e.vector, cls := .exception, code := e.code, fault := e.fault,
                 ret := excRet e s, ext := true } s'

/-- Run the body of an instruction: it completes, or the exception it raised is taken, or the machine
stops. -/
def run (m : M Done) (s : State) : Host.Outcome State Fault Refusal :=
  match m s with
  | .ok d s' => .next (complete (s.flag bitTF) d s')
  | .error (.exc e) s' => takeException e s'
  | .error (.fault f) _ => .fault f
  | .error (.refuse r) _ => .refused r

/-- A software interrupt (rules R411, R412, R414): delivery inside the instruction, so that what it raises
is a fault of the instruction with EXT 0 (rule R550). -/
def softInt (n : Byte) : M Done := do
  let ret ← look (·.eipNext)
  let task ← deliver { vector := n, cls := .software, ret := ret, ext := false }
  return if task then .transferKeepRf else .transfer

/-! ## Returns -/

/-- Bytes of a return pointer's items. -/
def retWord (osz : OpSize) (k : Nat) : Word := BitVec.ofNat 32 (k * osz.bytes)

/-- The code segment a far return names (rule R300, rows 3 to 8 of Table 6-3). -/
def returnSegment (rcs : BitVec 16) : M Desc := do
  let cpl ← look State.level
  let e := excGP (selErr rcs false)
  require (cpl ≤ rpl rcs) e
  require (!isNull rcs) excGP0
  let d ← fetchOr rcs e
  require d.isCode e
  require (d.ec || d.dpl == rpl rcs) e
  require (!d.ec || d.dpl ≤ rpl rcs) e
  require d.present (excNP (selErr rcs false))
  return d

/-- The stack segment an interlevel return names (rule R305, rows 10 to 15 of Table 6-3). -/
def returnStack (rss rcs : BitVec 16) : M Desc := do
  let e := excGP (selErr rss false)
  require (!isNull rss) excGP0
  let d ← fetchOr rss e
  require d.isWritable e
  require (d.dpl == rpl rcs) e
  require (rpl rss == d.dpl) e
  require d.present (excSS (selErr rss false))
  return d

/-- The same-level end of a far return: `n` bytes leave the stack (rules R300, R421). -/
def returnSame (reip : Word) (rcs : BitVec 16) (d : Desc) (n : Word) : M Unit := do
  require (reip ≤ d.limit) excGP0
  let pa ← prepareA d
  commitA d pa
  change fun s => { (s.moveSp n).setSegOf .cs (d.cache rcs) with eip := reip }

/-- The interlevel end of a far return (rules R305, R306, R424): the outer SS:ESP stands `k` bytes above
the top of stack, and `n` bytes of parameters leave the outer stack. Where the outer stack has B = 0 the upper half
of ESP is that of the popped value and `n` is added to SP alone, modulo 2^16, with either operand size (DESIGN CHOICE,
log entry 68; decision D20 leaves B = 0 open). -/
def returnOuter (osz : OpSize) (reip : Word) (rcs : BitVec 16) (d : Desc) (k n : Word) : M Unit := do
  let resp ← stackRead k osz.bytes
  let v ← stackRead (k + retWord osz 1) osz.bytes
  let rss := lo16 v
  let sd ← returnStack rss rcs
  require (reip ≤ d.limit) excGP0
  let pa ← prepareA d
  let pb ← prepareA sd
  commitA d pa
  commitA sd pb
  let ss := sd.cache rss
  let esp := stackSet ss.big resp (resp + n)
  change fun s =>
    let s' := (s.setSegOf .cs (d.cache rcs)).setSegOf .ss ss
    { s' with cpl := rpl rcs, eip := reip, gpr := { s'.gpr with esp := esp } }
  change State.nullOuter

/-- The NMI latch is cleared by an IRET that completes (rule R423, decision D30). -/
def clearNmi : M Unit := change fun s => { s with nmiLatch := false }

/-- IRET in real-address mode (rule R647): no VM, NT not consulted. An EIP past the limit of CS is not checked here: the
fetch of the next instruction faults (DEDUCED, the model's choice, log entry 52). -/
def iretReal (osz : OpSize) : M Done := do
  let eip ← stackRead 0 osz.bytes
  let cs ← stackRead (retWord osz 1) osz.bytes
  let fl ← stackRead (retWord osz 2) osz.bytes
  change fun s =>
    let c := s.seg.cs.realLoad (lo16 cs)
    { (s.moveSp (retWord osz 3)).setSegOf .cs c with
      eip := eip, eflags := loadFlags osz false s.level s.eflags fl }
  clearNmi
  return .transferKeepRf

/-- The end of an IRET through the stack, at the same level or an outer one; an image that sets VM is refused
(rules R421, R424; decision D2): after the checks of the stack and of CS, before those of the outer SS and of the
offset (DESIGN CHOICE, log entry 72). -/
def iretTo (osz : OpSize) (eip : Word) (rcs : BitVec 16) (d : Desc) (vm : Bool) : M Unit := do
  let s ← get
  if rpl rcs == s.level then
    if vm then refuse .virtual8086 else returnSame eip rcs d (retWord osz 3)
  else do
    stackRange (s.stackAt 0) (5 * osz.bytes)
    if vm then refuse .virtual8086 else returnOuter osz eip rcs d (retWord osz 3) 0

/-- IRET through the stack (rules R421, R422, R424). -/
def iretStack (osz : OpSize) : M Done := do
  let s ← get
  stackRange (s.stackAt 0) (3 * osz.bytes)
  let eip ← stackRead 0 osz.bytes
  let v ← stackRead (retWord osz 1) osz.bytes
  let fl ← stackRead (retWord osz 2) osz.bytes
  let rcs := lo16 v
  let d ← returnSegment rcs
  let fl' := loadFlags osz true s.level s.eflags fl
  let vm := osz == .w32 && s.level == 0 && fl.getLsbD bitVM
  iretTo osz eip rcs d vm
  change fun s => { s with eflags := fl' }
  clearNmi
  return .transferKeepRf

/-- THE RETURN FROM AN EXCEPTION: IRET (rule R420). Where its task switch faults in phase E, in the incoming
task already, the NMI latch stays set (DESIGN CHOICE, log entry 58). -/
def iretOp (osz : OpSize) : M Done := do
  let s ← get
  if !s.pe then iretReal osz
  else if s.flag bitNT then do
    iretTask
    clearNmi
    return .transferKeepRf
  else iretStack osz

end Sys2Proof.Machine
end

