-- ==== Sys2Proof/Machine/Auxiliary.lean ====
section
/-! DEFINITION. The auxiliary instructions: NOP, MOV, PUSH, POP, OR (30_encoding.md rule R215). -/

namespace Sys2Proof.Machine

/-- NOP (rule R215). -/
def execNop (s : State) : Host.Outcome State Fault Refusal := run (pure .next) s

/-- MOV r, imm (rule R215). -/
def execMovRegImm (dst : Reg) (v : Imm) (s : State) : Host.Outcome State Fault Refusal :=
  run (do
    change fun s => s.setRegSz v.osz dst v.word
    return .next) s

/-- MOV r8, imm8 (rule R215). -/
def execMovReg8Imm (dst : Reg8) (v : BitVec 8) (s : State) : Host.Outcome State Fault Refusal :=
  run (do
    change fun s => s.setReg8 dst v
    return .next) s

/-- MOV r/m, r (rule R215). -/
def execMovRmReg (osz : OpSize) (dst : Rm) (src : Reg) (s : State) :
    Host.Outcome State Fault Refusal :=
  run (do
    let v ← look fun s => s.regSz osz src
    writeRm osz dst v
    return .next) s

/-- MOV r, r/m (rule R215). -/
def execMovRegRm (osz : OpSize) (dst : Reg) (src : Rm) (s : State) :
    Host.Outcome State Fault Refusal :=
  run (do
    let v ← readRm osz src
    change fun s => s.setRegSz osz dst v
    return .next) s

/-- PUSH r: ESP is pushed as it was (rule R215). -/
def execPushReg (osz : OpSize) (src : Reg) (s : State) : Host.Outcome State Fault Refusal :=
  run (do
    let v ← look fun s => s.regSz osz src
    push osz.bytes v
    return .next) s

/-- POP r: the value replaces ESP when that is the destination (rule R215). -/
def execPopReg (osz : OpSize) (dst : Reg) (s : State) : Host.Outcome State Fault Refusal :=
  run (do
    let v ← stackRead 0 osz.bytes
    change fun s => (s.moveSp (retWord osz 1)).setRegSz osz dst v
    return .next) s

/-- OR EAX, imm (rule R215); AF is free. -/
def execOrEaxImm (v : Imm) (s : State) : Host.Outcome State Fault Refusal :=
  run (do
    let u ← draw Config.freeWord
    change fun s =>
      let r := s.regSz v.osz .eax ||| v.word
      let fl := orFlags s.eflags r (8 * v.osz.bytes) (u.getLsbD bitAF)
      { s.setRegSz v.osz .eax r with eflags := fl }
    return .next) s

/-- OR AL, imm8 (rule R215); AF is free. -/
def execOrAlImm (v : BitVec 8) (s : State) : Host.Outcome State Fault Refusal :=
  run (do
    let u ← draw Config.freeWord
    change fun s =>
      let r := s.reg8 .al ||| v
      let fl := orFlags s.eflags (r.zeroExtend 32) 8 (u.getLsbD bitAF)
      { s.setReg8 .al r with eflags := fl }
    return .next) s

end Sys2Proof.Machine
end

