-- ==== Sys2Proof/WellFormed.lean ====
section
/-! DEFINITION. Which terms of the syntax some encoding denotes (30_encoding.md rules R193, R194):
the displacement each addressing form admits, and the registers that can be a base or an index. -/

namespace Sys2Proof

/-- Displacements of a 32-bit form: none, 8 or 32 bits (rule R193). -/
def Disp.ok32 : Disp → Bool
  | .none | .d8 _ | .d32 _ => true
  | .d16 _ => false

/-- Displacements of a 16-bit form: none, 8 or 16 bits (rule R193). -/
def Disp.ok16 : Disp → Bool
  | .none | .d8 _ | .d16 _ => true
  | .d32 _ => false

/-- An index register is any register but ESP (rule R194: index 100B means no index). -/
def indexOk : Option Reg → Bool
  | some .esp => false
  | _ => true

/-- The addressing forms that have an encoding: base ESP needs a SIB byte; EBP (and BP alone) with
mod 00 is the displacement-only form (rules R193, R194). -/
def Ea.wf : Ea → Bool
  | .base .esp _ => false
  | .base .ebp .none => false
  | .base _ d => d.ok32
  | .abs32 _ => true
  | .sib _ x b d => indexOk x && d.ok32 && !(b == .ebp && d == .none)
  | .sibAbs _ x _ => indexOk x
  | .mem16 .bp .none => false
  | .mem16 _ d => d.ok16
  | .abs16 _ => true

/-- A memory operand is well formed when its effective address is. -/
def MemOp.wf (m : MemOp) : Bool := m.ea.wf

/-- A ModR/M operand is well formed when its memory form is. -/
def Rm.wf : Rm → Bool
  | .reg _ => true
  | .mem m => m.wf

/-- A byte ModR/M operand is well formed when its memory form is. -/
def Rm8.wf : Rm8 → Bool
  | .reg _ => true
  | .mem m => m.wf

/-- A lock target is well formed when its memory operand is. -/
def LockTarget.wf : LockTarget → Bool
  | .xchg8 m _ | .xchg _ m _ => m.wf
  | .application | .illegal => true

/-- The well-formed instructions: those that some encoding denotes. -/
def Instr.wf : Instr → Bool
  | .arpl rm _ | .lar _ _ rm | .lsl _ _ rm | .verr rm | .verw rm
  | .sldt _ rm | .str _ rm | .lldt rm | .ltr rm
  | .sgdt _ rm | .sidt _ rm | .lgdt _ rm | .lidt _ rm
  | .movSregRm _ rm | .movRmSreg _ rm _
  | .lds _ _ rm | .les _ _ rm | .lss _ _ rm | .lfs _ _ rm | .lgs _ _ rm
  | .jmpRm _ rm | .jmpFarM _ rm | .callRm _ rm | .callFarM _ rm
  | .bound _ _ rm | .smsw _ rm | .lmsw rm | .esc _ _ rm
  | .xchg _ rm _ | .movRmReg _ rm _ | .movRegRm _ _ rm => rm.wf
  | .xchg8 rm _ => rm.wf
  | .lock t => t.wf
  | .popEs _ | .popSs _ | .popDs _ | .popFs _ | .popGs _
  | .pushEs _ | .pushCs _ | .pushSs _ | .pushDs _ | .pushFs _ | .pushGs _
  | .jmpRel8 _ _ | .jmpRel _ | .jmpFar _ _ | .callRel _ | .callFar _ _
  | .ret _ | .retImm _ _ | .retFar _ | .retFarImm _ _
  | .inAlImm _ | .inEaxImm _ _ | .inAlDx | .inEaxDx _
  | .outImmAl _ | .outImmEax _ _ | .outDxAl | .outDxEax _
  | .insb _ | .ins _ _ | .outsb _ _ | .outs _ _ _ | .rep _
  | .cli | .sti | .pushf _ | .popf _ | .int3 | .intN _ | .into | .iret _
  | .clts | .hlt | .movRegCr _ _ | .movCrReg _ _ | .movRegDr _ _ | .movDrReg _ _
  | .movRegTr _ _ | .movTrReg _ _ | .wait | .nop | .movRegImm _ _ | .movReg8Imm _ _
  | .pushReg _ _ | .popReg _ _ | .orEaxImm _ | .orAlImm _ => true

end Sys2Proof
end

