-- ==== Sys2Proof/Decode.lean ====
section
/-! DEFINITION. The decoder, total on any list of bytes (30_encoding.md), then the encoder written from
the same tables, then the table's own numbering of words. The opcode map of Part I, which the decoder
needs only to tell an instruction outside Part II from an unassigned opcode (rules R200, R201), is
PRESUMED from the processor family (log entry 31). -/

namespace Sys2Proof

/-- Why a list of bytes decodes to no instruction of the syntax. -/
inductive DecodeError where
  /-- The bytes end inside the instruction. -/
  | more
  /-- Unassigned: invalid opcode, #UD (rules R196, R200). -/
  | invalid
  /-- An instruction of Part I, outside the spec (rule R201, decision D22). -/
  | application
  /-- REPNE before INS or OUTS (45_io.md rule R381; U24). -/
  | repne
deriving DecidableEq, Repr

/-- A repeat byte among the prefixes (rule R192). -/
inductive RepByte where
  | rep | repne
deriving DecidableEq, Repr

/-- What the prefix bytes of an instruction selected (rule R192). -/
structure PrefixSet where
  ovr : Option SegReg := none
  osz : Bool := false
  asz : Bool := false
  lock : Bool := false
  rep : Option RepByte := none
deriving DecidableEq, Repr

/-- The effect of one prefix byte; none when the byte is no prefix (rule R192). The last override wins; that the
last of two repeat bytes wins too is the model's choice (DESIGN CHOICE, log entry 65). -/
def PrefixSet.add (p : PrefixSet) (b : Byte) : Option PrefixSet :=
  match b.toNat with
  | 0xF0 => some { p with lock := true }
  | 0xF2 => some { p with rep := some .repne }
  | 0xF3 => some { p with rep := some .rep }
  | 0x2E => some { p with ovr := some .cs }
  | 0x36 => some { p with ovr := some .ss }
  | 0x3E => some { p with ovr := some .ds }
  | 0x26 => some { p with ovr := some .es }
  | 0x64 => some { p with ovr := some .fs }
  | 0x65 => some { p with ovr := some .gs }
  | 0x66 => some { p with osz := true }
  | 0x67 => some { p with asz := true }
  | _ => none

/-- The prefixes at the head of the bytes, and what follows them (rules R191, R192). -/
def readPrefixes (p : PrefixSet) : List Byte → PrefixSet × List Byte
  | [] => (p, [])
  | b :: bs =>
    match p.add b with
    | some p' => readPrefixes p' bs
    | none => (p, b :: bs)

/-- The sizes and the override under which an opcode is read (rule R192). -/
structure Ctx where
  osz : OpSize
  asz : AddrSize
  ovr : Option SegReg
deriving DecidableEq, Repr

/-- Operand size from the default and the 66H toggle (rule R192). -/
def oszOf (d32 toggled : Bool) : OpSize := if d32 != toggled then .w32 else .w16

/-- Address size from the default and the 67H toggle (rule R192). -/
def aszOf (d32 toggled : Bool) : AddrSize := if d32 != toggled then .a32 else .a16

/-- The reading context of a prefix set in a segment whose D bit is `d32` (rule R192). -/
def PrefixSet.ctx (p : PrefixSet) (d32 : Bool) : Ctx :=
  { osz := oszOf d32 p.osz, asz := aszOf d32 p.asz, ovr := p.ovr }

/-- One byte. -/
def take8 : List Byte → Except DecodeError (BitVec 8 × List Byte)
  | b :: bs => .ok (b, bs)
  | [] => .error .more

/-- Two bytes, low byte first (rule R195). -/
def take16 : List Byte → Except DecodeError (BitVec 16 × List Byte)
  | b0 :: b1 :: bs => .ok (lo16 (leWord [b0, b1]), bs)
  | _ => .error .more

/-- Four bytes, low byte first (rule R195). -/
def take32 : List Byte → Except DecodeError (BitVec 32 × List Byte)
  | b0 :: b1 :: b2 :: b3 :: bs => .ok (leWord [b0, b1, b2, b3], bs)
  | _ => .error .more

/-- An immediate of the operand size (rule R195). -/
def takeImm (osz : OpSize) (bs : List Byte) : Except DecodeError (Imm × List Byte) :=
  match osz with
  | .w16 => do let (v, r) ← take16 bs; .ok (.i16 v, r)
  | .w32 => do let (v, r) ← take32 bs; .ok (.i32 v, r)

/-- Bits 7:6 of a ModR/M or SIB byte (rules R193, R194). -/
def mod2 (b : Byte) : BitVec 2 := b.extractLsb' 6 2

/-- Bits 5:3 of a ModR/M or SIB byte (rules R193, R194). -/
def mid3 (b : Byte) : BitVec 3 := b.extractLsb' 3 3

/-- Bits 2:0 of a ModR/M, SIB or opcode byte (rules R193, R194, R197). -/
def low3 (b : Byte) : BitVec 3 := b.extractLsb' 0 3

/-- The displacement that `mod` calls for with 32-bit addresses (rule R193). -/
def takeDisp32 (m : BitVec 2) (bs : List Byte) : Except DecodeError (Disp × List Byte) :=
  match m.toNat with
  | 1 => do let (v, r) ← take8 bs; .ok (.d8 v, r)
  | 2 => do let (v, r) ← take32 bs; .ok (.d32 v, r)
  | _ => .ok (.none, bs)

/-- The displacement that `mod` calls for with 16-bit addresses (rule R193). -/
def takeDisp16 (m : BitVec 2) (bs : List Byte) : Except DecodeError (Disp × List Byte) :=
  match m.toNat with
  | 1 => do let (v, r) ← take8 bs; .ok (.d8 v, r)
  | 2 => do let (v, r) ← take16 bs; .ok (.d16 v, r)
  | _ => .ok (.none, bs)

/-- The index register of a SIB byte; 100B means none (rule R194). -/
def indexOf (n : BitVec 3) : Option Reg := if n = 4 then none else some (Reg.ofNum n)

/-- The 32-bit effective address of a ModR/M byte with mod other than 11B (rules R193, R194). -/
def takeEa32 (m : BitVec 2) (rm : BitVec 3) (bs : List Byte) : Except DecodeError (Ea × List Byte) :=
  if rm = 4 then do
    let (s, r) ← take8 bs
    if low3 s = 5 && m = 0 then do
      let (a, r) ← take32 r
      .ok (.sibAbs (mod2 s) (indexOf (mid3 s)) a, r)
    else do
      let (d, r) ← takeDisp32 m r
      .ok (.sib (mod2 s) (indexOf (mid3 s)) (Reg.ofNum (low3 s)) d, r)
  else if rm = 5 && m = 0 then do
    let (a, r) ← take32 bs
    .ok (.abs32 a, r)
  else do
    let (d, r) ← takeDisp32 m bs
    .ok (.base (Reg.ofNum rm) d, r)

/-- The 16-bit effective address of a ModR/M byte with mod other than 11B (rule R193). -/
def takeEa16 (m : BitVec 2) (rm : BitVec 3) (bs : List Byte) : Except DecodeError (Ea × List Byte) :=
  if rm = 6 && m = 0 then do
    let (a, r) ← take16 bs
    .ok (.abs16 a, r)
  else do
    let (d, r) ← takeDisp16 m bs
    .ok (.mem16 (Base16.ofNum rm) d, r)

/-- A ModR/M operand before its register number is read as a byte, word or doubleword register. -/
inductive RmNum where
  | reg (n : BitVec 3)
  | mem (m : MemOp)
deriving DecidableEq, Repr

/-- The operand as a general register or memory. -/
def RmNum.rm : RmNum → Rm
  | .reg n => .reg (Reg.ofNum n)
  | .mem m => .mem m

/-- The operand as a byte register or memory. -/
def RmNum.rm8 : RmNum → Rm8
  | .reg n => .reg (Reg8.ofNum n)
  | .mem m => .mem m

/-- The operand that follows a ModR/M byte `b` (rules R193, R194). -/
def takeOperand (c : Ctx) (b : Byte) (bs : List Byte) : Except DecodeError (RmNum × List Byte) :=
  if mod2 b = 3 then .ok (.reg (low3 b), bs)
  else
    match c.asz with
    | .a32 => do let (e, r) ← takeEa32 (mod2 b) (low3 b) bs; .ok (.mem ⟨c.ovr, e⟩, r)
    | .a16 => do let (e, r) ← takeEa16 (mod2 b) (low3 b) bs; .ok (.mem ⟨c.ovr, e⟩, r)

/-- A ModR/M byte with its operand: the `reg` field and the operand (rule R193). -/
def takeModRm (c : Ctx) (bs : List Byte) : Except DecodeError ((BitVec 3 × RmNum) × List Byte) := do
  let (b, r) ← take8 bs
  let (o, r) ← takeOperand c b r
  .ok ((mid3 b, o), r)

/-- An instruction of the form /r: register field and operand. -/
def withModRm (c : Ctx) (bs : List Byte) (f : BitVec 3 → RmNum → Except DecodeError Instr) :
    Except DecodeError (Instr × List Byte) := do
  let ((n, o), r) ← takeModRm c bs
  let i ← f n o
  .ok (i, r)

/-- An instruction of the form /r over a register number and a word operand. -/
def withRm (c : Ctx) (bs : List Byte) (f : Reg → Rm → Instr) : Except DecodeError (Instr × List Byte) :=
  withModRm c bs fun n o => .ok (f (Reg.ofNum n) o.rm)

/-- MOV to or from a special register: `mod` is ignored (rule R202). -/
def withSpecial (bs : List Byte) (f : Reg → BitVec 3 → Instr) : Except DecodeError (Instr × List Byte) := do
  let (b, r) ← take8 bs
  .ok (f (Reg.ofNum (low3 b)) (mid3 b), r)

/-- An instruction whose `reg` field must be an assigned one, as part of its opcode or as a segment register: the field
is read before the operand, so that an unassigned one needs no more bytes (rules R196, R197, /n). -/
def withGroup (c : Ctx) (bs : List Byte) (f : Nat → Except DecodeError (Rm → Instr)) :
    Except DecodeError (Instr × List Byte) :=
  match bs with
  | [] => .error .more
  | b :: r =>
    match f (mid3 b).toNat with
    | .error e => .error e
    | .ok g => do
      let (o, r) ← takeOperand c b r
      .ok (g o.rm, r)

/-- Group 0F 00 (rules R197, R200). -/
def group6 (c : Ctx) : Nat → Except DecodeError (Rm → Instr)
  | 0 => .ok (.sldt c.osz)
  | 1 => .ok (.str c.osz)
  | 2 => .ok .lldt
  | 3 => .ok .ltr
  | 4 => .ok .verr
  | 5 => .ok .verw
  | _ => .error .invalid

/-- Group 0F 01 (rules R197, R200). -/
def group7 (c : Ctx) : Nat → Except DecodeError (Rm → Instr)
  | 0 => .ok (.sgdt c.osz)
  | 1 => .ok (.sidt c.osz)
  | 2 => .ok (.lgdt c.osz)
  | 3 => .ok (.lidt c.osz)
  | 4 => .ok (.smsw c.osz)
  | 6 => .ok .lmsw
  | _ => .error .invalid

/-- Group FF (rule R197); /0, /1 and /6 belong to Part I. -/
def group5 (c : Ctx) : Nat → Except DecodeError (Rm → Instr)
  | 2 => .ok (.callRm c.osz)
  | 3 => .ok (.callFarM c.osz)
  | 4 => .ok (.jmpRm c.osz)
  | 5 => .ok (.jmpFarM c.osz)
  | 0 | 1 | 6 => .error .application
  | _ => .error .invalid

/-- A two-byte opcode of Part I whose `reg` field is part of the opcode, or a one-byte one: assigned
for these values of the field (PRESUMED, log entry 31). -/
def appGroup (bs : List Byte) (ok : Nat → Bool) : Except DecodeError (Instr × List Byte) :=
  match bs with
  | [] => .error .more
  | b :: _ => if ok (mid3 b).toNat then .error .application else .error .invalid

/-- Second opcode bytes of Part I (PRESUMED, log entry 31). -/
def isApp0F (n : Nat) : Bool :=
  (0x80 ≤ n && n ≤ 0x9F) ||
  [0xA3, 0xA4, 0xA5, 0xAB, 0xAC, 0xAD, 0xAF, 0xB3, 0xB6, 0xB7, 0xBB, 0xBC, 0xBD, 0xBE, 0xBF].contains n

/-- Opcodes after 0F (rule R197). -/
def decode0F (c : Ctx) (op : Byte) (bs : List Byte) : Except DecodeError (Instr × List Byte) :=
  match op.toNat with
  | 0x00 => withGroup c bs (group6 c)
  | 0x01 => withGroup c bs (group7 c)
  | 0x02 => withRm c bs (.lar c.osz)
  | 0x03 => withRm c bs (.lsl c.osz)
  | 0x06 => .ok (.clts, bs)
  | 0x20 => withSpecial bs .movRegCr
  | 0x21 => withSpecial bs .movRegDr
  | 0x22 => withSpecial bs fun r n => .movCrReg n r
  | 0x23 => withSpecial bs fun r n => .movDrReg n r
  | 0x24 => withSpecial bs .movRegTr
  | 0x26 => withSpecial bs fun r n => .movTrReg n r
  | 0xA0 => .ok (.pushFs c.osz, bs)
  | 0xA1 => .ok (.popFs c.osz, bs)
  | 0xA8 => .ok (.pushGs c.osz, bs)
  | 0xA9 => .ok (.popGs c.osz, bs)
  | 0xB2 => withRm c bs (.lss c.osz)
  | 0xB4 => withRm c bs (.lfs c.osz)
  | 0xB5 => withRm c bs (.lgs c.osz)
  | 0xBA => appGroup bs fun n => 4 ≤ n
  | n => if isApp0F n then .error .application else .error .invalid

/-- One-byte opcodes of Part I with no `reg` field in the opcode (PRESUMED, log entry 31). -/
def isApp1 (n : Nat) : Bool :=
  (n < 0x40 && (n % 8 < 6 || n == 0x27 || n == 0x2F || n == 0x37 || n == 0x3F)) ||
  (0x40 ≤ n && n ≤ 0x4F) || n == 0x60 || n == 0x61 || (0x68 ≤ n && n ≤ 0x6B) ||
  (0x70 ≤ n && n ≤ 0x85) || n == 0x88 || n == 0x8A || (0x91 ≤ n && n ≤ 0x99) || n == 0x9E ||
  n == 0x9F || (0xA0 ≤ n && n ≤ 0xAF) || n == 0xC8 || n == 0xC9 || n == 0xD4 || n == 0xD5 ||
  n == 0xD7 || (0xE0 ≤ n && n ≤ 0xE3) || n == 0xF5 || n == 0xF8 || n == 0xF9 || n == 0xFC ||
  n == 0xFD

/-- MOV Sreg: the number is judged after the operand is read (rule R260). -/
def movSregOf (n : BitVec 3) (o : RmNum) : Except DecodeError Instr := .ok (.movSregRm n o.rm)

/-- MOV r/m16, Sreg: numbers 6 and 7 name no register (rule R196), and are judged before the operand is read
(DESIGN CHOICE, log entry 61). -/
def movRmSregOf (osz : OpSize) (n : Nat) : Except DecodeError (Rm → Instr) :=
  match SegReg.ofNum (BitVec.ofNat 3 n) with
  | some x => .ok fun rm => .movRmSreg osz rm x
  | none => .error .invalid

/-- A far pointer in the instruction: offset, then selector (rule R195). -/
def takeFar (osz : OpSize) (bs : List Byte) (f : Imm → BitVec 16 → Instr) : Except DecodeError (Instr × List Byte) := do
  let (o, r) ← takeImm osz bs
  let (s, r) ← take16 r
  .ok (f o s, r)

/-- An instruction with an immediate byte. -/
def withImm8 (bs : List Byte) (f : BitVec 8 → Instr) : Except DecodeError (Instr × List Byte) := do
  let (v, r) ← take8 bs
  .ok (f v, r)

/-- An instruction with an immediate word. -/
def withImm16 (bs : List Byte) (f : BitVec 16 → Instr) : Except DecodeError (Instr × List Byte) := do
  let (v, r) ← take16 bs
  .ok (f v, r)

/-- An instruction with an immediate of the operand size. -/
def withImm (c : Ctx) (bs : List Byte) (f : Imm → Instr) : Except DecodeError (Instr × List Byte) := do
  let (v, r) ← takeImm c.osz bs
  .ok (f v, r)

/-- One-byte opcodes with nothing in their low three bits (rule R197). 8D is of Part I, where rule R201 leaves all
to the refusal; that its register form is #UD, by the wrong operand type of rule R198, is the model's choice
(DESIGN CHOICE, log entry 63). -/
def decode1 (c : Ctx) (op : Byte) (bs : List Byte) : Except DecodeError (Instr × List Byte) :=
  match op.toNat with
  | 0x06 => .ok (.pushEs c.osz, bs)
  | 0x07 => .ok (.popEs c.osz, bs)
  | 0x0C => withImm8 bs .orAlImm
  | 0x0D => withImm c bs .orEaxImm
  | 0x0E => .ok (.pushCs c.osz, bs)
  | 0x16 => .ok (.pushSs c.osz, bs)
  | 0x17 => .ok (.popSs c.osz, bs)
  | 0x1E => .ok (.pushDs c.osz, bs)
  | 0x1F => .ok (.popDs c.osz, bs)
  | 0x62 => withRm c bs (.bound c.osz)
  | 0x63 => withRm c bs fun r o => .arpl o r
  | 0x6C => .ok (.insb c.asz, bs)
  | 0x6D => .ok (.ins c.osz c.asz, bs)
  | 0x6E => .ok (.outsb c.asz c.ovr, bs)
  | 0x6F => .ok (.outs c.osz c.asz c.ovr, bs)
  | 0x86 => withModRm c bs fun n o => .ok (.xchg8 o.rm8 (Reg8.ofNum n))
  | 0x87 => withRm c bs fun r o => .xchg c.osz o r
  | 0x89 => withRm c bs fun r o => .movRmReg c.osz o r
  | 0x8B => withRm c bs (.movRegRm c.osz)
  | 0x8C => withGroup c bs (movRmSregOf c.osz)
  | 0x8D => match bs with
    | [] => .error .more
    | b :: _ => if mod2 b = 3 then .error .invalid else .error .application
  | 0x8E => withModRm c bs movSregOf
  | 0x8F => appGroup bs fun n => n == 0
  | 0x90 => .ok (.nop, bs)
  | 0x9A => takeFar c.osz bs .callFar
  | 0x9B => .ok (.wait, bs)
  | 0x9C => .ok (.pushf c.osz, bs)
  | 0x9D => .ok (.popf c.osz, bs)
  | 0xC0 => appGroup bs fun n => n != 6
  | 0xC1 => appGroup bs fun n => n != 6
  | 0xC2 => withImm16 bs (.retImm c.osz)
  | 0xC3 => .ok (.ret c.osz, bs)
  | 0xC4 => withRm c bs (.les c.osz)
  | 0xC5 => withRm c bs (.lds c.osz)
  | 0xC6 => appGroup bs fun n => n == 0
  | 0xC7 => appGroup bs fun n => n == 0
  | 0xCA => withImm16 bs (.retFarImm c.osz)
  | 0xCB => .ok (.retFar c.osz, bs)
  | 0xCC => .ok (.int3, bs)
  | 0xCD => withImm8 bs .intN
  | 0xCE => .ok (.into, bs)
  | 0xCF => .ok (.iret c.osz, bs)
  | 0xD0 => appGroup bs fun n => n != 6
  | 0xD1 => appGroup bs fun n => n != 6
  | 0xD2 => appGroup bs fun n => n != 6
  | 0xD3 => appGroup bs fun n => n != 6
  | 0xE4 => withImm8 bs .inAlImm
  | 0xE5 => withImm8 bs (.inEaxImm c.osz)
  | 0xE6 => withImm8 bs .outImmAl
  | 0xE7 => withImm8 bs (.outImmEax c.osz)
  | 0xE8 => withImm c bs .callRel
  | 0xE9 => withImm c bs .jmpRel
  | 0xEA => takeFar c.osz bs .jmpFar
  | 0xEB => withImm8 bs (.jmpRel8 c.osz)
  | 0xEC => .ok (.inAlDx, bs)
  | 0xED => .ok (.inEaxDx c.osz, bs)
  | 0xEE => .ok (.outDxAl, bs)
  | 0xEF => .ok (.outDxEax c.osz, bs)
  | 0xF4 => .ok (.hlt, bs)
  | 0xF6 => appGroup bs fun n => n != 1
  | 0xF7 => appGroup bs fun n => n != 1
  | 0xFA => .ok (.cli, bs)
  | 0xFB => .ok (.sti, bs)
  | 0xFE => appGroup bs fun n => n < 2
  | 0xFF => withGroup c bs (group5 c)
  | n => if isApp1 n then .error .application else .error .invalid

/-- Opcodes whose low three bits are a register or an escape number, then the rest (rules R197,
R203). -/
def decodeOp (c : Ctx) (op : Byte) (bs : List Byte) : Except DecodeError (Instr × List Byte) :=
  match op.toNat / 8 with
  | 0x0A => .ok (.pushReg c.osz (Reg.ofNum (low3 op)), bs)
  | 0x0B => .ok (.popReg c.osz (Reg.ofNum (low3 op)), bs)
  | 0x16 => withImm8 bs (.movReg8Imm (Reg8.ofNum (low3 op)))
  | 0x17 => withImm c bs (.movRegImm (Reg.ofNum (low3 op)))
  | 0x1B => withModRm c bs fun n o => .ok (.esc (low3 op) n o.rm)
  | _ =>
    if op = 0x0F then
      match bs with
      | [] => .error .more
      | op2 :: r => decode0F c op2 r
    else decode1 c op bs

/-- An opcode that rule R480 lists when its destination is in memory, for instructions of Part I
(PRESUMED, log entry 31): given the ModR/M byte's `mod` and `reg`, a byte that decides and so counts (rule
R138). -/
def lockTargetOf (listed : Nat → Bool) (bs : List Byte) : Except DecodeError (Instr × List Byte) :=
  match bs with
  | [] => .error .more
  | b :: r =>
    if mod2 b != 3 && listed (mid3 b).toNat then .ok (.lock .application, r)
    else .ok (.lock .illegal, r)

/-- XCHG under LOCK: legal with a memory operand only (rule R480). -/
def lockXchg (c : Ctx) (bs : List Byte) (f : BitVec 3 → MemOp → LockTarget) : Except DecodeError (Instr × List Byte) := do
  let ((n, o), r) ← takeModRm c bs
  match o with
  | .mem m => .ok (.lock (f n m), r)
  | .reg _ => .ok (.lock .illegal, r)

/-- The instruction after a LOCK byte (48_coprocessor_and_lock.md rule R480): what is not listed is invalid as soon
as its opcode shows it, however long it is (DESIGN CHOICE, log entry 61). -/
def decodeLock (c : Ctx) (op : Byte) (bs : List Byte) : Except DecodeError (Instr × List Byte) :=
  match op.toNat with
  | 0x86 => lockXchg c bs fun n m => .xchg8 m (Reg8.ofNum n)
  | 0x87 => lockXchg c bs fun n m => .xchg c.osz m (Reg.ofNum n)
  | 0x80 => lockTargetOf (fun n => n != 7) bs
  | 0x81 => lockTargetOf (fun n => n != 7) bs
  | 0x82 => lockTargetOf (fun n => n != 7) bs
  | 0x83 => lockTargetOf (fun n => n != 7) bs
  | 0xF6 => lockTargetOf (fun n => n == 2 || n == 3) bs
  | 0xF7 => lockTargetOf (fun n => n == 2 || n == 3) bs
  | 0xFE => lockTargetOf (fun n => n < 2) bs
  | 0xFF => lockTargetOf (fun n => n < 2) bs
  | 0x0F =>
    match bs with
    | [] => .error .more
    | op2 :: r =>
      match op2.toNat with
      | 0xAB => lockTargetOf (fun _ => true) r
      | 0xB3 => lockTargetOf (fun _ => true) r
      | 0xBB => lockTargetOf (fun _ => true) r
      | 0xBA => lockTargetOf (fun n => 5 ≤ n) r
      | _ => .ok (.lock .illegal, r)
  | n =>
    if n < 0x38 && n % 8 < 2 then lockTargetOf (fun _ => true) bs
    else .ok (.lock .illegal, bs)

/-- The instruction after a REP byte (45_io.md rule R381). Before any other instruction of Part II the
byte is redundant and has no effect (DESIGN CHOICE, log entry 32). -/
def decodeRep (c : Ctx) (op : Byte) (bs : List Byte) : Except DecodeError (Instr × List Byte) :=
  match op.toNat with
  | 0x6C => .ok (.rep (.insb c.asz), bs)
  | 0x6D => .ok (.rep (.ins c.osz c.asz), bs)
  | 0x6E => .ok (.rep (.outsb c.asz c.ovr), bs)
  | 0x6F => .ok (.rep (.outs c.osz c.asz c.ovr), bs)
  | _ =>
    match decodeOp c op bs with
    | .error .application => .ok (.rep .application, bs)
    | x => x

/-- The instruction after a REPNE byte: not defined before INS and OUTS (rule R381, U24). -/
def decodeRepne (c : Ctx) (op : Byte) (bs : List Byte) : Except DecodeError (Instr × List Byte) :=
  match op.toNat with
  | 0x6C | 0x6D | 0x6E | 0x6F => .error .repne
  | _ => decodeOp c op bs

/-- The opcode and what follows it, under a prefix set (rule R191). With LOCK and REPNE both before INS or OUTS, LOCK
decides: #UD (rules R200, R480), not the refusal of U24 (DESIGN CHOICE, log entry 79). -/
def decodeAfter (p : PrefixSet) (d32 : Bool) (op : Byte) (bs : List Byte) : Except DecodeError (Instr × List Byte) :=
  if p.lock then decodeLock (p.ctx d32) op bs
  else
    match p.rep with
    | some .rep => decodeRep (p.ctx d32) op bs
    | some .repne => decodeRepne (p.ctx d32) op bs
    | none => decodeOp (p.ctx d32) op bs

/-- The instruction at the head of the bytes, in a segment whose default size is 32 bits or 16 bits,
and its length in bytes (rules R191, R192). -/
def decode (d32 : Bool) (bs : List Byte) : Except DecodeError (Instr × Nat) :=
  match readPrefixes {} bs with
  | (_, []) => .error .more
  | (p, op :: r) =>
    match decodeAfter p d32 op r with
    | .ok (i, r') => .ok (i, bs.length - r'.length)
    | .error e => .error e

/-! The encoder, from the same tables. -/

/-- The override byte of a segment register (rule R192). -/
def ovrByte : Option SegReg → List Byte
  | none => []
  | some .cs => [0x2E]
  | some .ss => [0x36]
  | some .ds => [0x3E]
  | some .es => [0x26]
  | some .fs => [0x64]
  | some .gs => [0x65]

/-- The operand-size byte, where the size is not the default (rule R192). -/
def oszByte (d32 : Bool) (o : OpSize) : List Byte := if o = oszOf d32 false then [] else [0x66]

/-- The address-size byte, where the size is not the default (rule R192). -/
def aszByte (d32 : Bool) (a : AddrSize) : List Byte := if a = aszOf d32 false then [] else [0x67]

/-- The prefix bytes a memory operand needs. -/
def MemOp.bytes (d32 : Bool) (m : MemOp) : List Byte := ovrByte m.ovr ++ aszByte d32 m.ea.asz

/-- The prefix bytes a ModR/M operand needs. -/
def Rm.bytes (d32 : Bool) : Rm → List Byte
  | .reg _ => []
  | .mem m => m.bytes d32

/-- The prefix bytes a byte ModR/M operand needs. -/
def Rm8.bytes (d32 : Bool) : Rm8 → List Byte
  | .reg _ => []
  | .mem m => m.bytes d32

/-- A byte of the shape mod:reg:rm or scale:index:base (rules R193, R194). -/
def packModRm (m : BitVec 2) (reg rm : BitVec 3) : Byte := m ++ reg ++ rm

/-- The `mod` field that announces a displacement (rule R193). -/
def Disp.mod : Disp → BitVec 2
  | .none => 0
  | .d8 _ => 1
  | .d16 _ | .d32 _ => 2

/-- A word, low byte first (rule R195). -/
def bytes16 (v : BitVec 16) : List Byte := leBytes 2 (zx16 v)

/-- A doubleword, low byte first (rule R195). -/
def bytes32 (v : BitVec 32) : List Byte := leBytes 4 v

/-- The bytes of a displacement (rule R195). -/
def Disp.bytes : Disp → List Byte
  | .none => []
  | .d8 v => [v]
  | .d16 v => bytes16 v
  | .d32 v => bytes32 v

/-- The bytes of an immediate (rule R195). -/
def Imm.bytes : Imm → List Byte
  | .i16 v => bytes16 v
  | .i32 v => bytes32 v

/-- The index field of a SIB byte (rule R194). -/
def indexNum : Option Reg → BitVec 3
  | none => 4
  | some r => r.num

/-- ModR/M, SIB and displacement of an effective address (rules R193, R194). A base register ESP is
written with a SIB byte by the form `sib`. -/
def Ea.encode (reg : BitVec 3) : Ea → List Byte
  | .base r d => packModRm d.mod reg r.num :: d.bytes
  | .abs32 a => packModRm 0 reg 5 :: bytes32 a
  | .sib s x b d => packModRm d.mod reg 4 :: packModRm s (indexNum x) b.num :: d.bytes
  | .sibAbs s x a => packModRm 0 reg 4 :: packModRm s (indexNum x) 5 :: bytes32 a
  | .mem16 k d => packModRm d.mod reg k.num :: d.bytes
  | .abs16 a => packModRm 0 reg 6 :: bytes16 a

/-- ModR/M and what follows it, for a word operand (rule R193). -/
def Rm.encode (reg : BitVec 3) : Rm → List Byte
  | .reg r => [packModRm 3 reg r.num]
  | .mem m => m.ea.encode reg

/-- The ModR/M byte alone (rule R193). -/
def Rm.modrm (reg : BitVec 3) (rm : Rm) : Byte := (rm.encode reg).headD 0

/-- ModR/M and what follows it, for a byte operand (rule R193). -/
def Rm8.encode (reg : BitVec 3) : Rm8 → List Byte
  | .reg r => [packModRm 3 reg r.num]
  | .mem m => m.ea.encode reg

/-- An instruction with a ModR/M operand and no operand size. -/
def encRm (d32 : Bool) (op : List Byte) (reg : BitVec 3) (rm : Rm) : List Byte :=
  rm.bytes d32 ++ op ++ rm.encode reg

/-- An instruction with a ModR/M operand and an operand size. -/
def encRmSz (d32 : Bool) (osz : OpSize) (op : List Byte) (reg : BitVec 3) (rm : Rm) : List Byte :=
  oszByte d32 osz ++ encRm d32 op reg rm

/-- A segment number to or from a special register: a register ModR/M byte (rule R202). -/
def encSpecial (op : Byte) (n : BitVec 3) (r : Reg) : List Byte :=
  [0x0F, op, packModRm 3 n r.num]

/-- The byte with a register number in its low three bits (rule R197). -/
def plusReg (op : Byte) (n : BitVec 3) : Byte := op + n.zeroExtend 8

/-- The bytes of an instruction, in a segment whose default size is 32 bits or 16 bits
(30_encoding.md). A REP or LOCK byte before an instruction outside Part II is written with a
representative opcode (MOVSB; ADD r/m8, r8), as is an illegal LOCK (NOP). -/
def encode (d32 : Bool) : Instr → List Byte
  | .arpl dst src => encRm d32 [0x63] src.num dst
  | .lar o r rm => encRmSz d32 o [0x0F, 0x02] r.num rm
  | .lsl o r rm => encRmSz d32 o [0x0F, 0x03] r.num rm
  | .verr rm => encRm d32 [0x0F, 0x00] 4 rm
  | .verw rm => encRm d32 [0x0F, 0x00] 5 rm
  | .sldt o rm => encRmSz d32 o [0x0F, 0x00] 0 rm
  | .str o rm => encRmSz d32 o [0x0F, 0x00] 1 rm
  | .lldt rm => encRm d32 [0x0F, 0x00] 2 rm
  | .ltr rm => encRm d32 [0x0F, 0x00] 3 rm
  | .sgdt o rm => encRmSz d32 o [0x0F, 0x01] 0 rm
  | .sidt o rm => encRmSz d32 o [0x0F, 0x01] 1 rm
  | .lgdt o rm => encRmSz d32 o [0x0F, 0x01] 2 rm
  | .lidt o rm => encRmSz d32 o [0x0F, 0x01] 3 rm
  | .movSregRm x rm => encRm d32 [0x8E] x rm
  | .movRmSreg o rm x => encRmSz d32 o [0x8C] x.num rm
  | .popEs o => oszByte d32 o ++ [0x07]
  | .popSs o => oszByte d32 o ++ [0x17]
  | .popDs o => oszByte d32 o ++ [0x1F]
  | .popFs o => oszByte d32 o ++ [0x0F, 0xA1]
  | .popGs o => oszByte d32 o ++ [0x0F, 0xA9]
  | .pushEs o => oszByte d32 o ++ [0x06]
  | .pushCs o => oszByte d32 o ++ [0x0E]
  | .pushSs o => oszByte d32 o ++ [0x16]
  | .pushDs o => oszByte d32 o ++ [0x1E]
  | .pushFs o => oszByte d32 o ++ [0x0F, 0xA0]
  | .pushGs o => oszByte d32 o ++ [0x0F, 0xA8]
  | .lds o r rm => encRmSz d32 o [0xC5] r.num rm
  | .les o r rm => encRmSz d32 o [0xC4] r.num rm
  | .lss o r rm => encRmSz d32 o [0x0F, 0xB2] r.num rm
  | .lfs o r rm => encRmSz d32 o [0x0F, 0xB4] r.num rm
  | .lgs o r rm => encRmSz d32 o [0x0F, 0xB5] r.num rm
  | .jmpRel8 o d => oszByte d32 o ++ [0xEB, d]
  | .jmpRel d => oszByte d32 d.osz ++ [0xE9] ++ d.bytes
  | .jmpRm o rm => encRmSz d32 o [0xFF] 4 rm
  | .jmpFar off sel => oszByte d32 off.osz ++ [0xEA] ++ off.bytes ++ bytes16 sel
  | .jmpFarM o rm => encRmSz d32 o [0xFF] 5 rm
  | .callRel d => oszByte d32 d.osz ++ [0xE8] ++ d.bytes
  | .callRm o rm => encRmSz d32 o [0xFF] 2 rm
  | .callFar off sel => oszByte d32 off.osz ++ [0x9A] ++ off.bytes ++ bytes16 sel
  | .callFarM o rm => encRmSz d32 o [0xFF] 3 rm
  | .ret o => oszByte d32 o ++ [0xC3]
  | .retImm o n => oszByte d32 o ++ [0xC2] ++ bytes16 n
  | .retFar o => oszByte d32 o ++ [0xCB]
  | .retFarImm o n => oszByte d32 o ++ [0xCA] ++ bytes16 n
  | .inAlImm p => [0xE4, p]
  | .inEaxImm o p => oszByte d32 o ++ [0xE5, p]
  | .inAlDx => [0xEC]
  | .inEaxDx o => oszByte d32 o ++ [0xED]
  | .outImmAl p => [0xE6, p]
  | .outImmEax o p => oszByte d32 o ++ [0xE7, p]
  | .outDxAl => [0xEE]
  | .outDxEax o => oszByte d32 o ++ [0xEF]
  | .insb a => aszByte d32 a ++ [0x6C]
  | .ins o a => oszByte d32 o ++ aszByte d32 a ++ [0x6D]
  | .outsb a x => ovrByte x ++ aszByte d32 a ++ [0x6E]
  | .outs o a x => oszByte d32 o ++ ovrByte x ++ aszByte d32 a ++ [0x6F]
  | .rep (.insb a) => [0xF3] ++ aszByte d32 a ++ [0x6C]
  | .rep (.ins o a) => [0xF3] ++ oszByte d32 o ++ aszByte d32 a ++ [0x6D]
  | .rep (.outsb a x) => [0xF3] ++ ovrByte x ++ aszByte d32 a ++ [0x6E]
  | .rep (.outs o a x) => [0xF3] ++ oszByte d32 o ++ ovrByte x ++ aszByte d32 a ++ [0x6F]
  | .rep .application => [0xF3, 0xA4]
  | .cli => [0xFA]
  | .sti => [0xFB]
  | .pushf o => oszByte d32 o ++ [0x9C]
  | .popf o => oszByte d32 o ++ [0x9D]
  | .int3 => [0xCC]
  | .intN n => [0xCD, n]
  | .into => [0xCE]
  | .iret o => oszByte d32 o ++ [0xCF]
  | .bound o r rm => encRmSz d32 o [0x62] r.num rm
  | .smsw o rm => encRmSz d32 o [0x0F, 0x01] 4 rm
  | .lmsw rm => encRm d32 [0x0F, 0x01] 6 rm
  | .clts => [0x0F, 0x06]
  | .hlt => [0xF4]
  | .movRegCr r n => encSpecial 0x20 n r
  | .movCrReg n r => encSpecial 0x22 n r
  | .movRegDr r n => encSpecial 0x21 n r
  | .movDrReg n r => encSpecial 0x23 n r
  | .movRegTr r n => encSpecial 0x24 n r
  | .movTrReg n r => encSpecial 0x26 n r
  | .esc op ext rm => encRm d32 [plusReg 0xD8 op] ext rm
  | .wait => [0x9B]
  | .lock (.xchg8 m r) => [0xF0] ++ m.bytes d32 ++ [0x86] ++ m.ea.encode r.num
  | .lock (.xchg o m r) =>
      [0xF0] ++ oszByte d32 o ++ m.bytes d32 ++ [0x87] ++ m.ea.encode r.num
  | .lock .application => [0xF0, 0x00, 0x00]
  | .lock .illegal => [0xF0, 0x90]
  | .xchg8 rm r => rm.bytes d32 ++ [0x86] ++ rm.encode r.num
  | .xchg o rm r => encRmSz d32 o [0x87] r.num rm
  | .nop => [0x90]
  | .movRegImm r v => oszByte d32 v.osz ++ [plusReg 0xB8 r.num] ++ v.bytes
  | .movReg8Imm r v => [plusReg 0xB0 r.num, v]
  | .movRmReg o rm r => encRmSz d32 o [0x89] r.num rm
  | .movRegRm o r rm => encRmSz d32 o [0x8B] r.num rm
  | .pushReg o r => oszByte d32 o ++ [plusReg 0x50 r.num]
  | .popReg o r => oszByte d32 o ++ [plusReg 0x58 r.num]
  | .orEaxImm v => oszByte d32 v.osz ++ [0x0D] ++ v.bytes
  | .orAlImm v => [0x0C, v]

/-! The table's own numbering of an instruction's bits. -/

/-- The longest instruction, in bytes (30_encoding.md rule R191). -/
def maxLength : Nat := 15

/-- The `n` low bytes of `w`, the low one first. -/
def natBytes : Nat → Nat → List Byte
  | 0, _ => []
  | n + 1, w => BitVec.ofNat 8 w :: natBytes n (w / 256)

/-- The bytes in memory order of a table word of `nbits` bits, then zeros up to the longest
instruction. spec/opcode_table.json numbers a row of more than one byte with its FIRST byte highest
(its `match` puts byte 0 leftmost), while the rows' gloss puts the first byte lowest; a word whose
highest byte is an opcode escape (0FH or FFH) is read the first way, any other the second. No row of the
table is ambiguous between the two (log entry 33). -/
def tableBytes (nbits w : Nat) : List Byte :=
  let bs := natBytes ((nbits + 7) / 8) w
  let ordered :=
    match bs.reverse with
    | b :: _ => if b = 0x0F || b = 0xFF then bs.reverse else bs
    | [] => bs
  ordered ++ List.replicate (maxLength - ordered.length) 0

/-- The instruction the decoder reads from a word numbered as spec/opcode_table.json numbers it, with
the default sizes of the machine after reset (16 bits, rule R192). -/
def decodeTableWord (nbits w : Nat) : Option Instr :=
  match decode false (tableBytes nbits w) with
  | .ok (i, _) => some i
  | .error _ => none

end Sys2Proof
end

