-- ==== Sys2Proof/Machine/Coproc.lean ====
section
/-! DEFINITION. ESC, WAIT, LOCK, XCHG (48_coprocessor_and_lock.md). The coprocessor is the environment's
(decision D5): what it does with an instruction, and what it stores, is free. -/

namespace Sys2Proof.Machine

/-! ## ESC -/

/-- CR0.MP (rule R43). -/
def State.mp (s : State) : Bool := s.cr.cr0.getLsbD 1
/-- CR0.EM (rule R44). -/
def State.em (s : State) : Bool := s.cr.cr0.getLsbD 2
/-- CR0.TS (rule R45). -/
def State.ts (s : State) : Bool := s.cr.cr0.getLsbD 3

/-- The size of the addressing limit of a segment: offsets wrap around 0FFFFH in a small one, around
0FFFFFFFFH in a big one (rule R475). That the B or D bit alone makes a segment big, whatever its limit and its
direction, is the model's choice (DESIGN CHOICE, log entry 66). -/
def SegCache.span (c : SegCache) : Nat := if c.big then 4294967296 else 65536

/-- Check and translate byte `k` of an operand that wraps around the addressing limit (rule R475). -/
def escWindow (m : MemOp) (k : Nat) (write : Bool) : M Win := do
  let s ← get
  let off := ((s.offsetOf m 0).toNat + k) % (s.segOf m.seg).span
  segWindow m.seg (BitVec.ofNat 32 off) 1 write

/-- The bytes of a wrapping operand, each checked alone; none where one is inaccessible. -/
def escBytes (m : MemOp) (write : Bool) : Nat → Nat → M (List (Option Win))
  | _, 0 => return []
  | k, n + 1 => do
    let w ← attempt (escWindow m k write)
    let ws ← escBytes m write (k + 1) n
    return w :: ws

/-- Bytes from the coprocessor. -/
def drawBytes : Nat → M (List Byte)
  | 0 => return []
  | n + 1 => do
    let b ← draw Config.coprocessorByte
    let bs ← drawBytes n
    return b :: bs

/-- Store coprocessor bytes to windows, or read the windows (rule R478). -/
def escWins (store : Bool) : List Win → M (List Byte)
  | [] => return []
  | w :: ws => do
    if store then do
      let bs ← drawBytes w.n
      w.writeList bs
      escWins store ws
    else do
      let bs ← w.readList
      let r ← escWins store ws
      return bs ++ r

/-- A list in an order of free choice: `n` elements are picked, one after another. -/
def freeOrder {α : Type} (k : Nat) : Nat → List α → List α
  | 0, l => l
  | n + 1, l =>
    let i := (Config.freeWord (k + n)).toNat % l.length
    l[i]?.toList ++ freeOrder k n (l.eraseIdx i)

/-- Run so that the environment sees the accesses made in an order of free choice. -/
def anyOrder {α : Type} (m : M α) : M α := fun s =>
  match m s with
  | .ok a t =>
    let n := t.io.length - s.io.length
    .ok a { t with io := freeOrder t.draws n (t.io.take n) ++ t.io.drop n, draws := t.draws + n }
  | r => r

/-- Move the bytes of one operand. No two are at one address, so their order shows only to a device, and it is not
stated (rule R478). -/
def escMove (store : Bool) (ws : List Win) : M (List Byte) := anyOrder (escWins store ws)

/-- Whether an operand of `n` bytes wraps around the addressing limit of its segment (rule R475). -/
def State.escWraps (s : State) (m : MemOp) (n : Nat) : Bool :=
  let off := (s.offsetOf m 0).toNat
  let span := (s.segOf m.seg).span
  decide (off < span) && decide (span < off + n)

/-- The operand of an ESC: the windows to move, or #MP when the operand wraps and its middle is
inaccessible (rules R472, R475). An aborted store leaves the accessible bytes free (U26); that it makes a write of
each of them, and that an aborted load makes no read, as a device sees it, is the model's choice (DESIGN CHOICE, log
entry 69). -/
def escWindows (m : MemOp) (n : Nat) (store : Bool) : M (List Win) := do
  let s ← get
  if n = 0 then return []
  else if !s.escWraps m n then do
    let w ← memWindow m 0 n store
    return [w]
  else do
    let _ ← escWindow m 0 store
    let _ ← escWindow m (n - 1) store
    let ws ← escBytes m store 0 n
    let got := ws.filterMap id
    if got.length = n then return got
    else if s.pe then do
      let _ ← listIf store (escMove true got)
      raise excMP
    else raise (segExc m.seg)

/-- Where the memory operand of an ESC stands, for the coprocessor (rule R472: "operand address"). -/
def State.escAddr (s : State) (m : MemOp) : BitVec 16 × Word := ((s.segOf m.seg).sel, s.offsetOf m 0)

/-- The hand-over of an ESC with a memory operand (rules R472, R478). -/
def escMemory (op : BitVec 3) (modrm : Byte) (m : MemOp) : M Done := do
  let store := Config.escStores op modrm
  let n ← draw (Config.escLength op modrm)
  let ws ← escWindows m (n % 109) store
  let bs ← escMove store ws
  change fun s => { s with io := .escape op modrm (some (s.escAddr m)) bs :: s.io }
  return .next

/-- The hand-over of an ESC without a memory operand: AX may be written (rule R472). -/
def escRegister (op : BitVec 3) (modrm : Byte) : M Done := do
  onlyIf (Config.escWritesAx op modrm) do
    let bs ← drawBytes 2
    change fun s => s.setRegSz .w16 .eax (leWord bs)
  change fun s => { s with io := .escape op modrm none [] :: s.io }
  return .next

/-- Whether an operand is a register. -/
def Rm.isReg : Rm → Bool
  | .reg _ => true
  | .mem _ => false

/-- ESC (rules R472, R478). It waits while BUSY# is active (rule R684): every ESC does, after the tests of EM
and TS and before the test of ERROR# and the checks of the operand (DESIGN CHOICE, log entry 60). -/
def execEsc (op ext : BitVec 3) (rm : Rm) (s : State) : Host.Outcome State Fault Refusal :=
  run (do
    let s ← get
    require (!s.em) excNM
    require (!s.ts) excNM
    if s.pins.busy then return .waiting
    else
      let modrm := rm.modrm ext
      require (!(Config.escTestsError op modrm && s.pins.error)) excMF
      match rm with
      | .reg _ => escRegister op modrm
      | .mem m => escMemory op modrm m) s

/-- WAIT (rule R473; decision D32). -/
def execWait (s : State) : Host.Outcome State Fault Refusal :=
  run (do
    let s ← get
    require (!(s.mp && s.ts)) excNM
    if s.pins.busy then return .waiting
    else
      require (!s.pins.error) excMF
      return .next) s

/-! ## XCHG and LOCK -/

/-- XCHG of a byte operand: memory is checked for writing before it is read (rule R483). -/
def xchgByte (rm : Rm8) (r : Reg8) : M Done := do
  let v ← look fun s => s.reg8 r
  match rm with
  | .reg q =>
    change fun s => (s.setReg8 r (s.reg8 q)).setReg8 q v
    return .next
  | .mem m =>
    let w ← memWindow m 0 1 true
    let old ← w.read
    w.write (v.zeroExtend 32)
    change fun s => s.setReg8 r (old.truncate 8)
    return .next

/-- XCHG of a word or doubleword operand (rule R483). -/
def xchgWord (osz : OpSize) (rm : Rm) (r : Reg) : M Done := do
  let v ← look fun s => s.regSz osz r
  match rm with
  | .reg q =>
    change fun s => (s.setRegSz osz r (s.regSz osz q)).setRegSz osz q v
    return .next
  | .mem m =>
    let w ← memWindow m 0 osz.bytes true
    let old ← w.read
    w.write v
    change fun s => s.setRegSz osz r old
    return .next

/-- XCHG r/m8, r8 (rule R483). -/
def execXchg8 (rm : Rm8) (r : Reg8) (s : State) : Host.Outcome State Fault Refusal :=
  run (xchgByte rm r) s

/-- XCHG r/m, r (rule R483). -/
def execXchg (osz : OpSize) (rm : Rm) (r : Reg) (s : State) : Host.Outcome State Fault Refusal :=
  run (xchgWord osz rm r) s

/-- LOCK (rule R480): the exchange as without it; #UD before anything unlisted; an instruction of Part I
is refused (rule R201). -/
def execLock (t : LockTarget) (s : State) : Host.Outcome State Fault Refusal :=
  match t with
  | .xchg8 m r => run (xchgByte (.mem m) r) s
  | .xchg osz m r => run (xchgWord osz (.mem m) r) s
  | .application => .refused .applicationOpcode
  | .illegal => run (raise excUD) s

end Sys2Proof.Machine
end

