-- ==== Sys2Proof/Machine/FlagOps.lean ====
section
/-! DEFINITION. CLI, STI, PUSHF, POPF (45_io.md section 5). -/

namespace Sys2Proof.Machine

/-- The IOPL check of CLI and STI (rules R389, R390). -/
def ioplCheck : M Unit := do
  let s ← get
  require (!s.pe || s.level ≤ s.iopl) excGP0

/-- CLI (rule R389). -/
def execCli (s : State) : Host.Outcome State Fault Refusal :=
  run (do
    ioplCheck
    change fun s => { s with eflags := setBit s.eflags bitIF false }
    return .next) s

/-- STI (rule R390): the boundary after it is open if IF was 0 (decision D28). -/
def execSti (s : State) : Host.Outcome State Fault Refusal :=
  run (do
    ioplCheck
    change fun s => { s with eflags := setBit s.eflags bitIF true, stiShadow := !s.flag bitIF }
    return .next) s

/-- PUSHF (rule R392). -/
def execPushf (osz : OpSize) (s : State) : Host.Outcome State Fault Refusal :=
  run (do
    let v ← look (·.eflags)
    push osz.bytes v
    return .next) s

/-- POPF (rules R393, R394): RF stays as loaded. -/
def execPopf (osz : OpSize) (s : State) : Host.Outcome State Fault Refusal :=
  run (do
    let v ← stackRead 0 osz.bytes
    change fun s => { s.moveSp (retWord osz 1) with
      eflags := loadFlags osz s.pe s.level s.eflags v }
    return .nextKeepRf) s

end Sys2Proof.Machine
end

