-- ==== Sys2Proof/Machine/InOut.lean ====
section
/-! DEFINITION. IN, OUT, INS, OUTS, REP (45_io.md sections 1 to 4). -/

namespace Sys2Proof.Machine

/-! ## Permission -/

/-- The bits of the I/O permission map for `n` ports, one after another (rule R386). -/
def mapAllows (base : Word) (limit mapbase : Nat) : Nat → Nat → M Bool
  | _, 0 => return true
  | p, n + 1 => do
    let off := mapbase + p / 8
    if limit < off then return false
    else
      let b ← sysRead (base + BitVec.ofNat 32 off) 1
      if b.getLsbD (p % 8) then return false
      else mapAllows base limit mapbase (p + 1) n

/-- The I/O permission bit map of the current task (rule R386, BitmapAllows). Of a range that runs past port FFFFH (U20)
the bits of the ports that exist are tested, and no others (DESIGN CHOICE, log entry 86). -/
def bitmapAllows (port : BitVec 16) (n : Nat) : M Bool := do
  needTr
  let t ← look (·.tr)
  let v ← sysRead (t.base + 0x66) 2
  if t.limit.toNat ≤ v.toNat then return false
  else mapAllows t.base t.limit.toNat v.toNat port.toNat (min n (65536 - port.toNat))

/-- The permission check of every I/O instruction (rules R383 to R385). -/
def ioCheck (port : BitVec 16) (n : Nat) : M Unit := do
  let s ← get
  if !s.pe || s.level ≤ s.iopl then pure ()
  else do
    let ok ← bitmapAllows port n
    require ok excGP0

/-- A range of ports that runs past FFFFH is refused where it is accessed (rule R88; U20), hence after the checks that
come before the access (rules R373, R374, R382, R384; log entries 42 and 86). -/
def portFits (port : BitVec 16) (n : Nat) : M Unit :=
  if port.toNat + n ≤ 65536 then pure () else refuse .portWrap

/-! ## Port accesses -/

/-- The `n` low bytes of a value. -/
def lowBytes (n : Nat) (v : Word) : Word := leWord (leBytes n v)

/-- Read `n` ports: the environment gives the value, in one event whatever the alignment (rules R11, R88; decision D14,
log entry 17). -/
def ioRead (port : BitVec 16) (n : Nat) : M Word := do
  portFits port n
  let u ← draw Config.portInput
  let v := lowBytes n u
  change fun s => { s with io := .portRead port n v :: s.io }
  return v

/-- Write `n` ports, in one event whatever the alignment (rules R11, R88; decision D14, log entry 17). -/
def ioWrite (port : BitVec 16) (n : Nat) (v : Word) : M Unit := do
  portFits port n
  change fun s => { s with io := .portWrite port n (lowBytes n v) :: s.io }

/-- The port number in DX (rule R89). -/
def dxPort : M (BitVec 16) := look fun s => lo16 s.gpr.edx

/-- IN AL (rule R371). -/
def inByte (port : BitVec 16) : M Done := do
  ioCheck port 1
  let v ← ioRead port 1
  change fun s => s.setReg8 .al (v.truncate 8)
  return .next

/-- IN AX and IN EAX (rule R371). -/
def inWord (osz : OpSize) (port : BitVec 16) : M Done := do
  ioCheck port osz.bytes
  let v ← ioRead port osz.bytes
  change fun s => s.setRegSz osz .eax v
  return .next

/-- OUT of AL (rule R372). -/
def outByte (port : BitVec 16) : M Done := do
  ioCheck port 1
  let v ← look (·.gpr.eax)
  ioWrite port 1 v
  return .next

/-- OUT of AX and EAX (rule R372). -/
def outWord (osz : OpSize) (port : BitVec 16) : M Done := do
  ioCheck port osz.bytes
  let v ← look (·.gpr.eax)
  ioWrite port osz.bytes v
  return .next

/-! ## Strings -/

/-- How far an index moves: up or down by DF (rule R380). -/
def State.stride (s : State) (n : Nat) : Word :=
  if s.flag bitDF then -(BitVec.ofNat 32 n) else BitVec.ofNat 32 n

/-- One INS element of `n` bytes: the destination is checked before the port is read (rules R373,
R382). -/
def insElement (n : Nat) (asz : AddrSize) : M Unit := do
  let port ← dxPort
  ioCheck port n
  let s ← get
  let w ← segWindow .es (s.strOff asz .edi) n true
  let v ← ioRead port n
  w.write v
  change fun s => s.bumpStr asz .edi (s.stride n)

/-- One OUTS element of `n` bytes: the source is read before the port is written (rules R374, R382). -/
def outsElement (n : Nat) (asz : AddrSize) (ovr : Option SegReg) : M Unit := do
  let port ← dxPort
  ioCheck port n
  let s ← get
  let v ← segRead (ovr.getD .ds) (s.strOff asz .esi) n
  ioWrite port n v
  change fun s => s.bumpStr asz .esi (s.stride n)

/-- One repetition of REP: nothing when the count is zero (rule R381). After one that leaves the count above zero the
next boundary fetches and decodes the instruction anew, where the loop of R381 shows no fetch (DESIGN CHOICE, log
entries 15 and 84). -/
def repeated (asz : AddrSize) (element : M Unit) : M Done := do
  let s ← get
  if s.strOff asz .ecx == 0 then return .next
  else
    element
    change fun s => s.bumpStr asz .ecx (-1)
    let s' ← get
    return if s'.strOff asz .ecx == 0 then .next else .again

/-! ## The instructions -/

/-- IN AL, imm8 (rule R371). -/
def execInAlImm (port : BitVec 8) (s : State) : Host.Outcome State Fault Refusal :=
  run (inByte (port.zeroExtend 16)) s

/-- IN eAX, imm8 (rule R371). -/
def execInEaxImm (osz : OpSize) (port : BitVec 8) (s : State) : Host.Outcome State Fault Refusal :=
  run (inWord osz (port.zeroExtend 16)) s

/-- IN AL, DX (rule R371). -/
def execInAlDx (s : State) : Host.Outcome State Fault Refusal :=
  run (do let p ← dxPort; inByte p) s

/-- IN eAX, DX (rule R371). -/
def execInEaxDx (osz : OpSize) (s : State) : Host.Outcome State Fault Refusal :=
  run (do let p ← dxPort; inWord osz p) s

/-- OUT imm8, AL (rule R372). -/
def execOutImmAl (port : BitVec 8) (s : State) : Host.Outcome State Fault Refusal :=
  run (outByte (port.zeroExtend 16)) s

/-- OUT imm8, eAX (rule R372). -/
def execOutImmEax (osz : OpSize) (port : BitVec 8) (s : State) : Host.Outcome State Fault Refusal :=
  run (outWord osz (port.zeroExtend 16)) s

/-- OUT DX, AL (rule R372). -/
def execOutDxAl (s : State) : Host.Outcome State Fault Refusal :=
  run (do let p ← dxPort; outByte p) s

/-- OUT DX, eAX (rule R372). -/
def execOutDxEax (osz : OpSize) (s : State) : Host.Outcome State Fault Refusal :=
  run (do let p ← dxPort; outWord osz p) s

/-- INSB (rule R373). -/
def execInsb (asz : AddrSize) (s : State) : Host.Outcome State Fault Refusal :=
  run (do insElement 1 asz; return .next) s

/-- INSW and INSD (rule R373). -/
def execIns (osz : OpSize) (asz : AddrSize) (s : State) : Host.Outcome State Fault Refusal :=
  run (do insElement osz.bytes asz; return .next) s

/-- OUTSB (rule R374). -/
def execOutsb (asz : AddrSize) (ovr : Option SegReg) (s : State) : Host.Outcome State Fault Refusal :=
  run (do outsElement 1 asz ovr; return .next) s

/-- OUTSW and OUTSD (rule R374). -/
def execOuts (osz : OpSize) (asz : AddrSize) (ovr : Option SegReg) (s : State) :
    Host.Outcome State Fault Refusal :=
  run (do outsElement osz.bytes asz ovr; return .next) s

/-- REP (rule R381): one repetition a step, each fetched anew (log entries 15 and 84). Before an instruction of Part I
it is refused (rule R201). -/
def execRep (t : RepTarget) (s : State) : Host.Outcome State Fault Refusal :=
  match t with
  | .insb asz => run (repeated asz (insElement 1 asz)) s
  | .ins osz asz => run (repeated asz (insElement osz.bytes asz)) s
  | .outsb asz ovr => run (repeated asz (outsElement 1 asz ovr)) s
  | .outs osz asz ovr => run (repeated asz (outsElement osz.bytes asz ovr)) s
  | .application => .refused .applicationOpcode

end Sys2Proof.Machine
end

