-- ==== Sys2Proof/Machine/IntOps.lean ====
section
/-! DEFINITION. INT n, INT 3, INTO, BOUND, IRET (46_interrupt_instructions.md). -/

namespace Sys2Proof.Machine

/-- INT 3 (rule R412). -/
def execInt3 (s : State) : Host.Outcome State Fault Refusal := run (softInt 3) s

/-- INT n (rule R411). -/
def execIntN (n : BitVec 8) (s : State) : Host.Outcome State Fault Refusal := run (softInt n) s

/-- INTO (rule R414). -/
def execInto (s : State) : Host.Outcome State Fault Refusal :=
  run (do
    let o ← look fun s => s.flag bitOF
    if o then softInt 4 else return .next) s

/-- IRET (rule R420). -/
def execIret (osz : OpSize) (s : State) : Host.Outcome State Fault Refusal := run (iretOp osz) s

/-- A bound or index as a signed number of its size (rule R415). -/
def signedOf (osz : OpSize) (v : Word) : Int :=
  match osz with
  | .w16 => (lo16 v).toInt
  | .w32 => v.toInt

/-- BOUND (rule R415); #UD for a register operand (G7). The upper bound's offset is taken modulo the address size, and
each bound is checked alone, so that the pair may lie across the end of the offset space (DESIGN CHOICE, log entry
78). -/
def execBound (osz : OpSize) (r : Reg) (src : Rm) (s : State) : Host.Outcome State Fault Refusal :=
  run (do
    let m ← memOnly src
    let lower ← memRead m 0 osz.bytes
    let upper ← memRead m (retWord osz 1) osz.bytes
    let idx ← look fun s => s.regSz osz r
    require (signedOf osz lower ≤ signedOf osz idx && signedOf osz idx ≤ signedOf osz upper) excBR
    return .next) s

end Sys2Proof.Machine
end

