-- ==== Sys2Proof/Machine/PointerValidation.lean ====
section
/-! DEFINITION. ARPL, LAR, LSL, VERR, VERW (40_pointer_validation.md). -/

namespace Sys2Proof.Machine

/-- #UD outside protected mode (rules R199, R220). -/
def protectedOnly : M Unit := do
  let pe ← look State.pe
  require pe excUD

/-- ZF written, no other flag (rules R222 to R228). -/
def setZf (b : Bool) : M Unit := change fun s => { s with eflags := setBit s.eflags bitZF b }

/-- The descriptor a selector names; none for a null selector or one out of its table (rule R221,
Examine). -/
def examine (sel : BitVec 16) : M (Option Desc) :=
  if isNull sel then return none else fetchDesc sel

/-- Whether a descriptor is visible at the current level (rule R221, Visible). -/
def visible (cpl : BitVec 2) (sel : BitVec 16) (d : Desc) : Bool :=
  d.isConforming || (decide (cpl ≤ d.dpl) && decide (rpl sel ≤ d.dpl))

/-- Whether LAR can report a descriptor (rule R223; Table 6-4). -/
def larOk (cpl : BitVec 2) (sel : BitVec 16) (d : Desc) : Bool :=
  (d.s || !(d.type == 0 || d.type == 8 || d.type == 10 || d.type == 13)) && visible cpl sel d

/-- Whether LSL can report a descriptor (rule R225; Table 6-4). -/
def lslOk (cpl : BitVec 2) (sel : BitVec 16) (d : Desc) : Bool :=
  (d.s || d.type == 1 || d.type == 2 || d.type == 3 || d.type == 9 || d.type == 11) &&
    visible cpl sel d

/-- Whether VERR verifies a descriptor (rule R227). -/
def verrOk (cpl : BitVec 2) (sel : BitVec 16) (d : Desc) : Bool :=
  d.s && (!d.exec || d.rw) && visible cpl sel d

/-- Whether VERW verifies a descriptor (rule R228). -/
def verwOk (cpl : BitVec 2) (sel : BitVec 16) (d : Desc) : Bool :=
  d.isWritable && decide (cpl ≤ d.dpl) && decide (rpl sel ≤ d.dpl)

/-- What LAR leaves in its destination: bits 19:16 are free, and with 16 bits the access-rights byte
stands alone (rules R223, R224; U2). -/
def larResult (osz : OpSize) (d : Desc) (free : Word) : Word :=
  match osz with
  | .w32 => (d.d1 &&& 0x00F0FF00#32) ||| (free &&& 0x000F0000#32)
  | .w16 => d.d1 &&& 0x0000FF00#32

/-- The descriptor a selector operand names, if a test accepts it (rule R221). -/
def inspect (src : Rm) (ok : BitVec 2 → BitVec 16 → Desc → Bool) : M (Option Desc) := do
  protectedOnly
  let sel ← readRm16 src
  let cpl ← look State.level
  let r ← examine sel
  return r.filter (ok cpl sel)

/-- Verify a selector: ZF says whether the test accepts it. -/
def verify (src : Rm) (ok : BitVec 2 → BitVec 16 → Desc → Bool) : M Done := do
  let r ← inspect src ok
  setZf r.isSome
  return .next

/-- The selector ARPL leaves (rule R222). -/
def arplAdjust (dst src : BitVec 16) : BitVec 16 := withRpl dst (maxLevel (rpl dst) (rpl src))

/-- ARPL (rule R222; the write is checked only when it is made, decision D23). -/
def execArpl (dst : Rm) (src : Reg) (s : State) : Host.Outcome State Fault Refusal :=
  run (do
    protectedOnly
    let d ← readRm16 dst
    let r ← look fun s => lo16 (s.reg src)
    if rpl d < rpl r then
      writeRm .w16 dst (zx16 (arplAdjust d r))
      setZf true
    else setZf false
    return .next) s

/-- LAR (rule R223). -/
def execLar (osz : OpSize) (dst : Reg) (src : Rm) (s : State) : Host.Outcome State Fault Refusal :=
  run (do
    let r ← inspect src larOk
    match r with
    | none => setZf false
    | some d =>
      let u ← draw Config.freeWord
      change fun s => s.setRegSz osz dst (larResult osz d u)
      setZf true
    return .next) s

/-- LSL (rule R225). -/
def execLsl (osz : OpSize) (dst : Reg) (src : Rm) (s : State) : Host.Outcome State Fault Refusal :=
  run (do
    let r ← inspect src lslOk
    match r with
    | none => setZf false
    | some d =>
      change fun s => s.setRegSz osz dst d.limit
      setZf true
    return .next) s

/-- VERR (rule R227). -/
def execVerr (src : Rm) (s : State) : Host.Outcome State Fault Refusal := run (verify src verrOk) s

/-- VERW (rule R228). -/
def execVerw (src : Rm) (s : State) : Host.Outcome State Fault Refusal := run (verify src verwOk) s

end Sys2Proof.Machine
end

