-- ==== Sys2Proof/Machine/Transfers.lean ====
section
/-! DEFINITION. JMP, CALL and RET (43_control_transfer.md). Two-byte pushes and pops, and EIP cut to 16
bits, for 16-bit operand size (rule R312). -/

namespace Sys2Proof.Machine

/-! ## Near transfers -/

/-- An offset at an operand size: 16 bits of it, or all (rules R278, R312). -/
def cutOff (osz : OpSize) (v : Word) : Word :=
  match osz with
  | .w16 => zx16 (lo16 v)
  | .w32 => v

/-- The destination limit check of a near transfer (rule R277). -/
def nearCheck (dst : Word) : M Unit := do
  let s ← get
  require (dst ≤ s.seg.cs.limit) excGP0

/-- EIP set. -/
def setEip (dst : Word) : M Unit := change fun s => { s with eip := dst }

/-- A near jump (rules R278, R279). -/
def nearJump (dst : Word) : M Done := do
  nearCheck dst
  setEip dst
  return .transfer

/-- A near call: check, push the return offset, jump (rules R280, R281). -/
def nearCall (osz : OpSize) (dst : Word) : M Done := do
  nearCheck dst
  let ret ← look (·.eipNext)
  push osz.bytes ret
  setEip dst
  return .transfer

/-- The destination of a relative transfer (rules R278, R280; decision D7). -/
def relTarget (osz : OpSize) (rel : Word) : M Word := look fun s => cutOff osz (s.eipNext + rel)

/-- A near return, discarding `n` bytes (rule R282). -/
def nearRet (osz : OpSize) (n : BitVec 16) : M Done := do
  let dst ← stackRead 0 osz.bytes
  nearCheck dst
  change fun s => { s.moveSp (retWord osz 1 + zx16 n) with eip := dst }
  return .transfer

/-! ## Far JMP and CALL -/

/-- CS and EIP loaded with a checked code segment at the current level, the accessed bit written
(rules R284, R295). -/
def enterCode (d : Desc) (pa : List Nat) (sel : BitVec 16) (off : Word) : M Unit := do
  commitA d pa
  change fun s => { s.setSegOf .cs (d.cache (withRpl sel s.level)) with eip := off }

/-- The return pointer of a far CALL translated, before anything changes (rule R276). -/
def prepareRet (call : Bool) (osz : OpSize) : M (List Win) :=
  listIf call (preparePushes true [osz.bytes, osz.bytes])

/-- The return pointer of a far CALL pushed: CS, then EIP (rule R287). -/
def pushRet (call : Bool) (osz : OpSize) (ws : List Win) : M Unit :=
  onlyIf call do
    let s ← get
    let cs ← pushedSel osz s.seg.cs.sel
    writeWins ws [cs, s.eipNext]
    change fun s => s.moveSp (-(retWord osz 2))

/-- A transfer to a checked code segment without a change of level (rules R284, R295). -/
def sameLevel (call : Bool) (osz : OpSize) (sel : BitVec 16) (off : Word) (d : Desc) : M Done := do
  require (off ≤ d.limit) excGP0
  let ws ← prepareRet call osz
  let pa ← prepareA d
  pushRet call osz ws
  enterCode d pa sel off
  return .transfer

/-- A direct far transfer (rules R284, R285). -/
def directFar (call : Bool) (osz : OpSize) (sel : BitVec 16) (off : Word) (d : Desc) : M Done := do
  let cpl ← look State.level
  let e := excGP (selErr sel false)
  require (!d.ec || d.dpl ≤ cpl) e
  require (d.ec || d.dpl == cpl) e
  require (d.ec || rpl sel ≤ cpl) e
  require d.present (excNP (selErr sel false))
  sameLevel call osz sel off d

/-- Parameters read from the caller's stack, from `i` on (rule R299). -/
def readParams : Nat → Nat → M (List Word)
  | _, 0 => return []
  | i, n + 1 => do
    let v ← stackRead (BitVec.ofNat 32 (4 * i)) 4
    let vs ← readParams (i + 1) n
    return v :: vs

/-- A CALL through a gate to an inner level (rules R296, R297, R299). -/
def innerCall (tsel : BitVec 16) (toff : Word) (count : Nat) (t : Desc) : M Done := do
  let (nss, nesp, sd) ← innerStack t.dpl false
  let n := 4 + count
  let ss := sd.cache nss
  require (stackRoom ss nesp (4 * n)) (excSS (selErr nss false))
  let ps ← readParams 0 count
  require (toff ≤ t.limit) excGP0
  let pa ← prepareA t
  let pb ← prepareA sd
  let ws ← innerWindows true ss nesp 0 (List.replicate n 4)
  let s ← get
  let oldSs ← pushedSel .w32 s.seg.ss.sel
  let oldCs ← pushedSel .w32 s.seg.cs.sel
  commitA t pa
  commitA sd pb
  writeWins ws ([oldSs, s.gpr.esp] ++ ps.reverse ++ [oldCs, s.eipNext])
  let c := t.cache (withRpl tsel t.dpl)
  change fun s => { (s.setInner ss nesp (4 * n)).setSegOf .cs c with cpl := t.dpl, eip := toff }
  return .transfer

/-- The code segment a call gate names (rule R293). -/
def gateTarget (call : Bool) (tsel : BitVec 16) : M Desc := do
  let cpl ← look State.level
  let e := excGP (selErr tsel false)
  require (!isNull tsel) excGP0
  let t ← fetchOr tsel e
  require t.isCode e
  require (t.dpl ≤ cpl) e
  require (call || t.ec || t.dpl == cpl) e
  require t.present (excNP (selErr tsel false))
  return t

/-- A far JMP or CALL through a call gate (rules R290 to R296): doublewords whatever the operand size,
as the gate is an 80386 gate. -/
def viaCallGate (call : Bool) (gsel : BitVec 16) (g : Desc) : M Done := do
  let cpl ← look State.level
  require (maxLevel cpl (rpl gsel) ≤ g.dpl) (excGP (selErr gsel false))
  require g.present (excNP (selErr gsel false))
  let t ← gateTarget call g.gateSel
  if call && !t.ec && t.dpl < cpl then innerCall g.gateSel g.gateOff g.gateCount t
  else sameLevel call .w32 g.gateSel g.gateOff t

/-- The kind of task switch of a far JMP or CALL (rule R327). -/
def farKind (call : Bool) : SwitchKind := if call then .call else .jmp

/-- The descriptor decides what a far JMP or CALL does (rule R283); an 80286 TSS or call gate is refused
(decision D21), an interrupt or trap gate of either format is #GP. -/
def farProtected (call : Bool) (osz : OpSize) (sel : BitVec 16) (off : Word) : M Done := do
  require (!isNull sel) excGP0
  let e := excGP (selErr sel false)
  let d ← fetchOr sel e
  if d.isCode then directFar call osz sel off d
  else
    require (!d.s) e
    if d.type == 12 then viaCallGate call sel d
    else if d.type == 5 then do
      viaTaskGate (farKind call) sel d
      return .transferKeepRf
    else if d.type == 9 || d.type == 11 then do
      viaTss (farKind call) sel d
      return .transferKeepRf
    else if d.type == 1 || d.type == 3 || d.type == 4 then refuse .descriptor286
    else raise e

/-- A far transfer in real-address mode (rules R258, R283). -/
def farReal (call : Bool) (osz : OpSize) (sel : BitVec 16) (off : Word) : M Done := do
  let ws ← prepareRet call osz
  pushRet call osz ws
  change fun s => { s.setSegOf .cs (s.seg.cs.realLoad sel) with eip := off }
  return .transfer

/-- A far transfer in the current mode (rules R258, R283). -/
def farTo (call : Bool) (osz : OpSize) (sel : BitVec 16) (off : Word) : M Done := do
  let pe ← look State.pe
  if pe then farProtected call osz sel off else farReal call osz sel off

/-- Far JMP and CALL (rule R283); the high-address latch falls when the transfer completes (rules R66, R643):
where its task switch faults in phase E, in the incoming task already, the latch stays set (DESIGN CHOICE, log
entry 59). -/
def farTransfer (call : Bool) (osz : OpSize) (sel : BitVec 16) (off : Word) : M Done := do
  let d ← farTo call osz sel off
  change fun s => { s with highLatch := false }
  return d

/-- A far pointer in memory: the offset is read, then the selector (rules R262, R263, R283); the selector's bytes
are checked as the last of an operand of four or six, which does not wrap (rule R152). The offset's checks and its read
come before the check of the selector's bytes (DESIGN CHOICE for JMP and CALL, log entry 81). -/
def readFarPtr (osz : OpSize) (m : MemOp) : M (Word × BitVec 16) := do
  let off ← memRead m 0 osz.bytes
  let s ← get
  require (limitOk (s.segOf m.seg) (s.offsetOf m 0) (osz.bytes + 2)) (segExc m.seg)
  let v ← segRead m.seg (s.offsetOf m 0 + BitVec.ofNat 32 osz.bytes) 2
  return (off, lo16 v)

/-! ## Far return -/

/-- The end of a protected far return, at the same level or an outer one: `n` bytes of parameters
(rules R300, R305). -/
def farRetTo (osz : OpSize) (eip : Word) (rcs : BitVec 16) (d : Desc) (n : BitVec 16) : M Unit := do
  let s ← get
  if rpl rcs == s.level then returnSame eip rcs d (retWord osz 2 + zx16 n)
  else do
    stackRange (s.stackAt 0) (4 * osz.bytes + n.toNat)
    returnOuter osz eip rcs d (retWord osz 2 + zx16 n) (zx16 n)

/-- A far return, discarding `n` bytes (rules R300, R305; real-address mode: rule R258). In real-address mode an offset
past the limit of CS is not checked here: the fetch of the next instruction faults (DEDUCED, the model's choice, log
entry 52). -/
def farRet (osz : OpSize) (n : BitVec 16) : M Done := do
  let s ← get
  stackRange (s.stackAt 0) (2 * osz.bytes)
  let eip ← stackRead 0 osz.bytes
  let v ← stackRead (retWord osz 1) osz.bytes
  let rcs := lo16 v
  if !s.pe then
    let k := retWord osz 2 + zx16 n
    change fun s => { (s.moveSp k).setSegOf .cs (s.seg.cs.realLoad rcs) with eip := eip }
    return .transfer
  else
    let d ← returnSegment rcs
    farRetTo osz eip rcs d n
    return .transfer

/-! ## The instructions -/

/-- JMP rel8 (rule R278). -/
def execJmpRel8 (osz : OpSize) (rel : BitVec 8) (s : State) : Host.Outcome State Fault Refusal :=
  run (do let dst ← relTarget osz (sext8 rel); nearJump dst) s

/-- JMP rel16, rel32 (rule R278). -/
def execJmpRel (rel : Imm) (s : State) : Host.Outcome State Fault Refusal :=
  run (do let dst ← relTarget rel.osz rel.sword; nearJump dst) s

/-- JMP r/m (rule R279). -/
def execJmpRm (osz : OpSize) (src : Rm) (s : State) : Host.Outcome State Fault Refusal :=
  run (do let dst ← readRm osz src; nearJump dst) s

/-- JMP ptr (rule R286). -/
def execJmpFar (off : Imm) (sel : BitVec 16) (s : State) : Host.Outcome State Fault Refusal :=
  run (farTransfer false off.osz sel off.word) s

/-- JMP m16:32, m16:16 (rule R286); #UD with a register (rule R283). -/
def execJmpFarM (osz : OpSize) (src : Rm) (s : State) : Host.Outcome State Fault Refusal :=
  run (do let m ← memOnly src; let (off, sel) ← readFarPtr osz m; farTransfer false osz sel off) s

/-- CALL rel (rule R280). -/
def execCallRel (rel : Imm) (s : State) : Host.Outcome State Fault Refusal :=
  run (do let dst ← relTarget rel.osz rel.sword; nearCall rel.osz dst) s

/-- CALL r/m (rule R281). -/
def execCallRm (osz : OpSize) (src : Rm) (s : State) : Host.Outcome State Fault Refusal :=
  run (do let dst ← readRm osz src; nearCall osz dst) s

/-- CALL ptr (rule R287). -/
def execCallFar (off : Imm) (sel : BitVec 16) (s : State) : Host.Outcome State Fault Refusal :=
  run (farTransfer true off.osz sel off.word) s

/-- CALL m16:32, m16:16 (rule R287); #UD with a register (rule R283). -/
def execCallFarM (osz : OpSize) (src : Rm) (s : State) : Host.Outcome State Fault Refusal :=
  run (do let m ← memOnly src; let (off, sel) ← readFarPtr osz m; farTransfer true osz sel off) s

/-- RET (rule R282). -/
def execRet (osz : OpSize) (s : State) : Host.Outcome State Fault Refusal := run (nearRet osz 0) s

/-- RET imm16 (rule R282). -/
def execRetImm (osz : OpSize) (n : BitVec 16) (s : State) : Host.Outcome State Fault Refusal :=
  run (nearRet osz n) s

/-- RET far (rule R300). -/
def execRetFar (osz : OpSize) (s : State) : Host.Outcome State Fault Refusal := run (farRet osz 0) s

/-- RET far imm16 (rule R300). -/
def execRetFarImm (osz : OpSize) (n : BitVec 16) (s : State) : Host.Outcome State Fault Refusal :=
  run (farRet osz n) s

end Sys2Proof.Machine
end

