-- ==== Sys2Proof/Machine/SegLoads.lean ====
section
/-! DEFINITION. Loads and stores of segment registers: MOV, POP, PUSH, LDS, LES, LSS, LFS, LGS
(42_segment_register_loads.md sections 2 and 3). -/

namespace Sys2Proof.Machine

/-- The inhibit latch set after a MOV or POP to SS (rules R260, R509). -/
def setInhibit (x : SegReg) : M Unit :=
  if x = .ss then change fun s => { s with inhibit := true } else pure ()

/-- POP of a segment register: ESP moves after the load (rule R261). -/
def popSeg (osz : OpSize) (x : SegReg) : M Done := do
  let v ← stackRead 0 osz.bytes
  loadSeg x (lo16 v)
  change fun s => s.moveSp (retWord osz 1)
  setInhibit x
  return .next

/-- PUSH of a segment register; with 32 bits the upper half is free (rule R265; U22). -/
def pushSeg (osz : OpSize) (x : SegReg) : M Done := do
  let sel ← look fun s => (s.segOf x).sel
  let v ← pushedSel osz sel
  push osz.bytes v
  return .next

/-- A far pointer loaded: the segment register, then the register (rules R262, R263). -/
def loadFarPtr (x : SegReg) (osz : OpSize) (dst : Reg) (src : Rm) : M Done := do
  let m ← memOnly src
  let (off, sel) ← readFarPtr osz m
  loadSeg x sel
  change fun s => s.setRegSz osz dst off
  return .next

/-- MOV Sreg, r/m16 (rule R260): the operand is read, then CS and the numbers 6 and 7 are #UD. -/
def execMovSregRm (n : BitVec 3) (src : Rm) (s : State) : Host.Outcome State Fault Refusal :=
  run (do
    let sel ← readRm16 src
    match SegReg.ofNum n with
    | none | some .cs => raise excUD
    | some x =>
      loadSeg x sel
      setInhibit x
      return .next) s

/-- MOV r/m, Sreg (rule R264). -/
def execMovRmSreg (osz : OpSize) (dst : Rm) (sr : SegReg) (s : State) :
    Host.Outcome State Fault Refusal :=
  run (do
    let v ← look fun s => (s.segOf sr).sel
    storeSel osz dst v
    return .next) s

/-- POP ES (rule R261). -/
def execPopEs (osz : OpSize) (s : State) : Host.Outcome State Fault Refusal := run (popSeg osz .es) s
/-- POP SS (rule R261). -/
def execPopSs (osz : OpSize) (s : State) : Host.Outcome State Fault Refusal := run (popSeg osz .ss) s
/-- POP DS (rule R261). -/
def execPopDs (osz : OpSize) (s : State) : Host.Outcome State Fault Refusal := run (popSeg osz .ds) s
/-- POP FS (rule R261). -/
def execPopFs (osz : OpSize) (s : State) : Host.Outcome State Fault Refusal := run (popSeg osz .fs) s
/-- POP GS (rule R261). -/
def execPopGs (osz : OpSize) (s : State) : Host.Outcome State Fault Refusal := run (popSeg osz .gs) s

/-- PUSH ES (rule R265). -/
def execPushEs (osz : OpSize) (s : State) : Host.Outcome State Fault Refusal := run (pushSeg osz .es) s
/-- PUSH CS (rule R265). -/
def execPushCs (osz : OpSize) (s : State) : Host.Outcome State Fault Refusal := run (pushSeg osz .cs) s
/-- PUSH SS (rule R265). -/
def execPushSs (osz : OpSize) (s : State) : Host.Outcome State Fault Refusal := run (pushSeg osz .ss) s
/-- PUSH DS (rule R265). -/
def execPushDs (osz : OpSize) (s : State) : Host.Outcome State Fault Refusal := run (pushSeg osz .ds) s
/-- PUSH FS (rule R265). -/
def execPushFs (osz : OpSize) (s : State) : Host.Outcome State Fault Refusal := run (pushSeg osz .fs) s
/-- PUSH GS (rule R265). -/
def execPushGs (osz : OpSize) (s : State) : Host.Outcome State Fault Refusal := run (pushSeg osz .gs) s

/-- LDS (rule R262). -/
def execLds (osz : OpSize) (dst : Reg) (src : Rm) (s : State) : Host.Outcome State Fault Refusal :=
  run (loadFarPtr .ds osz dst src) s
/-- LES (rule R262). -/
def execLes (osz : OpSize) (dst : Reg) (src : Rm) (s : State) : Host.Outcome State Fault Refusal :=
  run (loadFarPtr .es osz dst src) s
/-- LSS (rule R263): the inhibit latch is not set. -/
def execLss (osz : OpSize) (dst : Reg) (src : Rm) (s : State) : Host.Outcome State Fault Refusal :=
  run (loadFarPtr .ss osz dst src) s
/-- LFS (rule R262). -/
def execLfs (osz : OpSize) (dst : Reg) (src : Rm) (s : State) : Host.Outcome State Fault Refusal :=
  run (loadFarPtr .fs osz dst src) s
/-- LGS (rule R262). -/
def execLgs (osz : OpSize) (dst : Reg) (src : Rm) (s : State) : Host.Outcome State Fault Refusal :=
  run (loadFarPtr .gs osz dst src) s

end Sys2Proof.Machine
end

