-- ==== Sys2Proof/Machine/TableRegs.lean ====
section
/-! DEFINITION. LGDT, SGDT, LIDT, SIDT, LLDT, SLDT, LTR, STR (41_descriptor_table_registers.md). -/

namespace Sys2Proof.Machine

/-- The privilege check (rules R162, R235, R435): level 0, or real-address mode. -/
def privileged : M Unit := do
  let l ← look State.level
  require (l == 0) excGP0

/-- A pseudo-descriptor read: limit, then base; 24 bits of base with 16-bit operand size (rules R236,
R238). The base stands at the operand's offset plus 2, modulo the address size, with no check of the six bytes as one
(DESIGN CHOICE, log entry 70). -/
def readPseudo (osz : OpSize) (m : MemOp) : M TableReg := do
  let lim ← memRead m 0 2
  let base ← memRead m 2 4
  return { base := match osz with | .w32 => base | .w16 => base &&& 0xFFFFFF#32, limit := lo16 lim }

/-- A pseudo-descriptor written, both writes checked first; byte 5 is free with 16-bit operand size
(rules R237, R240; U22). The base goes where `readPseudo` finds it (DESIGN CHOICE, log entry 70). -/
def writePseudo (osz : OpSize) (m : MemOp) (t : TableReg) : M Unit := do
  let wl ← memWindow m 0 2 true
  let wb ← memWindow m 2 4 true
  let u ← draw Config.freeWord
  wl.write (zx16 t.limit)
  wb.write (match osz with
    | .w32 => t.base
    | .w16 => (t.base &&& 0xFFFFFF#32) ||| (u &&& 0xFF000000#32))

/-- SLDT (rule R242). -/
def execSldt (osz : OpSize) (dst : Rm) (s : State) : Host.Outcome State Fault Refusal :=
  run (do
    protectedOnly
    let v ← look (·.ldtr.sel)
    storeSel osz dst v
    return .next) s

/-- STR (rule R244). -/
def execStr (osz : OpSize) (dst : Rm) (s : State) : Host.Outcome State Fault Refusal :=
  run (do
    protectedOnly
    let v ← look (·.tr.sel)
    storeSel osz dst v
    return .next) s

/-- LLDT (rule R241). -/
def execLldt (src : Rm) (s : State) : Host.Outcome State Fault Refusal :=
  run (do
    protectedOnly
    privileged
    let sel ← readRm16 src
    if isNull sel then
      change fun s => { s with ldtr := { s.ldtr with sel := sel, valid := false } }
      return .next
    else
      let e := excGP (selErr sel false)
      require (!ti sel) e
      let d ← fetchOr sel e
      require (!d.s && d.type == 2) e
      require d.present (excNP (selErr sel false))
      change fun s => { s with
        ldtr := { sel := sel, base := d.base, limit := d.limit, valid := true } }
      return .next) s

/-- LTR (rule R243); an 80286 TSS is refused (decision D21). -/
def execLtr (src : Rm) (s : State) : Host.Outcome State Fault Refusal :=
  run (do
    protectedOnly
    privileged
    let sel ← readRm16 src
    let e := excGP (selErr sel false)
    require (!isNull sel) excGP0
    require (!ti sel) e
    let d ← fetchOr sel e
    if !d.s && d.type == 1 then refuse .descriptor286 else
    require (!d.s && d.type == 9) e
    require d.present (excNP (selErr sel false))
    sysWrite (d.addr + 4) 4 (d.d1 ||| 0x200#32)
    change fun s => { s with tr := { sel := sel, base := d.base, limit := d.limit, loaded := true } }
    return .next) s

/-- SGDT (rule R237). -/
def execSgdt (osz : OpSize) (dst : Rm) (s : State) : Host.Outcome State Fault Refusal :=
  run (do
    let m ← memOnly dst
    let t ← look (·.gdtr)
    writePseudo osz m t
    return .next) s

/-- SIDT (rule R240). -/
def execSidt (osz : OpSize) (dst : Rm) (s : State) : Host.Outcome State Fault Refusal :=
  run (do
    let m ← memOnly dst
    let t ← look (·.idtr)
    writePseudo osz m t
    return .next) s

/-- LGDT (rule R236). A register operand is #UD (rule R198) before the level is looked at: the spec does not order
the two (DESIGN CHOICE, log entry 67). -/
def execLgdt (osz : OpSize) (src : Rm) (s : State) : Host.Outcome State Fault Refusal :=
  run (do
    let m ← memOnly src
    privileged
    let t ← readPseudo osz m
    change fun s => { s with gdtr := t }
    return .next) s

/-- LIDT (rule R239). A register operand is #UD (rule R198) before the level is looked at: the spec does not order
the two (DESIGN CHOICE, log entry 67). -/
def execLidt (osz : OpSize) (src : Rm) (s : State) : Host.Outcome State Fault Refusal :=
  run (do
    let m ← memOnly src
    privileged
    let t ← readPseudo osz m
    change fun s => { s with idtr := t }
    return .next) s

end Sys2Proof.Machine
end

