-- ==== Sys2Proof/Machine/SysControl.lean ====
section
/-! DEFINITION. SMSW, LMSW, CLTS, HLT and the moves to and from CRn, DRn, TRn
(47_system_control.md), with the TLB commands of TR6 (20_memory.md rules R127 to R130). -/

namespace Sys2Proof.Machine

/-- OF, SF, ZF, AF, PF and CF left free by a special-register move (rule R436; U25). -/
def freeFlags : M Unit := do
  let u ← draw Config.freeWord
  change fun s => { s with eflags := freeStatus s.eflags u }

/-- What a special-register read ends in: the general register written, the status flags free. -/
def intoReg (dst : Reg) (v : Word) : M Done := do
  change fun s => s.setReg dst v
  freeFlags
  return .next

/-! ## Control registers -/

/-- The prefetch obligation of a write of CR0 (rules R653, R658); one that sets neither PE nor PG leaves
what there was. -/
def crHazard (h : Hazard) (old new : Word) : Hazard :=
  if !old.getLsbD 0 && new.getLsbD 0 then
    (if !old.getLsbD 31 && new.getLsbD 31 then .pePg else .pe)
  else if !old.getLsbD 31 && new.getLsbD 31 then .pg
  else h

/-- CR0 written; setting PE starts protected mode at level 0 with nothing else changed (rules R439,
R652). -/
def State.setCr0 (s : State) (v : Word) : State :=
  { s with
    cr := { s.cr with cr0 := v }
    cpl := if !s.pe && v.getLsbD 0 then 0 else s.cpl
    hazard := crHazard s.hazard s.cr.cr0 v }

/-- CR3 written: the TLB is flushed (rules R124, R438). -/
def State.setCr3 (s : State) (v : Word) : State :=
  { s.flushTlb with cr := { s.cr with cr3 := v, cr3Written := true } }

/-- MOV CR0 (rules R438 to R440); clearing PE is refused (decision D31), and setting PG while CR3 was never
written since reset (rules R658, R671 row 3). What a change of PG leaves in the TLB is unconstrained (U21). -/
def writeCr0 (v : Word) : M Unit := do
  require (!(v.getLsbD 31 && !v.getLsbD 0)) excGP0
  let pe ← look State.pe
  if pe && !v.getLsbD 0 then refuse .clearPE else
  let pg ← look State.pg
  let cr3Written ← look (·.cr.cr3Written)
  if v.getLsbD 31 && !pg && !cr3Written then refuse .cr3NeverWritten else
  change fun s => s.setCr0 v
  onlyIf (pg != v.getLsbD 31) (change State.loosenTlb)

/-! ## Test registers -/

/-- An attribute of a TLB entry from its pair of bits (Table 10-1, rule R128; U4). -/
def pairBit (x y : Bool) : M Bool :=
  if x != y then return x else draw Config.tlbAttr

/-- Whether another block holds an initialised entry with the tag of one about to be written to block `b`
(rules R127, R128: duplicate tags; U10). -/
def duplicates (t : List TlbEntry) (b : BitVec 2) (e : TlbEntry) : Bool :=
  (blocksFrom 0).any fun c =>
    let x := tlbAt t (tlbIndex c e.page)
    c != b && x.known && x.sameTag e

/-- The entry a TLB write command or a lookup describes, with TR7's physical page: its attributes from their
pairs (Table 10-1). -/
def describedEntry (v : Word) : M TlbEntry := do
  let d ← pairBit (v.getLsbD 10) (v.getLsbD 9)
  let u ← pairBit (v.getLsbD 8) (v.getLsbD 7)
  let w ← pairBit (v.getLsbD 6) (v.getLsbD 5)
  let tr7 ← look (·.test.tr7)
  return { page := pageOf v, v := v.getLsbD 11, d := d, u := u, w := w,
           phys := tr7.extractLsb' 12 20, known := true }

/-- The TLB write command (rule R128). -/
def tlbWrite (v : Word) : M Unit := do
  let s ← get
  let b := s.test.tr7.extractLsb' 2 2
  if !s.test.tr7.getLsbD 4 then refuse .tlbWriteHt
  else do
    let e ← describedEntry v
    if duplicates s.tlb b e then refuse .tlbDuplicate
    else setTlb (tlbIndex b e.page) e

/-- Whether an attribute matches its pair: as Table 10-1 says, and by the free choice `k` where the pair is 00
or 11 (rule R129; U4). -/
def pairMatch (k : Nat) (b x y : Bool) : Bool := if x != y then b == x else Config.tlbLookup k

/-- Whether an entry matches a lookup (rule R129), with the free choices from `k` on. -/
def TlbEntry.lookup (e : TlbEntry) (v : Word) (k : Nat) : Bool :=
  e.page == pageOf v && e.v == v.getLsbD 11 && pairMatch k e.d (v.getLsbD 10) (v.getLsbD 9) &&
    pairMatch (k + 1) e.u (v.getLsbD 8) (v.getLsbD 7) && pairMatch (k + 2) e.w (v.getLsbD 6) (v.getLsbD 5)

/-- Whether the three attribute pairs of a lookup are defined (Table 10-1). -/
def pairsDefined (v : Word) : Bool :=
  v.getLsbD 10 != v.getLsbD 9 && v.getLsbD 8 != v.getLsbD 7 && v.getLsbD 6 != v.getLsbD 5

/-- TR7 with HT, REP and the physical address replaced; its reserved bits stay (rule R57). -/
def tr7Result (old : Word) (hit : Bool) (block : BitVec 2) (phys : BitVec 20) : Word :=
  phys ++ old.extractLsb' 5 7 ++ BitVec.ofBool hit ++ block ++ old.extractLsb' 0 2

/-- TR6 with its attribute pairs taken from an entry (rule R129). -/
def tr6Result (v : Word) (e : TlbEntry) : Word :=
  let x := setBit (setBit v 10 e.d) 9 (!e.d)
  let x := setBit (setBit x 8 e.u) 7 (!e.u)
  setBit (setBit x 6 e.w) 5 (!e.w)

/-- The blocks whose entry matches a lookup, with the free choices from `k` on. -/
def lookupBlocks (t : List TlbEntry) (v : Word) (k : Nat) : List (BitVec 2) :=
  (blocksFrom 0).filter fun b => (tlbAt t (tlbIndex b (pageOf v))).lookup v (k + 3 * b.toNat)

/-- Whether a lookup is unpredictable: V = 0, and some tag is not initialised (rule R129; U11). -/
def unpredictable (t : List TlbEntry) (v : Word) : Bool := !v.getLsbD 11 && t.any fun e => !e.known

/-- The TLB lookup command (rule R129), after TR6 has taken the value `v`. Exactly one match sets the
attributes of TR6, HT, REP and the physical address; a miss clears HT and leaves REP and the address free (U4);
several matches leave HT, REP and the address free, and so does an unpredictable lookup, whose attributes are
those of whatever entry it hits (U11). -/
def tlbLookup (v : Word) : M Unit := do
  let f ← draw Config.freeWord
  let h ← draw Config.tlbLookup
  let s ← get
  let free (ht : Bool) : Word := tr7Result s.test.tr7 ht (f.extractLsb' 2 2) (f.extractLsb' 12 20)
  if unpredictable s.tlb v then do
    let e ← describedEntry v
    change fun s => { s with test := { tr6 := if h then tr6Result v e else v, tr7 := free h } }
  else do
    change fun s => { s with draws := s.draws + 12 }
    match lookupBlocks s.tlb v s.draws with
    | [] => change fun s => { s with test := { s.test with tr7 := free false } }
    | [b] =>
      let e := tlbAt s.tlb (tlbIndex b (pageOf v))
      change fun s => { s with test := { tr6 := tr6Result v e, tr7 := tr7Result s.test.tr7 true b e.phys } }
    | _ => change fun s => { s with test := { s.test with tr7 := free h } }

/-- A move to TR6 (rule R442). With paging on ordinary translations meddle with the command: a lookup finds
an unconstrained TLB, and a write leaves one (rule R130, decision D18). -/
def writeTr6 (v : Word) : M Unit := do
  let pg ← look State.pg
  change fun s => { s with test := { s.test with tr6 := v } }
  if v.getLsbD 0 then do
    onlyIf pg (change State.unknownTlb)
    tlbLookup v
  else do
    tlbWrite v
    onlyIf pg (change State.unknownTlb)

/-! ## Debug registers -/

/-- A debug register by number; DR4 and DR5 have no content (U14). -/
def State.drOf (s : State) (n : BitVec 3) : Option Word :=
  match n.toNat with
  | 0 => some s.dr.dr0 | 1 => some s.dr.dr1 | 2 => some s.dr.dr2 | 3 => some s.dr.dr3
  | 6 => some s.dr.dr6 | 7 => some s.dr.dr7
  | _ => none

/-- A debug register replaced, by number (rule R441). -/
def State.setDr (s : State) (n : BitVec 3) (v : Word) : Option State :=
  match n.toNat with
  | 0 => some { s with dr := { s.dr with dr0 := v } }
  | 1 => some { s with dr := { s.dr with dr1 := v } }
  | 2 => some { s with dr := { s.dr with dr2 := v } }
  | 3 => some { s with dr := { s.dr with dr3 := v } }
  | 6 => some { s with dr := { s.dr with dr6 := v } }
  | 7 => some { s with dr := { s.dr with dr7 := v } }
  | _ => none

/-! ## The instructions -/

/-- SMSW (rule R447). -/
def execSmsw (osz : OpSize) (dst : Rm) (s : State) : Host.Outcome State Fault Refusal :=
  run (do
    let v ← look (·.cr.cr0)
    storeSel osz dst (lo16 v)
    return .next) s

/-- CR0 after LMSW: TS, EM and MP as given, PE set or kept (rule R446). -/
def lmswValue (old : Word) (v : BitVec 16) : Word :=
  (old &&& ~~~0xE#32) ||| (zx16 v &&& 0xF#32)

/-- LMSW (rule R446). -/
def execLmsw (src : Rm) (s : State) : Host.Outcome State Fault Refusal :=
  run (do
    privileged
    let v ← readRm16 src
    change fun s => s.setCr0 (lmswValue s.cr.cr0 v)
    return .next) s

/-- CLTS (rule R450). -/
def execClts (s : State) : Host.Outcome State Fault Refusal :=
  run (do
    privileged
    change fun s => { s with cr := { s.cr with cr0 := s.cr.cr0 &&& ~~~8#32 } }
    return .next) s

/-- HLT (rule R455). -/
def execHlt (s : State) : Host.Outcome State Fault Refusal :=
  run (do
    privileged
    change fun s => { s with run := .halted }
    return .next) s

/-- MOV r32, CRn (rule R437). -/
def execMovRegCr (dst : Reg) (n : BitVec 3) (s : State) : Host.Outcome State Fault Refusal :=
  run (do
    privileged
    let c ← look (·.cr)
    match n.toNat with
    | 0 => intoReg dst c.cr0
    | 2 => intoReg dst c.cr2
    | 3 => intoReg dst c.cr3
    | _ => raise excUD) s

/-- MOV CRn, r32 (rule R438). -/
def execMovCrReg (n : BitVec 3) (src : Reg) (s : State) : Host.Outcome State Fault Refusal :=
  run (do
    privileged
    let v ← look fun s => s.reg src
    match n.toNat with
    | 0 => writeCr0 v
    | 2 => change fun s => { s with cr := { s.cr with cr2 := v } }
    | 3 => change fun s => s.setCr3 v
    | _ => raise excUD
    freeFlags
    return .next) s

/-- MOV r32, DRn (rule R441); general detect is a debug fault of the boundary before it (rule R511 step 4,
`generalDetect`). -/
def execMovRegDr (dst : Reg) (n : BitVec 3) (s : State) : Host.Outcome State Fault Refusal :=
  run (do
    privileged
    let v ← look fun s => s.drOf n
    match v with
    | none => refuse .debugRegister45
    | some v => intoReg dst v) s

/-- MOV DRn, r32 (rule R441); general detect as above. -/
def execMovDrReg (n : BitVec 3) (src : Reg) (s : State) : Host.Outcome State Fault Refusal :=
  run (do
    privileged
    let s ← get
    match s.setDr n (s.reg src) with
    | none => refuse .debugRegister45
    | some s' =>
      change fun _ => s'
      freeFlags
      return .next) s

/-- MOV r32, TRn (rule R442). -/
def execMovRegTr (dst : Reg) (n : BitVec 3) (s : State) : Host.Outcome State Fault Refusal :=
  run (do
    privileged
    let t ← look (·.test)
    match n.toNat with
    | 6 => intoReg dst t.tr6
    | 7 => intoReg dst t.tr7
    | _ => refuse .testRegister) s

/-- MOV TRn, r32 (rule R442). -/
def execMovTrReg (n : BitVec 3) (src : Reg) (s : State) : Host.Outcome State Fault Refusal :=
  run (do
    privileged
    let v ← look fun s => s.reg src
    match n.toNat with
    | 6 => writeTr6 v
    | 7 => change fun s => { s with test := { s.test with tr7 := v } }
    | _ => refuse .testRegister
    freeFlags
    return .next) s

end Sys2Proof.Machine
end

