-- ==== Sys2Proof/Machine/Dispatch.lean ====
section
/-! DEFINITION. The dispatch: one arm per constructor of Instr, one direct call of its meaning. -/

namespace Sys2Proof.Machine

/-- What an instruction does (the rules are cited at each meaning). -/
def exec (i : Instr) (s : State) : Host.Outcome State Fault Refusal :=
  match i with
  | .arpl dst src => Sys2Proof.Machine.execArpl dst src s
  | .lar osz dst src => Sys2Proof.Machine.execLar osz dst src s
  | .lsl osz dst src => Sys2Proof.Machine.execLsl osz dst src s
  | .verr src => Sys2Proof.Machine.execVerr src s
  | .verw src => Sys2Proof.Machine.execVerw src s
  | .sldt osz dst => Sys2Proof.Machine.execSldt osz dst s
  | .str osz dst => Sys2Proof.Machine.execStr osz dst s
  | .lldt src => Sys2Proof.Machine.execLldt src s
  | .ltr src => Sys2Proof.Machine.execLtr src s
  | .sgdt osz dst => Sys2Proof.Machine.execSgdt osz dst s
  | .sidt osz dst => Sys2Proof.Machine.execSidt osz dst s
  | .lgdt osz src => Sys2Proof.Machine.execLgdt osz src s
  | .lidt osz src => Sys2Proof.Machine.execLidt osz src s
  | .movSregRm sr src => Sys2Proof.Machine.execMovSregRm sr src s
  | .movRmSreg osz dst sr => Sys2Proof.Machine.execMovRmSreg osz dst sr s
  | .popEs osz => Sys2Proof.Machine.execPopEs osz s
  | .popSs osz => Sys2Proof.Machine.execPopSs osz s
  | .popDs osz => Sys2Proof.Machine.execPopDs osz s
  | .popFs osz => Sys2Proof.Machine.execPopFs osz s
  | .popGs osz => Sys2Proof.Machine.execPopGs osz s
  | .pushEs osz => Sys2Proof.Machine.execPushEs osz s
  | .pushCs osz => Sys2Proof.Machine.execPushCs osz s
  | .pushSs osz => Sys2Proof.Machine.execPushSs osz s
  | .pushDs osz => Sys2Proof.Machine.execPushDs osz s
  | .pushFs osz => Sys2Proof.Machine.execPushFs osz s
  | .pushGs osz => Sys2Proof.Machine.execPushGs osz s
  | .lds osz dst src => Sys2Proof.Machine.execLds osz dst src s
  | .les osz dst src => Sys2Proof.Machine.execLes osz dst src s
  | .lss osz dst src => Sys2Proof.Machine.execLss osz dst src s
  | .lfs osz dst src => Sys2Proof.Machine.execLfs osz dst src s
  | .lgs osz dst src => Sys2Proof.Machine.execLgs osz dst src s
  | .jmpRel8 osz rel => Sys2Proof.Machine.execJmpRel8 osz rel s
  | .jmpRel rel => Sys2Proof.Machine.execJmpRel rel s
  | .jmpRm osz src => Sys2Proof.Machine.execJmpRm osz src s
  | .jmpFar off sel => Sys2Proof.Machine.execJmpFar off sel s
  | .jmpFarM osz src => Sys2Proof.Machine.execJmpFarM osz src s
  | .callRel rel => Sys2Proof.Machine.execCallRel rel s
  | .callRm osz src => Sys2Proof.Machine.execCallRm osz src s
  | .callFar off sel => Sys2Proof.Machine.execCallFar off sel s
  | .callFarM osz src => Sys2Proof.Machine.execCallFarM osz src s
  | .ret osz => Sys2Proof.Machine.execRet osz s
  | .retImm osz n => Sys2Proof.Machine.execRetImm osz n s
  | .retFar osz => Sys2Proof.Machine.execRetFar osz s
  | .retFarImm osz n => Sys2Proof.Machine.execRetFarImm osz n s
  | .inAlImm port => Sys2Proof.Machine.execInAlImm port s
  | .inEaxImm osz port => Sys2Proof.Machine.execInEaxImm osz port s
  | .inAlDx => Sys2Proof.Machine.execInAlDx s
  | .inEaxDx osz => Sys2Proof.Machine.execInEaxDx osz s
  | .outImmAl port => Sys2Proof.Machine.execOutImmAl port s
  | .outImmEax osz port => Sys2Proof.Machine.execOutImmEax osz port s
  | .outDxAl => Sys2Proof.Machine.execOutDxAl s
  | .outDxEax osz => Sys2Proof.Machine.execOutDxEax osz s
  | .insb asz => Sys2Proof.Machine.execInsb asz s
  | .ins osz asz => Sys2Proof.Machine.execIns osz asz s
  | .outsb asz ovr => Sys2Proof.Machine.execOutsb asz ovr s
  | .outs osz asz ovr => Sys2Proof.Machine.execOuts osz asz ovr s
  | .rep t => Sys2Proof.Machine.execRep t s
  | .cli => Sys2Proof.Machine.execCli s
  | .sti => Sys2Proof.Machine.execSti s
  | .pushf osz => Sys2Proof.Machine.execPushf osz s
  | .popf osz => Sys2Proof.Machine.execPopf osz s
  | .int3 => Sys2Proof.Machine.execInt3 s
  | .intN n => Sys2Proof.Machine.execIntN n s
  | .into => Sys2Proof.Machine.execInto s
  | .iret osz => Sys2Proof.Machine.execIret osz s
  | .bound osz r src => Sys2Proof.Machine.execBound osz r src s
  | .smsw osz dst => Sys2Proof.Machine.execSmsw osz dst s
  | .lmsw src => Sys2Proof.Machine.execLmsw src s
  | .clts => Sys2Proof.Machine.execClts s
  | .hlt => Sys2Proof.Machine.execHlt s
  | .movRegCr dst n => Sys2Proof.Machine.execMovRegCr dst n s
  | .movCrReg n src => Sys2Proof.Machine.execMovCrReg n src s
  | .movRegDr dst n => Sys2Proof.Machine.execMovRegDr dst n s
  | .movDrReg n src => Sys2Proof.Machine.execMovDrReg n src s
  | .movRegTr dst n => Sys2Proof.Machine.execMovRegTr dst n s
  | .movTrReg n src => Sys2Proof.Machine.execMovTrReg n src s
  | .esc op ext rm => Sys2Proof.Machine.execEsc op ext rm s
  | .wait => Sys2Proof.Machine.execWait s
  | .lock t => Sys2Proof.Machine.execLock t s
  | .xchg8 rm r => Sys2Proof.Machine.execXchg8 rm r s
  | .xchg osz rm r => Sys2Proof.Machine.execXchg osz rm r s
  | .nop => Sys2Proof.Machine.execNop s
  | .movRegImm dst v => Sys2Proof.Machine.execMovRegImm dst v s
  | .movReg8Imm dst v => Sys2Proof.Machine.execMovReg8Imm dst v s
  | .movRmReg osz dst src => Sys2Proof.Machine.execMovRmReg osz dst src s
  | .movRegRm osz dst src => Sys2Proof.Machine.execMovRegRm osz dst src s
  | .pushReg osz src => Sys2Proof.Machine.execPushReg osz src s
  | .popReg osz dst => Sys2Proof.Machine.execPopReg osz dst s
  | .orEaxImm v => Sys2Proof.Machine.execOrEaxImm v s
  | .orAlImm v => Sys2Proof.Machine.execOrAlImm v s

end Sys2Proof.Machine
end

