-- ==== Sys2Proof/Machine/Fetch.lean ====
section
/-! DEFINITION. Fetching an instruction: CS limit, page by page, at most 15 bytes, with the hazards of the
prefetch queue (10_state.md rule R24; 20_memory.md rule R138; 30_encoding.md rules R190, R191;
70_reset_and_hazards.md rules R653, R658, R670). -/

namespace Sys2Proof.Machine

/-- The linear address of the instruction at CS:EIP (rules R23, R104). -/
def State.fetchLin (s : State) : Word := s.seg.cs.base + s.eip

/-- How many bytes may be fetched: at most the longest instruction, inside the CS limit (rules R154,
R191). -/
def State.fetchRoom (s : State) : Nat := min maxLength (s.seg.cs.limit.toNat + 1 - s.eip.toNat)

/-- The physical address of a fetch; under the old mapping where `flat` (rule R658). -/
def fetchTranslate (flat : Bool) (lin : Word) : M Word := do
  let s ← get
  if flat then return lin else translate lin false s.user

/-- Addresses as the bus sees them: the high-address latch applies to CS (rule R66, decision D43). -/
def State.fetchPhys (s : State) (ps : List Nat) : List Nat :=
  if s.highLatch then ps.map forceHigh else ps

/-- The physical addresses of `n` bytes of one page of code. -/
def fetchPage (flat : Bool) (lin : Word) (n : Nat) : M (List Nat) := do
  let p ← fetchTranslate flat lin
  let s ← get
  return s.fetchPhys (physRange p.toNat n)

/-- Bytes about to execute were stored since the last transfer: refused (rule R138, decision D19). -/
def checkFresh (ps : List Nat) : M Unit := do
  let s ← get
  if ps.any fun a => s.dirty.contains a then refuse .staleCode else pure ()

/-- How many of the first bytes decide that an opcode is invalid (rule R200). -/
def invalidLength (d32 : Bool) (bs : List Byte) : Nat :=
  ((List.range bs.length).find? fun k =>
    match decode d32 (bs.take k) with
    | .error .invalid => true
    | _ => false).getD bs.length

/-- What the bytes at CS:EIP, of addresses `ps`, mean: an instruction with its length, or the exception or
refusal they call for (rules R190, R200, R201, R381). Where an instruction is too long and is also invalid or
one of Part I, the decoder's answer goes first (DESIGN CHOICE, log entry 61). -/
def decoded (d32 : Bool) (bs : List Byte) (ps : List Nat) : M (Instr × Nat) :=
  match decode d32 bs with
  | .ok (i, n) => do
    checkFresh (ps.take n)
    return (i, n)
  | .error .invalid => do
    checkFresh (ps.take (invalidLength d32 bs))
    raise excUD
  | .error .more => do
    checkFresh ps
    raise excGP0
  | .error .application => refuse .applicationOpcode
  | .error .repne => refuse .repneString

/-- The instruction at CS:EIP and its length: a second page is fetched only if the first does not hold
the whole instruction, whose bytes the first page's then are (rules R24, R107, R138, R191). Of a page, all the bytes an instruction could have are read
ahead (rule R60; where a device answers, log entry 10). -/
def fetchDecode (flat : Bool) : M (Instr × Nat) := do
  let s ← get
  require (!s.pe || s.seg.cs.valid) excGP0
  require (s.eip ≤ s.seg.cs.limit) excGP0
  let room := s.fetchRoom
  let first := min room (pageLeft s.fetchLin)
  let ps ← fetchPage flat s.fetchLin first
  let bs ← readBytes ps
  match decode s.code32 bs with
  | .error .more =>
    if first < room then do
      checkFresh ps
      let qs ← fetchPage flat (s.fetchLin + BitVec.ofNat 32 first) (room - first)
      let cs ← readBytes qs
      decoded s.code32 (bs ++ cs) (ps ++ qs)
    else decoded s.code32 bs ps
  | _ => decoded s.code32 bs ps

/-- JMP, CALL, RET, IRET, INT n, INT 3, and INTO where OF is set: what discards the prefetched bytes (rule
R670). -/
def isTransfer (overflow : Bool) : Instr → Bool
  | .into => overflow
  | .jmpRel8 .. | .jmpRel .. | .jmpRm .. | .jmpFar .. | .jmpFarM .. => true
  | .callRel .. | .callRm .. | .callFar .. | .callFarM .. => true
  | .ret .. | .retImm .. | .retFar .. | .retFarImm .. | .iret .. | .intN .. | .int3 => true
  | _ => false

/-- Whether `n` bytes of code lie on pages that map to themselves (rule R658): the frames are compared with the linear
pages, whatever the high-address latch (decision D43) does to the bus addresses (DESIGN CHOICE, log entry 83). -/
def identityMapped (lin : Word) (n : Nat) : M Bool := do
  let s ← get
  let p ← attempt (translateRange lin n false s.user)
  return p == some (physRange lin.toNat n)

/-- The obligations of rules R653 and R658 on the instruction that follows one which set PE or PG (U29):
a control transfer; after PG, else code on a page that maps to itself. -/
def checkHazard (i : Instr) (n : Nat) : M Unit := do
  let s ← get
  if s.hazard == .none || isTransfer (s.flag bitOF) i then pure ()
  else if s.hazard == .pe || s.hazard == .pePg then refuse .prefetchHazard
  else do
    let ok ← identityMapped s.fetchLin n
    if ok then change fun s => { s with hazard := .pgIdentity } else refuse .prefetchHazard

/-- The instruction to execute next, its offset's successor recorded (rules R23, R503). The instruction
after one that set PG comes from the queue, hence from the old mapping (rule R658). A repeated or a waiting instruction
is fetched and decoded at every repetition and every step of the wait (DESIGN CHOICE, log entries 77 and 84). -/
def nextInstr : M Instr := do
  let h ← look (·.hazard)
  let (i, n) ← fetchDecode (h == .pg || h == .pePg)
  checkHazard i n
  change fun s => { s with eipNext := s.eip + BitVec.ofNat 32 n }
  return i

end Sys2Proof.Machine
end

