-- ==== Sys2Proof/Machine/Boundary.lean ====
section
/-! DEFINITION. The instruction boundary: what the environment presents, RESET, debug traps and faults,
NMI and INTR, and the execution of the next instruction (60_exceptions.md rules R505 to R511, 61_debug.md,
70_reset_and_hazards.md rule R640). -/

namespace Sys2Proof.Machine

/-! ## The environment -/

/-- A byte that another bus master wrote: RAM changes (rules R11, R133). -/
def State.busWrite (s : State) (a : Nat) (v : Byte) : State :=
  if s.kindAt a = .ram then s.storeRam a v else s

/-- Bytes that other bus masters wrote to physical memory (rules R11, R133). -/
def State.busWrites (s : State) : List Host.Cell → State
  | [] => s
  | (a, v) :: r => (s.busWrite a v).busWrites r

/-- The environment's next input; when there is none the pins keep their levels. An NMI request not yet
accepted is held pending; one presented while the NMI latch is set is ignored and not remembered (rules R11,
R61, R62, R64, R506, decision D36). -/
def State.sense (s : State) : State :=
  match s.env with
  | [] => s
  | p :: ps =>
    let nmi := !s.nmiLatch && (p.nmi || s.pins.nmi)
    ({ s with env := ps, pins := { p with nmi := nmi, writes := [] } }).busWrites p.writes

/-- EAX after RESET: zero after a passed self-test, nonzero after a failed one, and zero by the model's
choice where none was requested by BUSY# (rules R70, R641; log entry 1). -/
def State.resetEax (s : State) : Word :=
  if s.pins.busy && !s.plat.selfTestPasses then
    (if Config.freeWord s.draws = 0 then 1 else Config.freeWord s.draws)
  else 0

/-- RESET (rule R640): every register at its reset value, DL the stepping and ET the coprocessor's
(rules R70, R71), memory and devices unchanged. -/
def State.doReset (s : State) : State :=
  let r := State.reset
  { r with
    gpr := { r.gpr with eax := s.resetEax, edx := 0x300#32 ||| s.plat.steppingId.zeroExtend 32 }
    cr := { r.cr with cr0 := if s.plat.cop387 then 0x10#32 else 0 }
    pins := { s.pins with reset := false }
    env := s.env
    draws := s.draws + 1
    io := s.io
    plat := s.plat
    mem := s.mem }

/-! ## Debug exceptions -/

/-- The breakpoints that match the instruction at a linear address (rule R610). -/
def DebugRegs.codeMatch (d : DebugRegs) (n : Nat) (lin : Word) : Bool :=
  d.rw n = 0 && d.len n = 0 && d.addr n == lin

/-- Whether an enabled breakpoint has an undefined encoding (rules R604, R605, R610; U27). -/
def DebugRegs.undefinedOn (d : DebugRegs) : Bool :=
  [0, 1, 2, 3].any fun n =>
    d.enabled n && (d.len n = 2 || d.rw n = 2 || (d.rw n = 0 && d.len n != 0))

/-- Bits B0 to B3 that DR6 takes for matches of breakpoints that are not enabled: free (rule R607). -/
def freeB (others : BitVec 4) (draws : Nat) : BitVec 4 :=
  others &&& maskOf fun n => Config.setsDisabledB (draws + n)

/-- DR6 after a debug exception; no bit is ever cleared (rule R607). -/
def dr6After (old : Word) (b : BitVec 4) (bd bs bt : Bool) : Word :=
  old ||| b.zeroExtend 32 ||| (if bd then 0x2000#32 else 0) ||| (if bs then 0x4000#32 else 0)
    ||| (if bt then 0x8000#32 else 0)

/-- What a boundary leaves pending: matches to be reported one boundary late, with the matches beside them of
breakpoints that are not enabled (rules R607, R609). -/
def Pending.promote (p : Pending) : Pending :=
  { Pending.none with hits := p.late, carried := if p.late = 0 then 0 else p.others }

/-- The matches of breakpoints that are not enabled, for the traps that are reported now (rule R607). -/
def Pending.unarmed (p : Pending) : BitVec 4 := p.others ||| p.carried

/-- Whether a debug trap is pending (rule R608). -/
def Pending.trap (p : Pending) : Bool := p.hits != 0 || p.bs || p.bt

/-- A debug exception about to be delivered: DR6 written, the machine running (rule R607); a boundary that
recognises it is the one boundary that STI leaves open (rule R390). -/
def State.debugged (s : State) (b : BitVec 4) (others : BitVec 4) (bd bs bt : Bool) : State :=
  { s with
    dr := { s.dr with dr6 := dr6After s.dr.dr6 (b ||| freeB others s.draws) bd bs bt }
    draws := s.draws + 4
    pend := s.pend.promote
    stiShadow := false
    run := .running }

/-- Whether the debug handler is a task, and is the current one (rule R619). -/
def ownDebugTask : M Bool := do
  let s ← get
  if !s.pe || s.idtr.limit.toNat < 15 then return false
  else
    let g ← readDesc (s.idtr.base + 8)
    return !g.s && g.type == 5 && g.present && g.gateSel.extractLsb' 2 14 == s.tr.sel.extractLsb' 2 14

/-- The instruction breakpoints at the next instruction, enabled and not enabled (rule R610). -/
def State.codeHits (s : State) (enabled : Bool) : BitVec 4 :=
  maskOf fun n => (s.dr.enabled n == enabled) && s.dr.codeMatch n s.fetchLin

/-- Whether an instruction uses a debug register. -/
def usesDr : Instr → Bool
  | .movRegDr .. | .movDrReg .. => true
  | _ => false

/-- The latches of the boundary cleared, and the debug traps it has not reported dropped; the machine executes
(rules R508, R509). -/
def State.cleared (s : State) : State :=
  { s with inhibit := false, stiShadow := false, pend := s.pend.promote, run := .running }

/-- The machine starts to execute at this boundary: the state `execute` fetches in, when no event is
pending (rules R509, R511). -/
def State.opened (s : State) : State := State.cleared { s with draws := s.draws + 1 }

/-- General detect: the next instruction would use a debug register that an ICE-386 owns, at a level that may
(rule R617). The fetch it judges is the one that `execute` makes, so that none other is executed. -/
def State.generalDetect (s : State) : Bool :=
  s.plat.iceActive && s.level == 0 &&
    match nextInstr s.opened with
    | .ok i _ => usesDr i
    | .error _ _ => false

/-- The instruction breakpoints at the next instruction that a debug trap may report beside itself: none with RF set,
which has debug faults ignored (rules R601, R614, R620). -/
def State.besideTrap (s : State) : BitVec 4 := if s.flag bitRF then 0 else s.codeHits true ||| s.codeHits false

/-- DR6 for the debug traps of the last instruction, BT as `bt` says. The debug faults of the next instruction are
discarded (rule R510), but the one exception "may report either or both" (rule R601, R620): whether it sets their Bn and
BD too is free (DESIGN CHOICE, log entry 85). -/
def State.trapped (s : State) (bt : Bool) : State :=
  s.debugged s.pend.hits (s.pend.unarmed ||| s.besideTrap)
    (!s.flag bitRF && s.generalDetect && Config.trapTakesBd s.draws) s.pend.bs bt

/-- The debug traps of the last instruction, as one exception (rules R608, R511 step 3); DR6 as `State.trapped` has it
(DESIGN CHOICE, log entry 85). -/
def reportTraps (s : State) : Host.Outcome State Fault Refusal :=
  deliverEvent { vector := 1, cls := .exception, ret := s.eip, ext := true } (s.trapped s.pend.bt)

/-- Debug traps at a boundary. The T-bit trap of the debug handler's own task comes again without end, and
the handler's first instruction is never reached (rule R619; log entry 62). -/
def debugTrap (s : State) : Host.Outcome State Fault Refusal :=
  if s.pend.bt then
    match ownDebugTask s with
    | .ok true t =>
      let u := t.trapped true
      .next { u with pend := { u.pend with bt := true } }
    | _ => reportTraps s
  else reportTraps s

/-- Whether the next instruction meets a debug fault: an enabled instruction breakpoint, or general detect,
with RF clear (rules R610, R617, decision D41). -/
def State.debugFaults (s : State) : Bool :=
  !s.flag bitRF && (s.codeHits true != 0 || s.generalDetect)

/-- A debug fault of the next instruction: its instruction breakpoints, with BD where general detect holds; a
breakpoint that is not enabled and matches, the next instruction or an access of the last one, may set its bit, in
either case (rules R607, R610, R617, R511 step 4; log entry 23). -/
def debugFault (s : State) : Host.Outcome State Fault Refusal :=
  deliverEvent { vector := 1, cls := .exception, fault := true, ret := s.eip, ext := true }
    (s.debugged (s.codeHits true) (s.codeHits false ||| s.pend.unarmed) s.generalDetect false false)

/-! ## Execution and interrupts -/

/-- Execute the next instruction: the latches of the boundary are cleared (rule R509), the instruction
is fetched and run, or the exception of its fetch is taken. So it is for every repetition of REP and every step of a
wait on BUSY# too (DESIGN CHOICE, log entries 77 and 84). -/
def execute (s : State) : Host.Outcome State Fault Refusal :=
  if s.dr.undefinedOn then .refused .breakpointUndefined
  else
    match nextInstr s.cleared with
    | .ok i s' => exec i s'
    | .error (.exc e) s' => takeException e s'
    | .error (.fault f) _ => .fault f
    | .error (.refuse r) _ => .refused r

/-- NMI accepted (rules R506, R567): the latch is set, the request consumed. -/
def acceptNmi (s : State) : Host.Outcome State Fault Refusal :=
  deliverEvent { vector := 2, cls := .external, ret := s.eip, ext := true }
    { s with nmiLatch := true, pins := { s.pins with nmi := false }, run := .running,
             stiShadow := false, pend := s.pend.promote }

/-- INTR acknowledged, with the vector the environment supplies (rule R530). -/
def acceptIntr (n : Byte) (s : State) : Host.Outcome State Fault Refusal :=
  deliverEvent { vector := n, cls := .external, ret := s.eip, ext := true }
    { s with run := .running, stiShadow := false, pend := s.pend.promote }

/-- The vector of an INTR that is recognised: IF is set, and right after an STI that set it the choice
is free (rules R390, R507; decision D28). -/
def State.intrNow (s : State) : Option Byte :=
  if s.flag bitIF && (!s.stiShadow || Config.stiRecognises s.draws) then s.pins.intr else none

/-- Interrupts, then the next instruction; a halted processor waits (rules R455, R511 step 5). -/
def interruptOr (go : State → Host.Outcome State Fault Refusal) (s : State) :
    Host.Outcome State Fault Refusal :=
  if s.pins.nmi && !s.nmiLatch then acceptNmi s
  else
    match s.intrNow with
    | some n => acceptIntr n { s with draws := s.draws + 1 }
    | none => go { s with draws := s.draws + 1 }

/-- The vector of a software interrupt: INT n, INT 3, and INTO where OF is set (rules R411, R412, R414). -/
def softVector (s : State) : Instr → Option Byte
  | .intN n => some n
  | .int3 => some 3
  | .into => if s.flag bitOF then some 4 else none
  | _ => none

/-- Whether the next instruction is a software interrupt whose own delivery is refused. -/
def State.softRefused (s : State) : Bool :=
  match nextInstr s.cleared with
  | .ok i t =>
    match softVector t i with
    | some n =>
      match softInt n t with
      | .error (.refuse _) _ => true
      | _ => false
    | none => false
  | .error _ _ => false

/-- The next instruction under an IDT that holds nothing: no delivery of an exception it raises is refused or stops
(rule R557). -/
def State.unvectored (s : State) : Host.Outcome State Fault Refusal :=
  execute { s with idtr := { s.idtr with limit := 0 } }

/-- Whether it is the next instruction itself that is refused, its own delivery where it is a software interrupt,
and not the delivery of an exception it raises. -/
def State.refusedItself (s : State) : Bool :=
  s.softRefused ||
    match s.unvectored with
    | .refused _ => true
    | _ => false

/-- Whether the next instruction raises #MP, which is an abort and no fault (rules R475, R568). -/
def State.overruns (s : State) : Bool :=
  match s.unvectored with
  | .next t => t.ended == .raised 9
  | _ => false

/-- An instruction with a debug fault: another fault of the instruction outranks it (rules R510, R511 step 4,
R614); the abort #MP is no fault, and does not (rules R475, R568). One that the model would refuse to execute is not
executed, as the debug fault comes first; of an instruction of Part I it is not known whether it would have raised a
fault (DESIGN CHOICE, log entry 23). -/
def breakOr (s : State) : Host.Outcome State Fault Refusal :=
  if s.dr.undefinedOn then .refused .breakpointUndefined
  else
    let u : State := { s with draws := s.draws + 1 }
    match execute u with
    | .next t =>
      match t.ended with
      | .raised v => if v = 9 then debugFault s else .next t
      | .completed => debugFault s
    | .fault f => if u.overruns then debugFault s else .fault f
    | .refused r => if u.refusedItself || u.overruns then debugFault s else .refused r

/-- The boundary procedure (rule R511). After a load of SS nothing is recognised and the pending debug
traps are dropped (rule R509, decision D37). An instruction that waits on BUSY# stands at such a boundary at every step
of the wait: debug traps and instruction breakpoints are reported there, and the instruction is fetched and decoded anew
(DESIGN CHOICE, log entries 75 to 77). While the processor is halted no debug fault of the instruction after HLT is
reported; a request that ends the halt is delivered first (rule R455; DESIGN CHOICE, log entry 87). -/
def boundary (s : State) : Host.Outcome State Fault Refusal :=
  if s.inhibit then execute { s with pend := .none }
  else if s.pend.trap then debugTrap s
  else if s.run == .halted then interruptOr .next s
  else if s.debugFaults then breakOr s
  else interruptOr execute s

end Sys2Proof.Machine
end

