-- ==== Sys2Proof/Machine/Step.lean ====
section
/-! DEFINITION. One step: the environment's input, then RESET, shutdown, or one instruction boundary with
at most one delivery or one instruction. -/

namespace Sys2Proof.Machine

/-- No event ends a halt or a wait: neither a debug trap, nor an NMI that is accepted, nor an INTR that
is recognised (rules R455, R473). -/
def State.unasked (s : State) : Bool :=
  !s.inhibit && !s.pend.trap && (!s.pins.nmi || s.nmiLatch) && (!s.flag bitIF || s.pins.intr.isNone)

/-- Whether the environment has nothing more to present, and what it presents ends neither shutdown nor a halt nor a
wait: no RESET; for a halt no event; for a wait no event, BUSY# active, and no instruction breakpoint at the waiting
instruction, which is reported during the wait (rules R455, R473, R557, R690; log entry 76). -/
def State.stuck (s : State) (r : RunState) : Bool :=
  s.run == r && s.env.isEmpty && !s.pins.reset &&
    (r == .shutdown || (r == .halted && s.unasked) || (r == .waiting && s.pins.busy && s.unasked && !s.debugFaults))

/-- One step of the machine. Shutdown is left only by RESET (rule R557, decision D38), a halt by RESET, NMI
or INTR (rule R455), a wait by those or by BUSY# going inactive (rule R473): the step goes on while the environment has
more to present, and is a fault when it has not (rule R690). A state with VM set is refused (decision D2). -/
def step (s : State) : Host.Outcome State Fault Refusal :=
  if s.stuck .shutdown then .fault .shutdown
  else if s.stuck .halted then .fault .haltedForever
  else if s.stuck .waiting then .fault .waitingForever
  else
    let t := s.sense
    if t.pins.reset then .next t.doReset
    else if t.run == .shutdown then .next t
    else if t.flag bitVM then .refused .virtual8086
    else boundary t

/-- The physical addresses from which the next instruction's 15 bytes are fetched while paging is off
(rules R66, R191). -/
def State.fetchSlots (s : State) : List Nat :=
  s.fetchPhys (physRange s.fetchLin.toNat maxLength)

/-- Bytes put into memory from outside the machine, whatever answers there. -/
def pokeAll (m : List Host.Cell) : List Nat → List Byte → List Host.Cell
  | a :: as, v :: vs => pokeAll (memSet m (a % physSize) v) as vs
  | _, _ => m

/-- The state with a table word in memory where the step fetches its next instruction, with zeros up to the
longest instruction; no device answers there (log entry 33). -/
def State.withFetchWord (s : State) (nbits w : Nat) : State :=
  { s with
    mem := pokeAll s.mem s.fetchSlots (tableBytes nbits w)
    plat := { s.plat with map := s.plat.map.filter fun r => !s.fetchSlots.any fun a => r.covers (a % physSize) } }

end Sys2Proof.Machine
end

