-- ==== Sys2Proof/Safety.lean ====
section
/-! DEFINITION. The terms in which statements about the machine are made: the invariants a step keeps, what
an access leaves as it was, and how an instruction ends. -/

namespace Sys2Proof.Machine

/-! ## Invariants -/

/-- Physical memory is in canonical form. -/
def MemOk (s : State) : Prop := Memory.wf s.mem = true

/-- The reserved bits of EFLAGS are as drawn (rule R25, decision D8), and VM is 0 (decision D2). -/
def FlagsOk (s : State) : Prop := s.eflags = normFlags s.eflags ∧ s.flag bitVM = false

/-- Paging is on only with protection on (rule R439). -/
def PagingOk (s : State) : Prop := s.pg = true → s.pe = true

/-- The TLB has its 32 entries; a valid one is initialised and stands in the set its page selects (rule R127);
no two valid ones have one tag (rule R128). -/
def TlbOk (s : State) : Prop :=
  s.tlb.length = 32 ∧
    (∀ i < 32, (tlbAt s.tlb i).v = true →
      (tlbAt s.tlb i).known = true ∧ (tlbAt s.tlb i).page.toNat % 8 = i % 8) ∧
    (∀ i < 32, ∀ j < 32, (tlbAt s.tlb i).v = true → (tlbAt s.tlb j).v = true →
      (tlbAt s.tlb i).sameTag (tlbAt s.tlb j) = true → i = j)

/-! ## What an access leaves as it was -/

/-- A byte read or written where the environment answers, not memory (decision D4). -/
def IoEvent.atDevice (s : State) : IoEvent → Bool
  | .memRead a _ | .memWrite a _ => s.isDevice a
  | _ => false

/-- What the environment has seen since `s`: accesses to addresses that are neither RAM nor ROM, and nothing
else (decision D4); where the map has no such address, nothing. -/
def DeviceIo (s t : State) : Prop := ∃ es, t.io = es ++ s.io ∧ es.all (IoEvent.atDevice s) = true

/-- No register, flag, latch or port is touched: only memory, the TLB, the pending debug traps and the
model's counters may differ, and the environment may have seen accesses to devices in memory. -/
def Quiet (s t : State) : Prop :=
  t = { s with mem := t.mem, dirty := t.dirty, tlb := t.tlb, draws := t.draws, pend := t.pend, io := t.io } ∧
    DeviceIo s t

/-- Memory answers at these addresses, RAM or ROM, and no device (decision D4). -/
def State.noDevice (s : State) (ps : List Nat) : Prop := ∀ a ∈ ps, s.isDevice a = false

/-- RAM answers at these addresses (decision D4). -/
def State.inRam (s : State) (ps : List Nat) : Prop := ∀ a ∈ ps, s.kindAt a = .ram

/-- Memory but for the accessed and dirty bits of page tables: a byte may differ only in bits 5 and 6, only
if it is the lowest of an aligned doubleword, and only with paging on (rules R108, R112). -/
def SameButTables (s t : State) : Prop :=
  ∀ a, t.byteAt a ||| 0x60#8 = s.byteAt a ||| 0x60#8 ∧
    (a % 4 ≠ 0 ∨ s.pg = false → t.byteAt a = s.byteAt a)

/-- What reading, checking and translating may do: nothing a program sees but accessed and dirty bits. -/
def ReadOnly (s t : State) : Prop := Quiet s t ∧ (MemOk s → MemOk t ∧ SameButTables s t)

/-- Every byte outside `ps` is as before, but for the accessed and dirty bits of page tables. -/
def KeepsOutside (ps : List Nat) (s t : State) : Prop :=
  MemOk s → MemOk t ∧ ∀ a, a % physSize ∉ ps → t.byteAt a ||| 0x60#8 = s.byteAt a ||| 0x60#8 ∧
    (a % 4 ≠ 0 ∨ s.pg = false → t.byteAt a = s.byteAt a)

/-- What accesses that store to the physical addresses `ps` do: no register is touched, and no byte outside
`ps` but accessed and dirty bits. -/
def Accessed (ps : List Nat) (s t : State) : Prop := Quiet s t ∧ KeepsOutside ps s t

/-- The four bytes at a physical address, as a doubleword (rule R84). -/
def State.dwordAt (s : State) (a : Word) : Word := leWord (s.bytesAt (physRange a.toNat 4))

/-! ## How an instruction ends -/

/-- The end of an instruction that began in `s` and has made `t`: EIP moves past it, RF is cleared, the
single-step condition is TF as it was (rules R24, R613, R620). -/
def State.retires (s t : State) : State := complete (s.flag bitTF) .next t

/-- The end of a control transfer that began in `s` and has made `t`: as `retires`, but EIP is as the
transfer set it and the prefetched bytes are gone (rules R613, R620, R670). -/
def State.jumps (s t : State) : State := complete (s.flag bitTF) .transfer t

/-- The same where RF stays as loaded (IRET, a task switch; rule R613). -/
def State.resumes (s t : State) : State := complete (s.flag bitTF) .transferKeepRf t

/-- No event at this boundary (rule R511): running, or waiting on BUSY# which is active no more, no debug trap or fault,
no request. -/
def State.calm (s : State) : Prop :=
  s.env = [] ∧ s.pins.reset = false ∧ (s.run = .running ∨ s.run = .waiting ∧ s.pins.busy = false) ∧ s.flag bitVM = false ∧ s.inhibit = false ∧
    s.pend.trap = false ∧ s.debugFaults = false ∧
    (s.pins.nmi = false ∨ s.nmiLatch = true) ∧ (s.flag bitIF = false ∨ s.pins.intr = none) ∧
    s.dr.undefinedOn = false

/-! ## Shorthands for what instructions do -/

/-- ZF written, nothing else. -/
def State.withZf (s : State) (b : Bool) : State := { s with eflags := setBit s.eflags bitZF b }

/-- One free value drawn. -/
def State.drawn (s : State) : State := { s with draws := s.draws + 1 }

/-- The six status flags replaced by a free value (rule R436; U25). -/
def State.flagsFreed (s : State) : State :=
  { s.drawn with eflags := freeStatus s.eflags (Config.freeWord s.draws) }

/-- The interrupt-inhibit latch as a load of `x` leaves it (rules R260, R261). -/
def State.inhibits (s : State) (x : SegReg) : State :=
  if x = .ss then { s with inhibit := true } else s

/-- The privileged instructions (rule R162). -/
def privilegedInstr : Instr → Bool
  | .clts | .hlt | .lldt _ | .lmsw _ | .ltr _ => true
  | .lgdt _ src | .lidt _ src => !Rm.isReg src
  | .movRegCr _ _ | .movCrReg _ _ | .movRegDr _ _ | .movDrReg _ _ => true
  | .movRegTr _ _ | .movTrReg _ _ => true
  | _ => false

/-- The instructions that real-address mode does not know (rule R199). -/
def protectedInstr : Instr → Bool
  | .arpl _ _ | .lar _ _ _ | .lsl _ _ _ | .verr _ | .verw _ | .sldt _ _ | .str _ _ | .lldt _ | .ltr _ => true
  | _ => false

/-- The far pointer of a far JMP or CALL, and the state in which it has been read (rule R283). -/
def FarOperand (call : Bool) (i : Instr) (osz : OpSize) (off : Word) (sel : BitVec 16) (s t : State) :
    Prop :=
  (∃ v : Imm, osz = v.osz ∧ off = v.word ∧ t = s ∧
      i = if call then .callFar v sel else .jmpFar v sel) ∨
    (∃ m : MemOp, readFarPtr osz m s = .ok (off, sel) t ∧
      i = if call then .callFarM osz (.mem m) else .jmpFarM osz (.mem m))

/-- The registers that a task switch loads may differ, and nothing that reading memory depends on. -/
def RegistersOnly (s t : State) : Prop :=
  t = { s with gpr := t.gpr, eip := t.eip, eflags := t.eflags, seg := t.seg, ldtr := t.ldtr, dr := t.dr,
               cpl := t.cpl }

/-- From `s` to `t` the doublewords at some places of a TSS, whose bytes 20H to 67H stand at the physical addresses
`ps`, are read, one after another, and between two of them registers are loaded at most (rule R340, phase D). -/
def ImageRead (ps : List Nat) (word : Nat → Word) : List Nat → State → State → Prop
  | [], s, t => RegistersOnly s t
  | k :: ks, s, t => ∃ a bs u, RegistersOnly s a ∧ readBytes ((ps.drop (k - 0x20)).take 4) a = .ok bs u ∧
      word k = leWord bs ∧ ImageRead ps word ks u t

/-- The descriptor that a selector names in `s`, and the state in which its accessed bit has been set (rules R97,
R102). -/
def Fetched (sel : BitVec 16) (c : Desc) (s t : State) : Prop :=
  ∃ a ps b, fetchDesc sel s = .ok (some c) a ∧ prepareA c a = .ok ps b ∧ t = b.markA c ps

/-- `n` ports read: the environment's value is free (rules R11, R88). -/
def State.portIn (s : State) (port : BitVec 16) (n : Nat) : State :=
  { s.drawn with io := .portRead port n (lowBytes n (Config.portInput s.draws)) :: s.io }

/-- `n` ports written (rules R11, R88). -/
def State.portOut (s : State) (port : BitVec 16) (n : Nat) (v : Word) : State :=
  { s with io := .portWrite port n (lowBytes n v) :: s.io }

/-- CS:EIP loaded by a far transfer to a code segment at level `p` (rules R284, R295, R296). -/
def State.enters (s : State) (d : Desc) (sel : BitVec 16) (p : BitVec 2) (off : Word) : State :=
  { s.setSegOf .cs (d.cache (withRpl sel p)) with eip := off }

end Sys2Proof.Machine
end

