-- ==== Sys2Proof/Certificates/Slice0/Obligations.lean ====
section
/-! DEFINITION. The statements for the provers. In each, the words "the operand is readable" stand for the
model's own read answering a value: `readRm osz src s = .ok v s1` is the state `s1` after the operand's checks,
its translation and its read. -/

open Sys2Proof Sys2Proof.Machine

/-! ## Reset and invariants -/

/-- What RESET leaves, for whatever the environment and memory hold: the values of rules R641 and R642. That the
CS selector is F000H, and not the 000H that is printed, is the spec's own reading (R35, C13, G14). -/
def Obligations.ResetValues : Prop :=
  (∀ s : State, s.sense.pins.reset = true → step s = .next s.sense.doReset) ∧
    (∀ s : State, s.pins.busy = true → (s.doReset.gpr.eax = 0 ↔ s.plat.selfTestPasses = true)) ∧
    ∀ r : State, (r = State.reset ∨ ∃ s : State, r = s.doReset) →
      r.eflags = 2 ∧ r.eip = 0xFFF0 ∧ r.seg.cs.sel = 0xF000 ∧ r.seg.ds.sel = 0 ∧ r.seg.es.sel = 0 ∧
        r.seg.ss.sel = 0 ∧ r.seg.fs.sel = 0 ∧ r.seg.gs.sel = 0 ∧ r.idtr = { base := 0, limit := 0x3FF } ∧
        r.reg8 .dh = 3 ∧ r.reg8 .dl = r.plat.steppingId ∧ r.pe = false ∧ r.pg = false ∧ r.mp = false ∧
        r.em = false ∧ r.ts = false ∧ r.cr.cr0.getLsbD 4 = r.plat.cop387 ∧ r.level = 0 ∧
        r.run = .running ∧ r.highLatch = true ∧ r.fetchPhys [r.fetchLin.toNat] = [0xFFFFFFF0]

/-- The state after RESET meets every invariant below. -/
def Obligations.ResetMeetsInvariants : Prop :=
  MemOk State.reset ∧ FlagsOk State.reset ∧ PagingOk State.reset ∧ TlbOk State.reset

/-- Physical memory stays in canonical form. -/
def Obligations.StepKeepsMemory : Prop := ∀ s t : State, MemOk s → step s = .next t → MemOk t

/-- The reserved bits of EFLAGS read as drawn, and VM stays 0, whatever is loaded into the register. -/
def Obligations.StepKeepsFlags : Prop := ∀ s t : State, FlagsOk s → step s = .next t → FlagsOk t

/-- Paging is on only in protected mode. -/
def Obligations.StepKeepsPaging : Prop := ∀ s t : State, PagingOk s → step s = .next t → PagingOk t

/-- The TLB keeps its 32 entries: a valid one is initialised and in its set, and no two valid ones have one tag. -/
def Obligations.StepKeepsTlb : Prop := ∀ s t : State, TlbOk s → step s = .next t → TlbOk t

/-- GDTR, IDTR and the test registers, DR0 to DR3 and DR6, DR7 but for the local enables that a task switch
clears, and every bit of CR0 but TS are out of reach of an instruction that runs above level 0 in protected
mode. -/
def Obligations.PrivilegedStateKept : Prop :=
  ∀ (i : Instr) (s t : State), s.pe = true → s.cpl ≠ 0 → exec i s = .next t →
    t.gdtr = s.gdtr ∧ t.idtr = s.idtr ∧ t.test = s.test ∧ t.dr.dr0 = s.dr.dr0 ∧ t.dr.dr1 = s.dr.dr1 ∧
      t.dr.dr2 = s.dr.dr2 ∧ t.dr.dr3 = s.dr.dr3 ∧ t.dr.dr6 = s.dr.dr6 ∧
      (t.dr.dr7 = s.dr.dr7 ∨ t.dr.dr7 = s.dr.dr7 &&& ~~~0x155#32) ∧
      t.cr.cr0 &&& ~~~8#32 = s.cr.cr0 &&& ~~~8#32

/-! ## Encoding and the step -/

/-- Decoding an encoded well-formed instruction gives it back with its length, whatever bytes follow. -/
def Obligations.DecodeEncode : Prop :=
  ∀ (d : Bool) (i : Instr) (rest : List Byte), i.wf = true →
    decode d (encode d i ++ rest) = .ok (i, (encode d i).length)

/-- Words written out from the encodings of 30_encoding.md decode to what they stand for. -/
def Obligations.DecodeWords : Prop :=
  decode true [0x0F, 0x01, 0x16, 0, 0] = .ok (.lgdt .w32 (.mem { ovr := none, ea := .base .esi .none }), 3) ∧
    decode true [0x0F, 0x22, 0xD8] = .ok (.movCrReg 3 .eax, 3) ∧
    decode true [0x66, 0x8E, 0xD8] = .ok (.movSregRm 3 (.reg .eax), 3) ∧
    decode true [0xE8, 0x10, 0, 0, 0] = .ok (.callRel (.i32 0x10), 5) ∧
    decode true [0xF3, 0x6C] = .ok (.rep (.insb .a32), 2) ∧
    decode true [0xCD, 0x40] = .ok (.intN 0x40, 2) ∧
    decode true [0x63, 0xC3] = .ok (.arpl (.reg .ebx) .eax, 2) ∧
    decode true [0x87, 0x05, 0, 0x10, 0, 0] =
      .ok (.xchg .w32 (.mem { ovr := none, ea := .abs32 0x1000 }) .eax, 6)

/-- With paging off the bytes at CS:EIP are fetched, inside the limit of CS and at most fifteen, and the
instruction they decode to is the next one; its second page is looked at only if the first does not hold
it all. Memory answers where code is fetched, no device. -/
def Obligations.FetchDecodes : Prop :=
  ∀ (s : State) (i : Instr) (n : Nat), s.pg = false → (s.pe = true → s.seg.cs.valid = true) →
    s.eip ≤ s.seg.cs.limit → s.hazard = .none →
    let ps := s.fetchPhys (physRange s.fetchLin.toNat s.fetchRoom)
    let k := min s.fetchRoom (pageLeft s.fetchLin)
    s.noDevice ps →
    ((decode s.code32 (s.bytesAt (ps.take k)) = .ok (i, n)) ∨
      (k < s.fetchRoom ∧ decode s.code32 (s.bytesAt (ps.take k)) = .error .more ∧
        decode s.code32 (s.bytesAt ps) = .ok (i, n))) →
    n ≤ s.fetchRoom → (∀ a ∈ ps.take n, a ∉ s.dirty) →
    nextInstr s = .ok i { s with eipNext := s.eip + BitVec.ofNat 32 n }

/-- With no event at the boundary, the machine running or its wait on BUSY# over, a step is the meaning of the
instruction fetched there. -/
def Obligations.StepRunsDecoded : Prop :=
  ∀ (s s1 : State) (i : Instr), s.calm → nextInstr s.opened = .ok i s1 → step s = exec i s1

/-! ## Memory -/

/-- The limit check of rule R152, byte by byte; and a memory operand with paging off: an access that its segment
register allows lies at base plus offset; one that it does not raises #SS(0) through SS and #GP(0) through any
other. -/
def Obligations.OperandWindow : Prop :=
  (∀ (c : SegCache) (off : Word) (n : Nat), 0 < n →
    (limitOk c off n = true ↔ ∀ k < n,
      if c.exec = false ∧ c.ec = true then
        c.limit.toNat < off.toNat + k ∧ off.toNat + k ≤ (if c.big then 0xFFFFFFFF else 0xFFFF)
      else off.toNat + k ≤ c.limit.toNat)) ∧
  ∀ (m : MemOp) (k : Word) (n : Nat) (write : Bool) (s : State), s.pg = false →
    let c := s.segOf m.seg
    let off := s.offsetOf m k
    let ok := (c.valid && (if write then !c.exec && c.wr else !c.exec || c.wr)) || !s.pe
    (ok = true → limitOk c off n = true →
      memWindow m k n write s = .ok
        { lin := c.base + off, n := n,
          phys := if s.highLatch && m.seg == .cs then (physRange (c.base + off).toNat n).map forceHigh
                  else physRange (c.base + off).toNat n } s) ∧
    (s.pe = true → c.valid = false →
      memWindow m k n write s =
        .error (.exc (if m.seg = .ss then excSS (.sel 0) else excGP (.sel 0))) s) ∧
    (s.pe = true → c.valid = true → ok = false →
      memWindow m k n write s = .error (.exc (excGP (.sel 0))) s) ∧
    (ok = true → limitOk c off n = false →
      memWindow m k n write s =
        .error (.exc (if m.seg = .ss then excSS (.sel 0) else excGP (.sel 0))) s)

/-- A value stored in a window of RAM is in memory low byte first, every other byte is as before, and no register
is touched. Where RAM does not answer memory stays as it is; a device sees each byte it is given, ROM nothing. -/
def Obligations.StoreWritesItsBytes : Prop :=
  (∀ (m : MemOp) (k v : Word) (n : Nat) (s s1 : State) (w : Win), memWindow m k n true s = .ok w s1 →
    Accessed w.phys s (s1.put w v) ∧ w.phys.length = n ∧
      (MemOk s → w.phys.Nodup → s.inRam w.phys → (s1.put w v).bytesAt w.phys = leBytes n v) ∧
      ((∀ a ∈ w.phys, s.kindAt a ≠ .ram) → (s1.put w v).mem = s1.mem)) ∧
  ∀ (s : State) (a : Nat) (v : Byte),
    (s.kindAt a = .rom → s.store a v = s) ∧
      (s.kindAt a = .device → s.store a v = { s with io := .memWrite (a % physSize) v :: s.io } ∧
        readByte a s = .ok (Config.deviceByte s.draws) { s with
          draws := s.draws + 1, io := .memRead (a % physSize) (Config.deviceByte s.draws) :: s.io })

/-- The walk of the page tables: the frame of the table entry and the offset, both entries accessed, the table
entry dirty after a write, and nothing else of memory changed; an entry not present or not permitted raises #PF
with the linear address in CR2 and the error code U/S, W/R, P, and changes nothing else. A translation walks
where the TLB does not hold the page; else it goes by the first of the entries for it that is still there (D18,
log entry 28): their own attributes decide, a write that finds D clear walks, and one that is gone is gone for
good. Memory answers where the tables are, and RAM where they are to be updated. -/
def Obligations.WalkTranslates : Prop :=
  (∀ (lin : Word) (write user : Bool) (s : State), s.pg = true →
    let a := pdeAddr s.cr.cr3 lin
    let pde := s.dwordAt a
    let b := pteAddr pde lin
    let pte := s.dwordAt b
    let permitted := pageOk write user (pde.getLsbD 2 && pte.getLsbD 2) (pde.getLsbD 1 && pte.getLsbD 1)
    let absent := !pde.getLsbD 0 || !pte.getLsbD 0
    (absent = false → permitted = true → s.inRam (physRange a.toNat 4 ++ physRange b.toNat 4) →
      ∃ t, walk lin write user s = .ok (pte.extractLsb' 12 20 ++ lin.extractLsb' 0 12) t ∧
        ReadOnly s t ∧
        (MemOk s → (∀ x, x % physSize ∉ physRange a.toNat 4 ++ physRange b.toNat 4 →
            t.byteAt x = s.byteAt x) ∧
          (t.dwordAt a).getLsbD 5 = true ∧
          (a ≠ b → t.dwordAt b = pte ||| 0x20#32 ||| (if write then 0x40#32 else 0)))) ∧
    (absent = true ∨ permitted = false → s.noDevice (physRange a.toNat 4) →
      (pde.getLsbD 0 = true → s.noDevice (physRange b.toNat 4)) →
      walk lin write user s =
        .error (.exc { vector := 14,
                       code := .page (BitVec.ofBool user ++ BitVec.ofBool write ++ BitVec.ofBool !absent) })
          { s with cr := { s.cr with cr2 := lin } })) ∧
  (∀ (write user u w : Bool), pageOk write user u w = true ↔
    user = false ∨ (u = true ∧ (write = true → w = true))) ∧
  (∀ (lin : Word) (write user : Bool) (s : State),
    (s.pg = false → translate lin write user s = .ok lin s) ∧
    (s.pg = true →
      let hits := tlbHits s.tlb (Config.tlbOrder s.draws) (pageOf lin)
      (∀ i, i ∈ hits ↔ ∃ b : BitVec 2, i = 8 * b.toNat + (pageOf lin).toNat % 8 ∧
        (tlbAt s.tlb i).v = true ∧ (tlbAt s.tlb i).page = pageOf lin) ∧
      (hits = [] → translate lin write user s = walk lin write user s) ∧
      (hits ≠ [] → translate lin write user s = byEntries lin write user hits { s with draws := s.draws + 1 }))) ∧
  ∀ (lin : Word) (write user : Bool) (i : Nat) (is : List Nat) (s : State),
    let e := tlbAt s.tlb i
    let t := { s with draws := s.draws + 1 }
    byEntries lin write user [] s = walk lin write user s ∧
      (Config.tlbKeeps s.draws = true → pageOk write user e.u e.w = false →
        byEntries lin write user (i :: is) s =
          .error (.exc { vector := 14, code := .page (BitVec.ofBool user ++ BitVec.ofBool write ++ 1#1) })
            { t with cr := { s.cr with cr2 := lin } }) ∧
      (Config.tlbKeeps s.draws = true → pageOk write user e.u e.w = true → (write = false ∨ e.d = true) →
        byEntries lin write user (i :: is) s = .ok (e.phys ++ lin.extractLsb' 0 12) t) ∧
      (Config.tlbKeeps s.draws = true → pageOk write user e.u e.w = true → write = true → e.d = false →
        byEntries lin write user (i :: is) s = walk lin write user t) ∧
      (Config.tlbKeeps s.draws = false →
        byEntries lin write user (i :: is) s =
          byEntries lin write user is { t with tlb := s.tlb.set i { e with v := false, known := false } })

/-- The place of a descriptor: a selector or a vector of index `i` is inside a table of limit `L` exactly if
8 i + 7 ≤ L, in the GDT, the LDT and the IDT alike. Outside, and in the LDT where LDTR is invalid (general knowledge,
says R102), nothing is read; inside the descriptor is the eight bytes at base plus 8 i, whatever the RPL. -/
def Obligations.DescriptorLookup : Prop :=
  (∀ (sel : BitVec 16) (s : State), ti sel = true → s.ldtr.valid = false → fetchDesc sel s = .ok none s) ∧
  (∀ (sel : BitVec 16) (s : State), (ti sel = true → s.ldtr.valid = true) →
    let base := if ti sel then s.ldtr.base else s.gdtr.base
    let limit := if ti sel then s.ldtr.limit.toNat else s.gdtr.limit.toNat
    let i := sel.toNat / 8
    let a := base + BitVec.ofNat 32 (8 * i)
    (limit < 8 * i + 7 → fetchDesc sel s = .ok none s) ∧
    (8 * i + 7 ≤ limit →
      (∀ r t, fetchDesc sel s = .ok r t → ∃ d, r = some d ∧ d.addr = a) ∧
      (s.pg = false → s.noDevice (physRange a.toNat 8) →
        fetchDesc sel s = .ok (some { d0 := s.dwordAt a, d1 := s.dwordAt (a + 4), addr := a }) s))) ∧
  (∀ sel sel' : BitVec 16, sel.extractLsb' 2 14 = sel'.extractLsb' 2 14 → fetchDesc sel = fetchDesc sel') ∧
  ∀ (ev : Event) (s : State), s.pe = true →
    let n := ev.vector.toNat
    (s.idtr.limit.toNat < 8 * n + 7 →
      deliver ev s = .error (.exc (excGP (idtErr ev.vector ev.ext))) s) ∧
    (8 * n + 7 ≤ s.idtr.limit.toNat → ∀ x t,
      readDesc (s.idtr.base + BitVec.ofNat 32 (8 * n)) s = .error x t → deliver ev s = .error x t)

/-! ## Pointer validation -/

/-- ARPL: the RPL of the destination becomes the source's where that is larger, and ZF says so;
#UD in real-address mode. -/
def Obligations.ArplAdjustsRpl : Prop :=
  (∀ (dst : Rm) (src : Reg) (s : State), s.pe = false → exec (.arpl dst src) s = takeException excUD s) ∧
  ∀ (dst : Rm) (src : Reg) (s s1 : State) (d : BitVec 16), s.pe = true → readRm16 dst s = .ok d s1 →
    let r := rpl (lo16 (s.reg src))
    ReadOnly s s1 ∧
      (r ≤ rpl d → exec (.arpl dst src) s = .next (s.retires (s1.withZf false))) ∧
      (rpl d < r → ∀ q, dst = .reg q →
        exec (.arpl dst src) s =
          .next (s.retires ((s1.setRegSz .w16 q (zx16 (withRpl d r))).withZf true))) ∧
      (rpl d < r → ∀ m w s2, dst = .mem m → memWindow m 0 2 true s1 = .ok w s2 →
        exec (.arpl dst src) s = .next (s.retires ((s2.put w (zx16 (withRpl d r))).withZf true)) ∧
          Accessed w.phys s (s2.put w (zx16 (withRpl d r))))

/-- LAR and LSL: the access rights or the limit of a descriptor of a valid type (Table 6-4) that the level may
see, with ZF set; else ZF clear and the destination as it was. With a null selector VERR and VERW clear ZF too
(general knowledge, says R221). And the nine instructions that real-address mode does not know: #UD (R199). -/
def Obligations.SelectorTests : Prop :=
  (∀ (i : Instr) (s : State), protectedInstr i = true → s.pe = false → exec i s = takeException excUD s) ∧
  (∀ (src : Rm) (s s1 : State) (sel : BitVec 16), s.pe = true → readRm16 src s = .ok sel s1 →
    isNull sel = true →
    ReadOnly s s1 ∧ exec (.verr src) s = .next (s.retires (s1.withZf false)) ∧
      exec (.verw src) s = .next (s.retires (s1.withZf false))) ∧
  ∀ (osz : OpSize) (dst : Reg) (src : Rm) (s s1 s2 : State) (sel : BitVec 16) (r : Option Desc),
    s.pe = true → readRm16 src s = .ok sel s1 →
    (isNull sel = true ∧ r = none ∧ s2 = s1) ∨ (isNull sel = false ∧ fetchDesc sel s1 = .ok r s2) →
    let sees (d : Desc) : Bool := d.isConforming || decide (s.level ≤ d.dpl ∧ rpl sel ≤ d.dpl)
    ReadOnly s s2 ∧
      exec (.lar osz dst src) s = .next (s.retires (match r.filter (fun d =>
          (d.s || decide (d.type ∈ [1, 2, 3, 4, 5, 6, 7, 9, 11, 12, 14, 15])) && sees d) with
        | none => s2.withZf false
        | some d =>
          (s2.drawn.setRegSz osz dst (match osz with
            | .w32 => (d.d1 &&& 0x00F0FF00#32) ||| (Config.freeWord s2.draws &&& 0x000F0000#32)
            | .w16 => d.d1 &&& 0x0000FF00#32)).withZf true)) ∧
      exec (.lsl osz dst src) s = .next (s.retires (match r.filter (fun d =>
          (d.s || decide (d.type ∈ [1, 2, 3, 9, 11])) && sees d) with
        | none => s2.withZf false
        | some d =>
          (s2.setRegSz osz dst (if d.d1.getLsbD 23 then (d.rawLimit.zeroExtend 32 <<< 12) ||| 0xFFF#32
            else d.rawLimit.zeroExtend 32)).withZf true))

/-- VERR and VERW with a selector that is not null: ZF says whether it names, within the bounds of its table, a
segment that the level may read, or a data segment that it may write; a fault of the operand or of the table is
taken. #UD in real-address mode. -/
def Obligations.VerifyTests : Prop :=
  ∀ (src : Rm) (s : State),
    (s.pe = false → exec (.verr src) s = takeException excUD s ∧ exec (.verw src) s = takeException excUD s) ∧
    (s.pe = true →
      (∀ e t, readRm16 src s = .error (.exc e) t →
        exec (.verr src) s = takeException e t ∧ exec (.verw src) s = takeException e t) ∧
      ∀ sel s1, readRm16 src s = .ok sel s1 → isNull sel = false →
        (∀ e t, fetchDesc sel s1 = .error (.exc e) t →
          exec (.verr src) s = takeException e t ∧ exec (.verw src) s = takeException e t) ∧
        ∀ r s2, fetchDesc sel s1 = .ok r s2 →
          ReadOnly s s2 ∧
            exec (.verr src) s = .next (s.retires (s2.withZf (r.any fun d =>
              d.d1.getLsbD 12 && (!d.d1.getLsbD 11 || d.d1.getLsbD 9) &&
                ((d.d1.getLsbD 11 && d.d1.getLsbD 10) ||
                  decide (s.level ≤ d.d1.extractLsb' 13 2 ∧ rpl sel ≤ d.d1.extractLsb' 13 2))))) ∧
            exec (.verw src) s = .next (s.retires (s2.withZf (r.any fun d =>
              d.d1.getLsbD 12 && !d.d1.getLsbD 11 && d.d1.getLsbD 9 &&
                decide (s.level ≤ d.d1.extractLsb' 13 2 ∧ rpl sel ≤ d.d1.extractLsb' 13 2)))))

/-! ## Descriptor-table registers and selectors -/

/-- SLDT, STR, SMSW and MOV r/m, Sreg store a selector or the machine status word: to a word register, to a
doubleword register with a free upper half, to two bytes of memory. SGDT and SIDT store the limit at the operand
and the base two bytes on, the sixth byte free with 16-bit operand size; with a register they are #UD. That the base
field wraps alone at the end of the offset space is the model's choice (DESIGN CHOICE, log entry 70). -/
def Obligations.SystemStores : Prop :=
  (∀ (s : State) (f : OpSize → Rm → Instr) (v : BitVec 16),
    (s.pe = true ∧ f = Instr.sldt ∧ v = s.ldtr.sel) ∨ (s.pe = true ∧ f = Instr.str ∧ v = s.tr.sel) ∨
      (f = Instr.smsw ∧ v = lo16 s.cr.cr0) ∨
      (∃ x, f = (fun o d => Instr.movRmSreg o d x) ∧ v = (s.segOf x).sel) →
    (∀ q, exec (f .w16 (.reg q)) s = .next (s.retires (s.setReg q (setLo16 (s.reg q) v)))) ∧
      (∀ q, exec (f .w32 (.reg q)) s =
        .next (s.retires (s.drawn.setReg q (hiLo (lo16 (Config.freeWord s.draws)) v)))) ∧
      (∀ osz m w s1, memWindow m 0 2 true s = .ok w s1 →
        exec (f osz (.mem m)) s = .next (s.retires (s1.put w (zx16 v))) ∧
          Accessed w.phys s (s1.put w (zx16 v)))) ∧
  ∀ (osz : OpSize) (s : State) (f : OpSize → Rm → Instr) (r : TableReg),
    (f = Instr.sgdt ∧ r = s.gdtr) ∨ (f = Instr.sidt ∧ r = s.idtr) →
    (∀ q, exec (f osz (.reg q)) s = takeException excUD s) ∧
    ∀ (m : MemOp) (wl wb : Win) (s1 s2 : State), memWindow m 0 2 true s = .ok wl s1 →
      memWindow m 2 4 true s1 = .ok wb s2 →
      let v := match osz with
        | .w32 => r.base
        | .w16 => (r.base &&& 0xFFFFFF#32) ||| (Config.freeWord s2.draws &&& 0xFF000000#32)
      let t := (s2.drawn.put wl (zx16 r.limit)).put wb v
      exec (f osz (.mem m)) s = .next (s.retires t) ∧ Accessed (wl.phys ++ wb.phys) s t

/-- LLDT at level 0: a null selector makes LDTR invalid; a present LDT descriptor of the GDT is loaded; any
other selector raises #GP, or #NP where the descriptor is not present, and LDTR is as it was. -/
def Obligations.LldtLoads : Prop :=
  ∀ (src : Rm) (s s1 : State) (sel : BitVec 16), s.pe = true → s.cpl = 0 → readRm16 src s = .ok sel s1 →
    ReadOnly s s1 ∧
      (isNull sel = true →
        exec (.lldt src) s =
          .next (s.retires { s1 with ldtr := { s1.ldtr with sel := sel, valid := false } })) ∧
      (isNull sel = false → ti sel = true →
        exec (.lldt src) s = takeException (excGP (.sel (sel &&& 0xFFFC))) s1) ∧
      (isNull sel = false → ti sel = false → ∀ r s2, fetchDesc sel s1 = .ok r s2 →
        ReadOnly s s2 ∧
          exec (.lldt src) s = match r with
            | none => takeException (excGP (.sel (sel &&& 0xFFFC))) s2
            | some d =>
              if d.s || d.type != 2 then takeException (excGP (.sel (sel &&& 0xFFFC))) s2
              else if !d.present then takeException (excNP (.sel (sel &&& 0xFFFC))) s2
              else .next (s.retires { s2 with
                ldtr := { sel := sel, base := d.base, limit := d.limit, valid := true } }))

/-- LTR at level 0: a null selector raises #GP(0); one of the LDT, one past the GDT and one that names anything
but an available 80386 TSS raises #GP with the selector, an 80286 TSS stops, one that is not present raises #NP;
with an available, present 80386 TSS of the GDT TR is loaded and the descriptor is marked busy in memory. -/
def Obligations.LtrLoads : Prop :=
  ∀ (src : Rm) (s s1 : State) (sel : BitVec 16), s.pe = true → s.cpl = 0 → readRm16 src s = .ok sel s1 →
    ReadOnly s s1 ∧
      (isNull sel = true → exec (.ltr src) s = takeException (excGP (.sel 0)) s1) ∧
      (isNull sel = false → ti sel = true →
        exec (.ltr src) s = takeException (excGP (.sel (sel &&& 0xFFFC))) s1) ∧
      (isNull sel = false → ti sel = false → ∀ r s2, fetchDesc sel s1 = .ok r s2 → ReadOnly s s2 ∧
        match r with
        | none => exec (.ltr src) s = takeException (excGP (.sel (sel &&& 0xFFFC))) s2
        | some d =>
          (d.s = false → d.type = 1 → exec (.ltr src) s = .refused .descriptor286) ∧
          (d.s = true ∨ (d.type ≠ 1 ∧ d.type ≠ 9) →
            exec (.ltr src) s = takeException (excGP (.sel (sel &&& 0xFFFC))) s2) ∧
          (d.s = false → d.type = 9 → d.present = false →
            exec (.ltr src) s = takeException (excNP (.sel (sel &&& 0xFFFC))) s2) ∧
          (d.s = false → d.type = 9 → d.present = true →
            ∀ ps s3, translateRange (d.addr + 4) 4 true false s2 = .ok ps s3 →
            let t := s3.storeAll ps (leBytes 4 (d.d1 ||| 0x200#32))
            exec (.ltr src) s = .next (s.retires
                { t with tr := { sel := sel, base := d.base, limit := d.limit, loaded := true } }) ∧
              Accessed ps s t))

/-- LGDT and LIDT at level 0 or in real-address mode: limit and base from the operand, 24 bits of base with
16-bit operand size. A register operand is #UD, at every level: above level 0 that is the model's choice (DESIGN
CHOICE, log entry 67), and so is that the base field wraps alone at the end of the offset space (log entry 70). -/
def Obligations.TableLoads : Prop :=
  ∀ (osz : OpSize) (s : State),
    (∀ q, exec (.lgdt osz (.reg q)) s = takeException excUD s ∧
      exec (.lidt osz (.reg q)) s = takeException excUD s) ∧
    ∀ (m : MemOp) (l b : Word) (s1 s2 : State), s.level = 0 → memRead m 0 2 s = .ok l s1 →
      memRead m 2 4 s1 = .ok b s2 →
      let r : TableReg := { base := if osz = .w16 then b &&& 0xFFFFFF#32 else b, limit := lo16 l }
      exec (.lgdt osz (.mem m)) s = .next (s.retires { s2 with gdtr := r }) ∧
        exec (.lidt osz (.mem m)) s = .next (s.retires { s2 with idtr := r }) ∧ ReadOnly s s2

/-- A privileged instruction above level 0 raises #GP(0) before any other effect. -/
def Obligations.PrivilegedDenied : Prop :=
  ∀ (i : Instr) (s : State), privilegedInstr i = true → s.pe = true → s.cpl ≠ 0 →
    exec i s = takeException (excGP (.sel 0)) s

/-! ## Loads of segment registers -/

/-- DS, ES, FS and GS in protected mode: a null selector makes the register invalid; a descriptor that rule
R256 accepts is loaded, with its accessed bit set in memory (which bytes are written is log entry 56); any other raises #GP, or #NP, with the selector
and leaves the register as it was. -/
def Obligations.DataSegmentLoad : Prop :=
  ∀ (x : SegReg) (sel : BitVec 16) (s : State), s.pe = true → x ≠ .cs → x ≠ .ss →
    (isNull sel = true →
      loadSeg x sel s = .ok () (s.setSegOf x { s.segOf x with sel := sel, valid := false })) ∧
    (isNull sel = false → ∀ r s1, fetchDesc sel s = .ok r s1 → ReadOnly s s1 ∧
      match r with
      | none => loadSeg x sel s = .error (.exc (excGP (.sel (sel &&& 0xFFFC)))) s1
      | some d =>
        let fits := d.s && (!d.exec || d.rw) &&
          (d.isConforming || decide (s.cpl ≤ d.dpl ∧ rpl sel ≤ d.dpl))
        (fits = false → loadSeg x sel s = .error (.exc (excGP (.sel (sel &&& 0xFFFC)))) s1) ∧
          (fits = true → d.present = false →
            loadSeg x sel s = .error (.exc (excNP (.sel (sel &&& 0xFFFC)))) s1) ∧
          (fits = true → d.present = true → ∀ ps s2, prepareLoad d s1 = .ok ps s2 →
            loadSeg x sel s = .ok () ((s2.markA d ps).setSegOf x (d.cache sel)) ∧
              Accessed ps s (s2.markA d ps)))

/-- SS in protected mode: only a writable data segment whose DPL, and whose selector's RPL, is the current
level; #GP otherwise, #SS where it is not present. Which bytes the accessed bit is written with is log entry 56. -/
def Obligations.StackSegmentLoad : Prop :=
  ∀ (sel : BitVec 16) (s : State), s.pe = true →
    (isNull sel = true → loadSeg .ss sel s = .error (.exc (excGP (.sel 0))) s) ∧
    (isNull sel = false → ∀ r s1, fetchDesc sel s = .ok r s1 → ReadOnly s s1 ∧
      match r with
      | none => loadSeg .ss sel s = .error (.exc (excGP (.sel (sel &&& 0xFFFC)))) s1
      | some d =>
        let fits := d.s && !d.exec && d.rw && decide (rpl sel = s.cpl ∧ d.dpl = s.cpl)
        (fits = false → loadSeg .ss sel s = .error (.exc (excGP (.sel (sel &&& 0xFFFC)))) s1) ∧
          (fits = true → d.present = false →
            loadSeg .ss sel s = .error (.exc (excSS (.sel (sel &&& 0xFFFC)))) s1) ∧
          (fits = true → d.present = true → ∀ ps s2, prepareLoad d s1 = .ok ps s2 →
            loadSeg .ss sel s = .ok () ((s2.markA d ps).setSegOf .ss (d.cache sel)) ∧
              Accessed ps s (s2.markA d ps)))

/-- MOV Sreg, POP Sreg and LDS to LGS: the selector is loaded; POP then moves the stack pointer, the far
pointer loads then write the offset; a MOV or POP to SS sets the inhibit latch. MOV to CS, or to the numbers 6
and 7, is #UD once its operand is read, and a register operand of a far pointer load is #UD. Of a far pointer the
offset is read first, then the selector, whose bytes must be inside the limit with the offset's (R152); that the
offset's read comes before that check is the model's choice for JMP and CALL (log entry 81). In
real-address mode a load reads no descriptor: base sixteen times the selector, limit and attributes as they were. -/
def Obligations.SegmentLoadInstructions : Prop :=
  ∀ (s : State),
    (∀ x sel, s.pe = false → loadSeg x sel s = .ok () (s.setSegOf x { s.segOf x with
      sel := sel, base := sel.zeroExtend 32 <<< 4 })) ∧
    (∀ x src sel s1 s2, x ≠ SegReg.cs → readRm16 src s = .ok sel s1 → loadSeg x sel s1 = .ok () s2 →
      exec (.movSregRm x.num src) s = .next (s.retires (s2.inhibits x)) ∧ ReadOnly s s1) ∧
    (∀ src n sel s1, n = 1 ∨ n = 6 ∨ n = 7 → readRm16 src s = .ok sel s1 →
      exec (.movSregRm n src) s = takeException excUD s1 ∧ ReadOnly s s1) ∧
    (∀ src n e s1, readRm16 src s = .error (.exc e) s1 → exec (.movSregRm n src) s = takeException e s1) ∧
    (∀ osz i x v s1 s2,
      (i, x) ∈ [(Instr.popEs osz, SegReg.es), (.popSs osz, .ss), (.popDs osz, .ds), (.popFs osz, .fs),
        (.popGs osz, .gs)] →
      stackRead 0 osz.bytes s = .ok v s1 → loadSeg x (lo16 v) s1 = .ok () s2 →
      exec i s = .next (s.retires ((s2.moveSp (retWord osz 1)).inhibits x)) ∧ ReadOnly s s1) ∧
    (∀ osz m,
      (∀ e t, memRead m 0 osz.bytes s = .error e t → readFarPtr osz m s = .error e t) ∧
      ∀ off t, memRead m 0 osz.bytes s = .ok off t →
        let inside := limitOk (s.segOf m.seg) (s.offsetOf m 0) (osz.bytes + 2)
        let second := segRead m.seg (s.offsetOf m 0 + BitVec.ofNat 32 osz.bytes) 2 t
        (inside = false → readFarPtr osz m s = .error (.exc (segExc m.seg)) t) ∧
        (inside = true → readFarPtr osz m s = match second with
          | .ok v u => .ok (off, lo16 v) u
          | .error e u => .error e u)) ∧
    (∀ osz dst src i x,
      (i, x) ∈ [(Instr.lds osz dst src, SegReg.ds), (.les osz dst src, .es), (.lss osz dst src, .ss),
        (.lfs osz dst src, .fs), (.lgs osz dst src, .gs)] →
      (∀ q, src = .reg q → exec i s = takeException excUD s) ∧
        (∀ m off sel s1 s2, src = .mem m → readFarPtr osz m s = .ok (off, sel) s1 →
          loadSeg x sel s1 = .ok () s2 →
          exec i s = .next (s.retires (s2.setRegSz osz dst off)) ∧ ReadOnly s s1))

/-! ## The stack -/

/-- PUSH of a segment register, of the flags and of a general register: the value below the top of stack,
the stack pointer moved by the operand size; the upper half of a pushed selector is free. -/
def Obligations.Pushes : Prop :=
  ∀ (osz : OpSize) (s s0 : State) (i : Instr) (v : Word),
    (∃ x, (i, x) ∈ [(Instr.pushEs osz, SegReg.es), (.pushCs osz, .cs), (.pushSs osz, .ss),
        (.pushDs osz, .ds), (.pushFs osz, .fs), (.pushGs osz, .gs)] ∧
      if osz = .w16 then s0 = s ∧ v = zx16 (s.segOf x).sel
      else s0 = s.drawn ∧ v = hiLo (lo16 (Config.freeWord s.draws)) (s.segOf x).sel) ∨
      (i = .pushf osz ∧ s0 = s ∧ v = s.eflags) ∨
      (∃ r, i = .pushReg osz r ∧ s0 = s ∧ v = s.regSz osz r) →
    ∀ w s1, preparePushes true [osz.bytes] s0 = .ok [w] s1 →
      exec i s = .next (s.retires ((s1.put w v).moveSp (-(retWord osz 1)))) ∧
        Accessed w.phys s (s1.put w v) ∧ w.n = osz.bytes

/-- POP of a general register and POPF: what stands on top of the stack; POPF loads CF, PF,
AF, ZF, SF, TF, DF, OF and NT, RF with 32 bits, IOPL at level 0, IF at a level no greater than the IOPL in force,
and no other flag, and RF stays as loaded. -/
def Obligations.Pops : Prop :=
  (∀ (osz : OpSize) (pe : Bool) (cpl : BitVec 2) (old v : Word) (k : Nat),
    (loadFlags osz pe cpl old v).getLsbD k =
      if k ∈ [0, 2, 4, 6, 7, 8, 10, 11, 14] ∨ (k = 16 ∧ osz = .w32) ∨
          ((k = 12 ∨ k = 13) ∧ (pe = false ∨ cpl = 0)) ∨ (k = 9 ∧ (pe = false ∨ cpl ≤ ioplOf old)) then
        v.getLsbD k
      else old.getLsbD k) ∧
  ∀ (osz : OpSize) (s s1 : State) (v : Word), stackRead 0 osz.bytes s = .ok v s1 →
    ReadOnly s s1 ∧
      (∀ r, exec (.popReg osz r) s =
        .next (s.retires ((s1.moveSp (retWord osz 1)).setRegSz osz r v))) ∧
      exec (.popf osz) s = .next (complete (s.flag bitTF) .nextKeepRf
        { s1.moveSp (retWord osz 1) with
          eflags := loadFlags osz s.pe s.level s.eflags v })

/-! ## Near transfers -/

/-- Near JMP, CALL and RET: EIP is the destination, cut to 16 bits with 16-bit operand size; CALL pushes the offset
of the next instruction, RET moves the stack pointer past its offset and `n` bytes more. Past the limit of CS each
raises #GP(0) with no register changed and nothing pushed. That a target is cut to 16 bits with 16-bit operand size,
where R312 gives only the pushes and pops, is the model's choice (log entry 34, PRESUMED). -/
def Obligations.NearTransfers : Prop :=
  (∀ (s s1 : State) (i : Instr) (osz : OpSize) (dst : Word),
    (∃ rel, i = .jmpRel8 osz rel ∧ dst = cutOff osz (s.eipNext + rel.signExtend 32) ∧ s1 = s) ∨
      (∃ rel : Imm, i = .jmpRel rel ∧ dst = cutOff rel.osz (s.eipNext + rel.sword) ∧ s1 = s) ∨
      (∃ src, i = .jmpRm osz src ∧ readRm osz src s = .ok dst s1) →
    ReadOnly s s1 ∧
      exec i s = if dst ≤ s.seg.cs.limit then .next (s.jumps { s1 with eip := dst })
        else takeException (excGP (.sel 0)) s1) ∧
  (∀ (s s1 : State) (i : Instr) (osz : OpSize) (dst : Word),
    (∃ rel : Imm, i = .callRel rel ∧ osz = rel.osz ∧ dst = cutOff osz (s.eipNext + rel.sword) ∧ s1 = s) ∨
      (∃ src, i = .callRm osz src ∧ readRm osz src s = .ok dst s1) →
    ReadOnly s s1 ∧
      (¬ dst ≤ s.seg.cs.limit → exec i s = takeException (excGP (.sel 0)) s1) ∧
      (dst ≤ s.seg.cs.limit → ∀ w s2, preparePushes true [osz.bytes] s1 = .ok [w] s2 →
        exec i s = .next (s.jumps
            { (s2.put w s.eipNext).moveSp (-(retWord osz 1)) with eip := dst }) ∧
          Accessed w.phys s (s2.put w s.eipNext) ∧ w.n = osz.bytes)) ∧
  ∀ (s s1 : State) (i : Instr) (osz : OpSize) (n : BitVec 16) (dst : Word),
    (i = .ret osz ∧ n = 0) ∨ i = .retImm osz n → stackRead 0 osz.bytes s = .ok dst s1 →
    ReadOnly s s1 ∧
      exec i s = if dst ≤ s.seg.cs.limit then
          .next (s.jumps { s1.moveSp (retWord osz 1 + zx16 n) with eip := dst })
        else takeException (excGP (.sel 0)) s1

/-! ## Far transfers -/

/-- A far JMP or CALL through a register operand is #UD, in either mode. Far JMP and CALL in real-address mode: CS from
the selector, base sixteen times it; CALL pushes CS and the offset of the next instruction; the high-address latch
falls. -/
def Obligations.FarTransfersReal : Prop :=
  (∀ (osz : OpSize) (q : Reg) (s : State), exec (.jmpFarM osz (.reg q)) s = takeException excUD s ∧
    exec (.callFarM osz (.reg q)) s = takeException excUD s) ∧
  ∀ (call : Bool) (i : Instr) (osz : OpSize) (off : Word) (sel : BitVec 16) (s s1 : State),
    s.pe = false → FarOperand call i osz off sel s s1 →
    let cs := s.seg.cs.realLoad sel
    ReadOnly s s1 ∧
      (call = false →
        exec i s = .next (s.jumps { s1.setSegOf .cs cs with eip := off, highLatch := false })) ∧
      (call = true → ∀ ws s2 c s3, preparePushes true [osz.bytes, osz.bytes] s1 = .ok ws s2 →
        pushedSel osz s.seg.cs.sel s2 = .ok c s3 →
        let t := s3.puts ws [c, s.eipNext]
        exec i s = .next (s.jumps
            { (t.moveSp (-(retWord osz 2))).setSegOf .cs cs with eip := off, highLatch := false }) ∧
          Accessed (ws.flatMap (·.phys)) s t)

/-- Far JMP and CALL to a code segment: a nonconforming one only at the current level, a conforming one at
the current level or an inner one; the level does not change, and CALL pushes CS and the offset of the next
instruction. What rule R285 forbids raises #GP with the selector, and so do a selector out of its table and one of
any other segment or system descriptor; a null selector and an offset past the limit raise #GP(0); an 80286
descriptor stops. The operand sizes are those of the instruction; that the 16-bit forms push and load 16-bit items
is R312 with log entry 34 (PRESUMED). -/
def Obligations.FarTransfersDirect : Prop :=
  ∀ (call : Bool) (i : Instr) (osz : OpSize) (off : Word) (sel : BitVec 16) (s s1 : State),
    s.pe = true → FarOperand call i osz off sel s s1 →
    let gp := excGP (.sel (sel &&& 0xFFFC))
    (isNull sel = true → exec i s = takeException (excGP (.sel 0)) s1) ∧
    (isNull sel = false → ∀ r s2, fetchDesc sel s1 = .ok r s2 → ReadOnly s s2 ∧
      match r with
      | none => exec i s = takeException gp s2
      | some d =>
        (d.s = true → d.isCode = false → exec i s = takeException gp s2) ∧
        (d.s = false → d.type ∉ [1, 3, 4, 5, 9, 11, 12] → exec i s = takeException gp s2) ∧
        (d.s = false → d.type ∈ [1, 3, 4] → exec i s = .refused .descriptor286) ∧
        (d.isCode = true →
          let fits := if d.ec then decide (d.dpl ≤ s.cpl) else decide (d.dpl = s.cpl ∧ rpl sel ≤ s.cpl)
          (fits = false → exec i s = takeException gp s2) ∧
          (fits = true → d.present = false →
            exec i s = takeException (excNP (.sel (sel &&& 0xFFFC))) s2) ∧
          (fits = true → d.present = true → ¬ off ≤ d.limit →
            exec i s = takeException (excGP (.sel 0)) s2) ∧
          (fits = true → d.present = true → off ≤ d.limit →
            (call = false → ∀ pa s3, prepareA d s2 = .ok pa s3 →
              exec i s = .next (s.jumps
                  { (s3.markA d pa).enters d sel s.cpl off with highLatch := false }) ∧
                Accessed pa s (s3.markA d pa)) ∧
            (call = true → ∀ ws s3 pa s4 c s5,
              preparePushes true [osz.bytes, osz.bytes] s2 = .ok ws s3 →
              prepareA d s3 = .ok pa s4 → pushedSel osz s.seg.cs.sel s4 = .ok c s5 →
              let u := (s5.puts ws [c, s.eipNext]).markA d pa
              exec i s = .next (s.jumps
                  { (u.moveSp (-(retWord osz 2))).enters d sel s.cpl off with highLatch := false }) ∧
                Accessed (ws.flatMap (·.phys) ++ pa) s u))))

/-- The stack of an inner level (rule R297): its slot in the TSS, at 4 + 8 p, the checks on what stands there, the
room below its ESP, and the windows of what is pushed on it. Then CALL through a call gate to a more privileged
nonconforming segment: old SS:ESP, the parameters, CS and the offset of the next instruction on that stack; the
level is the segment's; the gate's offset is the destination, not the instruction's. Doublewords are pushed and
copied whatever the operand size: for the 16-bit forms that is the model's choice (log entry 34, PRESUMED; R312), and so
is the room of a stack with B = 0 and a limit above FFFFH (DESIGN CHOICE, log entry 71). -/
def Obligations.CallGateInner : Prop :=
  (∀ (p : BitVec 2) (ext : Bool) (s : State), let o := 4 + 8 * p.toNat
    (s.tr.loaded = false → innerStack p ext s = .error (.refuse .trNeverLoaded) s) ∧
    (s.tr.loaded = true → s.tr.limit.toNat < o + 5 →
      innerStack p ext s = .error (.exc (excTS (selErr s.tr.sel ext))) s) ∧
    (s.tr.loaded = true → o + 5 ≤ s.tr.limit.toNat → ∀ esp s1 v s2,
      sysRead (s.tr.base + BitVec.ofNat 32 o) 4 s = .ok esp s1 →
      sysRead (s.tr.base + BitVec.ofNat 32 (o + 4)) 2 s1 = .ok v s2 →
      let sel := lo16 v
      (isNull sel = true → innerStack p ext s = .error (.exc (excTS (selErr sel ext))) s2) ∧
      (isNull sel = false → ∀ r s3, fetchDesc sel s2 = .ok r s3 →
        innerStack p ext s = match r with
          | none => .error (.exc (excTS (selErr sel ext))) s3
          | some d =>
            if rpl sel ≠ p ∨ d.isWritable = false then .error (.exc (excTS (selErr sel ext))) s3
            else if d.dpl ≠ p then .error (.exc (excSS (.sel (extBit ext)))) s3
            else if d.present = false then .error (.exc (excSS (selErr sel ext))) s3
            else .ok (sel, esp, d) s3))) ∧
  (∀ (c : SegCache) (esp : Word) (n : Nat),
    stackRoom c esp n = limitOk c
      (if c.big then esp - BitVec.ofNat 32 n else (esp - BitVec.ofNat 32 n) &&& 0xFFFF#32) n) ∧
  (∀ (watch : Bool) (c : SegCache) (esp k : Word) (n : Nat) (ns : List Nat) (s s1 s2 : State) (phys : List Nat)
    (ws : List Win), let at_ := esp + (k - BitVec.ofNat 32 n)
    let lin := c.base + (if c.big then at_ else at_ &&& 0xFFFF#32)
    innerWindows watch c esp k [] s = .ok [] s ∧
      (translateRange lin n true false s = .ok phys s1 →
        innerWindows watch c esp (k - BitVec.ofNat 32 n) ns s1 = .ok ws s2 →
        innerWindows watch c esp k (n :: ns) s =
          .ok ({ lin := lin, n := n, phys := phys, watch := watch } :: ws) s2)) ∧
  ∀ (i : Instr) (osz : OpSize) (off : Word) (sel : BitVec 16) (g t : Desc) (s s1 s2 s3 : State),
    s.pe = true → FarOperand true i osz off sel s s1 → isNull sel = false →
    fetchDesc sel s1 = .ok (some g) s2 → g.s = false → g.type = 12 → s.cpl ≤ g.dpl → rpl sel ≤ g.dpl →
    g.present = true → isNull g.gateSel = false → fetchDesc g.gateSel s2 = .ok (some t) s3 →
    t.isCode = true → t.ec = false → t.dpl < s.cpl → t.present = true →
    (∀ e u, innerStack t.dpl false s3 = .error (.exc e) u → exec i s = takeException e u) ∧
    ∀ nss nesp sd s4, innerStack t.dpl false s3 = .ok (nss, nesp, sd) s4 →
      let n := 4 + g.gateCount
      (stackRoom (sd.cache nss) nesp (4 * n) = false →
        exec i s = takeException (excSS (.sel (nss &&& 0xFFFC))) s4) ∧
      (stackRoom (sd.cache nss) nesp (4 * n) = true →
        (∀ e u, readParams 0 g.gateCount s4 = .error (.exc e) u → exec i s = takeException e u) ∧
        ∀ ps s5, readParams 0 g.gateCount s4 = .ok ps s5 →
          (¬ g.gateOff ≤ t.limit → exec i s = takeException (excGP (.sel 0)) s5) ∧
          (g.gateOff ≤ t.limit → ∀ pa s6 pb s7 ws s8 oldSs s9 oldCs s10,
            prepareA t s5 = .ok pa s6 → prepareA sd s6 = .ok pb s7 →
            innerWindows true (sd.cache nss) nesp 0 (List.replicate n 4) s7 = .ok ws s8 →
            pushedSel .w32 s.seg.ss.sel s8 = .ok oldSs s9 → pushedSel .w32 s.seg.cs.sel s9 = .ok oldCs s10 →
            let u := ((s10.markA t pa).markA sd pb).puts ws
              ([oldSs, s.gpr.esp] ++ ps.reverse ++ [oldCs, s.eipNext])
            exec i s = .next (s.jumps
                { (u.setInner (sd.cache nss) nesp (4 * n)).enters t g.gateSel t.dpl g.gateOff with
                  cpl := t.dpl, highLatch := false }) ∧
              Accessed (pa ++ pb ++ ws.flatMap (·.phys)) s u))

/-- JMP or CALL through a call gate: what the gate and its target must be, and which exception is raised instead;
then, without a change of level, the code segment and offset of the gate, and for CALL a return pointer of two
doublewords whatever the operand size: for the 16-bit forms that is the model's choice (log entry 34, PRESUMED;
R312). -/
def Obligations.CallGateSameLevel : Prop :=
  ∀ (call : Bool) (i : Instr) (osz : OpSize) (off : Word) (sel : BitVec 16) (g : Desc) (s s1 s2 : State),
    s.pe = true → FarOperand call i osz off sel s s1 → isNull sel = false →
    fetchDesc sel s1 = .ok (some g) s2 → g.s = false → g.type = 12 →
    (¬ (s.cpl ≤ g.dpl ∧ rpl sel ≤ g.dpl) → exec i s = takeException (excGP (.sel (sel &&& 0xFFFC))) s2) ∧
    (s.cpl ≤ g.dpl → rpl sel ≤ g.dpl →
      (g.present = false → exec i s = takeException (excNP (.sel (sel &&& 0xFFFC))) s2) ∧
      (g.present = true → isNull g.gateSel = true → exec i s = takeException (excGP (.sel 0)) s2) ∧
      (g.present = true → isNull g.gateSel = false → ∀ r s3, fetchDesc g.gateSel s2 = .ok r s3 →
        let e := g.gateSel &&& 0xFFFC
        match r with
        | none => exec i s = takeException (excGP (.sel e)) s3
        | some t =>
          let fits := t.isCode && decide (t.dpl ≤ s.cpl) && (call || t.ec || decide (t.dpl = s.cpl))
          (fits = false → exec i s = takeException (excGP (.sel e)) s3) ∧
          (fits = true → t.present = false → exec i s = takeException (excNP (.sel e)) s3) ∧
          (t.isCode = true → (if t.ec then t.dpl ≤ s.cpl else t.dpl = s.cpl) → t.present = true →
            (¬ g.gateOff ≤ t.limit → exec i s = takeException (excGP (.sel 0)) s3) ∧
            (g.gateOff ≤ t.limit →
              (call = false → ∀ pa s4, prepareA t s3 = .ok pa s4 →
                exec i s = .next (s.jumps
                    { (s4.markA t pa).enters t g.gateSel s.cpl g.gateOff with highLatch := false }) ∧
                  Accessed pa s (s4.markA t pa)) ∧
              (call = true → ∀ ws s4 pa s5 c s6, preparePushes true [4, 4] s3 = .ok ws s4 →
                prepareA t s4 = .ok pa s5 → pushedSel .w32 s.seg.cs.sel s5 = .ok c s6 →
                let u := (s6.puts ws [c, s.eipNext]).markA t pa
                exec i s = .next (s.jumps
                    { (u.moveSp (-8)).enters t g.gateSel s.cpl g.gateOff with highLatch := false }) ∧
                  Accessed (ws.flatMap (·.phys) ++ pa) s u)))))

/-- Far RET at the same level, and in real-address mode: CS:EIP from the stack, the stack pointer past them
and past `n` bytes more. The checks on the code segment are those of rows 3 to 8 of Table 6-3, for IRET too; a
stack too small raises #SS(0), an offset past the limit #GP(0). That the offset is not checked in real-address mode is
the model's choice (DEDUCED, log entry 52: R283 says so of JMP and CALL alone). What too small means for a stack with
B = 0 and a limit above FFFFH is the model's choice too (DESIGN CHOICE, log entry 71). -/
def Obligations.FarReturnSame : Prop :=
  (∀ (rcs : BitVec 16) (s : State), s.pe = true →
    let gp := excGP (.sel (rcs &&& 0xFFFC))
    (rpl rcs < s.cpl → returnSegment rcs s = .error (.exc gp) s) ∧
    (s.cpl ≤ rpl rcs → isNull rcs = true → returnSegment rcs s = .error (.exc (excGP (.sel 0))) s) ∧
    (s.cpl ≤ rpl rcs → isNull rcs = false → ∀ r t, fetchDesc rcs s = .ok r t →
      returnSegment rcs s = match r with
        | none => .error (.exc gp) t
        | some d =>
          if ¬ (d.isCode = true ∧ if d.ec then d.dpl ≤ rpl rcs else d.dpl = rpl rcs) then .error (.exc gp) t
          else if d.present = false then .error (.exc (excNP (.sel (rcs &&& 0xFFFC)))) t
          else .ok d t)) ∧
  ∀ (i : Instr) (osz : OpSize) (n : BitVec 16) (s : State),
    (i = .retFar osz ∧ n = 0) ∨ i = .retFarImm osz n →
    let room := s.seg.ss.valid && limitOk s.seg.ss (s.stackAt 0) (2 * osz.bytes)
    (s.pe = true → room = false → exec i s = takeException (excSS (.sel 0)) s) ∧
    ((s.pe = true → room = true) → ∀ eip v s1 s2,
      stackRead 0 osz.bytes s = .ok eip s1 → stackRead (retWord osz 1) osz.bytes s1 = .ok v s2 →
      let rcs := lo16 v
      let k := retWord osz 2 + zx16 n
      ReadOnly s s2 ∧
        (s.pe = false → exec i s = .next (s.jumps
          { (s2.moveSp k).setSegOf .cs (s.seg.cs.realLoad rcs) with eip := eip })) ∧
        (s.pe = true →
          (∀ e t, returnSegment rcs s2 = .error (.exc e) t → exec i s = takeException e t) ∧
          ∀ d s3, returnSegment rcs s2 = .ok d s3 → rpl rcs = s.cpl →
            (¬ eip ≤ d.limit → exec i s = takeException (excGP (.sel 0)) s3) ∧
            (eip ≤ d.limit → ∀ pa s4, prepareA d s3 = .ok pa s4 →
              exec i s = .next (s.jumps
                  { ((s4.markA d pa).moveSp k).setSegOf .cs (d.cache rcs) with eip := eip }) ∧
                Accessed pa s (s4.markA d pa))))

/-- Far RET to an outer level: CS:EIP and SS:ESP from the stack, the parameters off both stacks, the level
the RPL of CS, and each of DS, ES, FS and GS made null where it is valid, more privileged than the new level
and not conforming code. The checks on the stack segment are those of rows 10 to 15 of Table 6-3, for IRET too.
That the 16-bit form loads the popped SP with zeros above it is the model's choice (log entry 34, PRESUMED), and so is
what an outer stack with B = 0 makes of ESP (DESIGN CHOICE, log entry 68) and what its room is with a limit above FFFFH
(log entry 71). -/
def Obligations.FarReturnOuter : Prop :=
  (∀ (s : State) (x : SegReg), x ≠ .cs → x ≠ .ss →
    let c := s.segOf x
    s.nullOuter.segOf x =
        (if c.valid && decide (c.dpl < s.cpl) && !(c.exec && c.ec) then
          { c with sel := 0, valid := false } else c) ∧
      s.nullOuter = { s with seg := { s.seg with
        ds := s.nullOuter.seg.ds, es := s.nullOuter.seg.es, fs := s.nullOuter.seg.fs,
        gs := s.nullOuter.seg.gs } }) ∧
  (∀ (rss rcs : BitVec 16) (s : State),
    let gp := excGP (.sel (rss &&& 0xFFFC))
    (isNull rss = true → returnStack rss rcs s = .error (.exc (excGP (.sel 0))) s) ∧
    (isNull rss = false → ∀ r t, fetchDesc rss s = .ok r t →
      returnStack rss rcs s = match r with
        | none => .error (.exc gp) t
        | some d =>
          if ¬ (d.isWritable = true ∧ d.dpl = rpl rcs ∧ rpl rss = rpl rcs) then .error (.exc gp) t
          else if d.present = false then .error (.exc (excSS (.sel (rss &&& 0xFFFC)))) t
          else .ok d t)) ∧
  ∀ (i : Instr) (osz : OpSize) (n : BitVec 16) (eip v : Word) (d : Desc) (s s1 s2 s3 : State),
    (i = .retFar osz ∧ n = 0) ∨ i = .retFarImm osz n → s.pe = true →
    (s.seg.ss.valid && limitOk s.seg.ss (s.stackAt 0) (2 * osz.bytes)) = true →
    stackRead 0 osz.bytes s = .ok eip s1 → stackRead (retWord osz 1) osz.bytes s1 = .ok v s2 →
    let rcs := lo16 v
    let k := retWord osz 2 + zx16 n
    s.cpl < rpl rcs → returnSegment rcs s2 = .ok d s3 →
    let room := limitOk s.seg.ss (s.stackAt 0) (4 * osz.bytes + n.toNat)
    (room = false → exec i s = takeException (excSS (.sel 0)) s3) ∧
    (room = true → ∀ esp v' s4 s5, stackRead k osz.bytes s3 = .ok esp s4 →
      stackRead (k + retWord osz 1) osz.bytes s4 = .ok v' s5 →
      let rss := lo16 v'
      (∀ e t, returnStack rss rcs s5 = .error (.exc e) t → exec i s = takeException e t) ∧
      ∀ sd s6, returnStack rss rcs s5 = .ok sd s6 →
        (¬ eip ≤ d.limit → exec i s = takeException (excGP (.sel 0)) s6) ∧
        (eip ≤ d.limit → ∀ pa pb s7 s8, prepareA d s6 = .ok pa s7 → prepareA sd s7 = .ok pb s8 →
          let u := (s8.markA d pa).markA sd pb
          let w := (u.setSegOf .cs (d.cache rcs)).setSegOf .ss (sd.cache rss)
          exec i s = .next (s.jumps (State.nullOuter
              { w with
                cpl := rpl rcs, eip := eip
                gpr := { w.gpr with esp := stackSet (sd.cache rss).big esp (esp + zx16 n) } })) ∧
            Accessed (pa ++ pb) s u))

/-! ## Input and output -/

/-- Who may reach a port: everyone in real-address mode and at a level no greater than IOPL; above it, those
ports of the current task's map whose bits are all zero; anyone else gets #GP(0). Where TR was never loaded there
is no map to look at, and the machine stops (U23). That of a range past port FFFFH only the bits of ports that exist are
tested is the model's choice (DESIGN CHOICE, log entry 86). -/
def Obligations.IoPermission : Prop :=
  ∀ (port : BitVec 16) (n : Nat) (s : State),
    ((s.pe = false ∨ s.cpl ≤ s.iopl) → ioCheck port n s = .ok () s) ∧
      (s.pe = true → s.iopl < s.cpl → s.tr.loaded = false →
        ioCheck port n s = .error (.refuse .trNeverLoaded) s) ∧
      (s.pe = true → s.iopl < s.cpl → s.tr.loaded = true → s.pg = false →
        let mapBase := physRange (s.tr.base + 0x66).toNat 2
        let base := (leWord (s.bytesAt mapBase)).toNat
        let slot (p : Nat) : Nat := (s.tr.base + BitVec.ofNat 32 (base + p / 8)).toNat
        s.noDevice mapBase → (∀ p, port.toNat ≤ p → p < min (port.toNat + n) 65536 → s.noDevice [slot p]) →
        let allowed := base < s.tr.limit.toNat ∧ ∀ p, port.toNat ≤ p → p < min (port.toNat + n) 65536 →
          base + p / 8 ≤ s.tr.limit.toNat ∧ (s.byteAt (slot p)).getLsbD (p % 8) = false
        (allowed → ioCheck port n s = .ok () s) ∧
          (¬ allowed → ioCheck port n s = .error (.exc (excGP (.sel 0))) s))

/-- IN: the environment's value, whatever it is, to AL, AX or EAX; OUT: AL, AX or EAX to the environment; no
flag and no other register changes. The access is one event, of 1, 2 or 4 bytes, at a misaligned port too: that is the
model's choice (DEDUCED, log entry 17), where D14 makes several bus accesses. An access that runs past port FFFFH stops
(U20). -/
def Obligations.PortMoves : Prop :=
  ∀ (port : BitVec 16) (s s1 : State) (osz : OpSize) (p : BitVec 8),
    (ioCheck port 1 s = .ok () s1 →
      (∀ i, (i = .inAlImm p ∧ port = p.zeroExtend 16) ∨ (i = .inAlDx ∧ port = lo16 s.gpr.edx) →
        exec i s = .next (s.retires
          ((s1.portIn port 1).setReg8 .al ((lowBytes 1 (Config.portInput s1.draws)).truncate 8))) ∧
          ReadOnly s s1) ∧
      (∀ i, (i = .outImmAl p ∧ port = p.zeroExtend 16) ∨ (i = .outDxAl ∧ port = lo16 s.gpr.edx) →
        exec i s = .next (s.retires (s1.portOut port 1 s.gpr.eax)) ∧ ReadOnly s s1)) ∧
    (ioCheck port osz.bytes s = .ok () s1 → port.toNat + osz.bytes ≤ 65536 →
      (∀ i, (i = .inEaxImm osz p ∧ port = p.zeroExtend 16) ∨
          (i = .inEaxDx osz ∧ port = lo16 s.gpr.edx) →
        exec i s = .next (s.retires
          ((s1.portIn port osz.bytes).setRegSz osz .eax
            (lowBytes osz.bytes (Config.portInput s1.draws)))) ∧ ReadOnly s s1) ∧
      (∀ i, (i = .outImmEax osz p ∧ port = p.zeroExtend 16) ∨
          (i = .outDxEax osz ∧ port = lo16 s.gpr.edx) →
        exec i s = .next (s.retires (s1.portOut port osz.bytes s.gpr.eax)) ∧ ReadOnly s s1)) ∧
    (ioCheck port osz.bytes s = .ok () s1 → 65536 < port.toNat + osz.bytes → port = lo16 s.gpr.edx →
      exec (.inEaxDx osz) s = .refused .portWrap ∧ exec (.outDxEax osz) s = .refused .portWrap)

/-- INS stores the environment's value at ES:EDI, OUTS sends what stands at DS:ESI or the overriding segment;
the index moves up or down by the size of the element. The port access is one event at a misaligned port too: that is
the model's choice (DEDUCED, log entry 17), where D14 makes several bus accesses. A port that is denied is
`IoPermission`'s. What the memory operand raises is taken before the port is accessed (R382), and only then does a range
that runs past port FFFFH stop (U20). -/
def Obligations.StringMoves : Prop :=
  ∀ (asz : AddrSize) (n : Nat) (s s1 s2 : State), let port := lo16 s.gpr.edx
    ioCheck port n s = .ok () s1 →
    (∀ i, (i = .insb asz ∧ n = 1) ∨ (∃ osz, i = .ins osz asz ∧ n = osz.bytes) →
      (∀ e, segWindow .es (s.strOff asz .edi) n true s1 = .error (.exc e) s2 → exec i s = takeException e s2) ∧
      ∀ w, segWindow .es (s.strOff asz .edi) n true s1 = .ok w s2 →
        (65536 < port.toNat + n → exec i s = .refused .portWrap) ∧
        (port.toNat + n ≤ 65536 →
          let u := s2.portIn port n
          let t := u.put w (lowBytes n (Config.portInput s2.draws))
          exec i s = .next (s.retires (t.bumpStr asz .edi (s.stride n))) ∧ ReadOnly s s2 ∧
            Accessed w.phys u t)) ∧
    (∀ i ovr, (i = .outsb asz ovr ∧ n = 1) ∨ (∃ osz, i = .outs osz asz ovr ∧ n = osz.bytes) →
      (∀ e, segRead (ovr.getD .ds) (s.strOff asz .esi) n s1 = .error (.exc e) s2 →
        exec i s = takeException e s2) ∧
      ∀ v, segRead (ovr.getD .ds) (s.strOff asz .esi) n s1 = .ok v s2 →
        (65536 < port.toNat + n → exec i s = .refused .portWrap) ∧
        (port.toNat + n ≤ 65536 →
          exec i s = .next (s.retires ((s2.portOut port n v).bumpStr asz .esi (s.stride n))) ∧
            ReadOnly s s2))

/-- REP before INS or OUTS: with a count of zero nothing but the end of the instruction; else one element, the
count less one, and the same instruction again while it is not zero: one repetition a step, each fetched anew, is the
model's choice (log entries 15 and 84). Before an instruction of Part I the model stops. -/
def Obligations.RepeatsElements : Prop :=
  (∀ s : State, exec (.rep .application) s = .refused .applicationOpcode) ∧
  ∀ (t : RepTarget) (asz : AddrSize) (element : M Unit) (s : State),
    (t = .insb asz ∧ element = insElement 1 asz) ∨
      (∃ osz, t = .ins osz asz ∧ element = insElement osz.bytes asz) ∨
      (∃ ovr, t = .outsb asz ovr ∧ element = outsElement 1 asz ovr) ∨
      (∃ osz ovr, t = .outs osz asz ovr ∧ element = outsElement osz.bytes asz ovr) →
    (s.strOff asz .ecx = 0 → exec (.rep t) s = .next (s.retires s)) ∧
      (s.strOff asz .ecx ≠ 0 → ∀ s1, element s = .ok () s1 →
        let u := s1.bumpStr asz .ecx (-1)
        (u.strOff asz .ecx = 0 → exec (.rep t) s = .next (s.retires u)) ∧
          (u.strOff asz .ecx ≠ 0 →
            exec (.rep t) s = .next (complete (s.flag bitTF) .again u) ∧
              (complete (s.flag bitTF) .again u).eip = s.eip))

/-- CLI and STI: IF alone, where the level is no greater than IOPL or protection is off; #GP(0) otherwise. -/
def Obligations.InterruptFlag : Prop :=
  ∀ s : State,
    (s.pe = false ∨ s.cpl ≤ s.iopl →
      exec .cli s = .next (s.retires { s with eflags := setBit s.eflags 9 false }) ∧
        exec .sti s = .next (s.retires
          { s with eflags := setBit s.eflags 9 true, stiShadow := !s.flag 9 })) ∧
      (s.pe = true → s.iopl < s.cpl →
        exec .cli s = takeException (excGP (.sel 0)) s ∧ exec .sti s = takeException (excGP (.sel 0)) s)

/-! ## Interrupts and exceptions -/

/-- INT n, INT 3 and INTO with OF set deliver a software interrupt that returns to the next instruction, in
the handler's state or the handler's task; INTO with OF clear does nothing. In real-address mode, by general
knowledge (R646, G14; log entry 44, PRESUMED), the frame is three words and CS:EIP is the vector's entry, and an
entry past the limit of IDTR raises exception 13 without an error code. -/
def Obligations.SoftwareInterrupts : Prop :=
  ∀ (s : State),
    (s.flag 11 = false → exec .into s = .next (s.retires s)) ∧
    ∀ (i : Instr) (n : BitVec 8),
      (i = .intN n ∨ (i = .int3 ∧ n = 3) ∨ (i = .into ∧ n = 4 ∧ s.flag 11 = true)) →
      let ev : Event := { vector := n, cls := .software, ret := s.eipNext, ext := false }
      (∀ t, deliver ev s = .ok false t → exec i s = .next (s.jumps t)) ∧
        (∀ t, deliver ev s = .ok true t → exec i s = .next (s.resumes t)) ∧
        (∀ e t, deliver ev s = .error (.exc e) t → exec i s = takeException e t) ∧
        (s.pe = false → s.idtr.limit.toNat < 4 * n.toNat + 3 →
          exec i s = takeException { vector := 13 } s) ∧
        (s.pe = false → 4 * n.toNat + 3 ≤ s.idtr.limit.toNat →
          let a := s.idtr.base + BitVec.ofNat 32 (4 * n.toNat)
          s.noDevice (physRange a.toNat 4) →
          ∀ ws s1, preparePushes false [2, 2, 2] s = .ok ws s1 →
            let v := s.dwordAt a
            let u := s1.puts ws [s.eflags, zx16 s.seg.cs.sel, s.eipNext]
            exec i s = .next (s.jumps
                { (u.moveSp (-6)).setSegOf .cs (s.seg.cs.realLoad (v.extractLsb' 16 16)) with
                  eip := zx16 (lo16 v)
                  eflags := setBit (setBit s.eflags 9 false) 8 false }) ∧
              Accessed (ws.flatMap (·.phys)) s u)

/-- Entry through an interrupt or trap gate: which entries of the IDT and which handlers are refused with which
exception (rule R545); then, at the current level, flags, CS, the return address and the error
code on the current stack, CS:EIP the gate's, TF and NT and RF clear, IF clear through an interrupt gate only. A
software interrupt needs a gate its level may use. What room means for a stack with B = 0 and a limit above FFFFH is
the model's choice (DESIGN CHOICE, log entry 71). -/
def Obligations.GateEntrySame : Prop :=
  ∀ (ev : Event) (g : Desc) (s s1 : State),
    s.pe = true → 8 * ev.vector.toNat + 7 ≤ s.idtr.limit.toNat →
    readDesc (s.idtr.base + BitVec.ofNat 32 (8 * ev.vector.toNat)) s = .ok g s1 →
    let usable := ev.cls = .software → s.cpl ≤ g.dpl
    (g.s = false → g.type = 6 ∨ g.type = 7 → deliver ev s = .error (.refuse .descriptor286) s1) ∧
    (g.s = true ∨ g.type ∉ [5, 6, 7, 14, 15] →
      deliver ev s = .error (.exc (excGP (idtErr ev.vector ev.ext))) s1) ∧
    (g.s = false → g.type ∈ [5, 14, 15] → ¬ usable →
      deliver ev s = .error (.exc (excGP (idtErr ev.vector false))) s1) ∧
    (g.s = false → g.type ∈ [5, 14, 15] → usable → g.present = false →
      deliver ev s = .error (.exc (excNP (idtErr ev.vector ev.ext))) s1) ∧
    (g.s = false → g.type = 14 ∨ g.type = 15 → usable → g.present = true → ∀ err s2,
      pushedCode ev.code s1 = .ok err s2 →
      let gp := excGP (selErr g.gateSel ev.ext)
      (isNull g.gateSel = true → deliver ev s = .error (.exc (excGP (.sel (extBit ev.ext)))) s2) ∧
      (isNull g.gateSel = false → ∀ r s3, fetchDesc g.gateSel s2 = .ok r s3 →
        match r with
        | none => deliver ev s = .error (.exc gp) s3
        | some t =>
          (¬ (t.isCode = true ∧ t.dpl ≤ s.cpl) → deliver ev s = .error (.exc gp) s3) ∧
          (t.isCode = true → t.dpl ≤ s.cpl → t.present = false →
            deliver ev s = .error (.exc (excNP (selErr g.gateSel ev.ext))) s3) ∧
          (t.isCode = true → (if t.ec then t.dpl ≤ s.cpl else t.dpl = s.cpl) → t.present = true →
            let n := 3 + err.toList.length
            let k := BitVec.ofNat 32 (4 * n)
            let room := s.seg.ss.valid && limitOk s.seg.ss (s.stackAt (-k)) (4 * n)
            (room = false → deliver ev s = .error (.exc (excSS (.sel (extBit ev.ext)))) s3) ∧
            (room = true → ¬ g.gateOff ≤ t.limit →
              deliver ev s = .error (.exc (excGP (.sel (extBit ev.ext)))) s3) ∧
            (room = true → g.gateOff ≤ t.limit → ∀ pa s4 ws s5 c s6, prepareA t s3 = .ok pa s4 →
              preparePushes false (List.replicate n 4) s4 = .ok ws s5 →
              pushedSel .w32 s.seg.cs.sel s5 = .ok c s6 →
              let img := if ev.fault then setBit s.eflags 16 true else s.eflags
              let u := (s6.markA t pa).puts ws ([img, c, ev.ret] ++ err.toList)
              deliver ev s = .ok false
                  { (u.moveSp (-k)).enters t g.gateSel s.cpl g.gateOff with
                    eflags := handlerFlags s.eflags (g.type == 14) } ∧
                Accessed (pa ++ ws.flatMap (·.phys)) s u))))

/-- Entry through an interrupt or trap gate to a more privileged level: the same frame below the old SS:ESP,
on the stack that the TSS gives the new level, or the exception that this stack raises; its room with B = 0 and a limit
above FFFFH is the model's choice (DESIGN CHOICE, log entry 71). -/
def Obligations.GateEntryInner : Prop :=
  ∀ (ev : Event) (g t : Desc) (err : Option Word) (s s1 s2 s3 : State),
    s.pe = true → 8 * ev.vector.toNat + 7 ≤ s.idtr.limit.toNat →
    readDesc (s.idtr.base + BitVec.ofNat 32 (8 * ev.vector.toNat)) s = .ok g s1 →
    g.s = false → (g.type = 14 ∨ g.type = 15) → (ev.cls = .software → s.cpl ≤ g.dpl) →
    g.present = true → pushedCode ev.code s1 = .ok err s2 → isNull g.gateSel = false →
    fetchDesc g.gateSel s2 = .ok (some t) s3 → t.isCode = true → t.ec = false → t.dpl < s.cpl →
    t.present = true →
    (∀ e u, innerStack t.dpl ev.ext s3 = .error (.exc e) u → deliver ev s = .error (.exc e) u) ∧
    ∀ nss nesp sd s4, innerStack t.dpl ev.ext s3 = .ok (nss, nesp, sd) s4 →
      let n := 5 + err.toList.length
      let room := stackRoom (sd.cache nss) nesp (4 * n)
      (room = false → deliver ev s = .error (.exc (excSS (selErr nss ev.ext))) s4) ∧
      (room = true → ¬ g.gateOff ≤ t.limit →
        deliver ev s = .error (.exc (excGP (.sel (extBit ev.ext)))) s4) ∧
      (room = true → g.gateOff ≤ t.limit → ∀ pa s5 pb s6 ws s7 oldSs s8 oldCs s9,
        prepareA t s4 = .ok pa s5 → prepareA sd s5 = .ok pb s6 →
        innerWindows false (sd.cache nss) nesp 0 (List.replicate n 4) s6 = .ok ws s7 →
        pushedSel .w32 s.seg.ss.sel s7 = .ok oldSs s8 → pushedSel .w32 s.seg.cs.sel s8 = .ok oldCs s9 →
        let img := if ev.fault then setBit s.eflags 16 true else s.eflags
        let u := ((s9.markA t pa).markA sd pb).puts ws
          ([oldSs, s.gpr.esp, img, oldCs, ev.ret] ++ err.toList)
        deliver ev s = .ok false
            { (u.setInner (sd.cache nss) nesp (4 * n)).enters t g.gateSel t.dpl g.gateOff with
              cpl := t.dpl, eflags := handlerFlags s.eflags (g.type == 14) } ∧
          Accessed (pa ++ pb ++ ws.flatMap (·.phys)) s u)

/-- An exception of an instruction is delivered with the instruction's own address as return address (an
abort has none), EXT set, and the debug traps it had collected dropped. With a second exception what the delivery of
the first left pending is dropped: that is the T-bit trap of a task switch whose error-code push faulted, dropped by
the model's choice (DESIGN CHOICE, log entry 57). A second exception raised in the incoming task of such a switch has
that task's next instruction as return address (DEDUCED, log entry 25). -/
def Obligations.ExceptionTaken : Prop :=
  ∀ (e : Exc) (s : State), e.vector ≠ 9 →
    let s' := { s with pend := .none, ended := .raised e.vector, draws := s.draws + 1 }
    let ev : Event := { vector := e.vector, cls := .exception, code := e.code, fault := e.fault,
                        ret := s.eip, ext := true }
    (∀ b t, deliver ev s' = .ok b t → takeException e s = .next { t with dirty := [], hazard := .none }) ∧
      (∀ e' t, deliver ev s' = .error (.exc e') t →
        (e.vector = 8 → takeException e s = .next { t with run := .shutdown, pend := .none }) ∧
        (e.vector ≠ 8 →
          takeException e s = deliverChain 4
            (if (contributory e.vector && contributory e'.vector) ||
                (e.vector == 14 && (contributory e'.vector || e'.vector == 14)) then
              { vector := 8, cls := .exception, code := .sel 0, fault := false, ret := s.eip, ext := true }
            else
              { vector := e'.vector, cls := .exception, code := e'.code, fault := e'.fault,
                ret := if e'.incoming then t.eip else s.eip, ext := true })
            { t with pend := .none }))

/-- An IDT with limit 0 leads every event to shutdown, in either mode; shutdown is left only by RESET, and until
then a step changes nothing but what the environment presents, an NMI presented while the NMI latch is set being
forgotten (R506, D36). -/
def Obligations.Shutdown : Prop :=
  (∀ (ev : Event) (s : State), s.idtr.limit = 0 →
    ∃ t, deliverEvent ev s = .next t ∧ t.run = .shutdown ∧ Quiet s { t with run := s.run }) ∧
  ∀ s : State, s.run = .shutdown →
    (s.env = [] → s.pins.reset = false → step s = .fault .shutdown) ∧
      (∀ p ps, s.env = p :: ps → p.reset = false →
        let nmi := !s.nmiLatch && (p.nmi || s.pins.nmi)
        step s = .next (({ s with env := ps, pins := { p with nmi := nmi, writes := [] } } : State).busWrites
          p.writes)) ∧
      (∀ t, step s = .next t → t.run = .running → s.sense.pins.reset = true ∧ t = s.sense.doReset)

/-- IRET in real-address mode, and IRET through the stack at the same level: EIP, CS and flags from the stack,
RF as loaded, the NMI latch clear. A stack too small raises #SS(0), what the code segment raises is taken, an
offset past the limit raises #GP(0), and an image that would set VM stops (D2). The real-address mode form is R647,
general knowledge (PRESUMED, log entry 44; D44 lets a model refuse it), and that it checks no offset is the model's
choice (DEDUCED, log entry 52). Where the stop stands among the checks
(log entry 72), and what room means for a stack with B = 0 and a limit above FFFFH (log entry 71), are the model's
choices (DESIGN CHOICE). -/
def Obligations.IretSame : Prop :=
  ∀ (osz : OpSize) (s : State), (s.pe = true → s.flag 14 = false) →
    let room := s.seg.ss.valid && limitOk s.seg.ss (s.stackAt 0) (3 * osz.bytes)
    (s.pe = true → room = false → exec (.iret osz) s = takeException (excSS (.sel 0)) s) ∧
    ((s.pe = true → room = true) → ∀ eip v fl s1 s2 s3,
      stackRead 0 osz.bytes s = .ok eip s1 → stackRead (retWord osz 1) osz.bytes s1 = .ok v s2 →
      stackRead (retWord osz 2) osz.bytes s2 = .ok fl s3 →
      let rcs := lo16 v
      ReadOnly s s3 ∧
        (s.pe = false → exec (.iret osz) s = .next (s.resumes
          { (s3.moveSp (retWord osz 3)).setSegOf .cs (s.seg.cs.realLoad rcs) with
            eip := eip, eflags := loadFlags osz false 0 s.eflags fl, nmiLatch := false })) ∧
        (s.pe = true →
          (∀ e t, returnSegment rcs s3 = .error (.exc e) t → exec (.iret osz) s = takeException e t) ∧
          ∀ d s4, returnSegment rcs s3 = .ok d s4 → rpl rcs = s.cpl →
            let vm := osz = .w32 ∧ s.cpl = 0 ∧ fl.getLsbD 17 = true
            (vm → exec (.iret osz) s = .refused .virtual8086) ∧
            (¬ vm → ¬ eip ≤ d.limit → exec (.iret osz) s = takeException (excGP (.sel 0)) s4) ∧
            (¬ vm → eip ≤ d.limit → ∀ pa s5, prepareA d s4 = .ok pa s5 →
              exec (.iret osz) s = .next (s.resumes
                  { ((s5.markA d pa).moveSp (retWord osz 3)).setSegOf .cs (d.cache rcs) with
                    eip := eip, eflags := loadFlags osz true s.cpl s.eflags fl, nmiLatch := false }) ∧
                Accessed pa s (s5.markA d pa))))

/-- IRET to an outer level: SS:ESP from the stack too, the level the RPL of CS, the flags loaded by the
privilege of the level it leaves, and the data-segment registers the new level may not use made null; the
exceptions are those of a far RET to an outer level. That the 16-bit form loads the popped SP with zeros above it
is the model's choice (log entry 34, PRESUMED), and so are what an outer stack with B = 0 makes of ESP (DESIGN CHOICE,
log entry 68), where the stop of an image with VM stands (log entry 72), and the room of a stack with B = 0 (log entry
71). -/
def Obligations.IretOuter : Prop :=
  ∀ (osz : OpSize) (eip v fl : Word) (d : Desc) (s s1 s2 s3 s4 : State),
    s.pe = true → s.flag 14 = false →
    (s.seg.ss.valid && limitOk s.seg.ss (s.stackAt 0) (3 * osz.bytes)) = true →
    stackRead 0 osz.bytes s = .ok eip s1 → stackRead (retWord osz 1) osz.bytes s1 = .ok v s2 →
    stackRead (retWord osz 2) osz.bytes s2 = .ok fl s3 →
    let rcs := lo16 v
    s.cpl < rpl rcs → returnSegment rcs s3 = .ok d s4 →
    let room := limitOk s.seg.ss (s.stackAt 0) (5 * osz.bytes)
    let vm := osz = .w32 ∧ s.cpl = 0 ∧ fl.getLsbD 17 = true
    (room = false → exec (.iret osz) s = takeException (excSS (.sel 0)) s4) ∧
    (room = true → vm → exec (.iret osz) s = .refused .virtual8086) ∧
    (room = true → ¬ vm → ∀ esp v' s5 s6, stackRead (retWord osz 3) osz.bytes s4 = .ok esp s5 →
      stackRead (retWord osz 3 + retWord osz 1) osz.bytes s5 = .ok v' s6 →
      let rss := lo16 v'
      (∀ e t, returnStack rss rcs s6 = .error (.exc e) t → exec (.iret osz) s = takeException e t) ∧
      ∀ sd s7, returnStack rss rcs s6 = .ok sd s7 →
        (¬ eip ≤ d.limit → exec (.iret osz) s = takeException (excGP (.sel 0)) s7) ∧
        (eip ≤ d.limit → ∀ pa pb s8 s9, prepareA d s7 = .ok pa s8 → prepareA sd s8 = .ok pb s9 →
          let u := (s9.markA d pa).markA sd pb
          let w := (u.setSegOf .cs (d.cache rcs)).setSegOf .ss (sd.cache rss)
          exec (.iret osz) s = .next (s.resumes
              { State.nullOuter { w with
                  cpl := rpl rcs, eip := eip
                  gpr := { w.gpr with esp := stackSet (sd.cache rss).big esp esp } } with
                eflags := loadFlags osz true s.cpl s.eflags fl, nmiLatch := false }) ∧
            Accessed (pa ++ pb) s u))

/-- A task switch that completes. CR3 is loaded first, with paging on, and the TLB flushed where it differs; then the
doublewords of the new TSS are read, in the order of rule R340, under the paging that is now in force; where that
would fault, at the addresses that phase A found under the paging it foresaw (log entry 51), so that no read of the
new TSS raises an exception after something is written (R578, D27). EIP, EFLAGS, the
general registers, the selectors and the level are the image's, with NT set for a nested task, clear after JMP and as
the image has it after IRET; TR is the new task's, TS is set, the local breakpoint enables are clear. From that state
on LDTR and the segment registers are loaded, one after another, with the descriptors that their selectors name there,
each accessed bit set; a null one stays invalid. The T bit leaves a debug trap pending; an error code has moved ESP.
Nothing else of the processor changes. An exception that is not raised in the new task comes before anything is
written but accessed and dirty bits of page tables (R348, R578). What the switch asks of the two tasks is said last. -/
def Obligations.TaskSwitchLoads : Prop :=
  (∀ (s : State) (v : Word), let u := s.switchCr3 v
    u = { s with cr := { s.cr with cr3 := v }, tlb := u.tlb } ∧ (v = s.cr.cr3 → u.tlb = s.tlb) ∧
      (v ≠ s.cr.cr3 → ∀ e ∈ u.tlb, e.v = false)) ∧
  (∀ (kind : SwitchKind) (tsel : BitVec 16) (d : Desc) (ext : Bool) (ret : Word) (rf : Bool)
    (err : Option Word) (s t : State), s.pe = true → taskSwitch kind tsel d ext ret rf err s = .ok () t →
    ∃ plan a s1 s2 s3 s4 ps s5 s6 word e0 e1 e2 e3 e4 e5 e6,
      phaseA kind tsel d ext s = .ok plan s1 ∧ phaseB kind plan ret rf s1 = .ok () s2 ∧
      ReadOnly s a ∧
      (let v := leWord (a.bytesAt ((plan.newTss.drop 0x1C).take 4))
        if s.pg = true ∧ v ≠ s.cr.cr3 then
          underCr3 v (translateRange (d.base + 0x20) 0x48 false false) a = .ok plan.image s1
        else plan.image = plan.newTss.drop 0x20) ∧
      phaseC tsel d plan s2 = .ok () s3 ∧
      (if s.pg then ∃ c u, readBytes ((plan.newTss.drop 0x1C).take 4) s3 = .ok c u ∧
          s4 = u.switchCr3 (leWord c)
        else s4 = s3) ∧
      (∀ q u, translateRange (d.base + 0x20) 0x48 false false s4 = .ok q u → ps = q ∧ s5 = u) ∧
      ((∀ q u, translateRange (d.base + 0x20) 0x48 false false s4 ≠ .ok q u) → ps = plan.image) ∧
      ImageRead ps word [0x60, 0x24, 0x20, 0x28, 0x2C, 0x30, 0x34, 0x38, 0x3C, 0x40, 0x44, 0x48, 0x4C, 0x50,
        0x54, 0x58, 0x5C, 0x64] s5 s6 ∧
      let sel (k : Nat) : BitVec 16 := lo16 (word k)
      let unchecked (c : SegCache) (k : Nat) : SegCache := { c with sel := sel k, valid := false }
      let t1 : State := { s with
        gpr := { eax := word 0x28, ecx := word 0x2C, edx := word 0x30, ebx := word 0x34, esp := word 0x38,
                 ebp := word 0x3C, esi := word 0x40, edi := word 0x44 }
        eip := word 0x20
        eflags := normFlags (match kind with
          | .call | .int => setBit (word 0x24) 14 true
          | .jmp => setBit (word 0x24) 14 false
          | .iret => word 0x24)
        seg := { es := unchecked s.seg.es 0x48, cs := unchecked s.seg.cs 0x4C, ss := unchecked s.seg.ss 0x50,
                 ds := unchecked s.seg.ds 0x54, fs := unchecked s.seg.fs 0x58, gs := unchecked s.seg.gs 0x5C }
        ldtr := { s.ldtr with sel := sel 0x60, valid := false }
        tr := { sel := tsel, base := d.base, limit := d.limit, loaded := true }
        cr := { s.cr with cr0 := s.cr.cr0 ||| 8#32, cr3 := s4.cr.cr3 }
        dr := { s.dr with dr7 := s.dr.dr7 &&& ~~~0x155#32 }
        cpl := rpl (sel 0x4C) }
      s6 = { t1 with mem := s6.mem, dirty := s6.dirty, tlb := s6.tlb, draws := s6.draws, io := s6.io } ∧
      (word 0x24).getLsbD 17 = false ∧
      (if isNull (sel 0x60) then e0 = s6
        else ti (sel 0x60) = false ∧ ∃ l b, fetchDesc (sel 0x60) s6 = .ok (some l) b ∧ l.s = false ∧
          l.type = 2 ∧ l.present = true ∧
          e0 = { b with ldtr := { sel := sel 0x60, base := l.base, limit := l.limit, valid := true } }) ∧
      (∃ c u, isNull (sel 0x4C) = false ∧ Fetched (sel 0x4C) c e0 u ∧
        e1 = { u with seg := { u.seg with cs := c.cache (sel 0x4C) } } ∧ c.isCode = true ∧ c.present = true ∧
        (if c.ec then c.dpl ≤ t1.cpl else c.dpl = t1.cpl) ∧ word 0x20 ≤ c.limit) ∧
      (∃ c u, isNull (sel 0x50) = false ∧ Fetched (sel 0x50) c e1 u ∧
        e2 = { u with seg := { u.seg with ss := c.cache (sel 0x50) } } ∧ c.isWritable = true ∧
        c.present = true ∧ rpl (sel 0x50) = t1.cpl ∧ c.dpl = t1.cpl) ∧
      (∀ p ∈ [(SegReg.ds, 0x54, e2, e3), (.es, 0x48, e3, e4), (.fs, 0x58, e4, e5), (.gs, 0x5C, e5, e6)],
        let (x, k, e, e') := p
        if isNull (sel k) then e' = e
        else ∃ c u, Fetched (sel k) c e u ∧ e' = u.setSegOf x (c.cache (sel k)) ∧ c.s = true ∧
          (c.exec = false ∨ c.rw = true) ∧ c.present = true ∧
          (c.isConforming = true ∨ (t1.cpl ≤ c.dpl ∧ rpl (sel k) ≤ c.dpl))) ∧
      t = { t1 with
        mem := t.mem, dirty := t.dirty, tlb := t.tlb, draws := t.draws, io := t.io
        gpr := { t1.gpr with
          esp := if err.isSome then stackSet t.seg.ss.big (word 0x38) (word 0x38 - 4) else word 0x38 }
        seg := e6.seg, ldtr := e6.ldtr
        pend := { s.pend with bt := s.pend.bt || (word 0x64).getLsbD 0 } } ∧
      (∀ (x : SegReg) (k : Nat), (x, k) ∈ [(.es, 0x48), (.cs, 0x4C), (.ss, 0x50), (.ds, 0x54), (.fs, 0x58),
          (.gs, 0x5C)] → (t.segOf x).sel = sel k ∧ (t.segOf x).valid = !isNull (sel k)) ∧
      t.ldtr.sel = sel 0x60 ∧ t.ldtr.valid = !isNull (sel 0x60)) ∧
  (∀ (kind : SwitchKind) (tsel : BitVec 16) (d : Desc) (ext : Bool) (ret : Word) (rf : Bool)
    (err : Option Word) (s t : State) (e : Exc),
    taskSwitch kind tsel d ext ret rf err s = .error (.exc e) t → e.incoming = false →
    phaseA kind tsel d ext s = .error (.exc e) t ∧
      t = { s with mem := t.mem, dirty := t.dirty, tlb := t.tlb, draws := t.draws, io := t.io,
                   cr := { s.cr with cr2 := t.cr.cr2 } } ∧
      (MemOk s → SameButTables s t)) ∧
  (∀ (kind : SwitchKind) (d : Desc) (plan : SwitchPlan) (s : State) (e : Exc) (t : State),
    phaseD kind d plan s ≠ .error (.exc e) t) ∧
  ∀ (kind : SwitchKind) (tsel : BitVec 16) (d : Desc) (ext : Bool) (ret : Word) (rf : Bool)
    (err : Option Word) (s : State),
    let stops (e : Exc) := taskSwitch kind tsel d ext ret rf err s = .error (.exc e) s
    (kind = .iret → d.busy = false → stops (excTS (selErr tsel ext))) ∧
    (kind ≠ .iret → d.busy = true → stops (excGP (selErr tsel ext))) ∧
    (d.busy = (kind == .iret) → d.present = false → stops (excNP (selErr tsel ext))) ∧
    (d.busy = (kind == .iret) → d.present = true → d.limit.toNat < 103 → stops (excTS (selErr tsel ext))) ∧
    (d.busy = (kind == .iret) → d.present = true → 103 ≤ d.limit.toNat →
      (s.tr.loaded = false →
        taskSwitch kind tsel d ext ret rf err s = .error (.refuse .trNeverLoaded) s) ∧
      (s.tr.loaded = true → s.tr.limit.toNat < 103 →
        taskSwitch kind tsel d ext ret rf err s = .error (.refuse .tssTooSmall) s))

/-- The ways to a task switch. Far JMP and CALL: to a TSS that the level may use, or through a task gate that it may
use, to return to the next instruction. An event whose IDT entry is a task gate, with RF in the saved flags of a fault
and the error code for the new stack; IRET with NT set, to the task of the link. Each with the exceptions it raises
instead. What the task gate's selector must be is said first, for all three that use one. An 80286 TSS behind a task
gate or a back link stops (D21, log entry 39). A switch that raises an exception in the new task leaves the high-address
latch of a far JMP or CALL, and the NMI latch of an IRET, as they were: the model's choice (DESIGN CHOICE, log entries
59 and 58). -/
def Obligations.TaskTransfers : Prop :=
  (∀ (kind : SwitchKind) (tsel : BitVec 16) (ext : Bool) (ret : Word) (rf : Bool) (err : Option Word) (s : State),
    let gp := excGP (selErr tsel ext)
    (isNull tsel = true ∨ ti tsel = true →
      gateToTss kind tsel ext ret rf err s = .error (.exc gp) s) ∧
    (isNull tsel = false → ti tsel = false → ∀ r t, fetchDesc tsel s = .ok r t →
      gateToTss kind tsel ext ret rf err s = match r with
        | none => .error (.exc gp) t
        | some d =>
          if d.s = false ∧ (d.type = 9 ∨ d.type = 11) then taskSwitch kind tsel d ext ret rf err t
          else if d.s = false ∧ (d.type = 1 ∨ d.type = 3) then .error (.refuse .descriptor286) t
          else .error (.exc gp) t)) ∧
  (∀ (call : Bool) (i : Instr) (osz : OpSize) (off : Word) (sel : BitVec 16) (d : Desc) (s s1 s2 : State),
    s.pe = true → FarOperand call i osz off sel s s1 → isNull sel = false →
    fetchDesc sel s1 = .ok (some d) s2 → d.s = false → d.type ∈ [5, 9, 11] →
    let gp := excGP (.sel (sel &&& 0xFFFC))
    let kind : SwitchKind := if call then .call else .jmp
    let usable := s.cpl ≤ d.dpl ∧ rpl sel ≤ d.dpl
    (d.type ≠ 5 → ti sel = true → exec i s = takeException gp s2) ∧
    (d.type = 5 ∨ ti sel = false → ¬ usable → exec i s = takeException gp s2) ∧
    (d.type = 5 → usable → d.present = false →
      exec i s = takeException (excNP (.sel (sel &&& 0xFFFC))) s2) ∧
    ∀ go : M Unit,
      (d.type ≠ 5 ∧ ti sel = false ∧ go = taskSwitch kind sel d false s.eipNext false none) ∨
        (d.type = 5 ∧ d.present = true ∧ go = gateToTss kind d.gateSel false s.eipNext false none) →
      usable →
      (∀ s3, go s2 = .ok () s3 → exec i s = .next (s.resumes { s3 with highLatch := false })) ∧
        (∀ e s3, go s2 = .error (.exc e) s3 → exec i s = takeException e s3)) ∧
  (∀ (ev : Event) (g : Desc) (err : Option Word) (s s1 s2 : State),
    s.pe = true → 8 * ev.vector.toNat + 7 ≤ s.idtr.limit.toNat →
    readDesc (s.idtr.base + BitVec.ofNat 32 (8 * ev.vector.toNat)) s = .ok g s1 →
    g.s = false → g.type = 5 → (ev.cls = .software → s.cpl ≤ g.dpl) → g.present = true →
    pushedCode ev.code s1 = .ok err s2 →
    let go := gateToTss .int g.gateSel ev.ext ev.ret ev.fault err
    (∀ t, go s2 = .ok () t → deliver ev s = .ok true t) ∧
      (∀ x t, go s2 = .error x t → deliver ev s = .error x t)) ∧
  ∀ (osz : OpSize) (s : State), s.pe = true → s.flag 14 = true →
    (s.tr.loaded = false → exec (.iret osz) s = .refused .trNeverLoaded) ∧
    (s.tr.loaded = true → ∀ v s1, sysRead s.tr.base 2 s = .ok v s1 →
      let sel := lo16 v
      let ts := excTS (.sel (sel &&& 0xFFFC))
      (isNull sel = true ∨ ti sel = true → exec (.iret osz) s = takeException ts s1) ∧
      (isNull sel = false → ti sel = false → ∀ r s2, fetchDesc sel s1 = .ok r s2 →
        match r with
        | none => exec (.iret osz) s = takeException ts s2
        | some d =>
          (d.s = false → d.type = 1 ∨ d.type = 3 → exec (.iret osz) s = .refused .descriptor286) ∧
          (d.s = true ∨ d.type ∉ [1, 3, 9, 11] → exec (.iret osz) s = takeException ts s2) ∧
          (d.s = false → d.type = 9 ∨ d.type = 11 →
            let go := taskSwitch .iret sel d false s.eipNext false none
            (∀ s3, go s2 = .ok () s3 →
              exec (.iret osz) s = .next (s.resumes { s3 with nmiLatch := false })) ∧
              (∀ e s3, go s2 = .error (.exc e) s3 → exec (.iret osz) s = takeException e s3))))

/-- BOUND: nothing happens where the index lies between the signed bounds, both included; else #BR. The upper bound
is read one operand size on, modulo the address size, and each bound is checked alone: at the end of the offset space
that is the model's choice (log entry 78). A register operand is #UD. -/
def Obligations.BoundChecks : Prop :=
  ∀ (osz : OpSize) (r : Reg) (s : State),
    (∀ q, exec (.bound osz r (.reg q)) s = takeException excUD s) ∧
    ∀ (m : MemOp) (lo hi : Word) (s1 s2 : State), memRead m 0 osz.bytes s = .ok lo s1 →
      memRead m (retWord osz 1) osz.bytes s1 = .ok hi s2 →
      let i := signedOf osz (s.regSz osz r)
      ReadOnly s s2 ∧
        (signedOf osz lo ≤ i → i ≤ signedOf osz hi →
          exec (.bound osz r (.mem m)) s = .next (s.retires s2)) ∧
        (i < signedOf osz lo ∨ signedOf osz hi < i →
          exec (.bound osz r (.mem m)) s = takeException excBR s2)

/-- The boundary between two instructions. An NMI request is held until it is accepted, but one presented while the
NMI latch is set is forgotten (R506, D36). After a load of SS nothing is recognised, and what was pending is
dropped (R509, D37). Else, in order: the debug traps, as one #DB, which comes again without end where the debug
handler is the current task and its T bit is set (R619; log entry 62), and may set Bn and BD of the next instruction's
debug faults too (R601, R620; which of them is free, the model's choice, log entry 85); a debug fault of the next instruction, that is
an enabled instruction breakpoint or general detect with RF clear, unless the instruction itself raises another
fault (#MP is an abort, and none); NMI; INTR; the instruction. General detect is judged of the very fetch that is executed. A halted processor with
no request that ends the halt never goes on, nor one that waits on BUSY# where that is held active for ever (R473); a debug
trap or an instruction breakpoint is reported during a wait (the model's choice, log entries 75 and 76), and no debug
fault of the instruction after HLT during a halt (the model's choice, log entry 87). A debug fault may set Bn of a
breakpoint that is not enabled and that the last instruction's accesses matched (R607). The saved address is the next
instruction's. -/
def Obligations.BoundaryOrder : Prop :=
  (∀ (s : State) (p : Pins) (ps : List Pins), s.env = p :: ps → s.sense.env = ps ∧
    s.sense.pins = { p with nmi := !s.nmiLatch && (p.nmi || s.pins.nmi), writes := [] }) ∧
  ∀ s : State, s.env = [] → s.pins.reset = false → s.run ≠ .shutdown → s.flag bitVM = false →
    let trap : Event := { vector := 1, cls := .exception, ret := s.eip, ext := true }
    let beside (u : State) : BitVec 4 := if u.flag 16 then 0 else u.codeHits true ||| u.codeHits false
    let bd (u : State) : Bool := !u.flag 16 && u.generalDetect && Config.trapTakesBd u.draws
    (s.inhibit = true → s.dr.undefinedOn = false → ∀ i s1,
      nextInstr { s with inhibit := false, stiShadow := false, pend := .none, run := .running } = .ok i s1 →
      step s = exec i s1) ∧
    (∀ (on : Bool), ∀ n < 4, (s.codeHits on).getLsbD n = decide (s.dr.enabled n = on ∧ s.dr.rw n = 0 ∧
      s.dr.len n = 0 ∧ s.dr.addr n = s.fetchLin)) ∧
    (s.generalDetect = true ↔ s.plat.iceActive = true ∧ s.level = 0 ∧
      ∃ i t, nextInstr s.opened = .ok i t ∧ usesDr i = true) ∧
    (s.debugFaults = true ↔ s.flag 16 = false ∧ (s.codeHits true ≠ 0 ∨ s.generalDetect = true)) ∧
    (s.inhibit = false →
      (s.pend.trap = true → s.pend.bt = false ∨ (∀ t, ownDebugTask s ≠ .ok true t) →
        step s = deliverEvent trap (s.debugged s.pend.hits (s.pend.others ||| s.pend.carried ||| beside s) (bd s)
          s.pend.bs s.pend.bt)) ∧
      (s.pend.bt = true → ∀ t, ownDebugTask s = .ok true t →
        let u := t.debugged t.pend.hits (t.pend.others ||| t.pend.carried ||| beside t) (bd t) t.pend.bs true
        step s = .next { u with pend := { u.pend with bt := true } }) ∧
      (s.pend.trap = false → s.run = .running ∨ s.run = .waiting →
        s.debugFaults = true → s.dr.undefinedOn = false → ∀ i s1,
        nextInstr s.opened = .ok i s1 → ∀ t, exec i s1 = .next t →
        (t.ended = .completed ∨ t.ended = .raised 9 → step s = deliverEvent { trap with fault := true }
          (s.debugged (s.codeHits true) (s.codeHits false ||| (s.pend.others ||| s.pend.carried)) s.generalDetect
            false false)) ∧
        (∀ v, t.ended = .raised v → v ≠ 9 → step s = .next t)) ∧
      (s.pend.trap = false → s.run = .halted ∨ s.debugFaults = false →
        (s.pins.nmi = true → s.nmiLatch = false →
          step s = deliverEvent { vector := 2, cls := .external, ret := s.eip, ext := true }
            { s with nmiLatch := true, pins := { s.pins with nmi := false }, run := .running,
                     stiShadow := false, pend := s.pend.promote }) ∧
        (s.pins.nmi = false ∨ s.nmiLatch = true →
          (∀ n, s.pins.intr = some n → s.flag bitIF = true → s.stiShadow = false →
            step s = deliverEvent { vector := n, cls := .external, ret := s.eip, ext := true }
              { s with run := .running, stiShadow := false, pend := s.pend.promote,
                       draws := s.draws + 1 }) ∧
          (s.flag bitIF = false ∨ s.pins.intr = none →
            (s.run = .halted → step s = .fault .haltedForever) ∧
            (s.run = .waiting → s.pins.busy = true → step s = .fault .waitingForever)))))

/-! ## System control -/

/-- LMSW at level 0 or in real-address mode: TS, EM and MP from the operand, PE set or kept, no other bit of
CR0; setting PE starts protected mode at level 0. CLTS clears TS alone. HLT stops at the next instruction. -/
def Obligations.MachineStatus : Prop :=
  ∀ (src : Rm) (s s1 : State) (v : BitVec 16), s.level = 0 →
    (readRm16 src s = .ok v s1 →
      let c := (s.cr.cr0 &&& 0xFFFFFFF1#32) ||| (zx16 v &&& 0xF#32)
      exec (.lmsw src) s = .next (s.retires { s1 with
          cr := { s.cr with cr0 := c }
          cpl := if s.pe then s.cpl else if v.getLsbD 0 then 0 else s.cpl
          hazard := if s.pe = false ∧ v.getLsbD 0 = true then .pe else s.hazard }) ∧
        ReadOnly s s1) ∧
      exec .clts s = .next (s.retires { s with cr := { s.cr with cr0 := setBit s.cr.cr0 3 false } }) ∧
      exec .hlt s = .next (s.retires { s with run := .halted })

/-- The moves of control registers at level 0 or in real-address mode: CR0, CR2 and CR3 are read and written
whole, the status flags are free after them, a write of CR3 flushes the TLB, a change of PG leaves a TLB of which
nothing is known where it holds a valid entry (U21; log entry 28), CR0 with PG and without PE is #GP(0), any other
number is #UD. A write that clears PE stops (D31), and one that sets PG while CR3 was never written. The moves of
debug registers: DR0 to DR3, DR6 and DR7 are read and written whole, the status flags are free after them; DR4 and
DR5 stop (U14). -/
def Obligations.ControlRegisterMoves : Prop :=
  (∀ (r : Reg) (s : State), s.level = 0 →
    exec (.movRegCr r 0) s = .next (s.retires (s.setReg r s.cr.cr0).flagsFreed) ∧
      exec (.movRegCr r 2) s = .next (s.retires (s.setReg r s.cr.cr2).flagsFreed) ∧
      exec (.movRegCr r 3) s = .next (s.retires (s.setReg r s.cr.cr3).flagsFreed) ∧
      (∀ n : BitVec 3, n ≠ 0 → n ≠ 2 → n ≠ 3 →
        exec (.movRegCr r n) s = takeException excUD s ∧ exec (.movCrReg n r) s = takeException excUD s) ∧
      exec (.movCrReg 2 r) s =
        .next (s.retires ({ s with cr := { s.cr with cr2 := s.reg r } } : State).flagsFreed) ∧
      exec (.movCrReg 3 r) s = .next (s.retires ({ s with
        cr := { s.cr with cr3 := s.reg r, cr3Written := true }
        tlb := s.tlb.map fun e => { e with v := false } } : State).flagsFreed) ∧
      ((s.reg r).getLsbD 31 = true → (s.reg r).getLsbD 0 = false →
        exec (.movCrReg 0 r) s = takeException (excGP (.sel 0)) s) ∧
      (s.pe = true → (s.reg r).getLsbD 0 = false → (s.reg r).getLsbD 31 = false →
        exec (.movCrReg 0 r) s = .refused .clearPE) ∧
      ((s.reg r).getLsbD 0 = true → (s.reg r).getLsbD 31 = true → s.pg = false → s.cr.cr3Written = false →
        exec (.movCrReg 0 r) s = .refused .cr3NeverWritten) ∧
      ((s.reg r).getLsbD 0 = true ∨ ((s.reg r).getLsbD 31 = false ∧ s.pe = false) →
        ((s.reg r).getLsbD 31 = true → s.pg = true ∨ s.cr.cr3Written = true) →
        let t : State := { s with
          cr := { s.cr with cr0 := s.reg r }
          cpl := if s.pe = false ∧ (s.reg r).getLsbD 0 = true then 0 else s.cpl
          hazard := crHazard s.hazard s.cr.cr0 (s.reg r) }
        exec (.movCrReg 0 r) s = .next (s.retires
          (if s.pg = (s.reg r).getLsbD 31 ∨ ∀ e ∈ s.tlb, e.v = false then t else t.unknownTlb).flagsFreed))) ∧
  ∀ (r : Reg) (n : BitVec 3) (s : State), s.level = 0 →
    (n = 4 ∨ n = 5 → exec (.movRegDr r n) s = .refused .debugRegister45 ∧
      exec (.movDrReg n r) s = .refused .debugRegister45) ∧
    (n ≠ 4 → n ≠ 5 → ∃ (v : Word) (t : State),
      exec (.movRegDr r n) s = .next (s.retires (s.setReg r v).flagsFreed) ∧
      exec (.movDrReg n r) s = .next (s.retires t.flagsFreed) ∧
      t = { s with dr := t.dr } ∧
      (n = 0 → v = s.dr.dr0 ∧ t.dr = { s.dr with dr0 := s.reg r }) ∧
      (n = 1 → v = s.dr.dr1 ∧ t.dr = { s.dr with dr1 := s.reg r }) ∧
      (n = 2 → v = s.dr.dr2 ∧ t.dr = { s.dr with dr2 := s.reg r }) ∧
      (n = 3 → v = s.dr.dr3 ∧ t.dr = { s.dr with dr3 := s.reg r }) ∧
      (n = 6 → v = s.dr.dr6 ∧ t.dr = { s.dr with dr6 := s.reg r }) ∧
      (n = 7 → v = s.dr.dr7 ∧ t.dr = { s.dr with dr7 := s.reg r }))

/-- The conditions of the debug exception. A data breakpoint matches an access that has a byte in its field, of the
kind its R/W field asks for. The matches of an access are recorded, an enabled one at once where LE or GE is set, and
else at once, one boundary late or never (U28); an access that is not watched (D39) records nothing. DR6 gains the
bits of what holds and loses none; a breakpoint that matched and is not enabled may set its bit, also where what it
matched with is reported late (R607). That an enabled match which is late or never reported sets no bit in a #DB on time
is the model's choice (DESIGN CHOICE, log entry 74). Single step is TF as it was when the instruction began. -/
def Obligations.DebugConditions : Prop :=
  (∀ (d : DebugRegs) (n : Nat) (lin : Word) (k : Nat) (write : Bool), n < 4 → 0 < k → k ≤ 4294967296 →
    let rw := d.dr7.extractLsb' (16 + 4 * n) 2
    let len := d.dr7.extractLsb' (18 + 4 * n) 2
    let size := if len = 0 then 1 else if len = 1 then 2 else if len = 3 then 4 else 0
    let start := [d.dr0, d.dr1, d.dr2, d.dr3].getD n 0 &&& ~~~(BitVec.ofNat 32 (size - 1))
    d.enabled n = (d.dr7.getLsbD (2 * n) || d.dr7.getLsbD (2 * n + 1)) ∧
      (d.dataMatch n lin k write = true ↔ (rw = 3 ∨ (rw = 1 ∧ write = true)) ∧
        ∃ i < k, ∃ j < size, lin + BitVec.ofNat 32 i = start + BitVec.ofNat 32 j)) ∧
  (∀ (s : State) (lin : Word) (k : Nat) (write : Bool),
    let t := s.noteAccess lin k write
    let hit (n : Nat) : Bool := s.dr.enabled n && s.dr.dataMatch n lin k write
    t = { s with draws := t.draws, pend := { s.pend with
      hits := t.pend.hits, others := t.pend.others, late := t.pend.late } } ∧
    (∀ n < 4, t.pend.others.getLsbD n =
      (s.pend.others.getLsbD n || (!s.dr.enabled n && s.dr.dataMatch n lin k write))) ∧
    (s.dr.exact = (s.dr.dr7.getLsbD 8 || s.dr.dr7.getLsbD 9)) ∧
    (s.dr.exact = true → t.pend.late = s.pend.late ∧
      ∀ n < 4, t.pend.hits.getLsbD n = (s.pend.hits.getLsbD n || hit n)) ∧
    (∀ n < 4, (s.pend.hits.getLsbD n = true → t.pend.hits.getLsbD n = true) ∧
      (t.pend.hits.getLsbD n = true → s.pend.hits.getLsbD n = true ∨ hit n = true) ∧
      (s.pend.late.getLsbD n = true → t.pend.late.getLsbD n = true) ∧
      (t.pend.late.getLsbD n = true → s.pend.late.getLsbD n = true ∨ hit n = true))) ∧
  (∀ (s : State) (w : Win) (v : Word),
    (s.put w v).pend = (if w.watch then s.noteAccess w.lin w.n true else s).pend ∧
      ∀ x t, w.read s = .ok x t → t.pend = (if w.watch then s.noteAccess w.lin w.n false else s).pend) ∧
  (∀ (old : Word) (b : BitVec 4) (bd bs bt : Bool) (k : Nat), (dr6After old b bd bs bt).getLsbD k =
    (old.getLsbD k || b.getLsbD k || (decide (k = 13) && bd) || (decide (k = 14) && bs) ||
      (decide (k = 15) && bt))) ∧
  (∀ (s : State) (b others : BitVec 4) (bd bs bt : Bool), ∃ x : BitVec 4, x &&& ~~~others = 0 ∧
    s.debugged b others bd bs bt = { s with
      dr := { s.dr with dr6 := dr6After s.dr.dr6 (b ||| x) bd bs bt }
      draws := s.draws + 4, run := .running, stiShadow := false
      pend := { hits := s.pend.late, others := 0, late := 0, bs := false, bt := false
                carried := if s.pend.late = 0 then 0 else s.pend.others } }) ∧
  ∀ (s t : State) (tf : Bool) (d : Done),
    (complete tf d s).pend = { s.pend with bs := tf && d != .waiting } ∧
      (∀ m : M Done, m s = .ok d t → run m s = .next (complete (s.flag 8) d t))

/-- The moves of TR6 and TR7 at level 0 or in real-address mode; any other number stops (U14). A write command with HT
set enters the entry it describes in its block, its attributes free where their pair is 00 or 11 (U4), unless
another block holds an entry with the same tag, valid or not (U10); one with HT clear stops (U4). A lookup command
with defined pairs leaves TR6 as written; where it is not unpredictable (U11) and exactly one entry matches, HT is
set and TR7 has its block and its physical address, and where none matches HT is clear, the rest of those fields free.
That only initialised entries count for the write, and that V = 0 with every tag initialised is predictable, are log
entry 29 (DEDUCED). With paging on a write leaves a TLB of which nothing is known, and a lookup finds one. -/
def Obligations.TestRegisterMoves : Prop :=
  ∀ (r : Reg) (s : State), s.level = 0 →
    exec (.movRegTr r 6) s = .next (s.retires (s.setReg r s.test.tr6).flagsFreed) ∧
      exec (.movRegTr r 7) s = .next (s.retires (s.setReg r s.test.tr7).flagsFreed) ∧
      exec (.movTrReg 7 r) s =
        .next (s.retires ({ s with test := { s.test with tr7 := s.reg r } } : State).flagsFreed) ∧
      (∀ n : BitVec 3, n ≠ 6 → n ≠ 7 →
        exec (.movRegTr r n) s = .refused .testRegister ∧ exec (.movTrReg n r) s = .refused .testRegister) ∧
      let v := s.reg r
      let page := v.extractLsb' 12 20
      let place (b : BitVec 2) : Nat := 8 * b.toNat + page.toNat % 8
      let b := s.test.tr7.extractLsb' 2 2
      (v.getLsbD 0 = false → s.test.tr7.getLsbD 4 = false → exec (.movTrReg 6 r) s = .refused .tlbWriteHt) ∧
      (v.getLsbD 0 = false → s.test.tr7.getLsbD 4 = true → ∃ (d u w : Bool) (n : Nat),
        (v.getLsbD 10 ≠ v.getLsbD 9 → d = v.getLsbD 10) ∧ (v.getLsbD 8 ≠ v.getLsbD 7 → u = v.getLsbD 8) ∧
        (v.getLsbD 6 ≠ v.getLsbD 5 → w = v.getLsbD 6) ∧
        let e : TlbEntry := { page := page, v := v.getLsbD 11, d := d, u := u, w := w,
                              phys := s.test.tr7.extractLsb' 12 20, known := true }
        let twice := ∃ c : BitVec 2, c ≠ b ∧ ∃ x, s.tlb[place c]? = some x ∧ x.known = true ∧
          x.page = page ∧ x.v = e.v ∧ x.d = d ∧ x.u = u ∧ x.w = w
        let t : State := { s with
          test := { s.test with tr6 := v }, tlb := s.tlb.set (place b) e, draws := n }
        (twice → exec (.movTrReg 6 r) s = .refused .tlbDuplicate) ∧
          (¬ twice → exec (.movTrReg 6 r) s =
            .next (s.retires (if s.pg then t.unknownTlb else t).flagsFreed))) ∧
      (v.getLsbD 0 = true → ∃ t : State,
        exec (.movTrReg 6 r) s = .next (s.retires t) ∧
          t = { s with test := t.test, eflags := t.eflags, draws := t.draws, tlb := t.tlb } ∧
          t.eflags &&& ~~~statusBits = s.eflags &&& ~~~statusBits ∧ (s.pg = false → t.tlb = s.tlb) ∧
          t.test.tr6 &&& ~~~0x7E0#32 = v &&& ~~~0x7E0#32 ∧
          t.test.tr7 &&& 0xFE3#32 = s.test.tr7 &&& 0xFE3#32 ∧
          (v.getLsbD 10 ≠ v.getLsbD 9 → v.getLsbD 8 ≠ v.getLsbD 7 → v.getLsbD 6 ≠ v.getLsbD 5 →
            t.test.tr6 = v ∧
            (v.getLsbD 11 = true ∨ (∀ x ∈ t.tlb, x.known = true) →
              let hit (c : BitVec 2) : Prop := let x := tlbAt t.tlb (place c)
                x.page = page ∧ x.v = v.getLsbD 11 ∧ x.d = v.getLsbD 10 ∧ x.u = v.getLsbD 8 ∧
                  x.w = v.getLsbD 6
              ((∀ c, ¬ hit c) → t.test.tr7.getLsbD 4 = false) ∧
              (∀ c, hit c → (∀ c', hit c' → c' = c) →
                t.test.tr7.getLsbD 4 = true ∧ t.test.tr7.extractLsb' 2 2 = c ∧
                  t.test.tr7.extractLsb' 12 20 = (tlbAt t.tlb (place c)).phys))))

/-! ## The coprocessor, exchanges and moves -/

/-- WAIT and ESC test MP, EM and TS as rule R479's table says, then wait while BUSY# is active, then test
ERROR# (ESC only where its opcode bytes say so). A wait changes no register, EIP included, and leaves no single-step
trap pending. Where ESC waits is the model's choice (log entry 60). -/
def Obligations.CoprocessorTests : Prop :=
  ∀ (op ext : BitVec 3) (rm : Rm) (s : State), let modrm := rm.modrm ext
    (s.em = true ∨ s.ts = true → exec (.esc op ext rm) s = takeException excNM s) ∧
      (s.mp = true ∧ s.ts = true → exec .wait s = takeException excNM s) ∧
      (s.em = false → s.ts = false → s.pins.busy = true →
        exec (.esc op ext rm) s = .next { s with run := .waiting, pend := { s.pend with bs := false },
                                                 ended := .completed }) ∧
      (s.mp = false ∨ s.ts = false →
        (s.pins.busy = true → exec .wait s = .next { s with run := .waiting, pend := { s.pend with bs := false },
                                                            ended := .completed }) ∧
        (s.pins.busy = false → s.pins.error = true → exec .wait s = takeException excMF s) ∧
        (s.pins.busy = false → s.pins.error = false → exec .wait s = .next (s.retires s))) ∧
      (s.em = false → s.ts = false → s.pins.busy = false → s.pins.error = true →
        if Config.escTestsError op modrm then exec (.esc op ext rm) s = takeException excMF s
        else ∀ q, rm = .reg q → ∃ t, exec (.esc op ext rm) s = .next (s.retires t) ∧
          t.io = .escape op modrm none [] :: s.io)

/-- ESC handed to the coprocessor, with both opcode bytes and the address of a memory operand: a memory form moves
its bytes, whatever their number and direction, once they are accessible, and an operand that wraps around the limit
of addressing with its ends accessible and not all between raises #MP; nothing else of the processor changes. The B or
D bit alone makes a segment big there (DESIGN CHOICE, log entry 66), and that an aborted load reads nothing is log entry
69 (DESIGN CHOICE). A register form changes at most AX, freely: that it may is the model's form of what R472 leaves outside the source (log
entry 16, DEDUCED). -/
def Obligations.EscapeHandsOver : Prop :=
  ∀ (op ext : BitVec 3) (s : State), s.em = false → s.ts = false → s.pins.busy = false →
    s.pins.error = false →
    (∀ q, let b := (Rm.reg q).modrm ext
      ∃ ax n, exec (.esc op ext (.reg q)) s = .next (s.retires { s with
        gpr := { s.gpr with eax := if Config.escWritesAx op b then setLo16 s.gpr.eax ax else s.gpr.eax }
        draws := n, io := .escape op b none [] :: s.io })) ∧
      ∀ m, let b := (Rm.mem m).modrm ext
        let store := Config.escStores op b
        let n := Config.escLength op b s.draws % 109
        let c := s.segOf m.seg
        let off := (s.offsetOf m 0).toNat
        let span := if c.big then 4294967296 else 65536
        (∀ ws s1 bs s2, escWindows m n store s.drawn = .ok ws s1 → escMove store ws s1 = .ok bs s2 →
          exec (.esc op ext (.mem m)) s = .next (s.retires { s2 with
              io := .escape op b (some (c.sel, s.offsetOf m 0)) bs :: s2.io }) ∧
            Accessed (if store then ws.flatMap (·.phys) else []) s s2) ∧
        (∀ e s1, escWindows m n store s.drawn = .error (.exc e) s1 →
          exec (.esc op ext (.mem m)) s = takeException e s1) ∧
        (∀ (k : Nat) (t : State), let wraps := (t.offsetOf m 0).toNat <
              (if (t.segOf m.seg).big then 4294967296 else 65536) ∧
            (if (t.segOf m.seg).big then 4294967296 else 65536) < (t.offsetOf m 0).toNat + k
          escWindows m 0 store t = .ok [] t ∧
          (0 < k → ¬ wraps → ∀ w u, memWindow m 0 k store t = .ok w u → escWindows m k store t = .ok [w] u) ∧
          (0 < k → ¬ wraps → ∀ x u, memWindow m 0 k store t = .error x u →
            escWindows m k store t = .error x u)) ∧
        (s.pe = true → off < span → span < off + n → store = false → ∀ w0 s1 w1 s2 ws s3,
          escWindow m 0 false s.drawn = .ok w0 s1 → escWindow m (n - 1) false s1 = .ok w1 s2 →
          escBytes m false 0 n s2 = .ok ws s3 → none ∈ ws →
          exec (.esc op ext (.mem m)) s = takeException excMP s3)

/-- XCHG, with LOCK or without: register and operand change places; memory is checked for writing before it is
read. LOCK before anything but an exchange with memory is #UD; before an instruction of Part I the model
stops. -/
def Obligations.Exchanges : Prop :=
  ∀ (s : State),
    exec (.lock .illegal) s = takeException excUD s ∧
    exec (.lock .application) s = .refused .applicationOpcode ∧
    (∀ q r, exec (.xchg8 (.reg q) r) s = .next (s.retires ((s.setReg8 r (s.reg8 q)).setReg8 q (s.reg8 r)))) ∧
    (∀ osz q r, exec (.xchg osz (.reg q) r) s =
      .next (s.retires ((s.setRegSz osz r (s.regSz osz q)).setRegSz osz q (s.regSz osz r)))) ∧
    (∀ m r w s1 old s2, memWindow m 0 1 true s = .ok w s1 → w.read s1 = .ok old s2 →
      let t := s2.put w ((s.reg8 r).zeroExtend 32)
      exec (.xchg8 (.mem m) r) s = .next (s.retires (t.setReg8 r (old.truncate 8))) ∧
        exec (.lock (.xchg8 m r)) s = exec (.xchg8 (.mem m) r) s ∧ Accessed w.phys s t) ∧
    (∀ osz m r w s1 old s2, memWindow m 0 osz.bytes true s = .ok w s1 → w.read s1 = .ok old s2 →
      let t := s2.put w (s.regSz osz r)
      exec (.xchg osz (.mem m) r) s = .next (s.retires (t.setRegSz osz r old)) ∧
        exec (.lock (.xchg osz m r)) s = exec (.xchg osz (.mem m) r) s ∧ Accessed w.phys s t)

/-- NOP, MOV and OR with an immediate: the destination alone; MOV changes no flag; OR clears OF and CF, sets SF, ZF
and PF by the result and leaves AF free. -/
def Obligations.AuxiliaryInstructions : Prop :=
  ∀ (s : State),
    exec .nop s = .next (s.retires s) ∧
      (∀ r v, exec (.movRegImm r v) s = .next (s.retires (s.setRegSz v.osz r v.word))) ∧
      (∀ r v, exec (.movReg8Imm r v) s = .next (s.retires (s.setReg8 r v))) ∧
      (∀ osz q r, exec (.movRmReg osz (.reg q) r) s =
        .next (s.retires (s.setRegSz osz q (s.regSz osz r)))) ∧
      (∀ osz m r w s1, memWindow m 0 osz.bytes true s = .ok w s1 →
        exec (.movRmReg osz (.mem m) r) s = .next (s.retires (s1.put w (s.regSz osz r))) ∧
          Accessed w.phys s (s1.put w (s.regSz osz r))) ∧
      (∀ osz r src v s1, readRm osz src s = .ok v s1 →
        exec (.movRegRm osz r src) s = .next (s.retires (s1.setRegSz osz r v)) ∧ ReadOnly s s1) ∧
      (∀ v : Imm, let x := s.regSz v.osz .eax ||| v.word
        ∃ fl, exec (.orEaxImm v) s =
            .next (s.retires { s.drawn.setRegSz v.osz .eax x with eflags := fl }) ∧
          (∀ k, k ∉ [0, 2, 4, 6, 7, 11] → fl.getLsbD k = s.eflags.getLsbD k) ∧
          fl.getLsbD 0 = false ∧ fl.getLsbD 11 = false ∧ fl.getLsbD 7 = x.getLsbD (8 * v.osz.bytes - 1) ∧
          fl.getLsbD 6 = decide (x = 0) ∧ fl.getLsbD 2 = evenParity (x.truncate 8)) ∧
      (∀ v, let x := s.reg8 .al ||| v
        ∃ fl, exec (.orAlImm v) s =
            .next (s.retires { s.drawn.setReg8 .al x with eflags := fl }) ∧
          (∀ k, k ∉ [0, 2, 4, 6, 7, 11] → fl.getLsbD k = s.eflags.getLsbD k) ∧
          fl.getLsbD 0 = false ∧ fl.getLsbD 11 = false ∧ fl.getLsbD 7 = x.getLsbD 7 ∧
          fl.getLsbD 6 = decide (x = 0) ∧ fl.getLsbD 2 = evenParity x)

/-! ## The task switch in memory -/

/-- What a task switch does to memory and reads from it, with paging off, where the parts of the two TSSs and the
busy bits lie apart in RAM: the outgoing task's registers and selectors go to its TSS, NT clear in the image for an
IRET and RF set for a fault; the busy bit of the outgoing task goes unless it is the new one's caller, that of the
incoming task is set unless it was (Table 7-2); a nested task has the old TSS selector as back link; the registers are
those of the incoming TSS, and an error code stands on its stack. No byte changes but these and the accessed bits
of the segments loaded. A byte that one of the last two overwrites is left out. -/
def Obligations.TaskSwitchMemory : Prop :=
  ∀ (kind : SwitchKind) (tsel : BitVec 16) (d : Desc) (ext : Bool) (ret : Word) (rf : Bool)
    (err : Option Word) (s t : State), s.pe = true → s.pg = false → MemOk s →
    let nests := kind = .call ∨ kind = .int
    let save := physRange (s.tr.base + 0x20).toNat 0x40
    let image := physRange (d.base + 0x20).toNat 0x48
    let link := if kind = .call ∨ kind = .int then physRange d.base.toNat 4 else []
    let oldAt := s.gdtr.base + BitVec.ofNat 32 (8 * (s.tr.sel.toNat / 8)) + 4
    let oldBusy := if kind = .call ∨ kind = .int then [] else physRange oldAt.toNat 4
    let newBusy := if kind = .iret then [] else physRange (d.addr + 4).toNat 4
    (save ++ oldBusy ++ newBusy ++ link ++ image).Nodup →
    s.inRam (save ++ oldBusy ++ newBusy ++ link ++ image) →
    taskSwitch kind tsel d ext ret rf err s = .ok () t →
    let mark (sel : BitVec 16) : List Nat :=
      let base := if ti sel then t.ldtr.base else t.gdtr.base
      if isNull sel then [] else physRange (base + BitVec.ofNat 32 (8 * (sel.toNat / 8)) + 4).toNat 4
    let marks := [t.seg.cs.sel, t.seg.ss.sel, t.seg.ds.sel, t.seg.es.sel, t.seg.fs.sel, t.seg.gs.sel].flatMap mark
    let top := t.seg.ss.base + (if t.seg.ss.big then t.gpr.esp else t.gpr.esp &&& 0xFFFF#32)
    let push := if err.isSome then physRange top.toNat 4 else []
    let apart (ps : List Nat) : Prop := ∀ a ∈ ps, a ∉ marks ++ push
    let f := if kind = .iret then setBit s.eflags 14 false else s.eflags
    let old (k : Nat) : Word := t.dwordAt (s.tr.base + BitVec.ofNat 32 k)
    let new (k : Nat) : Word := s.dwordAt (d.base + BitVec.ofNat 32 k)
    (∀ a, a % physSize ∉ save ++ oldBusy ++ newBusy ++ link ++ marks ++ push → t.byteAt a = s.byteAt a) ∧
    (apart save → old 0x20 = ret ∧ old 0x24 = (if rf then setBit f 16 true else f) ∧
      old 0x28 = s.gpr.eax ∧ old 0x2C = s.gpr.ecx ∧ old 0x30 = s.gpr.edx ∧ old 0x34 = s.gpr.ebx ∧
      old 0x38 = s.gpr.esp ∧ old 0x3C = s.gpr.ebp ∧ old 0x40 = s.gpr.esi ∧ old 0x44 = s.gpr.edi ∧
      lo16 (old 0x48) = s.seg.es.sel ∧ lo16 (old 0x4C) = s.seg.cs.sel ∧ lo16 (old 0x50) = s.seg.ss.sel ∧
      lo16 (old 0x54) = s.seg.ds.sel ∧ lo16 (old 0x58) = s.seg.fs.sel ∧ lo16 (old 0x5C) = s.seg.gs.sel) ∧
    (¬ nests → apart oldBusy → t.dwordAt oldAt = s.dwordAt oldAt &&& ~~~0x200#32) ∧
    (kind ≠ .iret → apart newBusy → t.dwordAt (d.addr + 4) = s.dwordAt (d.addr + 4) ||| 0x200#32) ∧
    (nests → apart link → lo16 (t.dwordAt d.base) = s.tr.sel) ∧
    (∀ v, err = some v → s.inRam push → t.dwordAt top = v) ∧
    t.eip = new 0x20 ∧ t.gpr.eax = new 0x28 ∧ t.gpr.ecx = new 0x2C ∧ t.gpr.edx = new 0x30 ∧
    t.gpr.ebx = new 0x34 ∧ t.gpr.ebp = new 0x3C ∧ t.gpr.esi = new 0x40 ∧ t.gpr.edi = new 0x44 ∧
    (err = none → t.gpr.esp = new 0x38) ∧
    t.eflags = normFlags (if kind = .call ∨ kind = .int then setBit (new 0x24) 14 true
      else if kind = .jmp then setBit (new 0x24) 14 false else new 0x24) ∧
    t.seg.es.sel = lo16 (new 0x48) ∧ t.seg.cs.sel = lo16 (new 0x4C) ∧ t.seg.ss.sel = lo16 (new 0x50) ∧
    t.seg.ds.sel = lo16 (new 0x54) ∧ t.seg.fs.sel = lo16 (new 0x58) ∧ t.seg.gs.sel = lo16 (new 0x5C) ∧
    t.ldtr.sel = lo16 (new 0x60) ∧ t.pend.bt = (s.pend.bt || (new 0x64).getLsbD 0) ∧ t.cr.cr3 = s.cr.cr3
end

