-- ==== Sys2Proof/Laws/State.lean ====
section
/-! SUPPORT. What each update of the state leaves alone, field by field, and what it sets. -/

namespace Sys2Proof.Machine

variable (s : State)

/-! ### setReg -/

@[simp] theorem State.setReg_eip (r : Reg) (v : Word) : (s.setReg r v).eip = s.eip := by cases r <;> rfl
@[simp] theorem State.setReg_eipNext (r : Reg) (v : Word) : (s.setReg r v).eipNext = s.eipNext := by cases r <;> rfl
@[simp] theorem State.setReg_eflags (r : Reg) (v : Word) : (s.setReg r v).eflags = s.eflags := by cases r <;> rfl
@[simp] theorem State.setReg_seg (r : Reg) (v : Word) : (s.setReg r v).seg = s.seg := by cases r <;> rfl
@[simp] theorem State.setReg_gdtr (r : Reg) (v : Word) : (s.setReg r v).gdtr = s.gdtr := by cases r <;> rfl
@[simp] theorem State.setReg_idtr (r : Reg) (v : Word) : (s.setReg r v).idtr = s.idtr := by cases r <;> rfl
@[simp] theorem State.setReg_ldtr (r : Reg) (v : Word) : (s.setReg r v).ldtr = s.ldtr := by cases r <;> rfl
@[simp] theorem State.setReg_tr (r : Reg) (v : Word) : (s.setReg r v).tr = s.tr := by cases r <;> rfl
@[simp] theorem State.setReg_cr (r : Reg) (v : Word) : (s.setReg r v).cr = s.cr := by cases r <;> rfl
@[simp] theorem State.setReg_dr (r : Reg) (v : Word) : (s.setReg r v).dr = s.dr := by cases r <;> rfl
@[simp] theorem State.setReg_test (r : Reg) (v : Word) : (s.setReg r v).test = s.test := by cases r <;> rfl
@[simp] theorem State.setReg_tlb (r : Reg) (v : Word) : (s.setReg r v).tlb = s.tlb := by cases r <;> rfl
@[simp] theorem State.setReg_cpl (r : Reg) (v : Word) : (s.setReg r v).cpl = s.cpl := by cases r <;> rfl
@[simp] theorem State.setReg_nmiLatch (r : Reg) (v : Word) : (s.setReg r v).nmiLatch = s.nmiLatch := by cases r <;> rfl
@[simp] theorem State.setReg_inhibit (r : Reg) (v : Word) : (s.setReg r v).inhibit = s.inhibit := by cases r <;> rfl
@[simp] theorem State.setReg_stiShadow (r : Reg) (v : Word) : (s.setReg r v).stiShadow = s.stiShadow := by cases r <;> rfl
@[simp] theorem State.setReg_run (r : Reg) (v : Word) : (s.setReg r v).run = s.run := by cases r <;> rfl
@[simp] theorem State.setReg_highLatch (r : Reg) (v : Word) : (s.setReg r v).highLatch = s.highLatch := by cases r <;> rfl
@[simp] theorem State.setReg_pend (r : Reg) (v : Word) : (s.setReg r v).pend = s.pend := by cases r <;> rfl
@[simp] theorem State.setReg_pins (r : Reg) (v : Word) : (s.setReg r v).pins = s.pins := by cases r <;> rfl
@[simp] theorem State.setReg_env (r : Reg) (v : Word) : (s.setReg r v).env = s.env := by cases r <;> rfl
@[simp] theorem State.setReg_hazard (r : Reg) (v : Word) : (s.setReg r v).hazard = s.hazard := by cases r <;> rfl
@[simp] theorem State.setReg_dirty (r : Reg) (v : Word) : (s.setReg r v).dirty = s.dirty := by cases r <;> rfl
@[simp] theorem State.setReg_draws (r : Reg) (v : Word) : (s.setReg r v).draws = s.draws := by cases r <;> rfl
@[simp] theorem State.setReg_io (r : Reg) (v : Word) : (s.setReg r v).io = s.io := by cases r <;> rfl
@[simp] theorem State.setReg_plat (r : Reg) (v : Word) : (s.setReg r v).plat = s.plat := by cases r <;> rfl
@[simp] theorem State.setReg_ended (r : Reg) (v : Word) : (s.setReg r v).ended = s.ended := by cases r <;> rfl
@[simp] theorem State.setReg_mem (r : Reg) (v : Word) : (s.setReg r v).mem = s.mem := by cases r <;> rfl

/-! ### setRegSz -/

@[simp] theorem State.setRegSz_eip (o : OpSize) (r : Reg) (v : Word) : (s.setRegSz o r v).eip = s.eip := by cases o <;> simp [State.setRegSz]
@[simp] theorem State.setRegSz_eipNext (o : OpSize) (r : Reg) (v : Word) : (s.setRegSz o r v).eipNext = s.eipNext := by cases o <;> simp [State.setRegSz]
@[simp] theorem State.setRegSz_eflags (o : OpSize) (r : Reg) (v : Word) : (s.setRegSz o r v).eflags = s.eflags := by cases o <;> simp [State.setRegSz]
@[simp] theorem State.setRegSz_seg (o : OpSize) (r : Reg) (v : Word) : (s.setRegSz o r v).seg = s.seg := by cases o <;> simp [State.setRegSz]
@[simp] theorem State.setRegSz_gdtr (o : OpSize) (r : Reg) (v : Word) : (s.setRegSz o r v).gdtr = s.gdtr := by cases o <;> simp [State.setRegSz]
@[simp] theorem State.setRegSz_idtr (o : OpSize) (r : Reg) (v : Word) : (s.setRegSz o r v).idtr = s.idtr := by cases o <;> simp [State.setRegSz]
@[simp] theorem State.setRegSz_ldtr (o : OpSize) (r : Reg) (v : Word) : (s.setRegSz o r v).ldtr = s.ldtr := by cases o <;> simp [State.setRegSz]
@[simp] theorem State.setRegSz_tr (o : OpSize) (r : Reg) (v : Word) : (s.setRegSz o r v).tr = s.tr := by cases o <;> simp [State.setRegSz]
@[simp] theorem State.setRegSz_cr (o : OpSize) (r : Reg) (v : Word) : (s.setRegSz o r v).cr = s.cr := by cases o <;> simp [State.setRegSz]
@[simp] theorem State.setRegSz_dr (o : OpSize) (r : Reg) (v : Word) : (s.setRegSz o r v).dr = s.dr := by cases o <;> simp [State.setRegSz]
@[simp] theorem State.setRegSz_test (o : OpSize) (r : Reg) (v : Word) : (s.setRegSz o r v).test = s.test := by cases o <;> simp [State.setRegSz]
@[simp] theorem State.setRegSz_tlb (o : OpSize) (r : Reg) (v : Word) : (s.setRegSz o r v).tlb = s.tlb := by cases o <;> simp [State.setRegSz]
@[simp] theorem State.setRegSz_cpl (o : OpSize) (r : Reg) (v : Word) : (s.setRegSz o r v).cpl = s.cpl := by cases o <;> simp [State.setRegSz]
@[simp] theorem State.setRegSz_nmiLatch (o : OpSize) (r : Reg) (v : Word) : (s.setRegSz o r v).nmiLatch = s.nmiLatch := by cases o <;> simp [State.setRegSz]
@[simp] theorem State.setRegSz_inhibit (o : OpSize) (r : Reg) (v : Word) : (s.setRegSz o r v).inhibit = s.inhibit := by cases o <;> simp [State.setRegSz]
@[simp] theorem State.setRegSz_stiShadow (o : OpSize) (r : Reg) (v : Word) : (s.setRegSz o r v).stiShadow = s.stiShadow := by cases o <;> simp [State.setRegSz]
@[simp] theorem State.setRegSz_run (o : OpSize) (r : Reg) (v : Word) : (s.setRegSz o r v).run = s.run := by cases o <;> simp [State.setRegSz]
@[simp] theorem State.setRegSz_highLatch (o : OpSize) (r : Reg) (v : Word) : (s.setRegSz o r v).highLatch = s.highLatch := by cases o <;> simp [State.setRegSz]
@[simp] theorem State.setRegSz_pend (o : OpSize) (r : Reg) (v : Word) : (s.setRegSz o r v).pend = s.pend := by cases o <;> simp [State.setRegSz]
@[simp] theorem State.setRegSz_pins (o : OpSize) (r : Reg) (v : Word) : (s.setRegSz o r v).pins = s.pins := by cases o <;> simp [State.setRegSz]
@[simp] theorem State.setRegSz_env (o : OpSize) (r : Reg) (v : Word) : (s.setRegSz o r v).env = s.env := by cases o <;> simp [State.setRegSz]
@[simp] theorem State.setRegSz_hazard (o : OpSize) (r : Reg) (v : Word) : (s.setRegSz o r v).hazard = s.hazard := by cases o <;> simp [State.setRegSz]
@[simp] theorem State.setRegSz_dirty (o : OpSize) (r : Reg) (v : Word) : (s.setRegSz o r v).dirty = s.dirty := by cases o <;> simp [State.setRegSz]
@[simp] theorem State.setRegSz_draws (o : OpSize) (r : Reg) (v : Word) : (s.setRegSz o r v).draws = s.draws := by cases o <;> simp [State.setRegSz]
@[simp] theorem State.setRegSz_io (o : OpSize) (r : Reg) (v : Word) : (s.setRegSz o r v).io = s.io := by cases o <;> simp [State.setRegSz]
@[simp] theorem State.setRegSz_plat (o : OpSize) (r : Reg) (v : Word) : (s.setRegSz o r v).plat = s.plat := by cases o <;> simp [State.setRegSz]
@[simp] theorem State.setRegSz_ended (o : OpSize) (r : Reg) (v : Word) : (s.setRegSz o r v).ended = s.ended := by cases o <;> simp [State.setRegSz]
@[simp] theorem State.setRegSz_mem (o : OpSize) (r : Reg) (v : Word) : (s.setRegSz o r v).mem = s.mem := by cases o <;> simp [State.setRegSz]

/-! ### setReg8 -/

@[simp] theorem State.setReg8_eip (r : Reg8) (v : Byte) : (s.setReg8 r v).eip = s.eip := by simp [State.setReg8]
@[simp] theorem State.setReg8_eipNext (r : Reg8) (v : Byte) : (s.setReg8 r v).eipNext = s.eipNext := by simp [State.setReg8]
@[simp] theorem State.setReg8_eflags (r : Reg8) (v : Byte) : (s.setReg8 r v).eflags = s.eflags := by simp [State.setReg8]
@[simp] theorem State.setReg8_seg (r : Reg8) (v : Byte) : (s.setReg8 r v).seg = s.seg := by simp [State.setReg8]
@[simp] theorem State.setReg8_gdtr (r : Reg8) (v : Byte) : (s.setReg8 r v).gdtr = s.gdtr := by simp [State.setReg8]
@[simp] theorem State.setReg8_idtr (r : Reg8) (v : Byte) : (s.setReg8 r v).idtr = s.idtr := by simp [State.setReg8]
@[simp] theorem State.setReg8_ldtr (r : Reg8) (v : Byte) : (s.setReg8 r v).ldtr = s.ldtr := by simp [State.setReg8]
@[simp] theorem State.setReg8_tr (r : Reg8) (v : Byte) : (s.setReg8 r v).tr = s.tr := by simp [State.setReg8]
@[simp] theorem State.setReg8_cr (r : Reg8) (v : Byte) : (s.setReg8 r v).cr = s.cr := by simp [State.setReg8]
@[simp] theorem State.setReg8_dr (r : Reg8) (v : Byte) : (s.setReg8 r v).dr = s.dr := by simp [State.setReg8]
@[simp] theorem State.setReg8_test (r : Reg8) (v : Byte) : (s.setReg8 r v).test = s.test := by simp [State.setReg8]
@[simp] theorem State.setReg8_tlb (r : Reg8) (v : Byte) : (s.setReg8 r v).tlb = s.tlb := by simp [State.setReg8]
@[simp] theorem State.setReg8_cpl (r : Reg8) (v : Byte) : (s.setReg8 r v).cpl = s.cpl := by simp [State.setReg8]
@[simp] theorem State.setReg8_nmiLatch (r : Reg8) (v : Byte) : (s.setReg8 r v).nmiLatch = s.nmiLatch := by simp [State.setReg8]
@[simp] theorem State.setReg8_inhibit (r : Reg8) (v : Byte) : (s.setReg8 r v).inhibit = s.inhibit := by simp [State.setReg8]
@[simp] theorem State.setReg8_stiShadow (r : Reg8) (v : Byte) : (s.setReg8 r v).stiShadow = s.stiShadow := by simp [State.setReg8]
@[simp] theorem State.setReg8_run (r : Reg8) (v : Byte) : (s.setReg8 r v).run = s.run := by simp [State.setReg8]
@[simp] theorem State.setReg8_highLatch (r : Reg8) (v : Byte) : (s.setReg8 r v).highLatch = s.highLatch := by simp [State.setReg8]
@[simp] theorem State.setReg8_pend (r : Reg8) (v : Byte) : (s.setReg8 r v).pend = s.pend := by simp [State.setReg8]
@[simp] theorem State.setReg8_pins (r : Reg8) (v : Byte) : (s.setReg8 r v).pins = s.pins := by simp [State.setReg8]
@[simp] theorem State.setReg8_env (r : Reg8) (v : Byte) : (s.setReg8 r v).env = s.env := by simp [State.setReg8]
@[simp] theorem State.setReg8_hazard (r : Reg8) (v : Byte) : (s.setReg8 r v).hazard = s.hazard := by simp [State.setReg8]
@[simp] theorem State.setReg8_dirty (r : Reg8) (v : Byte) : (s.setReg8 r v).dirty = s.dirty := by simp [State.setReg8]
@[simp] theorem State.setReg8_draws (r : Reg8) (v : Byte) : (s.setReg8 r v).draws = s.draws := by simp [State.setReg8]
@[simp] theorem State.setReg8_io (r : Reg8) (v : Byte) : (s.setReg8 r v).io = s.io := by simp [State.setReg8]
@[simp] theorem State.setReg8_plat (r : Reg8) (v : Byte) : (s.setReg8 r v).plat = s.plat := by simp [State.setReg8]
@[simp] theorem State.setReg8_ended (r : Reg8) (v : Byte) : (s.setReg8 r v).ended = s.ended := by simp [State.setReg8]
@[simp] theorem State.setReg8_mem (r : Reg8) (v : Byte) : (s.setReg8 r v).mem = s.mem := by simp [State.setReg8]

/-! ### bumpStr -/

@[simp] theorem State.bumpStr_eip (a : AddrSize) (r : Reg) (k : Word) : (s.bumpStr a r k).eip = s.eip := by cases a <;> simp [State.bumpStr]
@[simp] theorem State.bumpStr_eipNext (a : AddrSize) (r : Reg) (k : Word) : (s.bumpStr a r k).eipNext = s.eipNext := by cases a <;> simp [State.bumpStr]
@[simp] theorem State.bumpStr_eflags (a : AddrSize) (r : Reg) (k : Word) : (s.bumpStr a r k).eflags = s.eflags := by cases a <;> simp [State.bumpStr]
@[simp] theorem State.bumpStr_seg (a : AddrSize) (r : Reg) (k : Word) : (s.bumpStr a r k).seg = s.seg := by cases a <;> simp [State.bumpStr]
@[simp] theorem State.bumpStr_gdtr (a : AddrSize) (r : Reg) (k : Word) : (s.bumpStr a r k).gdtr = s.gdtr := by cases a <;> simp [State.bumpStr]
@[simp] theorem State.bumpStr_idtr (a : AddrSize) (r : Reg) (k : Word) : (s.bumpStr a r k).idtr = s.idtr := by cases a <;> simp [State.bumpStr]
@[simp] theorem State.bumpStr_ldtr (a : AddrSize) (r : Reg) (k : Word) : (s.bumpStr a r k).ldtr = s.ldtr := by cases a <;> simp [State.bumpStr]
@[simp] theorem State.bumpStr_tr (a : AddrSize) (r : Reg) (k : Word) : (s.bumpStr a r k).tr = s.tr := by cases a <;> simp [State.bumpStr]
@[simp] theorem State.bumpStr_cr (a : AddrSize) (r : Reg) (k : Word) : (s.bumpStr a r k).cr = s.cr := by cases a <;> simp [State.bumpStr]
@[simp] theorem State.bumpStr_dr (a : AddrSize) (r : Reg) (k : Word) : (s.bumpStr a r k).dr = s.dr := by cases a <;> simp [State.bumpStr]
@[simp] theorem State.bumpStr_test (a : AddrSize) (r : Reg) (k : Word) : (s.bumpStr a r k).test = s.test := by cases a <;> simp [State.bumpStr]
@[simp] theorem State.bumpStr_tlb (a : AddrSize) (r : Reg) (k : Word) : (s.bumpStr a r k).tlb = s.tlb := by cases a <;> simp [State.bumpStr]
@[simp] theorem State.bumpStr_cpl (a : AddrSize) (r : Reg) (k : Word) : (s.bumpStr a r k).cpl = s.cpl := by cases a <;> simp [State.bumpStr]
@[simp] theorem State.bumpStr_nmiLatch (a : AddrSize) (r : Reg) (k : Word) : (s.bumpStr a r k).nmiLatch = s.nmiLatch := by cases a <;> simp [State.bumpStr]
@[simp] theorem State.bumpStr_inhibit (a : AddrSize) (r : Reg) (k : Word) : (s.bumpStr a r k).inhibit = s.inhibit := by cases a <;> simp [State.bumpStr]
@[simp] theorem State.bumpStr_stiShadow (a : AddrSize) (r : Reg) (k : Word) : (s.bumpStr a r k).stiShadow = s.stiShadow := by cases a <;> simp [State.bumpStr]
@[simp] theorem State.bumpStr_run (a : AddrSize) (r : Reg) (k : Word) : (s.bumpStr a r k).run = s.run := by cases a <;> simp [State.bumpStr]
@[simp] theorem State.bumpStr_highLatch (a : AddrSize) (r : Reg) (k : Word) : (s.bumpStr a r k).highLatch = s.highLatch := by cases a <;> simp [State.bumpStr]
@[simp] theorem State.bumpStr_pend (a : AddrSize) (r : Reg) (k : Word) : (s.bumpStr a r k).pend = s.pend := by cases a <;> simp [State.bumpStr]
@[simp] theorem State.bumpStr_pins (a : AddrSize) (r : Reg) (k : Word) : (s.bumpStr a r k).pins = s.pins := by cases a <;> simp [State.bumpStr]
@[simp] theorem State.bumpStr_env (a : AddrSize) (r : Reg) (k : Word) : (s.bumpStr a r k).env = s.env := by cases a <;> simp [State.bumpStr]
@[simp] theorem State.bumpStr_hazard (a : AddrSize) (r : Reg) (k : Word) : (s.bumpStr a r k).hazard = s.hazard := by cases a <;> simp [State.bumpStr]
@[simp] theorem State.bumpStr_dirty (a : AddrSize) (r : Reg) (k : Word) : (s.bumpStr a r k).dirty = s.dirty := by cases a <;> simp [State.bumpStr]
@[simp] theorem State.bumpStr_draws (a : AddrSize) (r : Reg) (k : Word) : (s.bumpStr a r k).draws = s.draws := by cases a <;> simp [State.bumpStr]
@[simp] theorem State.bumpStr_io (a : AddrSize) (r : Reg) (k : Word) : (s.bumpStr a r k).io = s.io := by cases a <;> simp [State.bumpStr]
@[simp] theorem State.bumpStr_plat (a : AddrSize) (r : Reg) (k : Word) : (s.bumpStr a r k).plat = s.plat := by cases a <;> simp [State.bumpStr]
@[simp] theorem State.bumpStr_ended (a : AddrSize) (r : Reg) (k : Word) : (s.bumpStr a r k).ended = s.ended := by cases a <;> simp [State.bumpStr]
@[simp] theorem State.bumpStr_mem (a : AddrSize) (r : Reg) (k : Word) : (s.bumpStr a r k).mem = s.mem := by cases a <;> simp [State.bumpStr]

/-! ### setSegOf -/

@[simp] theorem State.setSegOf_gpr (x : SegReg) (c : SegCache) : (s.setSegOf x c).gpr = s.gpr := by cases x <;> rfl
@[simp] theorem State.setSegOf_eip (x : SegReg) (c : SegCache) : (s.setSegOf x c).eip = s.eip := by cases x <;> rfl
@[simp] theorem State.setSegOf_eipNext (x : SegReg) (c : SegCache) : (s.setSegOf x c).eipNext = s.eipNext := by cases x <;> rfl
@[simp] theorem State.setSegOf_eflags (x : SegReg) (c : SegCache) : (s.setSegOf x c).eflags = s.eflags := by cases x <;> rfl
@[simp] theorem State.setSegOf_gdtr (x : SegReg) (c : SegCache) : (s.setSegOf x c).gdtr = s.gdtr := by cases x <;> rfl
@[simp] theorem State.setSegOf_idtr (x : SegReg) (c : SegCache) : (s.setSegOf x c).idtr = s.idtr := by cases x <;> rfl
@[simp] theorem State.setSegOf_ldtr (x : SegReg) (c : SegCache) : (s.setSegOf x c).ldtr = s.ldtr := by cases x <;> rfl
@[simp] theorem State.setSegOf_tr (x : SegReg) (c : SegCache) : (s.setSegOf x c).tr = s.tr := by cases x <;> rfl
@[simp] theorem State.setSegOf_cr (x : SegReg) (c : SegCache) : (s.setSegOf x c).cr = s.cr := by cases x <;> rfl
@[simp] theorem State.setSegOf_dr (x : SegReg) (c : SegCache) : (s.setSegOf x c).dr = s.dr := by cases x <;> rfl
@[simp] theorem State.setSegOf_test (x : SegReg) (c : SegCache) : (s.setSegOf x c).test = s.test := by cases x <;> rfl
@[simp] theorem State.setSegOf_tlb (x : SegReg) (c : SegCache) : (s.setSegOf x c).tlb = s.tlb := by cases x <;> rfl
@[simp] theorem State.setSegOf_cpl (x : SegReg) (c : SegCache) : (s.setSegOf x c).cpl = s.cpl := by cases x <;> rfl
@[simp] theorem State.setSegOf_nmiLatch (x : SegReg) (c : SegCache) : (s.setSegOf x c).nmiLatch = s.nmiLatch := by cases x <;> rfl
@[simp] theorem State.setSegOf_inhibit (x : SegReg) (c : SegCache) : (s.setSegOf x c).inhibit = s.inhibit := by cases x <;> rfl
@[simp] theorem State.setSegOf_stiShadow (x : SegReg) (c : SegCache) : (s.setSegOf x c).stiShadow = s.stiShadow := by cases x <;> rfl
@[simp] theorem State.setSegOf_run (x : SegReg) (c : SegCache) : (s.setSegOf x c).run = s.run := by cases x <;> rfl
@[simp] theorem State.setSegOf_highLatch (x : SegReg) (c : SegCache) : (s.setSegOf x c).highLatch = s.highLatch := by cases x <;> rfl
@[simp] theorem State.setSegOf_pend (x : SegReg) (c : SegCache) : (s.setSegOf x c).pend = s.pend := by cases x <;> rfl
@[simp] theorem State.setSegOf_pins (x : SegReg) (c : SegCache) : (s.setSegOf x c).pins = s.pins := by cases x <;> rfl
@[simp] theorem State.setSegOf_env (x : SegReg) (c : SegCache) : (s.setSegOf x c).env = s.env := by cases x <;> rfl
@[simp] theorem State.setSegOf_hazard (x : SegReg) (c : SegCache) : (s.setSegOf x c).hazard = s.hazard := by cases x <;> rfl
@[simp] theorem State.setSegOf_dirty (x : SegReg) (c : SegCache) : (s.setSegOf x c).dirty = s.dirty := by cases x <;> rfl
@[simp] theorem State.setSegOf_draws (x : SegReg) (c : SegCache) : (s.setSegOf x c).draws = s.draws := by cases x <;> rfl
@[simp] theorem State.setSegOf_io (x : SegReg) (c : SegCache) : (s.setSegOf x c).io = s.io := by cases x <;> rfl
@[simp] theorem State.setSegOf_plat (x : SegReg) (c : SegCache) : (s.setSegOf x c).plat = s.plat := by cases x <;> rfl
@[simp] theorem State.setSegOf_ended (x : SegReg) (c : SegCache) : (s.setSegOf x c).ended = s.ended := by cases x <;> rfl
@[simp] theorem State.setSegOf_mem (x : SegReg) (c : SegCache) : (s.setSegOf x c).mem = s.mem := by cases x <;> rfl

/-! ### nullIfInaccessible -/

@[simp] theorem State.nullIfInaccessible_gpr (x : SegReg) : (s.nullIfInaccessible x).gpr = s.gpr := by simp only [State.nullIfInaccessible]; split <;> simp
@[simp] theorem State.nullIfInaccessible_eip (x : SegReg) : (s.nullIfInaccessible x).eip = s.eip := by simp only [State.nullIfInaccessible]; split <;> simp
@[simp] theorem State.nullIfInaccessible_eipNext (x : SegReg) : (s.nullIfInaccessible x).eipNext = s.eipNext := by simp only [State.nullIfInaccessible]; split <;> simp
@[simp] theorem State.nullIfInaccessible_eflags (x : SegReg) : (s.nullIfInaccessible x).eflags = s.eflags := by simp only [State.nullIfInaccessible]; split <;> simp
@[simp] theorem State.nullIfInaccessible_gdtr (x : SegReg) : (s.nullIfInaccessible x).gdtr = s.gdtr := by simp only [State.nullIfInaccessible]; split <;> simp
@[simp] theorem State.nullIfInaccessible_idtr (x : SegReg) : (s.nullIfInaccessible x).idtr = s.idtr := by simp only [State.nullIfInaccessible]; split <;> simp
@[simp] theorem State.nullIfInaccessible_ldtr (x : SegReg) : (s.nullIfInaccessible x).ldtr = s.ldtr := by simp only [State.nullIfInaccessible]; split <;> simp
@[simp] theorem State.nullIfInaccessible_tr (x : SegReg) : (s.nullIfInaccessible x).tr = s.tr := by simp only [State.nullIfInaccessible]; split <;> simp
@[simp] theorem State.nullIfInaccessible_cr (x : SegReg) : (s.nullIfInaccessible x).cr = s.cr := by simp only [State.nullIfInaccessible]; split <;> simp
@[simp] theorem State.nullIfInaccessible_dr (x : SegReg) : (s.nullIfInaccessible x).dr = s.dr := by simp only [State.nullIfInaccessible]; split <;> simp
@[simp] theorem State.nullIfInaccessible_test (x : SegReg) : (s.nullIfInaccessible x).test = s.test := by simp only [State.nullIfInaccessible]; split <;> simp
@[simp] theorem State.nullIfInaccessible_tlb (x : SegReg) : (s.nullIfInaccessible x).tlb = s.tlb := by simp only [State.nullIfInaccessible]; split <;> simp
@[simp] theorem State.nullIfInaccessible_cpl (x : SegReg) : (s.nullIfInaccessible x).cpl = s.cpl := by simp only [State.nullIfInaccessible]; split <;> simp
@[simp] theorem State.nullIfInaccessible_nmiLatch (x : SegReg) : (s.nullIfInaccessible x).nmiLatch = s.nmiLatch := by simp only [State.nullIfInaccessible]; split <;> simp
@[simp] theorem State.nullIfInaccessible_inhibit (x : SegReg) : (s.nullIfInaccessible x).inhibit = s.inhibit := by simp only [State.nullIfInaccessible]; split <;> simp
@[simp] theorem State.nullIfInaccessible_stiShadow (x : SegReg) : (s.nullIfInaccessible x).stiShadow = s.stiShadow := by simp only [State.nullIfInaccessible]; split <;> simp
@[simp] theorem State.nullIfInaccessible_run (x : SegReg) : (s.nullIfInaccessible x).run = s.run := by simp only [State.nullIfInaccessible]; split <;> simp
@[simp] theorem State.nullIfInaccessible_highLatch (x : SegReg) : (s.nullIfInaccessible x).highLatch = s.highLatch := by simp only [State.nullIfInaccessible]; split <;> simp
@[simp] theorem State.nullIfInaccessible_pend (x : SegReg) : (s.nullIfInaccessible x).pend = s.pend := by simp only [State.nullIfInaccessible]; split <;> simp
@[simp] theorem State.nullIfInaccessible_pins (x : SegReg) : (s.nullIfInaccessible x).pins = s.pins := by simp only [State.nullIfInaccessible]; split <;> simp
@[simp] theorem State.nullIfInaccessible_env (x : SegReg) : (s.nullIfInaccessible x).env = s.env := by simp only [State.nullIfInaccessible]; split <;> simp
@[simp] theorem State.nullIfInaccessible_hazard (x : SegReg) : (s.nullIfInaccessible x).hazard = s.hazard := by simp only [State.nullIfInaccessible]; split <;> simp
@[simp] theorem State.nullIfInaccessible_dirty (x : SegReg) : (s.nullIfInaccessible x).dirty = s.dirty := by simp only [State.nullIfInaccessible]; split <;> simp
@[simp] theorem State.nullIfInaccessible_draws (x : SegReg) : (s.nullIfInaccessible x).draws = s.draws := by simp only [State.nullIfInaccessible]; split <;> simp
@[simp] theorem State.nullIfInaccessible_io (x : SegReg) : (s.nullIfInaccessible x).io = s.io := by simp only [State.nullIfInaccessible]; split <;> simp
@[simp] theorem State.nullIfInaccessible_plat (x : SegReg) : (s.nullIfInaccessible x).plat = s.plat := by simp only [State.nullIfInaccessible]; split <;> simp
@[simp] theorem State.nullIfInaccessible_ended (x : SegReg) : (s.nullIfInaccessible x).ended = s.ended := by simp only [State.nullIfInaccessible]; split <;> simp
@[simp] theorem State.nullIfInaccessible_mem (x : SegReg) : (s.nullIfInaccessible x).mem = s.mem := by simp only [State.nullIfInaccessible]; split <;> simp

/-! ### nullOuter -/

@[simp] theorem State.nullOuter_gpr : (s.nullOuter).gpr = s.gpr := by simp [State.nullOuter]
@[simp] theorem State.nullOuter_eip : (s.nullOuter).eip = s.eip := by simp [State.nullOuter]
@[simp] theorem State.nullOuter_eipNext : (s.nullOuter).eipNext = s.eipNext := by simp [State.nullOuter]
@[simp] theorem State.nullOuter_eflags : (s.nullOuter).eflags = s.eflags := by simp [State.nullOuter]
@[simp] theorem State.nullOuter_gdtr : (s.nullOuter).gdtr = s.gdtr := by simp [State.nullOuter]
@[simp] theorem State.nullOuter_idtr : (s.nullOuter).idtr = s.idtr := by simp [State.nullOuter]
@[simp] theorem State.nullOuter_ldtr : (s.nullOuter).ldtr = s.ldtr := by simp [State.nullOuter]
@[simp] theorem State.nullOuter_tr : (s.nullOuter).tr = s.tr := by simp [State.nullOuter]
@[simp] theorem State.nullOuter_cr : (s.nullOuter).cr = s.cr := by simp [State.nullOuter]
@[simp] theorem State.nullOuter_dr : (s.nullOuter).dr = s.dr := by simp [State.nullOuter]
@[simp] theorem State.nullOuter_test : (s.nullOuter).test = s.test := by simp [State.nullOuter]
@[simp] theorem State.nullOuter_tlb : (s.nullOuter).tlb = s.tlb := by simp [State.nullOuter]
@[simp] theorem State.nullOuter_cpl : (s.nullOuter).cpl = s.cpl := by simp [State.nullOuter]
@[simp] theorem State.nullOuter_nmiLatch : (s.nullOuter).nmiLatch = s.nmiLatch := by simp [State.nullOuter]
@[simp] theorem State.nullOuter_inhibit : (s.nullOuter).inhibit = s.inhibit := by simp [State.nullOuter]
@[simp] theorem State.nullOuter_stiShadow : (s.nullOuter).stiShadow = s.stiShadow := by simp [State.nullOuter]
@[simp] theorem State.nullOuter_run : (s.nullOuter).run = s.run := by simp [State.nullOuter]
@[simp] theorem State.nullOuter_highLatch : (s.nullOuter).highLatch = s.highLatch := by simp [State.nullOuter]
@[simp] theorem State.nullOuter_pend : (s.nullOuter).pend = s.pend := by simp [State.nullOuter]
@[simp] theorem State.nullOuter_pins : (s.nullOuter).pins = s.pins := by simp [State.nullOuter]
@[simp] theorem State.nullOuter_env : (s.nullOuter).env = s.env := by simp [State.nullOuter]
@[simp] theorem State.nullOuter_hazard : (s.nullOuter).hazard = s.hazard := by simp [State.nullOuter]
@[simp] theorem State.nullOuter_dirty : (s.nullOuter).dirty = s.dirty := by simp [State.nullOuter]
@[simp] theorem State.nullOuter_draws : (s.nullOuter).draws = s.draws := by simp [State.nullOuter]
@[simp] theorem State.nullOuter_io : (s.nullOuter).io = s.io := by simp [State.nullOuter]
@[simp] theorem State.nullOuter_plat : (s.nullOuter).plat = s.plat := by simp [State.nullOuter]
@[simp] theorem State.nullOuter_ended : (s.nullOuter).ended = s.ended := by simp [State.nullOuter]
@[simp] theorem State.nullOuter_mem : (s.nullOuter).mem = s.mem := by simp [State.nullOuter]

/-! ### moveSp -/

@[simp] theorem State.moveSp_eip (k : Word) : (s.moveSp k).eip = s.eip := rfl
@[simp] theorem State.moveSp_eipNext (k : Word) : (s.moveSp k).eipNext = s.eipNext := rfl
@[simp] theorem State.moveSp_eflags (k : Word) : (s.moveSp k).eflags = s.eflags := rfl
@[simp] theorem State.moveSp_seg (k : Word) : (s.moveSp k).seg = s.seg := rfl
@[simp] theorem State.moveSp_gdtr (k : Word) : (s.moveSp k).gdtr = s.gdtr := rfl
@[simp] theorem State.moveSp_idtr (k : Word) : (s.moveSp k).idtr = s.idtr := rfl
@[simp] theorem State.moveSp_ldtr (k : Word) : (s.moveSp k).ldtr = s.ldtr := rfl
@[simp] theorem State.moveSp_tr (k : Word) : (s.moveSp k).tr = s.tr := rfl
@[simp] theorem State.moveSp_cr (k : Word) : (s.moveSp k).cr = s.cr := rfl
@[simp] theorem State.moveSp_dr (k : Word) : (s.moveSp k).dr = s.dr := rfl
@[simp] theorem State.moveSp_test (k : Word) : (s.moveSp k).test = s.test := rfl
@[simp] theorem State.moveSp_tlb (k : Word) : (s.moveSp k).tlb = s.tlb := rfl
@[simp] theorem State.moveSp_cpl (k : Word) : (s.moveSp k).cpl = s.cpl := rfl
@[simp] theorem State.moveSp_nmiLatch (k : Word) : (s.moveSp k).nmiLatch = s.nmiLatch := rfl
@[simp] theorem State.moveSp_inhibit (k : Word) : (s.moveSp k).inhibit = s.inhibit := rfl
@[simp] theorem State.moveSp_stiShadow (k : Word) : (s.moveSp k).stiShadow = s.stiShadow := rfl
@[simp] theorem State.moveSp_run (k : Word) : (s.moveSp k).run = s.run := rfl
@[simp] theorem State.moveSp_highLatch (k : Word) : (s.moveSp k).highLatch = s.highLatch := rfl
@[simp] theorem State.moveSp_pend (k : Word) : (s.moveSp k).pend = s.pend := rfl
@[simp] theorem State.moveSp_pins (k : Word) : (s.moveSp k).pins = s.pins := rfl
@[simp] theorem State.moveSp_env (k : Word) : (s.moveSp k).env = s.env := rfl
@[simp] theorem State.moveSp_hazard (k : Word) : (s.moveSp k).hazard = s.hazard := rfl
@[simp] theorem State.moveSp_dirty (k : Word) : (s.moveSp k).dirty = s.dirty := rfl
@[simp] theorem State.moveSp_draws (k : Word) : (s.moveSp k).draws = s.draws := rfl
@[simp] theorem State.moveSp_io (k : Word) : (s.moveSp k).io = s.io := rfl
@[simp] theorem State.moveSp_plat (k : Word) : (s.moveSp k).plat = s.plat := rfl
@[simp] theorem State.moveSp_ended (k : Word) : (s.moveSp k).ended = s.ended := rfl
@[simp] theorem State.moveSp_mem (k : Word) : (s.moveSp k).mem = s.mem := rfl

/-! ### setInner -/

@[simp] theorem State.setInner_eip (c : SegCache) (p : Word) (n : Nat) : (s.setInner c p n).eip = s.eip := rfl
@[simp] theorem State.setInner_eipNext (c : SegCache) (p : Word) (n : Nat) : (s.setInner c p n).eipNext = s.eipNext := rfl
@[simp] theorem State.setInner_eflags (c : SegCache) (p : Word) (n : Nat) : (s.setInner c p n).eflags = s.eflags := rfl
@[simp] theorem State.setInner_gdtr (c : SegCache) (p : Word) (n : Nat) : (s.setInner c p n).gdtr = s.gdtr := rfl
@[simp] theorem State.setInner_idtr (c : SegCache) (p : Word) (n : Nat) : (s.setInner c p n).idtr = s.idtr := rfl
@[simp] theorem State.setInner_ldtr (c : SegCache) (p : Word) (n : Nat) : (s.setInner c p n).ldtr = s.ldtr := rfl
@[simp] theorem State.setInner_tr (c : SegCache) (p : Word) (n : Nat) : (s.setInner c p n).tr = s.tr := rfl
@[simp] theorem State.setInner_cr (c : SegCache) (p : Word) (n : Nat) : (s.setInner c p n).cr = s.cr := rfl
@[simp] theorem State.setInner_dr (c : SegCache) (p : Word) (n : Nat) : (s.setInner c p n).dr = s.dr := rfl
@[simp] theorem State.setInner_test (c : SegCache) (p : Word) (n : Nat) : (s.setInner c p n).test = s.test := rfl
@[simp] theorem State.setInner_tlb (c : SegCache) (p : Word) (n : Nat) : (s.setInner c p n).tlb = s.tlb := rfl
@[simp] theorem State.setInner_cpl (c : SegCache) (p : Word) (n : Nat) : (s.setInner c p n).cpl = s.cpl := rfl
@[simp] theorem State.setInner_nmiLatch (c : SegCache) (p : Word) (n : Nat) : (s.setInner c p n).nmiLatch = s.nmiLatch := rfl
@[simp] theorem State.setInner_inhibit (c : SegCache) (p : Word) (n : Nat) : (s.setInner c p n).inhibit = s.inhibit := rfl
@[simp] theorem State.setInner_stiShadow (c : SegCache) (p : Word) (n : Nat) : (s.setInner c p n).stiShadow = s.stiShadow := rfl
@[simp] theorem State.setInner_run (c : SegCache) (p : Word) (n : Nat) : (s.setInner c p n).run = s.run := rfl
@[simp] theorem State.setInner_highLatch (c : SegCache) (p : Word) (n : Nat) : (s.setInner c p n).highLatch = s.highLatch := rfl
@[simp] theorem State.setInner_pend (c : SegCache) (p : Word) (n : Nat) : (s.setInner c p n).pend = s.pend := rfl
@[simp] theorem State.setInner_pins (c : SegCache) (p : Word) (n : Nat) : (s.setInner c p n).pins = s.pins := rfl
@[simp] theorem State.setInner_env (c : SegCache) (p : Word) (n : Nat) : (s.setInner c p n).env = s.env := rfl
@[simp] theorem State.setInner_hazard (c : SegCache) (p : Word) (n : Nat) : (s.setInner c p n).hazard = s.hazard := rfl
@[simp] theorem State.setInner_dirty (c : SegCache) (p : Word) (n : Nat) : (s.setInner c p n).dirty = s.dirty := rfl
@[simp] theorem State.setInner_draws (c : SegCache) (p : Word) (n : Nat) : (s.setInner c p n).draws = s.draws := rfl
@[simp] theorem State.setInner_io (c : SegCache) (p : Word) (n : Nat) : (s.setInner c p n).io = s.io := rfl
@[simp] theorem State.setInner_plat (c : SegCache) (p : Word) (n : Nat) : (s.setInner c p n).plat = s.plat := rfl
@[simp] theorem State.setInner_ended (c : SegCache) (p : Word) (n : Nat) : (s.setInner c p n).ended = s.ended := rfl
@[simp] theorem State.setInner_mem (c : SegCache) (p : Word) (n : Nat) : (s.setInner c p n).mem = s.mem := rfl

/-! ### storeRam -/

@[simp] theorem State.storeRam_gpr (a : Nat) (v : Byte) : (s.storeRam a v).gpr = s.gpr := rfl
@[simp] theorem State.storeRam_eip (a : Nat) (v : Byte) : (s.storeRam a v).eip = s.eip := rfl
@[simp] theorem State.storeRam_eipNext (a : Nat) (v : Byte) : (s.storeRam a v).eipNext = s.eipNext := rfl
@[simp] theorem State.storeRam_eflags (a : Nat) (v : Byte) : (s.storeRam a v).eflags = s.eflags := rfl
@[simp] theorem State.storeRam_seg (a : Nat) (v : Byte) : (s.storeRam a v).seg = s.seg := rfl
@[simp] theorem State.storeRam_gdtr (a : Nat) (v : Byte) : (s.storeRam a v).gdtr = s.gdtr := rfl
@[simp] theorem State.storeRam_idtr (a : Nat) (v : Byte) : (s.storeRam a v).idtr = s.idtr := rfl
@[simp] theorem State.storeRam_ldtr (a : Nat) (v : Byte) : (s.storeRam a v).ldtr = s.ldtr := rfl
@[simp] theorem State.storeRam_tr (a : Nat) (v : Byte) : (s.storeRam a v).tr = s.tr := rfl
@[simp] theorem State.storeRam_cr (a : Nat) (v : Byte) : (s.storeRam a v).cr = s.cr := rfl
@[simp] theorem State.storeRam_dr (a : Nat) (v : Byte) : (s.storeRam a v).dr = s.dr := rfl
@[simp] theorem State.storeRam_test (a : Nat) (v : Byte) : (s.storeRam a v).test = s.test := rfl
@[simp] theorem State.storeRam_tlb (a : Nat) (v : Byte) : (s.storeRam a v).tlb = s.tlb := rfl
@[simp] theorem State.storeRam_cpl (a : Nat) (v : Byte) : (s.storeRam a v).cpl = s.cpl := rfl
@[simp] theorem State.storeRam_nmiLatch (a : Nat) (v : Byte) : (s.storeRam a v).nmiLatch = s.nmiLatch := rfl
@[simp] theorem State.storeRam_inhibit (a : Nat) (v : Byte) : (s.storeRam a v).inhibit = s.inhibit := rfl
@[simp] theorem State.storeRam_stiShadow (a : Nat) (v : Byte) : (s.storeRam a v).stiShadow = s.stiShadow := rfl
@[simp] theorem State.storeRam_run (a : Nat) (v : Byte) : (s.storeRam a v).run = s.run := rfl
@[simp] theorem State.storeRam_highLatch (a : Nat) (v : Byte) : (s.storeRam a v).highLatch = s.highLatch := rfl
@[simp] theorem State.storeRam_pend (a : Nat) (v : Byte) : (s.storeRam a v).pend = s.pend := rfl
@[simp] theorem State.storeRam_pins (a : Nat) (v : Byte) : (s.storeRam a v).pins = s.pins := rfl
@[simp] theorem State.storeRam_env (a : Nat) (v : Byte) : (s.storeRam a v).env = s.env := rfl
@[simp] theorem State.storeRam_hazard (a : Nat) (v : Byte) : (s.storeRam a v).hazard = s.hazard := rfl
@[simp] theorem State.storeRam_draws (a : Nat) (v : Byte) : (s.storeRam a v).draws = s.draws := rfl
@[simp] theorem State.storeRam_io (a : Nat) (v : Byte) : (s.storeRam a v).io = s.io := rfl
@[simp] theorem State.storeRam_plat (a : Nat) (v : Byte) : (s.storeRam a v).plat = s.plat := rfl
@[simp] theorem State.storeRam_ended (a : Nat) (v : Byte) : (s.storeRam a v).ended = s.ended := rfl

/-! ### store -/

@[simp] theorem State.store_gpr (a : Nat) (v : Byte) : (s.store a v).gpr = s.gpr := by unfold State.store; split <;> rfl
@[simp] theorem State.store_eip (a : Nat) (v : Byte) : (s.store a v).eip = s.eip := by unfold State.store; split <;> rfl
@[simp] theorem State.store_eipNext (a : Nat) (v : Byte) : (s.store a v).eipNext = s.eipNext := by unfold State.store; split <;> rfl
@[simp] theorem State.store_eflags (a : Nat) (v : Byte) : (s.store a v).eflags = s.eflags := by unfold State.store; split <;> rfl
@[simp] theorem State.store_seg (a : Nat) (v : Byte) : (s.store a v).seg = s.seg := by unfold State.store; split <;> rfl
@[simp] theorem State.store_gdtr (a : Nat) (v : Byte) : (s.store a v).gdtr = s.gdtr := by unfold State.store; split <;> rfl
@[simp] theorem State.store_idtr (a : Nat) (v : Byte) : (s.store a v).idtr = s.idtr := by unfold State.store; split <;> rfl
@[simp] theorem State.store_ldtr (a : Nat) (v : Byte) : (s.store a v).ldtr = s.ldtr := by unfold State.store; split <;> rfl
@[simp] theorem State.store_tr (a : Nat) (v : Byte) : (s.store a v).tr = s.tr := by unfold State.store; split <;> rfl
@[simp] theorem State.store_cr (a : Nat) (v : Byte) : (s.store a v).cr = s.cr := by unfold State.store; split <;> rfl
@[simp] theorem State.store_dr (a : Nat) (v : Byte) : (s.store a v).dr = s.dr := by unfold State.store; split <;> rfl
@[simp] theorem State.store_test (a : Nat) (v : Byte) : (s.store a v).test = s.test := by unfold State.store; split <;> rfl
@[simp] theorem State.store_tlb (a : Nat) (v : Byte) : (s.store a v).tlb = s.tlb := by unfold State.store; split <;> rfl
@[simp] theorem State.store_cpl (a : Nat) (v : Byte) : (s.store a v).cpl = s.cpl := by unfold State.store; split <;> rfl
@[simp] theorem State.store_nmiLatch (a : Nat) (v : Byte) : (s.store a v).nmiLatch = s.nmiLatch := by unfold State.store; split <;> rfl
@[simp] theorem State.store_inhibit (a : Nat) (v : Byte) : (s.store a v).inhibit = s.inhibit := by unfold State.store; split <;> rfl
@[simp] theorem State.store_stiShadow (a : Nat) (v : Byte) : (s.store a v).stiShadow = s.stiShadow := by unfold State.store; split <;> rfl
@[simp] theorem State.store_run (a : Nat) (v : Byte) : (s.store a v).run = s.run := by unfold State.store; split <;> rfl
@[simp] theorem State.store_highLatch (a : Nat) (v : Byte) : (s.store a v).highLatch = s.highLatch := by unfold State.store; split <;> rfl
@[simp] theorem State.store_pend (a : Nat) (v : Byte) : (s.store a v).pend = s.pend := by unfold State.store; split <;> rfl
@[simp] theorem State.store_pins (a : Nat) (v : Byte) : (s.store a v).pins = s.pins := by unfold State.store; split <;> rfl
@[simp] theorem State.store_env (a : Nat) (v : Byte) : (s.store a v).env = s.env := by unfold State.store; split <;> rfl
@[simp] theorem State.store_hazard (a : Nat) (v : Byte) : (s.store a v).hazard = s.hazard := by unfold State.store; split <;> rfl
@[simp] theorem State.store_draws (a : Nat) (v : Byte) : (s.store a v).draws = s.draws := by unfold State.store; split <;> rfl
@[simp] theorem State.store_plat (a : Nat) (v : Byte) : (s.store a v).plat = s.plat := by unfold State.store; split <;> rfl
@[simp] theorem State.store_ended (a : Nat) (v : Byte) : (s.store a v).ended = s.ended := by unfold State.store; split <;> rfl

/-! ### storeAll -/

@[simp] theorem State.storeAll_gpr (as : List Nat) (vs : List Byte) : (s.storeAll as vs).gpr = s.gpr := by
  induction as generalizing s vs with
  | nil => rfl
  | cons a as ih => cases vs with
    | nil => rfl
    | cons v vs => exact (ih (s.store a v) vs).trans (s.store_gpr a v)
@[simp] theorem State.storeAll_eip (as : List Nat) (vs : List Byte) : (s.storeAll as vs).eip = s.eip := by
  induction as generalizing s vs with
  | nil => rfl
  | cons a as ih => cases vs with
    | nil => rfl
    | cons v vs => exact (ih (s.store a v) vs).trans (s.store_eip a v)
@[simp] theorem State.storeAll_eipNext (as : List Nat) (vs : List Byte) : (s.storeAll as vs).eipNext = s.eipNext := by
  induction as generalizing s vs with
  | nil => rfl
  | cons a as ih => cases vs with
    | nil => rfl
    | cons v vs => exact (ih (s.store a v) vs).trans (s.store_eipNext a v)
@[simp] theorem State.storeAll_eflags (as : List Nat) (vs : List Byte) : (s.storeAll as vs).eflags = s.eflags := by
  induction as generalizing s vs with
  | nil => rfl
  | cons a as ih => cases vs with
    | nil => rfl
    | cons v vs => exact (ih (s.store a v) vs).trans (s.store_eflags a v)
@[simp] theorem State.storeAll_seg (as : List Nat) (vs : List Byte) : (s.storeAll as vs).seg = s.seg := by
  induction as generalizing s vs with
  | nil => rfl
  | cons a as ih => cases vs with
    | nil => rfl
    | cons v vs => exact (ih (s.store a v) vs).trans (s.store_seg a v)
@[simp] theorem State.storeAll_gdtr (as : List Nat) (vs : List Byte) : (s.storeAll as vs).gdtr = s.gdtr := by
  induction as generalizing s vs with
  | nil => rfl
  | cons a as ih => cases vs with
    | nil => rfl
    | cons v vs => exact (ih (s.store a v) vs).trans (s.store_gdtr a v)
@[simp] theorem State.storeAll_idtr (as : List Nat) (vs : List Byte) : (s.storeAll as vs).idtr = s.idtr := by
  induction as generalizing s vs with
  | nil => rfl
  | cons a as ih => cases vs with
    | nil => rfl
    | cons v vs => exact (ih (s.store a v) vs).trans (s.store_idtr a v)
@[simp] theorem State.storeAll_ldtr (as : List Nat) (vs : List Byte) : (s.storeAll as vs).ldtr = s.ldtr := by
  induction as generalizing s vs with
  | nil => rfl
  | cons a as ih => cases vs with
    | nil => rfl
    | cons v vs => exact (ih (s.store a v) vs).trans (s.store_ldtr a v)
@[simp] theorem State.storeAll_tr (as : List Nat) (vs : List Byte) : (s.storeAll as vs).tr = s.tr := by
  induction as generalizing s vs with
  | nil => rfl
  | cons a as ih => cases vs with
    | nil => rfl
    | cons v vs => exact (ih (s.store a v) vs).trans (s.store_tr a v)
@[simp] theorem State.storeAll_cr (as : List Nat) (vs : List Byte) : (s.storeAll as vs).cr = s.cr := by
  induction as generalizing s vs with
  | nil => rfl
  | cons a as ih => cases vs with
    | nil => rfl
    | cons v vs => exact (ih (s.store a v) vs).trans (s.store_cr a v)
@[simp] theorem State.storeAll_dr (as : List Nat) (vs : List Byte) : (s.storeAll as vs).dr = s.dr := by
  induction as generalizing s vs with
  | nil => rfl
  | cons a as ih => cases vs with
    | nil => rfl
    | cons v vs => exact (ih (s.store a v) vs).trans (s.store_dr a v)
@[simp] theorem State.storeAll_test (as : List Nat) (vs : List Byte) : (s.storeAll as vs).test = s.test := by
  induction as generalizing s vs with
  | nil => rfl
  | cons a as ih => cases vs with
    | nil => rfl
    | cons v vs => exact (ih (s.store a v) vs).trans (s.store_test a v)
@[simp] theorem State.storeAll_tlb (as : List Nat) (vs : List Byte) : (s.storeAll as vs).tlb = s.tlb := by
  induction as generalizing s vs with
  | nil => rfl
  | cons a as ih => cases vs with
    | nil => rfl
    | cons v vs => exact (ih (s.store a v) vs).trans (s.store_tlb a v)
@[simp] theorem State.storeAll_cpl (as : List Nat) (vs : List Byte) : (s.storeAll as vs).cpl = s.cpl := by
  induction as generalizing s vs with
  | nil => rfl
  | cons a as ih => cases vs with
    | nil => rfl
    | cons v vs => exact (ih (s.store a v) vs).trans (s.store_cpl a v)
@[simp] theorem State.storeAll_nmiLatch (as : List Nat) (vs : List Byte) : (s.storeAll as vs).nmiLatch = s.nmiLatch := by
  induction as generalizing s vs with
  | nil => rfl
  | cons a as ih => cases vs with
    | nil => rfl
    | cons v vs => exact (ih (s.store a v) vs).trans (s.store_nmiLatch a v)
@[simp] theorem State.storeAll_inhibit (as : List Nat) (vs : List Byte) : (s.storeAll as vs).inhibit = s.inhibit := by
  induction as generalizing s vs with
  | nil => rfl
  | cons a as ih => cases vs with
    | nil => rfl
    | cons v vs => exact (ih (s.store a v) vs).trans (s.store_inhibit a v)
@[simp] theorem State.storeAll_stiShadow (as : List Nat) (vs : List Byte) : (s.storeAll as vs).stiShadow = s.stiShadow := by
  induction as generalizing s vs with
  | nil => rfl
  | cons a as ih => cases vs with
    | nil => rfl
    | cons v vs => exact (ih (s.store a v) vs).trans (s.store_stiShadow a v)
@[simp] theorem State.storeAll_run (as : List Nat) (vs : List Byte) : (s.storeAll as vs).run = s.run := by
  induction as generalizing s vs with
  | nil => rfl
  | cons a as ih => cases vs with
    | nil => rfl
    | cons v vs => exact (ih (s.store a v) vs).trans (s.store_run a v)
@[simp] theorem State.storeAll_highLatch (as : List Nat) (vs : List Byte) : (s.storeAll as vs).highLatch = s.highLatch := by
  induction as generalizing s vs with
  | nil => rfl
  | cons a as ih => cases vs with
    | nil => rfl
    | cons v vs => exact (ih (s.store a v) vs).trans (s.store_highLatch a v)
@[simp] theorem State.storeAll_pend (as : List Nat) (vs : List Byte) : (s.storeAll as vs).pend = s.pend := by
  induction as generalizing s vs with
  | nil => rfl
  | cons a as ih => cases vs with
    | nil => rfl
    | cons v vs => exact (ih (s.store a v) vs).trans (s.store_pend a v)
@[simp] theorem State.storeAll_pins (as : List Nat) (vs : List Byte) : (s.storeAll as vs).pins = s.pins := by
  induction as generalizing s vs with
  | nil => rfl
  | cons a as ih => cases vs with
    | nil => rfl
    | cons v vs => exact (ih (s.store a v) vs).trans (s.store_pins a v)
@[simp] theorem State.storeAll_env (as : List Nat) (vs : List Byte) : (s.storeAll as vs).env = s.env := by
  induction as generalizing s vs with
  | nil => rfl
  | cons a as ih => cases vs with
    | nil => rfl
    | cons v vs => exact (ih (s.store a v) vs).trans (s.store_env a v)
@[simp] theorem State.storeAll_hazard (as : List Nat) (vs : List Byte) : (s.storeAll as vs).hazard = s.hazard := by
  induction as generalizing s vs with
  | nil => rfl
  | cons a as ih => cases vs with
    | nil => rfl
    | cons v vs => exact (ih (s.store a v) vs).trans (s.store_hazard a v)
@[simp] theorem State.storeAll_draws (as : List Nat) (vs : List Byte) : (s.storeAll as vs).draws = s.draws := by
  induction as generalizing s vs with
  | nil => rfl
  | cons a as ih => cases vs with
    | nil => rfl
    | cons v vs => exact (ih (s.store a v) vs).trans (s.store_draws a v)
@[simp] theorem State.storeAll_plat (as : List Nat) (vs : List Byte) : (s.storeAll as vs).plat = s.plat := by
  induction as generalizing s vs with
  | nil => rfl
  | cons a as ih => cases vs with
    | nil => rfl
    | cons v vs => exact (ih (s.store a v) vs).trans (s.store_plat a v)
@[simp] theorem State.storeAll_ended (as : List Nat) (vs : List Byte) : (s.storeAll as vs).ended = s.ended := by
  induction as generalizing s vs with
  | nil => rfl
  | cons a as ih => cases vs with
    | nil => rfl
    | cons v vs => exact (ih (s.store a v) vs).trans (s.store_ended a v)

/-! ### markA -/

/-- The write of an accessed bit stores to some of the bytes that were translated for it. -/
theorem State.markA_eq (d : Desc) (ps : List Nat) : ∃ qs bs, qs ⊆ ps ∧ ∀ t : State, t.kindAt = s.kindAt →
    t.byteAt = s.byteAt → t.markA d ps = t.storeAll qs bs := by
  have e : ∀ t : State, t.kindAt = s.kindAt → t.byteAt = s.byteAt → t.accessedShows d ps = s.accessedShows d ps := by
    intro t h k
    simp only [State.accessedShows, State.bytesAt, k, show t.isDevice = s.isDevice by
      funext a
      simp only [State.isDevice, h]]
  by_cases h : ps.length = 1
  · exact ⟨ps, _, fun _ h => h, fun t _ _ => if_pos h⟩
  · by_cases k : (s.accessedShows d ps && Config.accessedByteAlone) = true
    · exact ⟨ps.drop 1, _, List.drop_subset 1 ps, fun t x y => by
        rw [State.markA, if_neg h, e t x y, if_pos k]⟩
    · exact ⟨ps, _, fun _ h => h, fun t x y => by
        rw [State.markA, if_neg h, e t x y, if_neg k]⟩

/-- The same, for one state. -/
theorem State.markA_storeAll (d : Desc) (ps : List Nat) : ∃ qs bs, qs ⊆ ps ∧ s.markA d ps = s.storeAll qs bs := by
  obtain ⟨qs, bs, h, k⟩ := s.markA_eq d ps
  exact ⟨qs, bs, h, k s rfl rfl⟩

@[simp] theorem State.markA_gpr (d : Desc) (ps : List Nat) : (s.markA d ps).gpr = s.gpr := by obtain ⟨qs, bs, -, h⟩ := s.markA_storeAll d ps; rw [h, State.storeAll_gpr]
@[simp] theorem State.markA_eip (d : Desc) (ps : List Nat) : (s.markA d ps).eip = s.eip := by obtain ⟨qs, bs, -, h⟩ := s.markA_storeAll d ps; rw [h, State.storeAll_eip]
@[simp] theorem State.markA_eipNext (d : Desc) (ps : List Nat) : (s.markA d ps).eipNext = s.eipNext := by obtain ⟨qs, bs, -, h⟩ := s.markA_storeAll d ps; rw [h, State.storeAll_eipNext]
@[simp] theorem State.markA_eflags (d : Desc) (ps : List Nat) : (s.markA d ps).eflags = s.eflags := by obtain ⟨qs, bs, -, h⟩ := s.markA_storeAll d ps; rw [h, State.storeAll_eflags]
@[simp] theorem State.markA_seg (d : Desc) (ps : List Nat) : (s.markA d ps).seg = s.seg := by obtain ⟨qs, bs, -, h⟩ := s.markA_storeAll d ps; rw [h, State.storeAll_seg]
@[simp] theorem State.markA_gdtr (d : Desc) (ps : List Nat) : (s.markA d ps).gdtr = s.gdtr := by obtain ⟨qs, bs, -, h⟩ := s.markA_storeAll d ps; rw [h, State.storeAll_gdtr]
@[simp] theorem State.markA_idtr (d : Desc) (ps : List Nat) : (s.markA d ps).idtr = s.idtr := by obtain ⟨qs, bs, -, h⟩ := s.markA_storeAll d ps; rw [h, State.storeAll_idtr]
@[simp] theorem State.markA_ldtr (d : Desc) (ps : List Nat) : (s.markA d ps).ldtr = s.ldtr := by obtain ⟨qs, bs, -, h⟩ := s.markA_storeAll d ps; rw [h, State.storeAll_ldtr]
@[simp] theorem State.markA_tr (d : Desc) (ps : List Nat) : (s.markA d ps).tr = s.tr := by obtain ⟨qs, bs, -, h⟩ := s.markA_storeAll d ps; rw [h, State.storeAll_tr]
@[simp] theorem State.markA_cr (d : Desc) (ps : List Nat) : (s.markA d ps).cr = s.cr := by obtain ⟨qs, bs, -, h⟩ := s.markA_storeAll d ps; rw [h, State.storeAll_cr]
@[simp] theorem State.markA_dr (d : Desc) (ps : List Nat) : (s.markA d ps).dr = s.dr := by obtain ⟨qs, bs, -, h⟩ := s.markA_storeAll d ps; rw [h, State.storeAll_dr]
@[simp] theorem State.markA_test (d : Desc) (ps : List Nat) : (s.markA d ps).test = s.test := by obtain ⟨qs, bs, -, h⟩ := s.markA_storeAll d ps; rw [h, State.storeAll_test]
@[simp] theorem State.markA_tlb (d : Desc) (ps : List Nat) : (s.markA d ps).tlb = s.tlb := by obtain ⟨qs, bs, -, h⟩ := s.markA_storeAll d ps; rw [h, State.storeAll_tlb]
@[simp] theorem State.markA_cpl (d : Desc) (ps : List Nat) : (s.markA d ps).cpl = s.cpl := by obtain ⟨qs, bs, -, h⟩ := s.markA_storeAll d ps; rw [h, State.storeAll_cpl]
@[simp] theorem State.markA_nmiLatch (d : Desc) (ps : List Nat) : (s.markA d ps).nmiLatch = s.nmiLatch := by obtain ⟨qs, bs, -, h⟩ := s.markA_storeAll d ps; rw [h, State.storeAll_nmiLatch]
@[simp] theorem State.markA_inhibit (d : Desc) (ps : List Nat) : (s.markA d ps).inhibit = s.inhibit := by obtain ⟨qs, bs, -, h⟩ := s.markA_storeAll d ps; rw [h, State.storeAll_inhibit]
@[simp] theorem State.markA_stiShadow (d : Desc) (ps : List Nat) : (s.markA d ps).stiShadow = s.stiShadow := by obtain ⟨qs, bs, -, h⟩ := s.markA_storeAll d ps; rw [h, State.storeAll_stiShadow]
@[simp] theorem State.markA_run (d : Desc) (ps : List Nat) : (s.markA d ps).run = s.run := by obtain ⟨qs, bs, -, h⟩ := s.markA_storeAll d ps; rw [h, State.storeAll_run]
@[simp] theorem State.markA_highLatch (d : Desc) (ps : List Nat) : (s.markA d ps).highLatch = s.highLatch := by obtain ⟨qs, bs, -, h⟩ := s.markA_storeAll d ps; rw [h, State.storeAll_highLatch]
@[simp] theorem State.markA_pend (d : Desc) (ps : List Nat) : (s.markA d ps).pend = s.pend := by obtain ⟨qs, bs, -, h⟩ := s.markA_storeAll d ps; rw [h, State.storeAll_pend]
@[simp] theorem State.markA_pins (d : Desc) (ps : List Nat) : (s.markA d ps).pins = s.pins := by obtain ⟨qs, bs, -, h⟩ := s.markA_storeAll d ps; rw [h, State.storeAll_pins]
@[simp] theorem State.markA_env (d : Desc) (ps : List Nat) : (s.markA d ps).env = s.env := by obtain ⟨qs, bs, -, h⟩ := s.markA_storeAll d ps; rw [h, State.storeAll_env]
@[simp] theorem State.markA_hazard (d : Desc) (ps : List Nat) : (s.markA d ps).hazard = s.hazard := by obtain ⟨qs, bs, -, h⟩ := s.markA_storeAll d ps; rw [h, State.storeAll_hazard]
@[simp] theorem State.markA_draws (d : Desc) (ps : List Nat) : (s.markA d ps).draws = s.draws := by obtain ⟨qs, bs, -, h⟩ := s.markA_storeAll d ps; rw [h, State.storeAll_draws]
@[simp] theorem State.markA_plat (d : Desc) (ps : List Nat) : (s.markA d ps).plat = s.plat := by obtain ⟨qs, bs, -, h⟩ := s.markA_storeAll d ps; rw [h, State.storeAll_plat]
@[simp] theorem State.markA_ended (d : Desc) (ps : List Nat) : (s.markA d ps).ended = s.ended := by obtain ⟨qs, bs, -, h⟩ := s.markA_storeAll d ps; rw [h, State.storeAll_ended]

/-! ### flushTlb -/

@[simp] theorem State.flushTlb_gpr : (s.flushTlb).gpr = s.gpr := rfl
@[simp] theorem State.flushTlb_eip : (s.flushTlb).eip = s.eip := rfl
@[simp] theorem State.flushTlb_eipNext : (s.flushTlb).eipNext = s.eipNext := rfl
@[simp] theorem State.flushTlb_eflags : (s.flushTlb).eflags = s.eflags := rfl
@[simp] theorem State.flushTlb_seg : (s.flushTlb).seg = s.seg := rfl
@[simp] theorem State.flushTlb_gdtr : (s.flushTlb).gdtr = s.gdtr := rfl
@[simp] theorem State.flushTlb_idtr : (s.flushTlb).idtr = s.idtr := rfl
@[simp] theorem State.flushTlb_ldtr : (s.flushTlb).ldtr = s.ldtr := rfl
@[simp] theorem State.flushTlb_tr : (s.flushTlb).tr = s.tr := rfl
@[simp] theorem State.flushTlb_cr : (s.flushTlb).cr = s.cr := rfl
@[simp] theorem State.flushTlb_dr : (s.flushTlb).dr = s.dr := rfl
@[simp] theorem State.flushTlb_test : (s.flushTlb).test = s.test := rfl
@[simp] theorem State.flushTlb_cpl : (s.flushTlb).cpl = s.cpl := rfl
@[simp] theorem State.flushTlb_nmiLatch : (s.flushTlb).nmiLatch = s.nmiLatch := rfl
@[simp] theorem State.flushTlb_inhibit : (s.flushTlb).inhibit = s.inhibit := rfl
@[simp] theorem State.flushTlb_stiShadow : (s.flushTlb).stiShadow = s.stiShadow := rfl
@[simp] theorem State.flushTlb_run : (s.flushTlb).run = s.run := rfl
@[simp] theorem State.flushTlb_highLatch : (s.flushTlb).highLatch = s.highLatch := rfl
@[simp] theorem State.flushTlb_pend : (s.flushTlb).pend = s.pend := rfl
@[simp] theorem State.flushTlb_pins : (s.flushTlb).pins = s.pins := rfl
@[simp] theorem State.flushTlb_env : (s.flushTlb).env = s.env := rfl
@[simp] theorem State.flushTlb_hazard : (s.flushTlb).hazard = s.hazard := rfl
@[simp] theorem State.flushTlb_dirty : (s.flushTlb).dirty = s.dirty := rfl
@[simp] theorem State.flushTlb_draws : (s.flushTlb).draws = s.draws := rfl
@[simp] theorem State.flushTlb_io : (s.flushTlb).io = s.io := rfl
@[simp] theorem State.flushTlb_plat : (s.flushTlb).plat = s.plat := rfl
@[simp] theorem State.flushTlb_ended : (s.flushTlb).ended = s.ended := rfl
@[simp] theorem State.flushTlb_mem : (s.flushTlb).mem = s.mem := rfl

/-! ### loosenTlb -/

@[simp] theorem State.loosenTlb_gpr : (s.loosenTlb).gpr = s.gpr := by unfold State.loosenTlb; split <;> rfl
@[simp] theorem State.loosenTlb_eip : (s.loosenTlb).eip = s.eip := by unfold State.loosenTlb; split <;> rfl
@[simp] theorem State.loosenTlb_eipNext : (s.loosenTlb).eipNext = s.eipNext := by unfold State.loosenTlb; split <;> rfl
@[simp] theorem State.loosenTlb_eflags : (s.loosenTlb).eflags = s.eflags := by unfold State.loosenTlb; split <;> rfl
@[simp] theorem State.loosenTlb_seg : (s.loosenTlb).seg = s.seg := by unfold State.loosenTlb; split <;> rfl
@[simp] theorem State.loosenTlb_gdtr : (s.loosenTlb).gdtr = s.gdtr := by unfold State.loosenTlb; split <;> rfl
@[simp] theorem State.loosenTlb_idtr : (s.loosenTlb).idtr = s.idtr := by unfold State.loosenTlb; split <;> rfl
@[simp] theorem State.loosenTlb_ldtr : (s.loosenTlb).ldtr = s.ldtr := by unfold State.loosenTlb; split <;> rfl
@[simp] theorem State.loosenTlb_tr : (s.loosenTlb).tr = s.tr := by unfold State.loosenTlb; split <;> rfl
@[simp] theorem State.loosenTlb_cr : (s.loosenTlb).cr = s.cr := by unfold State.loosenTlb; split <;> rfl
@[simp] theorem State.loosenTlb_dr : (s.loosenTlb).dr = s.dr := by unfold State.loosenTlb; split <;> rfl
@[simp] theorem State.loosenTlb_test : (s.loosenTlb).test = s.test := by unfold State.loosenTlb; split <;> rfl
@[simp] theorem State.loosenTlb_cpl : (s.loosenTlb).cpl = s.cpl := by unfold State.loosenTlb; split <;> rfl
@[simp] theorem State.loosenTlb_nmiLatch : (s.loosenTlb).nmiLatch = s.nmiLatch := by unfold State.loosenTlb; split <;> rfl
@[simp] theorem State.loosenTlb_inhibit : (s.loosenTlb).inhibit = s.inhibit := by unfold State.loosenTlb; split <;> rfl
@[simp] theorem State.loosenTlb_stiShadow : (s.loosenTlb).stiShadow = s.stiShadow := by unfold State.loosenTlb; split <;> rfl
@[simp] theorem State.loosenTlb_run : (s.loosenTlb).run = s.run := by unfold State.loosenTlb; split <;> rfl
@[simp] theorem State.loosenTlb_highLatch : (s.loosenTlb).highLatch = s.highLatch := by unfold State.loosenTlb; split <;> rfl
@[simp] theorem State.loosenTlb_pend : (s.loosenTlb).pend = s.pend := by unfold State.loosenTlb; split <;> rfl
@[simp] theorem State.loosenTlb_pins : (s.loosenTlb).pins = s.pins := by unfold State.loosenTlb; split <;> rfl
@[simp] theorem State.loosenTlb_env : (s.loosenTlb).env = s.env := by unfold State.loosenTlb; split <;> rfl
@[simp] theorem State.loosenTlb_hazard : (s.loosenTlb).hazard = s.hazard := by unfold State.loosenTlb; split <;> rfl
@[simp] theorem State.loosenTlb_dirty : (s.loosenTlb).dirty = s.dirty := by unfold State.loosenTlb; split <;> rfl
@[simp] theorem State.loosenTlb_io : (s.loosenTlb).io = s.io := by unfold State.loosenTlb; split <;> rfl
@[simp] theorem State.loosenTlb_plat : (s.loosenTlb).plat = s.plat := by unfold State.loosenTlb; split <;> rfl
@[simp] theorem State.loosenTlb_ended : (s.loosenTlb).ended = s.ended := by unfold State.loosenTlb; split <;> rfl
@[simp] theorem State.loosenTlb_mem : (s.loosenTlb).mem = s.mem := by unfold State.loosenTlb; split <;> rfl

/-! ### unknownTlb -/

@[simp] theorem State.unknownTlb_gpr : (s.unknownTlb).gpr = s.gpr := rfl
@[simp] theorem State.unknownTlb_eip : (s.unknownTlb).eip = s.eip := rfl
@[simp] theorem State.unknownTlb_eipNext : (s.unknownTlb).eipNext = s.eipNext := rfl
@[simp] theorem State.unknownTlb_eflags : (s.unknownTlb).eflags = s.eflags := rfl
@[simp] theorem State.unknownTlb_seg : (s.unknownTlb).seg = s.seg := rfl
@[simp] theorem State.unknownTlb_gdtr : (s.unknownTlb).gdtr = s.gdtr := rfl
@[simp] theorem State.unknownTlb_idtr : (s.unknownTlb).idtr = s.idtr := rfl
@[simp] theorem State.unknownTlb_ldtr : (s.unknownTlb).ldtr = s.ldtr := rfl
@[simp] theorem State.unknownTlb_tr : (s.unknownTlb).tr = s.tr := rfl
@[simp] theorem State.unknownTlb_cr : (s.unknownTlb).cr = s.cr := rfl
@[simp] theorem State.unknownTlb_dr : (s.unknownTlb).dr = s.dr := rfl
@[simp] theorem State.unknownTlb_test : (s.unknownTlb).test = s.test := rfl
@[simp] theorem State.unknownTlb_cpl : (s.unknownTlb).cpl = s.cpl := rfl
@[simp] theorem State.unknownTlb_nmiLatch : (s.unknownTlb).nmiLatch = s.nmiLatch := rfl
@[simp] theorem State.unknownTlb_inhibit : (s.unknownTlb).inhibit = s.inhibit := rfl
@[simp] theorem State.unknownTlb_stiShadow : (s.unknownTlb).stiShadow = s.stiShadow := rfl
@[simp] theorem State.unknownTlb_run : (s.unknownTlb).run = s.run := rfl
@[simp] theorem State.unknownTlb_highLatch : (s.unknownTlb).highLatch = s.highLatch := rfl
@[simp] theorem State.unknownTlb_pend : (s.unknownTlb).pend = s.pend := rfl
@[simp] theorem State.unknownTlb_pins : (s.unknownTlb).pins = s.pins := rfl
@[simp] theorem State.unknownTlb_env : (s.unknownTlb).env = s.env := rfl
@[simp] theorem State.unknownTlb_hazard : (s.unknownTlb).hazard = s.hazard := rfl
@[simp] theorem State.unknownTlb_dirty : (s.unknownTlb).dirty = s.dirty := rfl
@[simp] theorem State.unknownTlb_io : (s.unknownTlb).io = s.io := rfl
@[simp] theorem State.unknownTlb_plat : (s.unknownTlb).plat = s.plat := rfl
@[simp] theorem State.unknownTlb_ended : (s.unknownTlb).ended = s.ended := rfl
@[simp] theorem State.unknownTlb_mem : (s.unknownTlb).mem = s.mem := rfl

/-! ### setCr0 -/

@[simp] theorem State.setCr0_gpr (v : Word) : (s.setCr0 v).gpr = s.gpr := rfl
@[simp] theorem State.setCr0_eip (v : Word) : (s.setCr0 v).eip = s.eip := rfl
@[simp] theorem State.setCr0_eipNext (v : Word) : (s.setCr0 v).eipNext = s.eipNext := rfl
@[simp] theorem State.setCr0_eflags (v : Word) : (s.setCr0 v).eflags = s.eflags := rfl
@[simp] theorem State.setCr0_seg (v : Word) : (s.setCr0 v).seg = s.seg := rfl
@[simp] theorem State.setCr0_gdtr (v : Word) : (s.setCr0 v).gdtr = s.gdtr := rfl
@[simp] theorem State.setCr0_idtr (v : Word) : (s.setCr0 v).idtr = s.idtr := rfl
@[simp] theorem State.setCr0_ldtr (v : Word) : (s.setCr0 v).ldtr = s.ldtr := rfl
@[simp] theorem State.setCr0_tr (v : Word) : (s.setCr0 v).tr = s.tr := rfl
@[simp] theorem State.setCr0_dr (v : Word) : (s.setCr0 v).dr = s.dr := rfl
@[simp] theorem State.setCr0_test (v : Word) : (s.setCr0 v).test = s.test := rfl
@[simp] theorem State.setCr0_tlb (v : Word) : (s.setCr0 v).tlb = s.tlb := rfl
@[simp] theorem State.setCr0_nmiLatch (v : Word) : (s.setCr0 v).nmiLatch = s.nmiLatch := rfl
@[simp] theorem State.setCr0_inhibit (v : Word) : (s.setCr0 v).inhibit = s.inhibit := rfl
@[simp] theorem State.setCr0_stiShadow (v : Word) : (s.setCr0 v).stiShadow = s.stiShadow := rfl
@[simp] theorem State.setCr0_run (v : Word) : (s.setCr0 v).run = s.run := rfl
@[simp] theorem State.setCr0_highLatch (v : Word) : (s.setCr0 v).highLatch = s.highLatch := rfl
@[simp] theorem State.setCr0_pend (v : Word) : (s.setCr0 v).pend = s.pend := rfl
@[simp] theorem State.setCr0_pins (v : Word) : (s.setCr0 v).pins = s.pins := rfl
@[simp] theorem State.setCr0_env (v : Word) : (s.setCr0 v).env = s.env := rfl
@[simp] theorem State.setCr0_dirty (v : Word) : (s.setCr0 v).dirty = s.dirty := rfl
@[simp] theorem State.setCr0_draws (v : Word) : (s.setCr0 v).draws = s.draws := rfl
@[simp] theorem State.setCr0_io (v : Word) : (s.setCr0 v).io = s.io := rfl
@[simp] theorem State.setCr0_plat (v : Word) : (s.setCr0 v).plat = s.plat := rfl
@[simp] theorem State.setCr0_ended (v : Word) : (s.setCr0 v).ended = s.ended := rfl
@[simp] theorem State.setCr0_mem (v : Word) : (s.setCr0 v).mem = s.mem := rfl

/-! ### setCr3 -/

@[simp] theorem State.setCr3_gpr (v : Word) : (s.setCr3 v).gpr = s.gpr := rfl
@[simp] theorem State.setCr3_eip (v : Word) : (s.setCr3 v).eip = s.eip := rfl
@[simp] theorem State.setCr3_eipNext (v : Word) : (s.setCr3 v).eipNext = s.eipNext := rfl
@[simp] theorem State.setCr3_eflags (v : Word) : (s.setCr3 v).eflags = s.eflags := rfl
@[simp] theorem State.setCr3_seg (v : Word) : (s.setCr3 v).seg = s.seg := rfl
@[simp] theorem State.setCr3_gdtr (v : Word) : (s.setCr3 v).gdtr = s.gdtr := rfl
@[simp] theorem State.setCr3_idtr (v : Word) : (s.setCr3 v).idtr = s.idtr := rfl
@[simp] theorem State.setCr3_ldtr (v : Word) : (s.setCr3 v).ldtr = s.ldtr := rfl
@[simp] theorem State.setCr3_tr (v : Word) : (s.setCr3 v).tr = s.tr := rfl
@[simp] theorem State.setCr3_dr (v : Word) : (s.setCr3 v).dr = s.dr := rfl
@[simp] theorem State.setCr3_test (v : Word) : (s.setCr3 v).test = s.test := rfl
@[simp] theorem State.setCr3_cpl (v : Word) : (s.setCr3 v).cpl = s.cpl := rfl
@[simp] theorem State.setCr3_nmiLatch (v : Word) : (s.setCr3 v).nmiLatch = s.nmiLatch := rfl
@[simp] theorem State.setCr3_inhibit (v : Word) : (s.setCr3 v).inhibit = s.inhibit := rfl
@[simp] theorem State.setCr3_stiShadow (v : Word) : (s.setCr3 v).stiShadow = s.stiShadow := rfl
@[simp] theorem State.setCr3_run (v : Word) : (s.setCr3 v).run = s.run := rfl
@[simp] theorem State.setCr3_highLatch (v : Word) : (s.setCr3 v).highLatch = s.highLatch := rfl
@[simp] theorem State.setCr3_pend (v : Word) : (s.setCr3 v).pend = s.pend := rfl
@[simp] theorem State.setCr3_pins (v : Word) : (s.setCr3 v).pins = s.pins := rfl
@[simp] theorem State.setCr3_env (v : Word) : (s.setCr3 v).env = s.env := rfl
@[simp] theorem State.setCr3_hazard (v : Word) : (s.setCr3 v).hazard = s.hazard := rfl
@[simp] theorem State.setCr3_dirty (v : Word) : (s.setCr3 v).dirty = s.dirty := rfl
@[simp] theorem State.setCr3_draws (v : Word) : (s.setCr3 v).draws = s.draws := rfl
@[simp] theorem State.setCr3_io (v : Word) : (s.setCr3 v).io = s.io := rfl
@[simp] theorem State.setCr3_plat (v : Word) : (s.setCr3 v).plat = s.plat := rfl
@[simp] theorem State.setCr3_ended (v : Word) : (s.setCr3 v).ended = s.ended := rfl
@[simp] theorem State.setCr3_mem (v : Word) : (s.setCr3 v).mem = s.mem := rfl

/-! ### switchCr3 -/

@[simp] theorem State.switchCr3_gpr (v : Word) : (s.switchCr3 v).gpr = s.gpr := by unfold State.switchCr3; dsimp only; split <;> rfl
@[simp] theorem State.switchCr3_eip (v : Word) : (s.switchCr3 v).eip = s.eip := by unfold State.switchCr3; dsimp only; split <;> rfl
@[simp] theorem State.switchCr3_eipNext (v : Word) : (s.switchCr3 v).eipNext = s.eipNext := by unfold State.switchCr3; dsimp only; split <;> rfl
@[simp] theorem State.switchCr3_eflags (v : Word) : (s.switchCr3 v).eflags = s.eflags := by unfold State.switchCr3; dsimp only; split <;> rfl
@[simp] theorem State.switchCr3_seg (v : Word) : (s.switchCr3 v).seg = s.seg := by unfold State.switchCr3; dsimp only; split <;> rfl
@[simp] theorem State.switchCr3_gdtr (v : Word) : (s.switchCr3 v).gdtr = s.gdtr := by unfold State.switchCr3; dsimp only; split <;> rfl
@[simp] theorem State.switchCr3_idtr (v : Word) : (s.switchCr3 v).idtr = s.idtr := by unfold State.switchCr3; dsimp only; split <;> rfl
@[simp] theorem State.switchCr3_ldtr (v : Word) : (s.switchCr3 v).ldtr = s.ldtr := by unfold State.switchCr3; dsimp only; split <;> rfl
@[simp] theorem State.switchCr3_tr (v : Word) : (s.switchCr3 v).tr = s.tr := by unfold State.switchCr3; dsimp only; split <;> rfl
@[simp] theorem State.switchCr3_dr (v : Word) : (s.switchCr3 v).dr = s.dr := by unfold State.switchCr3; dsimp only; split <;> rfl
@[simp] theorem State.switchCr3_test (v : Word) : (s.switchCr3 v).test = s.test := by unfold State.switchCr3; dsimp only; split <;> rfl
@[simp] theorem State.switchCr3_cpl (v : Word) : (s.switchCr3 v).cpl = s.cpl := by unfold State.switchCr3; dsimp only; split <;> rfl
@[simp] theorem State.switchCr3_nmiLatch (v : Word) : (s.switchCr3 v).nmiLatch = s.nmiLatch := by unfold State.switchCr3; dsimp only; split <;> rfl
@[simp] theorem State.switchCr3_inhibit (v : Word) : (s.switchCr3 v).inhibit = s.inhibit := by unfold State.switchCr3; dsimp only; split <;> rfl
@[simp] theorem State.switchCr3_stiShadow (v : Word) : (s.switchCr3 v).stiShadow = s.stiShadow := by unfold State.switchCr3; dsimp only; split <;> rfl
@[simp] theorem State.switchCr3_run (v : Word) : (s.switchCr3 v).run = s.run := by unfold State.switchCr3; dsimp only; split <;> rfl
@[simp] theorem State.switchCr3_highLatch (v : Word) : (s.switchCr3 v).highLatch = s.highLatch := by unfold State.switchCr3; dsimp only; split <;> rfl
@[simp] theorem State.switchCr3_pend (v : Word) : (s.switchCr3 v).pend = s.pend := by unfold State.switchCr3; dsimp only; split <;> rfl
@[simp] theorem State.switchCr3_pins (v : Word) : (s.switchCr3 v).pins = s.pins := by unfold State.switchCr3; dsimp only; split <;> rfl
@[simp] theorem State.switchCr3_env (v : Word) : (s.switchCr3 v).env = s.env := by unfold State.switchCr3; dsimp only; split <;> rfl
@[simp] theorem State.switchCr3_hazard (v : Word) : (s.switchCr3 v).hazard = s.hazard := by unfold State.switchCr3; dsimp only; split <;> rfl
@[simp] theorem State.switchCr3_dirty (v : Word) : (s.switchCr3 v).dirty = s.dirty := by unfold State.switchCr3; dsimp only; split <;> rfl
@[simp] theorem State.switchCr3_draws (v : Word) : (s.switchCr3 v).draws = s.draws := by unfold State.switchCr3; dsimp only; split <;> rfl
@[simp] theorem State.switchCr3_io (v : Word) : (s.switchCr3 v).io = s.io := by unfold State.switchCr3; dsimp only; split <;> rfl
@[simp] theorem State.switchCr3_plat (v : Word) : (s.switchCr3 v).plat = s.plat := by unfold State.switchCr3; dsimp only; split <;> rfl
@[simp] theorem State.switchCr3_ended (v : Word) : (s.switchCr3 v).ended = s.ended := by unfold State.switchCr3; dsimp only; split <;> rfl
@[simp] theorem State.switchCr3_mem (v : Word) : (s.switchCr3 v).mem = s.mem := by unfold State.switchCr3; dsimp only; split <;> rfl

/-! ### busWrite -/

@[simp] theorem State.busWrite_gpr (a : Nat) (v : Byte) : (s.busWrite a v).gpr = s.gpr := by unfold State.busWrite; split <;> rfl
@[simp] theorem State.busWrite_eip (a : Nat) (v : Byte) : (s.busWrite a v).eip = s.eip := by unfold State.busWrite; split <;> rfl
@[simp] theorem State.busWrite_eipNext (a : Nat) (v : Byte) : (s.busWrite a v).eipNext = s.eipNext := by unfold State.busWrite; split <;> rfl
@[simp] theorem State.busWrite_eflags (a : Nat) (v : Byte) : (s.busWrite a v).eflags = s.eflags := by unfold State.busWrite; split <;> rfl
@[simp] theorem State.busWrite_seg (a : Nat) (v : Byte) : (s.busWrite a v).seg = s.seg := by unfold State.busWrite; split <;> rfl
@[simp] theorem State.busWrite_gdtr (a : Nat) (v : Byte) : (s.busWrite a v).gdtr = s.gdtr := by unfold State.busWrite; split <;> rfl
@[simp] theorem State.busWrite_idtr (a : Nat) (v : Byte) : (s.busWrite a v).idtr = s.idtr := by unfold State.busWrite; split <;> rfl
@[simp] theorem State.busWrite_ldtr (a : Nat) (v : Byte) : (s.busWrite a v).ldtr = s.ldtr := by unfold State.busWrite; split <;> rfl
@[simp] theorem State.busWrite_tr (a : Nat) (v : Byte) : (s.busWrite a v).tr = s.tr := by unfold State.busWrite; split <;> rfl
@[simp] theorem State.busWrite_cr (a : Nat) (v : Byte) : (s.busWrite a v).cr = s.cr := by unfold State.busWrite; split <;> rfl
@[simp] theorem State.busWrite_dr (a : Nat) (v : Byte) : (s.busWrite a v).dr = s.dr := by unfold State.busWrite; split <;> rfl
@[simp] theorem State.busWrite_test (a : Nat) (v : Byte) : (s.busWrite a v).test = s.test := by unfold State.busWrite; split <;> rfl
@[simp] theorem State.busWrite_tlb (a : Nat) (v : Byte) : (s.busWrite a v).tlb = s.tlb := by unfold State.busWrite; split <;> rfl
@[simp] theorem State.busWrite_cpl (a : Nat) (v : Byte) : (s.busWrite a v).cpl = s.cpl := by unfold State.busWrite; split <;> rfl
@[simp] theorem State.busWrite_nmiLatch (a : Nat) (v : Byte) : (s.busWrite a v).nmiLatch = s.nmiLatch := by unfold State.busWrite; split <;> rfl
@[simp] theorem State.busWrite_inhibit (a : Nat) (v : Byte) : (s.busWrite a v).inhibit = s.inhibit := by unfold State.busWrite; split <;> rfl
@[simp] theorem State.busWrite_stiShadow (a : Nat) (v : Byte) : (s.busWrite a v).stiShadow = s.stiShadow := by unfold State.busWrite; split <;> rfl
@[simp] theorem State.busWrite_run (a : Nat) (v : Byte) : (s.busWrite a v).run = s.run := by unfold State.busWrite; split <;> rfl
@[simp] theorem State.busWrite_highLatch (a : Nat) (v : Byte) : (s.busWrite a v).highLatch = s.highLatch := by unfold State.busWrite; split <;> rfl
@[simp] theorem State.busWrite_pend (a : Nat) (v : Byte) : (s.busWrite a v).pend = s.pend := by unfold State.busWrite; split <;> rfl
@[simp] theorem State.busWrite_pins (a : Nat) (v : Byte) : (s.busWrite a v).pins = s.pins := by unfold State.busWrite; split <;> rfl
@[simp] theorem State.busWrite_env (a : Nat) (v : Byte) : (s.busWrite a v).env = s.env := by unfold State.busWrite; split <;> rfl
@[simp] theorem State.busWrite_hazard (a : Nat) (v : Byte) : (s.busWrite a v).hazard = s.hazard := by unfold State.busWrite; split <;> rfl
@[simp] theorem State.busWrite_draws (a : Nat) (v : Byte) : (s.busWrite a v).draws = s.draws := by unfold State.busWrite; split <;> rfl
@[simp] theorem State.busWrite_io (a : Nat) (v : Byte) : (s.busWrite a v).io = s.io := by unfold State.busWrite; split <;> rfl
@[simp] theorem State.busWrite_plat (a : Nat) (v : Byte) : (s.busWrite a v).plat = s.plat := by unfold State.busWrite; split <;> rfl
@[simp] theorem State.busWrite_ended (a : Nat) (v : Byte) : (s.busWrite a v).ended = s.ended := by unfold State.busWrite; split <;> rfl

/-! ### stepped -/

@[simp] theorem State.stepped_gpr (b : Bool) : (s.stepped b).gpr = s.gpr := rfl
@[simp] theorem State.stepped_eip (b : Bool) : (s.stepped b).eip = s.eip := rfl
@[simp] theorem State.stepped_eipNext (b : Bool) : (s.stepped b).eipNext = s.eipNext := rfl
@[simp] theorem State.stepped_eflags (b : Bool) : (s.stepped b).eflags = s.eflags := rfl
@[simp] theorem State.stepped_seg (b : Bool) : (s.stepped b).seg = s.seg := rfl
@[simp] theorem State.stepped_gdtr (b : Bool) : (s.stepped b).gdtr = s.gdtr := rfl
@[simp] theorem State.stepped_idtr (b : Bool) : (s.stepped b).idtr = s.idtr := rfl
@[simp] theorem State.stepped_ldtr (b : Bool) : (s.stepped b).ldtr = s.ldtr := rfl
@[simp] theorem State.stepped_tr (b : Bool) : (s.stepped b).tr = s.tr := rfl
@[simp] theorem State.stepped_cr (b : Bool) : (s.stepped b).cr = s.cr := rfl
@[simp] theorem State.stepped_dr (b : Bool) : (s.stepped b).dr = s.dr := rfl
@[simp] theorem State.stepped_test (b : Bool) : (s.stepped b).test = s.test := rfl
@[simp] theorem State.stepped_tlb (b : Bool) : (s.stepped b).tlb = s.tlb := rfl
@[simp] theorem State.stepped_cpl (b : Bool) : (s.stepped b).cpl = s.cpl := rfl
@[simp] theorem State.stepped_nmiLatch (b : Bool) : (s.stepped b).nmiLatch = s.nmiLatch := rfl
@[simp] theorem State.stepped_inhibit (b : Bool) : (s.stepped b).inhibit = s.inhibit := rfl
@[simp] theorem State.stepped_stiShadow (b : Bool) : (s.stepped b).stiShadow = s.stiShadow := rfl
@[simp] theorem State.stepped_run (b : Bool) : (s.stepped b).run = s.run := rfl
@[simp] theorem State.stepped_highLatch (b : Bool) : (s.stepped b).highLatch = s.highLatch := rfl
@[simp] theorem State.stepped_pins (b : Bool) : (s.stepped b).pins = s.pins := rfl
@[simp] theorem State.stepped_env (b : Bool) : (s.stepped b).env = s.env := rfl
@[simp] theorem State.stepped_hazard (b : Bool) : (s.stepped b).hazard = s.hazard := rfl
@[simp] theorem State.stepped_dirty (b : Bool) : (s.stepped b).dirty = s.dirty := rfl
@[simp] theorem State.stepped_draws (b : Bool) : (s.stepped b).draws = s.draws := rfl
@[simp] theorem State.stepped_io (b : Bool) : (s.stepped b).io = s.io := rfl
@[simp] theorem State.stepped_plat (b : Bool) : (s.stepped b).plat = s.plat := rfl
@[simp] theorem State.stepped_mem (b : Bool) : (s.stepped b).mem = s.mem := rfl

/-! ### clearRf -/

@[simp] theorem State.clearRf_gpr : (s.clearRf).gpr = s.gpr := rfl
@[simp] theorem State.clearRf_eip : (s.clearRf).eip = s.eip := rfl
@[simp] theorem State.clearRf_eipNext : (s.clearRf).eipNext = s.eipNext := rfl
@[simp] theorem State.clearRf_seg : (s.clearRf).seg = s.seg := rfl
@[simp] theorem State.clearRf_gdtr : (s.clearRf).gdtr = s.gdtr := rfl
@[simp] theorem State.clearRf_idtr : (s.clearRf).idtr = s.idtr := rfl
@[simp] theorem State.clearRf_ldtr : (s.clearRf).ldtr = s.ldtr := rfl
@[simp] theorem State.clearRf_tr : (s.clearRf).tr = s.tr := rfl
@[simp] theorem State.clearRf_cr : (s.clearRf).cr = s.cr := rfl
@[simp] theorem State.clearRf_dr : (s.clearRf).dr = s.dr := rfl
@[simp] theorem State.clearRf_test : (s.clearRf).test = s.test := rfl
@[simp] theorem State.clearRf_tlb : (s.clearRf).tlb = s.tlb := rfl
@[simp] theorem State.clearRf_cpl : (s.clearRf).cpl = s.cpl := rfl
@[simp] theorem State.clearRf_nmiLatch : (s.clearRf).nmiLatch = s.nmiLatch := rfl
@[simp] theorem State.clearRf_inhibit : (s.clearRf).inhibit = s.inhibit := rfl
@[simp] theorem State.clearRf_stiShadow : (s.clearRf).stiShadow = s.stiShadow := rfl
@[simp] theorem State.clearRf_run : (s.clearRf).run = s.run := rfl
@[simp] theorem State.clearRf_highLatch : (s.clearRf).highLatch = s.highLatch := rfl
@[simp] theorem State.clearRf_pend : (s.clearRf).pend = s.pend := rfl
@[simp] theorem State.clearRf_pins : (s.clearRf).pins = s.pins := rfl
@[simp] theorem State.clearRf_env : (s.clearRf).env = s.env := rfl
@[simp] theorem State.clearRf_hazard : (s.clearRf).hazard = s.hazard := rfl
@[simp] theorem State.clearRf_dirty : (s.clearRf).dirty = s.dirty := rfl
@[simp] theorem State.clearRf_draws : (s.clearRf).draws = s.draws := rfl
@[simp] theorem State.clearRf_io : (s.clearRf).io = s.io := rfl
@[simp] theorem State.clearRf_plat : (s.clearRf).plat = s.plat := rfl
@[simp] theorem State.clearRf_ended : (s.clearRf).ended = s.ended := rfl
@[simp] theorem State.clearRf_mem : (s.clearRf).mem = s.mem := rfl

/-! ### fresh -/

@[simp] theorem State.fresh_gpr : (s.fresh).gpr = s.gpr := rfl
@[simp] theorem State.fresh_eip : (s.fresh).eip = s.eip := rfl
@[simp] theorem State.fresh_eipNext : (s.fresh).eipNext = s.eipNext := rfl
@[simp] theorem State.fresh_eflags : (s.fresh).eflags = s.eflags := rfl
@[simp] theorem State.fresh_seg : (s.fresh).seg = s.seg := rfl
@[simp] theorem State.fresh_gdtr : (s.fresh).gdtr = s.gdtr := rfl
@[simp] theorem State.fresh_idtr : (s.fresh).idtr = s.idtr := rfl
@[simp] theorem State.fresh_ldtr : (s.fresh).ldtr = s.ldtr := rfl
@[simp] theorem State.fresh_tr : (s.fresh).tr = s.tr := rfl
@[simp] theorem State.fresh_cr : (s.fresh).cr = s.cr := rfl
@[simp] theorem State.fresh_dr : (s.fresh).dr = s.dr := rfl
@[simp] theorem State.fresh_test : (s.fresh).test = s.test := rfl
@[simp] theorem State.fresh_tlb : (s.fresh).tlb = s.tlb := rfl
@[simp] theorem State.fresh_cpl : (s.fresh).cpl = s.cpl := rfl
@[simp] theorem State.fresh_nmiLatch : (s.fresh).nmiLatch = s.nmiLatch := rfl
@[simp] theorem State.fresh_inhibit : (s.fresh).inhibit = s.inhibit := rfl
@[simp] theorem State.fresh_stiShadow : (s.fresh).stiShadow = s.stiShadow := rfl
@[simp] theorem State.fresh_run : (s.fresh).run = s.run := rfl
@[simp] theorem State.fresh_highLatch : (s.fresh).highLatch = s.highLatch := rfl
@[simp] theorem State.fresh_pend : (s.fresh).pend = s.pend := rfl
@[simp] theorem State.fresh_pins : (s.fresh).pins = s.pins := rfl
@[simp] theorem State.fresh_env : (s.fresh).env = s.env := rfl
@[simp] theorem State.fresh_draws : (s.fresh).draws = s.draws := rfl
@[simp] theorem State.fresh_io : (s.fresh).io = s.io := rfl
@[simp] theorem State.fresh_plat : (s.fresh).plat = s.plat := rfl
@[simp] theorem State.fresh_ended : (s.fresh).ended = s.ended := rfl
@[simp] theorem State.fresh_mem : (s.fresh).mem = s.mem := rfl

/-! ### debugged -/

/-- A debug trap sets no bit but its own where the next instruction has no debug fault to report beside it (log entry
85). -/
theorem State.trapped_alone {s : State} (bt : Bool)
    (h : s.flag bitRF = true ∨ (s.codeHits true = 0 ∧ s.codeHits false = 0 ∧ s.generalDetect = false)) :
    s.trapped bt = s.debugged s.pend.hits s.pend.unarmed false s.pend.bs bt := by
  rcases h with h | ⟨h, k, g⟩
  · simp [State.trapped, State.besideTrap, h]
  · simp [State.trapped, State.besideTrap, h, k, g]

@[simp] theorem State.debugged_gpr (b o : BitVec 4) (bd bs bt : Bool) : (s.debugged b o bd bs bt).gpr = s.gpr := rfl
@[simp] theorem State.debugged_eip (b o : BitVec 4) (bd bs bt : Bool) : (s.debugged b o bd bs bt).eip = s.eip := rfl
@[simp] theorem State.debugged_eipNext (b o : BitVec 4) (bd bs bt : Bool) : (s.debugged b o bd bs bt).eipNext = s.eipNext := rfl
@[simp] theorem State.debugged_eflags (b o : BitVec 4) (bd bs bt : Bool) : (s.debugged b o bd bs bt).eflags = s.eflags := rfl
@[simp] theorem State.debugged_seg (b o : BitVec 4) (bd bs bt : Bool) : (s.debugged b o bd bs bt).seg = s.seg := rfl
@[simp] theorem State.debugged_gdtr (b o : BitVec 4) (bd bs bt : Bool) : (s.debugged b o bd bs bt).gdtr = s.gdtr := rfl
@[simp] theorem State.debugged_idtr (b o : BitVec 4) (bd bs bt : Bool) : (s.debugged b o bd bs bt).idtr = s.idtr := rfl
@[simp] theorem State.debugged_ldtr (b o : BitVec 4) (bd bs bt : Bool) : (s.debugged b o bd bs bt).ldtr = s.ldtr := rfl
@[simp] theorem State.debugged_tr (b o : BitVec 4) (bd bs bt : Bool) : (s.debugged b o bd bs bt).tr = s.tr := rfl
@[simp] theorem State.debugged_cr (b o : BitVec 4) (bd bs bt : Bool) : (s.debugged b o bd bs bt).cr = s.cr := rfl
@[simp] theorem State.debugged_test (b o : BitVec 4) (bd bs bt : Bool) : (s.debugged b o bd bs bt).test = s.test := rfl
@[simp] theorem State.debugged_tlb (b o : BitVec 4) (bd bs bt : Bool) : (s.debugged b o bd bs bt).tlb = s.tlb := rfl
@[simp] theorem State.debugged_cpl (b o : BitVec 4) (bd bs bt : Bool) : (s.debugged b o bd bs bt).cpl = s.cpl := rfl
@[simp] theorem State.debugged_nmiLatch (b o : BitVec 4) (bd bs bt : Bool) : (s.debugged b o bd bs bt).nmiLatch = s.nmiLatch := rfl
@[simp] theorem State.debugged_inhibit (b o : BitVec 4) (bd bs bt : Bool) : (s.debugged b o bd bs bt).inhibit = s.inhibit := rfl
@[simp] theorem State.debugged_stiShadow (b o : BitVec 4) (bd bs bt : Bool) : (s.debugged b o bd bs bt).stiShadow = false := rfl
@[simp] theorem State.debugged_highLatch (b o : BitVec 4) (bd bs bt : Bool) : (s.debugged b o bd bs bt).highLatch = s.highLatch := rfl
@[simp] theorem State.debugged_pins (b o : BitVec 4) (bd bs bt : Bool) : (s.debugged b o bd bs bt).pins = s.pins := rfl
@[simp] theorem State.debugged_env (b o : BitVec 4) (bd bs bt : Bool) : (s.debugged b o bd bs bt).env = s.env := rfl
@[simp] theorem State.debugged_hazard (b o : BitVec 4) (bd bs bt : Bool) : (s.debugged b o bd bs bt).hazard = s.hazard := rfl
@[simp] theorem State.debugged_dirty (b o : BitVec 4) (bd bs bt : Bool) : (s.debugged b o bd bs bt).dirty = s.dirty := rfl
@[simp] theorem State.debugged_io (b o : BitVec 4) (bd bs bt : Bool) : (s.debugged b o bd bs bt).io = s.io := rfl
@[simp] theorem State.debugged_plat (b o : BitVec 4) (bd bs bt : Bool) : (s.debugged b o bd bs bt).plat = s.plat := rfl
@[simp] theorem State.debugged_ended (b o : BitVec 4) (bd bs bt : Bool) : (s.debugged b o bd bs bt).ended = s.ended := rfl
@[simp] theorem State.debugged_mem (b o : BitVec 4) (bd bs bt : Bool) : (s.debugged b o bd bs bt).mem = s.mem := rfl

/-! ### What is set -/

@[simp] theorem State.reg_setReg (r : Reg) (v : Word) : (s.setReg r v).reg r = v := by cases r <;> rfl

theorem State.reg_setReg_ne (r q : Reg) (v : Word) (h : q ≠ r) : (s.setReg r v).reg q = s.reg q := by
  cases r <;> cases q <;> first | rfl | exact absurd rfl h

@[simp] theorem State.segOf_setSegOf (x : SegReg) (c : SegCache) : (s.setSegOf x c).segOf x = c := by
  cases x <;> rfl

theorem State.segOf_setSegOf_ne (x y : SegReg) (c : SegCache) (h : y ≠ x) :
    (s.setSegOf x c).segOf y = s.segOf y := by
  cases x <;> cases y <;> first | rfl | exact absurd rfl h

@[simp] theorem State.segOf_setReg (r : Reg) (v : Word) (x : SegReg) :
    (s.setReg r v).segOf x = s.segOf x := by cases r <;> cases x <;> rfl

@[simp] theorem State.reg_setSegOf (x : SegReg) (c : SegCache) (r : Reg) :
    (s.setSegOf x c).reg r = s.reg r := by cases x <;> cases r <;> rfl

@[simp] theorem State.clearRf_eflags : s.clearRf.eflags = setBit s.eflags bitRF false := rfl

@[simp] theorem State.stepped_pend (b : Bool) : (s.stepped b).pend = { s.pend with bs := b } := rfl

@[simp] theorem State.stepped_ended (b : Bool) : (s.stepped b).ended = .completed := rfl

@[simp] theorem State.fresh_dirty : s.fresh.dirty = [] := rfl

@[simp] theorem State.fresh_hazard : s.fresh.hazard = .none := rfl

@[simp] theorem State.setCr0_cr (v : Word) : (s.setCr0 v).cr = { s.cr with cr0 := v } := rfl

@[simp] theorem State.setCr3_cr (v : Word) : (s.setCr3 v).cr = { s.cr with cr3 := v, cr3Written := true } := rfl

@[simp] theorem State.moveSp_esp (k : Word) :
    (s.moveSp k).gpr.esp = stackSet (stackBig s.pe s.seg.ss) s.gpr.esp (s.gpr.esp + k) := rfl

@[simp] theorem State.switchCr3_cr (v : Word) : (s.switchCr3 v).cr = { s.cr with cr3 := v } := by
  unfold State.switchCr3; dsimp only; split <;> rfl

@[simp] theorem State.switchCr3_tlb (v : Word) :
    (s.switchCr3 v).tlb = if v = s.cr.cr3 then s.tlb else s.flushTlb.tlb := by
  unfold State.switchCr3; dsimp only; split <;> rfl

theorem State.storeRam_mem (a : Nat) (v : Byte) :
    (s.storeRam a v).mem = memSet s.mem (a % physSize) v := rfl

/-- A store where RAM answers. -/
theorem State.store_ram {a : Nat} (v : Byte) (h : s.kindAt a = .ram) : s.store a v = s.storeRam a v := by
  simp [State.store, h]

/-- A store where ROM answers changes nothing. -/
theorem State.store_rom {a : Nat} (v : Byte) (h : s.kindAt a = .rom) : s.store a v = s := by
  simp [State.store, h]

/-- A store where a device answers: the environment sees it. -/
theorem State.store_device {a : Nat} (v : Byte) (h : s.kindAt a = .device) :
    s.store a v = { s with io := .memWrite (a % physSize) v :: s.io } := by simp [State.store, h]

/-- Where RAM does not answer a store leaves memory as it was. -/
theorem State.store_mem_other {a : Nat} (v : Byte) (h : s.kindAt a ≠ .ram) :
    (s.store a v).mem = s.mem := by
  unfold State.store; split <;> simp_all

@[simp] theorem State.storeAll_nil (vs : List Byte) : s.storeAll [] vs = s := rfl

@[simp] theorem State.storeAll_nil_right (as : List Nat) : s.storeAll as [] = s := by
  cases as <;> rfl

@[simp] theorem State.storeAll_cons (a : Nat) (as : List Nat) (v : Byte) (vs : List Byte) :
    s.storeAll (a :: as) (v :: vs) = (s.store a v).storeAll as vs := rfl

end Sys2Proof.Machine
end

