-- ==== Sys2Proof/Laws/Monad.lean ====
section
/-! SUPPORT. How the computations of Machine/Memory.lean run, and how an instruction's run ends. -/

namespace Sys2Proof.Machine

variable {α β : Type} (s : State)

@[simp] theorem pure_run (a : α) : (pure a : M α) s = .ok a s := rfl

@[simp] theorem bind_run (m : M α) (f : α → M β) :
    (m >>= f) s = match m s with
      | .ok a s' => f a s'
      | .error e s' => .error e s' := by
  change EStateM.bind m f s = _
  unfold EStateM.bind
  cases m s <;> rfl

@[simp] theorem map_run (m : M α) (f : α → β) :
    (f <$> m) s = match m s with
      | .ok a s' => .ok (f a) s'
      | .error e s' => .error e s' := by
  change EStateM.map f m s = _
  unfold EStateM.map
  cases m s <;> rfl

/-- A computation after one that completed. -/
theorem bind_ok {s t : State} {m : M α} {a : α} {f : α → M β} (h : m s = .ok a t) :
    (m >>= f) s = f a t := by rw [bind_run, h]

/-- A computation after one that exited. -/
theorem bind_error {s t : State} {m : M α} {x : Exit} {f : α → M β} (h : m s = .error x t) :
    (m >>= f) s = .error x t := by rw [bind_run, h]

@[simp] theorem get_run : (get : M State) s = .ok s s := rfl

@[simp] theorem look_run (f : State → α) : look f s = .ok (f s) s := rfl

@[simp] theorem change_run (f : State → State) : change f s = .ok () (f s) := rfl

@[simp] theorem draw_run (f : Nat → α) :
    draw f s = .ok (f s.draws) { s with draws := s.draws + 1 } := rfl

@[simp] theorem raise_run (e : Exc) : (raise e : M α) s = .error (.exc e) s := rfl

@[simp] theorem refuse_run (r : Refusal) : (refuse r : M α) s = .error (.refuse r) s := rfl

@[simp] theorem require_run (b : Bool) (e : Exc) :
    require b e s = if b then .ok () s else .error (.exc e) s := by cases b <;> rfl

/-- A requirement that holds. -/
theorem require_ok {s : State} {b : Bool} {e : Exc} (h : b = true) : require b e s = .ok () s := by simp [h]

/-- A requirement that fails. -/
theorem require_error {s : State} {b : Bool} {e : Exc} (h : b = false) :
    require b e s = .error (.exc e) s := by simp [h]

/-- A requirement that was met: it holds and nothing changed. -/
theorem require_ok_iff {s t : State} {b : Bool} {e : Exc} {u : Unit} :
    require b e s = .ok u t ↔ b = true ∧ t = s := by
  cases b <;> simp [eq_comm]

/-- What a sequence that completed did. -/
theorem bind_error_iff {s t : State} {m : M α} {f : α → M β} {x : Exit} :
    (m >>= f) s = .error x t ↔ m s = .error x t ∨ ∃ a u, m s = .ok a u ∧ f a u = .error x t := by
  rw [bind_run]
  cases m s <;> simp

theorem bind_ok_iff {s t : State} {m : M α} {f : α → M β} {b : β} :
    (m >>= f) s = .ok b t ↔ ∃ a s1, m s = .ok a s1 ∧ f a s1 = .ok b t := by
  rw [bind_run]
  cases h : m s <;> simp

/-- What `retry` can have done: what its first computation did, or, where that raised an exception, what its second
did from the same state. -/
theorem retry_cases (b : Bool) (m m' : M α) (s : State) :
    retry b m m' s = m s ∨ (b = true ∧ (∃ e t, m s = .error (.exc e) t) ∧ retry b m m' s = m' s) := by
  unfold retry
  split
  · rename_i e t h
    cases b
    · exact .inl h.symm
    · exact .inr ⟨rfl, ⟨e, t, h⟩, rfl⟩
  · exact .inl rfl

/-- `retry` where the first computation raises an exception. -/
theorem retry_of_exc {b : Bool} {m m' : M α} {s t : State} {e : Exc} (h : m s = .error (.exc e) t) :
    retry b m m' s = if b then m' s else .error (.exc e) t := by
  unfold retry
  rw [h]

@[simp] theorem onlyIf_run (b : Bool) (m : M Unit) :
    onlyIf b m s = if b then m s else .ok () s := by cases b <;> rfl

@[simp] theorem listIf_run (b : Bool) (m : M (List α)) :
    listIf b m s = if b then m s else .ok [] s := by cases b <;> rfl

@[simp] theorem writeBytes_run (ps : List Nat) (bs : List Byte) :
    writeBytes ps bs s = .ok () (s.storeAll ps bs) := rfl

/-- What `run` answers when the body completes. -/
theorem run_ok {m : M Done} {d : Done} {s s' : State} (h : m s = .ok d s') :
    run m s = .next (complete (s.flag bitTF) d s') := by simp [run, h]

/-- What `run` answers when the body raises an exception. -/
theorem run_exc {m : M Done} {e : Exc} {s s' : State} (h : m s = .error (.exc e) s') :
    run m s = takeException e s' := by simp [run, h]

/-- Everything a run that answers a next state can have done: the body completed, or it raised an
exception and that exception's delivery is the next state. -/
theorem run_next_cases {m : M Done} {s t : State} (h : run m s = .next t) :
    (∃ d s', m s = .ok d s' ∧ t = complete (s.flag bitTF) d s') ∨
      (∃ e s', m s = .error (.exc e) s' ∧ takeException e s' = .next t) := by
  unfold run at h
  split at h
  · exact .inl ⟨_, _, ‹_›, by simpa using h.symm⟩
  · exact .inr ⟨_, _, ‹_›, h⟩
  · simp at h
  · simp at h

/-- Everything a delivery that answers a next state can have done (rules R550, R552, R557): the handler
is entered; or the delivery raised an exception, which is shutdown if the event is the double fault, and
else is delivered in its turn. -/
theorem deliverChain_next_cases {k : Nat} {ev : Event} {s t : State}
    (h : deliverChain (k + 1) ev s = .next t) :
    (∃ b s', deliver ev s = .ok b s' ∧ t = s'.fresh) ∨
      (∃ e s', deliver ev s = .error (.exc e) s' ∧
        ((ev.isDouble = true ∧ t = { s' with run := .shutdown, pend := .none }) ∨
          (ev.isDouble = false ∧
            deliverChain k (secondEvent ev e s'.eip) { s' with pend := .none } = .next t))) := by
  unfold deliverChain at h
  split at h
  · exact .inl ⟨_, _, ‹_›, by simpa using h.symm⟩
  · refine .inr ⟨_, _, ‹_›, ?_⟩
    cases hd : ev.isDouble
    · exact .inr ⟨rfl, by simpa [hd] using h⟩
    · exact .inl ⟨rfl, by simpa [hd] using h.symm⟩
  · simp at h
  · simp at h

/-! ### The end of an instruction, field by field -/

@[simp] theorem complete_next (tf : Bool) :
    complete tf .next s = { (s.stepped tf).clearRf with eip := s.eipNext } := rfl

@[simp] theorem complete_transfer (tf : Bool) :
    complete tf .transfer s = ((s.stepped tf).clearRf).fresh := rfl

@[simp] theorem complete_mem (tf : Bool) (d : Done) : (complete tf d s).mem = s.mem := by cases d <;> rfl

@[simp] theorem complete_gpr (tf : Bool) (d : Done) : (complete tf d s).gpr = s.gpr := by cases d <;> rfl

@[simp] theorem complete_seg (tf : Bool) (d : Done) : (complete tf d s).seg = s.seg := by cases d <;> rfl

@[simp] theorem complete_cr (tf : Bool) (d : Done) : (complete tf d s).cr = s.cr := by cases d <;> rfl

@[simp] theorem complete_tlb (tf : Bool) (d : Done) : (complete tf d s).tlb = s.tlb := by cases d <;> rfl

@[simp] theorem complete_cpl (tf : Bool) (d : Done) : (complete tf d s).cpl = s.cpl := by cases d <;> rfl

@[simp] theorem complete_ended (tf : Bool) (d : Done) : (complete tf d s).ended = .completed := by
  cases d <;> rfl

end Sys2Proof.Machine
end

