-- ==== Sys2Proof/Laws/Memory.lean ====
section
/-! SUPPORT. Physical memory: reading after writing, and the canonical form that every write keeps
(20_memory.md rule R80; Machine/Memory.lean). -/

namespace Sys2Proof.Machine

/-! ## Canonical form -/

/-- A canonical list stays canonical from any lower bound. -/
theorem wfFrom_mono {lo lo' : Nat} (h : lo ≤ lo') {m : List Host.Cell} (hm : Memory.wfFrom lo' m = true) :
    Memory.wfFrom lo m = true := by
  cases m with
  | nil => rfl
  | cons c r =>
    obtain ⟨k, v⟩ := c
    simp only [Memory.wfFrom, Bool.and_eq_true, decide_eq_true_eq] at hm ⊢
    exact ⟨⟨⟨by omega, hm.1.1.2⟩, hm.1.2⟩, hm.2⟩

/-- `memSet` keeps the canonical form. -/
theorem memSet_wfFrom (m : List Host.Cell) (lo a : Nat) (v : Byte) (ha : lo ≤ a) (hs : a < physSize)
    (hm : Memory.wfFrom lo m = true) : Memory.wfFrom lo (memSet m a v) = true := by
  induction m generalizing lo with
  | nil =>
    simp only [memSet]
    split
    · rfl
    · simp_all [Memory.wfFrom]
  | cons c r ih =>
    obtain ⟨k, w⟩ := c
    simp only [Memory.wfFrom, Bool.and_eq_true, decide_eq_true_eq, bne_iff_ne] at hm
    obtain ⟨⟨⟨h1, h2⟩, h3⟩, h4⟩ := hm
    simp only [memSet]
    split
    · split
      · simp only [Memory.wfFrom, Bool.and_eq_true, decide_eq_true_eq, bne_iff_ne]
        exact ⟨⟨⟨h1, h2⟩, h3⟩, h4⟩
      · simp only [Memory.wfFrom, Bool.and_eq_true, decide_eq_true_eq, bne_iff_ne]
        exact ⟨⟨⟨ha, hs⟩, ‹_›⟩, ⟨⟨by omega, h2⟩, h3⟩, h4⟩
    · split
      · split
        · exact wfFrom_mono (by omega) h4
        · simp only [Memory.wfFrom, Bool.and_eq_true, decide_eq_true_eq, bne_iff_ne]
          subst_vars
          exact ⟨⟨⟨ha, hs⟩, ‹_›⟩, h4⟩
      · simp only [Memory.wfFrom, Bool.and_eq_true, decide_eq_true_eq, bne_iff_ne]
        exact ⟨⟨⟨h1, h2⟩, h3⟩, ih (k + 1) (by omega) h4⟩

/-- Storing a byte in RAM keeps memory canonical. -/
theorem storeRam_wf (s : State) (a : Nat) (v : Byte) (h : Memory.wf s.mem = true) :
    Memory.wf (s.storeRam a v).mem = true :=
  memSet_wfFrom _ 0 _ _ (Nat.zero_le _) (Nat.mod_lt _ (by decide)) h

/-- Storing a byte keeps memory canonical. -/
theorem store_wf (s : State) (a : Nat) (v : Byte) (h : Memory.wf s.mem = true) :
    Memory.wf (s.store a v).mem = true := by
  unfold State.store
  split
  · exact storeRam_wf s a v h
  · exact h
  · exact h

/-- Storing bytes keeps memory canonical. -/
theorem storeAll_wf (s : State) (as : List Nat) (vs : List Byte) (h : Memory.wf s.mem = true) :
    Memory.wf (s.storeAll as vs).mem = true := by
  induction as generalizing s vs with
  | nil => simpa
  | cons a as ih =>
    cases vs with
    | nil => simpa
    | cons v vs => exact ih _ _ (store_wf s a v h)

/-- A write of another bus master keeps memory canonical. -/
theorem busWrite_wf (s : State) (a : Nat) (v : Byte) (h : Memory.wf s.mem = true) :
    Memory.wf (s.busWrite a v).mem = true := by
  unfold State.busWrite
  split
  · exact storeRam_wf s a v h
  · exact h

/-- The writes of other bus masters keep memory canonical. -/
theorem busWrites_wf (s : State) (ws : List Host.Cell) (h : Memory.wf s.mem = true) :
    Memory.wf (s.busWrites ws).mem = true := by
  induction ws generalizing s with
  | nil => simpa [State.busWrites]
  | cons w ws ih => exact ih _ (busWrite_wf s w.1 w.2 h)

/-- Memory after reset is canonical. -/
theorem reset_wf : Memory.wf State.reset.mem = true := rfl

/-! ## What answers at an address -/

/-- What answers depends on the map alone. -/
theorem kindAt_congr {s t : State} (h : t.plat = s.plat) (a : Nat) : t.kindAt a = s.kindAt a := by
  simp [State.kindAt, h]

theorem isDevice_congr {s t : State} (h : t.plat = s.plat) (a : Nat) : t.isDevice a = s.isDevice a := by
  simp [State.isDevice, kindAt_congr h]

@[simp] theorem kindAt_store (s : State) (a b : Nat) (v : Byte) : (s.store a v).kindAt b = s.kindAt b :=
  kindAt_congr (s.store_plat a v) b

@[simp] theorem kindAt_storeAll (s : State) (as : List Nat) (vs : List Byte) (b : Nat) :
    (s.storeAll as vs).kindAt b = s.kindAt b := kindAt_congr (s.storeAll_plat as vs) b

@[simp] theorem kindAt_mod (s : State) (a : Nat) : s.kindAt (a % physSize) = s.kindAt a := by
  simp [State.kindAt]

theorem isDevice_mod (s : State) (a : Nat) : s.isDevice (a % physSize) = s.isDevice a := by
  simp [State.isDevice]

/-- No device answers where RAM does. -/
theorem noDevice_of_inRam {s : State} {ps : List Nat} (h : s.inRam ps) : s.noDevice ps := fun a m => by
  simp [State.isDevice, h a m]

/-! ## Read after write -/

/-- Below the lower bound of a canonical list nothing is listed. -/
theorem memGet_below {lo a : Nat} (m : List Host.Cell) (h : Memory.wfFrom lo m = true) (ha : a < lo) :
    memGet m a = unlisted := by
  induction m generalizing lo with
  | nil => rfl
  | cons c r ih =>
    obtain ⟨k, v⟩ := c
    simp only [Memory.wfFrom, Bool.and_eq_true, decide_eq_true_eq] at h
    have hk : a ≠ k := by omega
    simp only [memGet, if_neg hk]
    exact ih h.2 (by omega)

/-- The byte just written is read back. -/
theorem memGet_memSet_same {lo : Nat} (m : List Host.Cell) (a : Nat) (v : Byte)
    (hm : Memory.wfFrom lo m = true) : memGet (memSet m a v) a = v := by
  induction m generalizing lo with
  | nil =>
    simp only [memSet]
    split
    · simp_all [memGet]
    · simp [memGet]
  | cons c r ih =>
    obtain ⟨k, w⟩ := c
    simp only [Memory.wfFrom, Bool.and_eq_true, decide_eq_true_eq] at hm
    simp only [memSet]
    split
    · split
      · have hk : a ≠ k := by omega
        simp only [memGet, if_neg hk]
        rw [memGet_below r hm.2 (by omega)]
        simp_all
      · simp [memGet]
    · split
      · split
        · rw [memGet_below r hm.2 (by omega)]
          simp_all
        · simp [memGet]
      · simp only [memGet]
        rw [if_neg ‹_›]
        exact ih hm.2

/-- Every other byte reads as before. -/
theorem memGet_memSet_ne {lo : Nat} (m : List Host.Cell) (a b : Nat) (v : Byte) (hb : b ≠ a)
    (hm : Memory.wfFrom lo m = true) : memGet (memSet m a v) b = memGet m b := by
  induction m generalizing lo with
  | nil =>
    simp only [memSet]
    split
    · rfl
    · simp [memGet, hb]
  | cons c r ih =>
    obtain ⟨k, w⟩ := c
    simp only [Memory.wfFrom, Bool.and_eq_true, decide_eq_true_eq] at hm
    simp only [memSet]
    split
    · split
      · rfl
      · simp [memGet, hb]
    · split
      · subst_vars
        split
        · simp [memGet, hb]
        · simp [memGet, hb]
      · simp only [memGet]
        rw [ih hm.2]

/-- Reading back a byte stored in RAM. -/
theorem byteAt_store_same (s : State) (a : Nat) (v : Byte) (k : s.kindAt a = .ram)
    (h : Memory.wf s.mem = true) : (s.store a v).byteAt a = v := by
  rw [s.store_ram v k]
  exact memGet_memSet_same _ _ _ h

/-- A store where RAM does not answer leaves every byte alone. -/
theorem byteAt_store_other (s : State) (a b : Nat) (v : Byte) (k : s.kindAt a ≠ .ram) :
    (s.store a v).byteAt b = s.byteAt b := by simp only [State.byteAt, s.store_mem_other v k]

/-- A store leaves every other byte alone. -/
theorem byteAt_store_ne (s : State) (a b : Nat) (v : Byte) (hb : b % physSize ≠ a % physSize)
    (h : Memory.wf s.mem = true) : (s.store a v).byteAt b = s.byteAt b := by
  by_cases k : s.kindAt a = .ram
  · rw [s.store_ram v k]
    exact memGet_memSet_ne _ _ _ _ hb h
  · exact byteAt_store_other s a b v k

/-- A store of several bytes leaves every byte outside them alone. -/
theorem byteAt_storeAll_out (s : State) (as : List Nat) (vs : List Byte) (b : Nat)
    (hb : ∀ a ∈ as, b % physSize ≠ a % physSize) (h : Memory.wf s.mem = true) :
    (s.storeAll as vs).byteAt b = s.byteAt b := by
  induction as generalizing s vs with
  | nil => simp
  | cons a as ih =>
    cases vs with
    | nil => simp
    | cons v vs =>
      rw [State.storeAll_cons, ih _ _ (fun x hx => hb x (List.mem_cons_of_mem a hx)) (store_wf s a v h)]
      exact byteAt_store_ne s a b v (hb a (List.mem_cons_self)) h

/-- Bytes stored at distinct addresses: each is read back where RAM answers, and where it does not what
stood there stands there still. -/
theorem byteAt_storeAll_in (s : State) (as : List Nat) (vs : List Byte)
    (hn : (as.map (· % physSize)).Nodup) (h : Memory.wf s.mem = true) (i a : Nat) (v : Byte)
    (ha : as[i]? = some a) (hv : vs[i]? = some v) :
    (s.storeAll as vs).byteAt a = if s.kindAt a = .ram then v else s.byteAt a := by
  induction as generalizing s vs i with
  | nil => simp at ha
  | cons x as ih =>
    cases vs with
    | nil => simp at hv
    | cons w vs =>
      simp only [List.map_cons, List.nodup_cons, List.mem_map, not_exists, not_and] at hn
      rw [State.storeAll_cons]
      cases i with
      | zero =>
        simp only [List.getElem?_cons_zero, Option.some.injEq] at ha hv
        subst ha hv
        rw [byteAt_storeAll_out _ _ _ _ (fun y hy e => hn.1 y hy e.symm) (store_wf s x w h)]
        split
        · exact byteAt_store_same s x w ‹_› h
        · exact byteAt_store_other s x x w ‹_›
      | succ i =>
        simp only [List.getElem?_cons_succ] at ha hv
        rw [ih _ _ hn.2 (store_wf s x w h) i ha hv, kindAt_store]
        congr 1
        exact byteAt_store_ne s x a w (hn.1 a (List.mem_of_getElem? ha)) h

/-- Bytes stored at distinct addresses of RAM are read back. -/
theorem bytesAt_storeAll (s : State) (as : List Nat) (vs : List Byte) (hl : as.length = vs.length)
    (hn : (as.map (· % physSize)).Nodup) (hr : s.inRam as) (h : Memory.wf s.mem = true) :
    (s.storeAll as vs).bytesAt as = vs := by
  apply List.ext_getElem?
  intro i
  by_cases hi : i < as.length
  · have hv : vs[i]? = some (vs[i]'(hl ▸ hi)) := List.getElem?_eq_getElem _
    have ha : as[i]? = some as[i] := List.getElem?_eq_getElem _
    rw [hv, State.bytesAt, List.getElem?_map, ha, Option.map_some,
      byteAt_storeAll_in s as vs hn h i _ _ ha hv, if_pos (hr _ (List.getElem_mem hi))]
  · rw [List.getElem?_eq_none (by simpa [State.bytesAt] using hi),
      List.getElem?_eq_none (by omega)]

/-! ## Reading -/

theorem DeviceIo.refl (s : State) : DeviceIo s s := ⟨[], rfl, rfl⟩

theorem DeviceIo.of_io {s t : State} (h : t.io = s.io) : DeviceIo s t := ⟨[], by simp [h], rfl⟩

theorem DeviceIo.trans {a b c : State} (p : b.plat = a.plat) (h : DeviceIo a b) (k : DeviceIo b c) :
    DeviceIo a c := by
  obtain ⟨es, e1, e2⟩ := h
  obtain ⟨fs, f1, f2⟩ := k
  refine ⟨fs ++ es, by rw [f1, e1, List.append_assoc], ?_⟩
  have : IoEvent.atDevice b = IoEvent.atDevice a := by
    funext e
    cases e <;> simp [IoEvent.atDevice, isDevice_congr p]
  rw [List.all_append, e2, ← this, f2]
  rfl

/-- One access where a device answers. -/
theorem DeviceIo.one {s t : State} {e : IoEvent} (h : t.io = e :: s.io) (he : e.atDevice s = true) :
    DeviceIo s t := ⟨[e], by simp [h], by simp [he]⟩

/-- Where no device answers, reading bytes gives what memory holds and changes nothing. -/
theorem readBytes_run {s : State} {ps : List Nat} (h : s.noDevice ps) :
    readBytes ps s = .ok (s.bytesAt ps) s := by
  induction ps with
  | nil => rfl
  | cons a as ih =>
    have ha := h a List.mem_cons_self
    have := ih fun x hx => h x (List.mem_cons_of_mem a hx)
    simp [readBytes, readByte, ha, this, State.bytesAt]

/-- What reading bytes can do: draw free values for those a device gives, which the environment sees; the
others are what memory holds. -/
theorem readBytes_ok (ps : List Nat) (s : State) :
    ∃ bs n io, readBytes ps s = .ok bs { s with draws := n, io := io } ∧
      DeviceIo s { s with draws := n, io := io } ∧ bs.length = ps.length ∧
      ∀ (i a : Nat), ps[i]? = some a → s.isDevice a = false → bs[i]? = some (s.byteAt a) := by
  induction ps generalizing s with
  | nil => exact ⟨[], s.draws, s.io, rfl, DeviceIo.refl s, rfl, by simp⟩
  | cons a as ih =>
    cases hd : s.isDevice a
    · obtain ⟨bs, n, io, h1, h2, h3, h4⟩ := ih s
      refine ⟨s.byteAt a :: bs, n, io, by simp [readBytes, readByte, hd, h1], h2, by simp [h3], ?_⟩
      intro i b hb hn
      cases i with
      | zero => simp_all
      | succ i => simpa using h4 i b (by simpa using hb) hn
    · let v := Config.deviceByte s.draws
      let s1 : State := { s with draws := s.draws + 1, io := .memRead (a % physSize) v :: s.io }
      obtain ⟨bs, n, io, h1, h2, h3, h4⟩ := ih s1
      have d1 : DeviceIo s s1 := DeviceIo.one rfl (by simpa [IoEvent.atDevice, isDevice_mod] using hd)
      have r1 : readByte a s = .ok v s1 := by simp [readByte, hd, v, s1]
      refine ⟨v :: bs, n, io, ?_, DeviceIo.trans (b := s1) rfl d1 h2, by simp [h3], ?_⟩
      · rw [readBytes, bind_ok r1, bind_ok h1]
        rfl
      · intro i b hb hn
        cases i with
        | zero => simp_all
        | succ i => exact h4 i b (by simpa using hb) hn

/-! ## Byte order -/

/-- The little-endian bytes of a doubleword give it back (rule R84). -/
theorem leWord_leBytes4 (v : Word) : leWord (leBytes 4 v) = v := by
  ext i hi
  simp only [leBytes, leWord]
  interval_cases i <;> simp

/-- As many bytes as asked for. -/
@[simp] theorem leBytes_length (n : Nat) (v : Word) : (leBytes n v).length = n := by
  induction n generalizing v with
  | zero => rfl
  | succ n ih => simp [leBytes, ih]

end Sys2Proof.Machine
end

