-- ==== Sys2Proof/Laws/Rel.lean ====
section
/-! SUPPORT. What a computation does to the state whichever way it ends, as a pair of relations on states:
said once for each shared operation, and used for every invariant and every frame. -/

namespace Sys2Proof.Machine

/-- What a computation may do: `r` where it completes, `e` where it exits early. -/
structure Rel where
  r : State → State → Prop
  e : State → State → Prop
  refl : ∀ s, r s s
  trans : ∀ {a b c}, r a b → r b c → r a c
  stop : ∀ s, e s s
  early : ∀ {a b c}, r a b → e b c → e a c

/-- The relation at a result. -/
def Rel.holds {α : Type} (R : Rel) (s : State) : EStateM.Result Exit State α → Prop
  | .ok _ t => R.r s t
  | .error _ t => R.e s t

/-- A computation does only what a relation allows. -/
def Does {α : Type} (R : Rel) (m : M α) : Prop := ∀ s, R.holds s (m s)

section
variable {α β : Type} {R : Rel}

theorem Does.ok {m : M α} (h : Does R m) {s s' : State} {a : α} (x : m s = .ok a s') : R.r s s' := by
  have := h s
  rwa [x] at this

theorem Does.error {m : M α} (h : Does R m) {s s' : State} {y : Exit} (x : m s = .error y s') :
    R.e s s' := by
  have := h s
  rwa [x] at this

theorem Does.pure (a : α) : Does R (Pure.pure a : M α) := fun s => R.refl s

theorem Does.bind {m : M α} {f : α → M β} (hm : Does R m) (hf : ∀ a, Does R (f a)) :
    Does R (m >>= f) := fun s => by
  rw [bind_run]
  cases h : m s with
  | ok a s' =>
    change R.holds s (f a s')
    cases k : f a s' with
    | ok b t => exact R.trans (hm.ok h) ((hf a).ok k)
    | error y t => exact R.early (hm.ok h) ((hf a).error k)
  | error e s' => exact hm.error h

theorem Does.get : Does R (MonadState.get : M State) := fun s => R.refl s

theorem Does.look (f : State → α) : Does R (Machine.look f) := fun s => R.refl s

theorem Does.change {f : State → State} (h : ∀ s, R.r s (f s)) : Does R (Machine.change f) := h

theorem Does.raise (e : Exc) : Does R (Machine.raise e : M α) := fun s => R.stop s

theorem Does.refuse (r : Refusal) : Does R (Machine.refuse r : M α) := fun s => R.stop s

theorem Does.require (b : Bool) (e : Exc) : Does R (Machine.require b e) := by
  cases b
  · exact Does.raise e
  · exact Does.pure ()

theorem Does.ite {c : Prop} [Decidable c] {a b : M α} (ha : Does R a) (hb : Does R b) :
    Does R (if c then a else b) := by
  split
  · exact ha
  · exact hb

theorem Does.onlyIf (b : Bool) {m : M Unit} (h : Does R m) : Does R (Machine.onlyIf b m) :=
  Does.ite h (Does.pure _)

theorem Does.retry (b : Bool) {m m' : M α} (h : Does R m) (h' : Does R m') : Does R (Machine.retry b m m') := by
  intro s
  have k := h s
  unfold Machine.retry
  split
  · split
    · exact h' s
    · simp_all
  · exact k

theorem Does.listIf (b : Bool) {m : M (List α)} (h : Does R m) : Does R (Machine.listIf b m) :=
  Does.ite h (Does.pure _)

end

/-! ## Reads -/

/-- What a relation must allow for every check, translation, table read and free value to respect it. -/
structure Reads (R : Rel) : Prop where
  draws : ∀ s n, R.r s { s with draws := n }
  cr2 : ∀ s v, R.e s { s with cr := { s.cr with cr2 := v } }
  drop : ∀ s i, R.r s { s with tlb := tlbWithout s.tlb i }
  io : ∀ (s : State) e, e.atDevice s = true → R.r s { s with io := e :: s.io }
  walk : ∀ lin w u s, s.pg = true → R.holds s (Machine.walk lin w u s)

section
variable {α : Type} {R : Rel} (A : Reads R)
include A

theorem Reads.draw (f : Nat → α) : Does R (Machine.draw f) := fun s => A.draws s (s.draws + 1)

omit A in
/-- Reading bytes, for a relation that allows draws and device accesses. -/
theorem Does.readBytesOf (draws : ∀ s n, R.r s { s with draws := n })
    (io : ∀ (s : State) e, e.atDevice s = true → R.r s { s with io := e :: s.io }) (ps : List Nat) :
    Does R (Machine.readBytes ps) := by
  intro s
  induction ps generalizing s with
  | nil => exact R.refl s
  | cons a as ih =>
    have tail : ∀ (b : Byte) (t : State), R.r s t →
        R.holds s ((do let bs ← Machine.readBytes as; Pure.pure (b :: bs) : M (List Byte)) t) := by
      intro b t r
      have h := ih t
      rw [bind_run]
      cases e : Machine.readBytes as t with
      | ok bs u => rw [e] at h; exact R.trans r h
      | error x u => rw [e] at h; exact R.early r h
    cases hd : s.isDevice a
    · have r1 : readByte a s = .ok (s.byteAt a) s := by simp [readByte, hd]
      rw [Machine.readBytes, bind_ok r1]
      exact tail _ _ (R.refl s)
    · let s1 : State := { s with draws := s.draws + 1 }
      let e : IoEvent := .memRead (a % physSize) (Config.deviceByte s.draws)
      have r1 : readByte a s = .ok (Config.deviceByte s.draws) { s1 with io := e :: s1.io } := by
        simp [readByte, hd, s1, e]
      rw [Machine.readBytes, bind_ok r1]
      refine tail _ _ (R.trans (draws s (s.draws + 1)) (io s1 e ?_))
      simp only [IoEvent.atDevice, e, isDevice_mod]
      exact hd

theorem Reads.readBytes (ps : List Nat) : Does R (Machine.readBytes ps) :=
  Does.readBytesOf A.draws A.io ps

theorem Reads.physRead (a : Word) (n : Nat) : Does R (Machine.physRead a n) :=
  Does.bind (A.readBytes _) fun _ => Does.pure _

theorem Reads.pageFault (lin : Word) (p w u : Bool) : Does R (Machine.pageFault lin p w u : M α) :=
  fun s => A.cr2 s lin

omit A in
theorem Rel.then {β : Type} {s t : State} (h : R.r s t) {x : EStateM.Result Exit State β}
    (k : R.holds t x) : R.holds s x := by
  cases x
  · exact R.trans h k
  · exact R.early h k

theorem Reads.byEntry (e : TlbEntry) (lin : Word) (w u : Bool) (s : State) (hp : s.pg = true) :
    R.holds s (Machine.byEntry e lin w u s) := by
  unfold Machine.byEntry
  split
  · exact A.pageFault _ _ _ _ s
  · split
    · exact A.walk _ _ _ s hp
    · exact R.refl s

theorem Reads.byEntries (lin : Word) (w u : Bool) (is : List Nat) (s : State) (hp : s.pg = true) :
    R.holds s (Machine.byEntries lin w u is s) := by
  induction is generalizing s with
  | nil => exact A.walk _ _ _ s hp
  | cons i is ih =>
    rw [Machine.byEntries, bind_ok (draw_run s _)]
    have d := A.draws s (s.draws + 1)
    cases Config.tlbKeeps s.draws
    · exact Rel.then (R.trans d (A.drop _ i)) (ih _ hp)
    · exact Rel.then d (A.byEntry _ lin w u _ hp)

theorem Reads.translate (lin : Word) (w u : Bool) : Does R (Machine.translate lin w u) := by
  intro s
  unfold Machine.translate
  simp only [bind_run, get_run]
  cases hp : s.pg
  · exact R.refl s
  simp only [Bool.not_true, Bool.false_eq_true, if_false]
  split
  · exact A.walk _ _ _ s hp
  · exact Rel.then (A.draws s (s.draws + 1)) (A.byEntries lin w u _ _ hp)

theorem Reads.translateRange (lin : Word) (n : Nat) (w u : Bool) :
    Does R (Machine.translateRange lin n w u) := by
  unfold Machine.translateRange
  refine Does.bind (A.translate _ _ _) fun p => ?_
  split
  · exact Does.pure _
  · exact Does.bind (A.translate _ _ _) fun q => Does.pure _

theorem Reads.sysRead (lin : Word) (n : Nat) : Does R (Machine.sysRead lin n) :=
  Does.bind (A.translateRange _ _ _ _) fun _ => Does.bind (A.readBytes _) fun _ => Does.pure _

omit A in
theorem Does.segCheck (x : SegReg) (off : Word) (n : Nat) (w : Bool) :
    Does R (Machine.segCheck x off n w) :=
  Does.bind Does.get fun _ => Does.bind (Does.require _ _) fun _ =>
    Does.bind (Does.require _ _) fun _ => Does.bind (Does.require _ _) fun _ => Does.require _ _

theorem Reads.segWindow (x : SegReg) (off : Word) (n : Nat) (w : Bool) :
    Does R (Machine.segWindow x off n w) :=
  Does.bind (Does.segCheck _ _ _ _) fun _ => Does.bind Does.get fun _ =>
    Does.bind (A.translateRange _ _ _ _) fun _ => Does.pure _

omit A in
theorem Does.stackRange (off : Word) (n : Nat) : Does R (Machine.stackRange off n) :=
  Does.bind Does.get fun _ => Does.require _ _

theorem Reads.pushWindows (b : Bool) (k : Word) (ns : List Nat) :
    Does R (Machine.pushWindows b k ns) := by
  induction ns generalizing k with
  | nil => exact Does.pure _
  | cons n ns ih =>
    exact Does.bind Does.get fun _ => Does.bind (A.segWindow _ _ _ _) fun _ =>
      Does.bind (ih _) fun _ => Does.pure _

theorem Reads.preparePushes (b : Bool) (ns : List Nat) : Does R (Machine.preparePushes b ns) :=
  Does.bind Does.get fun _ => Does.bind (Does.stackRange _ _) fun _ => A.pushWindows _ _ _

theorem Reads.memWindow (m : MemOp) (k : Word) (n : Nat) (w : Bool) :
    Does R (Machine.memWindow m k n w) := Does.bind Does.get fun _ => A.segWindow _ _ _ _

theorem Reads.readDesc (a : Word) : Does R (Machine.readDesc a) :=
  Does.bind (A.sysRead _ _) fun _ => Does.bind (A.sysRead _ _) fun _ => Does.pure _

theorem Reads.fetchDesc (sel : BitVec 16) : Does R (Machine.fetchDesc sel) := by
  unfold Machine.fetchDesc
  refine Does.bind Does.get fun s => ?_
  split
  · exact Does.pure _
  · exact Does.ite (Does.bind (A.readDesc _) fun _ => Does.pure _) (Does.pure _)

theorem Reads.fetchOr (sel : BitVec 16) (e : Exc) : Does R (Machine.fetchOr sel e) := by
  unfold Machine.fetchOr
  refine Does.bind (A.fetchDesc _) fun r => ?_
  split
  · exact Does.pure _
  · exact Does.raise _

omit A in
theorem Does.needTr : Does R Machine.needTr :=
  Does.bind Does.get fun _ => Does.ite (Does.pure _) (Does.refuse _)

theorem Reads.prepareA (d : Desc) : Does R (Machine.prepareA d) :=
  Does.ite (Does.pure _) (A.translateRange _ _ _ _)

theorem Reads.prepareLoad (d : Desc) : Does R (Machine.prepareLoad d) :=
  Does.bind (Does.look _) fun _ => Does.ite (Does.pure _)
    (Does.retry _ (A.translateRange _ _ _ _) (A.prepareA _))

theorem Reads.innerWindows (b : Bool) (c : SegCache) (p k : Word) (ns : List Nat) :
    Does R (Machine.innerWindows b c p k ns) := by
  induction ns generalizing k with
  | nil => exact Does.pure _
  | cons n ns ih =>
    exact Does.bind (A.translateRange _ _ _ _) fun _ => Does.bind (ih _) fun _ => Does.pure _

theorem Reads.innerStack (l : BitVec 2) (x : Bool) : Does R (Machine.innerStack l x) :=
  Does.bind Does.needTr fun _ => Does.bind Does.get fun _ => Does.bind (Does.require _ _) fun _ =>
    Does.bind (A.sysRead _ _) fun _ => Does.bind (A.sysRead _ _) fun _ => Does.bind (Does.require _ _) fun _ =>
    Does.bind (A.fetchOr _ _) fun _ => Does.bind (Does.require _ _) fun _ =>
    Does.bind (Does.require _ _) fun _ => Does.bind (Does.require _ _) fun _ =>
    Does.bind (Does.require _ _) fun _ => Does.pure _

theorem Reads.pushedSel (o : OpSize) (sel : BitVec 16) : Does R (Machine.pushedSel o sel) := by
  cases o with
  | w16 => exact Does.pure _
  | w32 => exact Does.bind (A.draw _) fun _ => Does.pure _

theorem Reads.pushedCode (c : ErrorCode) : Does R (Machine.pushedCode c) := by
  refine Does.bind (A.draw _) fun u => ?_
  cases c <;> exact Does.pure _

theorem Reads.returnSegment (sel : BitVec 16) : Does R (Machine.returnSegment sel) :=
  Does.bind (Does.look _) fun _ => Does.bind (Does.require _ _) fun _ =>
    Does.bind (Does.require _ _) fun _ => Does.bind (A.fetchOr _ _) fun _ =>
    Does.bind (Does.require _ _) fun _ => Does.bind (Does.require _ _) fun _ =>
    Does.bind (Does.require _ _) fun _ => Does.bind (Does.require _ _) fun _ => Does.pure _

theorem Reads.handlerSegment (sel : BitVec 16) (x : Bool) : Does R (Machine.handlerSegment sel x) :=
  Does.bind (Does.require _ _) fun _ => Does.bind (Does.look _) fun _ =>
    Does.bind (A.fetchOr _ _) fun _ => Does.bind (Does.require _ _) fun _ =>
    Does.bind (Does.require _ _) fun _ => Does.bind (Does.require _ _) fun _ => Does.pure _

end

/-! ## Accesses -/

/-- What a relation must allow besides for every access of an instruction to respect it: the pending debug traps
that a watched access records. -/
structure Access (R : Rel) : Prop extends Reads R where
  pend : ∀ s p, R.r s { s with pend := p }

section
variable {α : Type} {R : Rel} (A : Access R)
include A

theorem Access.noteHit (s : State) (x : Bool) (n : Nat) : R.r s (s.noteHit x n) := by
  unfold State.noteHit
  split
  · exact A.pend _ _
  · exact R.trans (A.draws s (s.draws + 1)) (A.pend _ _)

theorem Access.noteHits (x : Bool) (p : Nat → Bool) (ns : List Nat) (s : State) :
    R.r s (s.noteHits x p ns) := by
  induction ns generalizing s with
  | nil => exact R.refl s
  | cons n ns ih =>
    unfold State.noteHits
    split
    · exact R.trans (A.noteHit s _ _) (ih _)
    · exact ih s

theorem Access.noteAccess (s : State) (lin : Word) (k : Nat) (w : Bool) :
    R.r s (s.noteAccess lin k w) := R.trans (A.noteHits _ _ _ s) (A.pend _ _)

theorem Access.watched (s : State) (w : Win) (k : Bool) : R.r s (s.watched w k) := by
  unfold State.watched
  split
  · exact A.noteAccess _ _ _ _
  · exact R.refl s

theorem Access.winReadList (w : Win) : Does R w.readList :=
  Does.bind (Does.change fun s => A.watched s w false) fun _ => A.readBytes _

theorem Access.winRead (w : Win) : Does R w.read := Does.bind (A.winReadList w) fun _ => Does.pure _

theorem Access.segRead (x : SegReg) (off : Word) (n : Nat) : Does R (Machine.segRead x off n) :=
  Does.bind (A.segWindow _ _ _ _) fun w => A.winRead w

theorem Access.stackRead (k : Word) (n : Nat) : Does R (Machine.stackRead k n) :=
  Does.bind Does.get fun _ => A.segRead _ _ _

theorem Access.memRead (m : MemOp) (k : Word) (n : Nat) : Does R (Machine.memRead m k n) :=
  Does.bind (A.memWindow _ _ _ _) fun w => A.winRead w

theorem Access.readRm (o : OpSize) (rm : Rm) : Does R (Machine.readRm o rm) := by
  cases rm with
  | reg r => exact Does.look _
  | mem m => exact A.memRead _ _ _

theorem Access.readRm16 (rm : Rm) : Does R (Machine.readRm16 rm) :=
  Does.bind (A.readRm _ _) fun _ => Does.pure _

theorem Access.readFarPtr (o : OpSize) (m : MemOp) : Does R (Machine.readFarPtr o m) :=
  Does.bind (A.memRead _ _ _) fun _ => Does.bind Does.get fun _ => Does.bind (Does.require _ _) fun _ =>
    Does.bind (A.segRead _ _ _) fun _ => Does.pure _

end

/-! ## Writes -/

/-- What a relation must allow besides reads for every store to memory to respect it. -/
structure Writes (R : Rel) : Prop extends Reads R where
  store : ∀ s a v, R.r s (s.store a v)

section
variable {α : Type} {R : Rel} (A : Writes R)
include A

theorem Writes.storeAll (s : State) (as : List Nat) (vs : List Byte) : R.r s (s.storeAll as vs) := by
  induction as generalizing s vs with
  | nil => exact R.refl s
  | cons a as ih =>
    cases vs with
    | nil => exact R.refl s
    | cons v vs => exact R.trans (A.store s a v) (ih _ _)

theorem Writes.writeBytes (ps : List Nat) (bs : List Byte) : Does R (Machine.writeBytes ps bs) :=
  Does.change fun s => A.storeAll s ps bs

theorem Writes.physWrite (a : Word) (n : Nat) (v : Word) : Does R (Machine.physWrite a n v) :=
  A.writeBytes _ _

theorem Writes.sysWrite (lin : Word) (n : Nat) (v : Word) : Does R (Machine.sysWrite lin n v) :=
  Does.bind (A.translateRange _ _ _ _) fun _ => A.writeBytes _ _

theorem Writes.commitA (d : Desc) (ps : List Nat) : Does R (Machine.commitA d ps) :=
  Does.change fun s => by
    obtain ⟨qs, bs, -, e⟩ := s.markA_storeAll d ps
    rw [e]
    exact A.storeAll s qs bs

theorem Writes.setA (d : Desc) : Does R (Machine.setA d) :=
  Does.bind (A.prepareA _) fun _ => A.commitA _ _

theorem Writes.setLoaded (d : Desc) : Does R (Machine.setLoaded d) :=
  Does.bind (A.prepareLoad _) fun _ => A.commitA _ _

end

/-! ## Stores -/

/-- What a relation must allow for every access and every store of an instruction to respect it. -/
structure Stores (R : Rel) : Prop extends Access R, Writes R

section
variable {α : Type} {R : Rel} (A : Stores R)
include A

theorem Stores.putList (s : State) (w : Win) (bs : List Byte) : R.r s (s.putList w bs) :=
  R.trans (A.toAccess.watched s w true) (A.storeAll _ _ _)

theorem Stores.put (s : State) (w : Win) (v : Word) : R.r s (s.put w v) := A.putList s w _

theorem Stores.puts (ws : List Win) (vs : List Word) (s : State) : R.r s (s.puts ws vs) := by
  induction ws generalizing s vs with
  | nil => exact R.refl s
  | cons w ws ih =>
    cases vs with
    | nil => exact R.refl s
    | cons v vs => exact R.trans (A.put s w v) (ih _ _)

theorem Stores.winWriteList (w : Win) (bs : List Byte) : Does R (w.writeList bs) :=
  Does.change fun s => A.putList s w bs

theorem Stores.winWrite (w : Win) (v : Word) : Does R (w.write v) := Does.change fun s => A.put s w v

theorem Stores.writeWins (ws : List Win) (vs : List Word) : Does R (Machine.writeWins ws vs) :=
  Does.change fun s => A.puts ws vs s

theorem Stores.segWrite (x : SegReg) (off : Word) (n : Nat) (v : Word) :
    Does R (Machine.segWrite x off n v) :=
  Does.bind (A.toAccess.segWindow _ _ _ _) fun w => A.winWrite w v

omit A in
/-- A walk, for a relation that allows any store. -/
theorem Does.walkOf (draws : ∀ s n, R.r s { s with draws := n })
    (io : ∀ (s : State) e, e.atDevice s = true → R.r s { s with io := e :: s.io })
    (store : ∀ s a v, R.r s (s.store a v))
    (cr2 : ∀ s v, R.e s { s with cr := { s.cr with cr2 := v } })
    (fill : ∀ e : TlbEntry, e.v = true → e.known = true → Does R (fillTlb e)) (lin : Word) (w u : Bool) :
    Does R (Machine.walk lin w u) := by
  have all : ∀ (as : List Nat) (vs : List Byte) (s : State), R.r s (s.storeAll as vs) := by
    intro as
    induction as with
    | nil => intro vs s; exact R.refl s
    | cons a as ih =>
      intro vs s
      cases vs with
      | nil => exact R.refl s
      | cons v vs => exact R.trans (store s a v) (ih _ _)
  have fault : ∀ p, Does R (Machine.pageFault lin p w u : M Word) := fun p s => cr2 s lin
  have entry : ∀ a o n, Does R (Machine.updateEntry a o n) := fun a o n =>
    Does.ite (Does.pure _) (Does.change fun s => all _ _ s)
  have read : ∀ a, Does R (Machine.physRead a 4) := fun a =>
    Does.bind (Does.readBytesOf draws io _) fun _ => Does.pure _
  unfold Machine.walk
  refine Does.bind (Does.look _) fun cr3 => Does.bind (read _) fun pde => ?_
  refine Does.ite (fault _) (Does.bind (read _) fun pte => ?_)
  refine Does.ite (fault _) (Does.ite (fault _) ?_)
  refine Does.bind (fun s => draws s _) fun d6 => Does.bind (entry _ _ _) fun _ => ?_
  exact Does.bind (entry _ _ _) fun _ => Does.bind (fill _ rfl rfl) fun _ => Does.pure _

end

/-! ## Relations -/

/-- Memory stays in canonical form. -/
def keepsMem : Rel where
  r s t := MemOk s → MemOk t
  e s t := MemOk s → MemOk t
  refl _ h := h
  trans h k x := k (h x)
  stop _ h := h
  early h k x := k (h x)

/-- Filling the TLB does not touch memory. -/
theorem fillTlb_keepsMem (e : TlbEntry) : Does keepsMem (fillTlb e) := by
  unfold fillTlb
  exact Does.bind (fun s h => h) fun f =>
    Does.ite (Does.bind (fun s h => h) fun b => Does.change fun s h => h) (Does.pure _)

/-- Every access to memory keeps the canonical form. -/
theorem keepsMem_stores : Stores keepsMem where
  draws _ _ h := h
  pend _ _ h := h
  cr2 _ _ h := h
  drop _ _ h := h
  io _ _ _ h := h
  walk lin w u s _ := Does.walkOf (R := keepsMem) (fun _ _ h => h) (fun _ _ _ h => h) (fun s a v h => store_wf s a v h)
    (fun _ _ h => h) (fun e _ _ => fillTlb_keepsMem e) lin w u s
  store s a v h := store_wf s a v h

/-- No register, latch, pin or pending trap changes: memory, the TLB, the model's counters and what the environment
sees may; a page fault puts its address in CR2. -/
def memoryOnly : Rel where
  r s t := t = { s with mem := t.mem, dirty := t.dirty, tlb := t.tlb, draws := t.draws, io := t.io }
  e s t := t = { s with mem := t.mem, dirty := t.dirty, tlb := t.tlb, draws := t.draws, io := t.io,
                        cr := { s.cr with cr2 := t.cr.cr2 } }
  refl _ := rfl
  trans h k := by
    rw [k, h]
  stop _ := rfl
  early h k := by
    rw [k, h]

/-- A store changes memory alone. -/
theorem store_memoryOnly (s : State) (a : Nat) (v : Byte) : memoryOnly.r s (s.store a v) := by
  unfold State.store State.storeRam
  split <;> rfl

/-- Every check, translation, table read and store to memory changes no register and no pending trap. -/
theorem memoryOnly_writes : Writes memoryOnly where
  draws _ _ := rfl
  cr2 _ _ := rfl
  drop _ _ := rfl
  io _ _ _ := rfl
  walk lin w u s _ := Does.walkOf (R := memoryOnly) (fun _ _ => rfl) (fun _ _ _ => rfl) store_memoryOnly
    (fun _ _ => rfl)
    (fun e _ _ => by
      unfold fillTlb
      exact Does.bind (fun s => rfl) fun f =>
        Does.ite (Does.bind (fun s => rfl) fun b => Does.change fun s => rfl) (Does.pure _)) lin w u s
  store := store_memoryOnly

end Sys2Proof.Machine
end

