-- ==== Sys2Proof/Laws/ReadOnly.lean ====
section
/-! SUPPORT. Reading, checking and translating are `ReadOnly`: they touch no register, and no byte of
memory but the accessed and dirty bits of page tables. -/

namespace Sys2Proof.Machine

theorem Quiet.refl (s : State) : Quiet s s := ⟨rfl, DeviceIo.refl s⟩

theorem Quiet.trans {a b c : State} (h : Quiet a b) (k : Quiet b c) : Quiet a c := by
  have e : c = { a with mem := c.mem, dirty := c.dirty, tlb := c.tlb, draws := c.draws, pend := c.pend,
                        io := c.io } := by
    have k1 := k.1
    rw [h.1] at k1
    exact k1
  exact ⟨e, DeviceIo.trans (by rw [h.1]) h.2 k.2⟩

theorem Quiet.pg {s t : State} (h : Quiet s t) : t.pg = s.pg := by rw [h.1]; rfl

/-- A change of the model's own fields alone. -/
theorem Quiet.of_eq {s t : State}
    (h : t = { s with mem := t.mem, dirty := t.dirty, tlb := t.tlb, draws := t.draws, pend := t.pend }) :
    Quiet s t := by
  have io : t.io = s.io := by rw [h]
  refine ⟨?_, DeviceIo.of_io io⟩
  rw [io]
  exact h

theorem Quiet.gpr {s t : State} (h : Quiet s t) : t.gpr = s.gpr := by rw [h.1]
theorem Quiet.eip {s t : State} (h : Quiet s t) : t.eip = s.eip := by rw [h.1]
theorem Quiet.eipNext {s t : State} (h : Quiet s t) : t.eipNext = s.eipNext := by rw [h.1]
theorem Quiet.eflags {s t : State} (h : Quiet s t) : t.eflags = s.eflags := by rw [h.1]
theorem Quiet.seg {s t : State} (h : Quiet s t) : t.seg = s.seg := by rw [h.1]
theorem Quiet.gdtr {s t : State} (h : Quiet s t) : t.gdtr = s.gdtr := by rw [h.1]
theorem Quiet.idtr {s t : State} (h : Quiet s t) : t.idtr = s.idtr := by rw [h.1]
theorem Quiet.ldtr {s t : State} (h : Quiet s t) : t.ldtr = s.ldtr := by rw [h.1]
theorem Quiet.tr {s t : State} (h : Quiet s t) : t.tr = s.tr := by rw [h.1]
theorem Quiet.cr {s t : State} (h : Quiet s t) : t.cr = s.cr := by rw [h.1]
theorem Quiet.dr {s t : State} (h : Quiet s t) : t.dr = s.dr := by rw [h.1]
theorem Quiet.test {s t : State} (h : Quiet s t) : t.test = s.test := by rw [h.1]
theorem Quiet.cpl {s t : State} (h : Quiet s t) : t.cpl = s.cpl := by rw [h.1]
theorem Quiet.nmiLatch {s t : State} (h : Quiet s t) : t.nmiLatch = s.nmiLatch := by rw [h.1]
theorem Quiet.inhibit {s t : State} (h : Quiet s t) : t.inhibit = s.inhibit := by rw [h.1]
theorem Quiet.stiShadow {s t : State} (h : Quiet s t) : t.stiShadow = s.stiShadow := by rw [h.1]
theorem Quiet.run {s t : State} (h : Quiet s t) : t.run = s.run := by rw [h.1]
theorem Quiet.highLatch {s t : State} (h : Quiet s t) : t.highLatch = s.highLatch := by rw [h.1]
theorem Quiet.pins {s t : State} (h : Quiet s t) : t.pins = s.pins := by rw [h.1]
theorem Quiet.env {s t : State} (h : Quiet s t) : t.env = s.env := by rw [h.1]
theorem Quiet.hazard {s t : State} (h : Quiet s t) : t.hazard = s.hazard := by rw [h.1]
theorem Quiet.plat {s t : State} (h : Quiet s t) : t.plat = s.plat := by rw [h.1]
theorem Quiet.ended {s t : State} (h : Quiet s t) : t.ended = s.ended := by rw [h.1]
theorem Quiet.pe {s t : State} (h : Quiet s t) : t.pe = s.pe := by simp only [State.pe, h.cr]
theorem Quiet.level {s t : State} (h : Quiet s t) : t.level = s.level := by
  simp only [State.level, h.pe, h.cpl]
theorem Quiet.iopl {s t : State} (h : Quiet s t) : t.iopl = s.iopl := by simp only [State.iopl, h.eflags]
theorem Quiet.flag {s t : State} (h : Quiet s t) (k : Nat) : t.flag k = s.flag k := by
  simp only [State.flag, h.eflags]
theorem Quiet.reg {s t : State} (h : Quiet s t) (r : Reg) : t.reg r = s.reg r := by
  cases r <;> simp only [State.reg, h.gpr]
theorem Quiet.regSz {s t : State} (h : Quiet s t) (o : OpSize) (r : Reg) : t.regSz o r = s.regSz o r := by
  cases o <;> simp only [State.regSz, h.reg]
theorem Quiet.segOf {s t : State} (h : Quiet s t) (x : SegReg) : t.segOf x = s.segOf x := by
  cases x <;> simp only [State.segOf, h.seg]
theorem Quiet.stackAt {s t : State} (h : Quiet s t) (k : Word) : t.stackAt k = s.stackAt k := by
  simp only [State.stackAt, h.pe, h.seg, h.gpr]

/-- The level in protected mode is the record of CPL (rule R31). -/
theorem level_of_pe {s : State} (h : s.pe = true) : s.level = s.cpl := by simp [State.level, h]

theorem SameButTables.refl (s : State) : SameButTables s s := fun _ => ⟨rfl, fun _ => rfl⟩

theorem SameButTables.trans {a b c : State} (q : Quiet a b) (h : SameButTables a b)
    (k : SameButTables b c) : SameButTables a c := fun x =>
  ⟨(k x).1.trans (h x).1, fun y => ((k x).2 (by rwa [q.pg])).trans ((h x).2 y)⟩

theorem ReadOnly.refl (s : State) : ReadOnly s s := ⟨Quiet.refl s, fun h => ⟨h, SameButTables.refl s⟩⟩

theorem ReadOnly.trans {a b c : State} (h : ReadOnly a b) (k : ReadOnly b c) : ReadOnly a c :=
  ⟨h.1.trans k.1, fun m =>
    ⟨(k.2 (h.2 m).1).1, SameButTables.trans h.1 (h.2 m).2 (k.2 (h.2 m).1).2⟩⟩

/-- A change that leaves memory as it was. -/
theorem ReadOnly.ofMem {s t : State} (q : Quiet s t) (m : t.mem = s.mem) : ReadOnly s t :=
  ⟨q, fun h => ⟨by unfold MemOk; rwa [m], fun a => by
    have : t.byteAt a = s.byteAt a := by simp [State.byteAt, m]
    simp [this]⟩⟩

/-- The relation; an early end may leave CR2 changed too. -/
def readOnly : Rel where
  r := ReadOnly
  e s t := ReadOnly s { t with cr := { t.cr with cr2 := s.cr.cr2 } }
  refl := ReadOnly.refl
  trans h k := h.trans k
  stop s := ReadOnly.refl s
  early {a b c} h k := by
    have : b.cr.cr2 = a.cr.cr2 := by rw [h.1.1]
    rw [this] at k
    exact h.trans k

/-! ## Table entries -/

/-- Equal but for bits 5 and 6. -/
def Agree (v w : Word) : Prop := ∀ j, j ≠ 5 → j ≠ 6 → v.getLsbD j = w.getLsbD j

theorem Agree.symm {v w : Word} (h : Agree v w) : Agree w v := fun j a b => (h j a b).symm

theorem Agree.trans {u v w : Word} (h : Agree u v) (k : Agree v w) : Agree u w :=
  fun j a b => (h j a b).trans (k j a b)

/-- A doubleword agrees with what memory holds at an address, but for bits 5 and 6 and the bytes that a
device gives. -/
def AgreeAt (s : State) (a v : Word) : Prop :=
  ∀ i < 4, ∀ j < 8, s.isDevice (a.toNat + i) = false → 8 * i + j ≠ 5 → 8 * i + j ≠ 6 →
    v.getLsbD (8 * i + j) = (s.byteAt (a.toNat + i)).getLsbD j

theorem AgreeAt.change {s : State} {a v w : Word} (h : AgreeAt s a v) (k : Agree w v) : AgreeAt s a w :=
  fun i hi j hj d h5 h6 => (k _ h5 h6).trans (h i hi j hj d h5 h6)

theorem byteAt_mod (s : State) (a : Nat) : s.byteAt (a % physSize) = s.byteAt a := by simp [State.byteAt]

theorem physRange_four (a : Nat) : physRange a 4 =
    [(a + 0) % physSize, (a + 1) % physSize, (a + 2) % physSize, (a + 3) % physSize] := rfl

theorem physRange_get {a i : Nat} (hi : i < 4) : (physRange a 4)[i]? = some ((a + i) % physSize) := by
  rw [physRange_four]
  interval_cases i <;> rfl

/-- A bit of a doubleword in the byte it comes from. -/
theorem leWord_bit {bs : List Byte} {b : Byte} (hl : bs.length = 4) {i j : Nat} (hi : i < 4) (hj : j < 8)
    (hb : bs[i]? = some b) : (leWord bs).getLsbD (8 * i + j) = b.getLsbD j := by
  match bs, hl with
  | [b0, b1, b2, b3], _ =>
    simp only [leWord]
    interval_cases i <;> simp only [List.getElem?_cons_zero, List.getElem?_cons_succ,
      Option.some.injEq] at hb <;> subst hb <;> interval_cases j <;> simp

/-- What a doubleword read gives, and what it changes. -/
theorem physRead_ok (a : Word) (s : State) :
    ∃ v t, physRead a 4 s = .ok v t ∧ t = { s with draws := t.draws, io := t.io } ∧ DeviceIo s t ∧
      AgreeAt s a v := by
  obtain ⟨bs, n, io, h1, h2, h3, h4⟩ := readBytes_ok (physRange a.toNat 4) s
  refine ⟨leWord bs, _, by rw [physRead, bind_ok h1]; rfl, rfl, h2, fun i hi j hj d _ _ => ?_⟩
  have hb := h4 i _ (physRange_get hi) (by rw [isDevice_mod]; exact d)
  rw [byteAt_mod] at hb
  exact leWord_bit (by simpa [physRange] using h3) hi hj hb

/-- Where no device answers, a doubleword read gives what memory holds. -/
theorem physRead_run {s : State} {a : Word} (h : s.noDevice (physRange a.toNat 4)) :
    physRead a 4 s = .ok (s.dwordAt a) s := by
  rw [physRead, bind_ok (readBytes_run h)]
  rfl

/-- The bytes of a doubleword stored. -/
theorem byteAt_stored (s : State) (a : Word) (v : Word) (h : MemOk s) (i : Nat) (hi : i < 4) :
    (s.storeAll (physRange a.toNat 4) (leBytes 4 v)).byteAt (a.toNat + i) =
      if s.kindAt (a.toNat + i) = .ram then v.extractLsb' (8 * i) 8 else s.byteAt (a.toNat + i) := by
  have hn : ((physRange a.toNat 4).map (· % physSize)).Nodup := by
    have := a.isLt
    simp only [physRange_four, physSize, List.map_cons, List.map_nil, List.nodup_cons,
      List.mem_cons, List.not_mem_nil]
    simp only [or_false, not_or, not_false_eq_true, List.nodup_nil, and_true]
    omega
  have hv : (leBytes 4 v)[i]? = some (v.extractLsb' (8 * i) 8) := by
    simp only [leBytes]
    interval_cases i <;> simp only [List.getElem?_cons_zero, List.getElem?_cons_succ, Option.some.injEq]
    all_goals ext j hj; simp [← BitVec.shiftRight_add]
  have := byteAt_storeAll_in s _ _ hn h i _ _ (physRange_get hi) hv
  rwa [byteAt_mod, kindAt_mod, byteAt_mod] at this

theorem storeAll_deviceIo (s : State) (as : List Nat) (vs : List Byte) :
    DeviceIo s (s.storeAll as vs) := by
  induction as generalizing s vs with
  | nil => exact DeviceIo.refl s
  | cons a as ih =>
    cases vs with
    | nil => exact DeviceIo.refl s
    | cons v vs =>
      refine DeviceIo.trans (s.store_plat a v) ?_ (ih (s.store a v) vs)
      unfold State.store
      split
      · exact DeviceIo.refl s
      · exact DeviceIo.refl s
      · exact DeviceIo.one rfl (by simp [IoEvent.atDevice, State.isDevice, *])

theorem store_quiet (s : State) (a : Nat) (v : Byte) : Quiet s (s.store a v) := by
  refine ⟨?_, storeAll_deviceIo s [a] [v]⟩
  unfold State.store
  split <;> rfl

theorem storeAll_quiet (s : State) (as : List Nat) (vs : List Byte) : Quiet s (s.storeAll as vs) := by
  induction as generalizing s vs with
  | nil => exact Quiet.refl s
  | cons a as ih =>
    cases vs with
    | nil => exact Quiet.refl s
    | cons v vs => exact (store_quiet s a v).trans (ih _ _)

/-- Writing a table entry that differs from what stands there only in bits 5 and 6. -/
theorem storeEntry_readOnly (s : State) (a v : Word) (al : a.toNat % 4 = 0) (hp : s.pg = true)
    (hv : MemOk s → AgreeAt s a v) :
    ReadOnly s (s.storeAll (physRange a.toNat 4) (leBytes 4 v)) := by
  refine ⟨storeAll_quiet _ _ _, fun hm => ?_⟩
  refine ⟨storeAll_wf s _ _ hm, fun x => ?_⟩
  by_cases hx : x % physSize ∈ physRange a.toNat 4
  · obtain ⟨i, hi, e⟩ : ∃ i < 4, x % physSize = (a.toNat + i) % physSize := by
      simp only [physRange, List.mem_map, List.mem_range] at hx
      obtain ⟨i, hi, e⟩ := hx
      exact ⟨i, hi, e.symm⟩
    have base : ∀ t : State, t.byteAt x = t.byteAt (a.toNat + i) := fun t => by
      rw [← byteAt_mod, e, byteAt_mod]
    rw [base, base s, byteAt_stored s a v hm i hi]
    split
    · rename_i hk
      have bit : ∀ j < 8, 8 * i + j ≠ 5 → 8 * i + j ≠ 6 →
          (v.extractLsb' (8 * i) 8).getLsbD j = (s.byteAt (a.toNat + i)).getLsbD j := by
        intro j hj h5 h6
        rw [← hv hm i hi j hj (by simp [State.isDevice, hk]) h5 h6]
        simp [hj]
      have a32 := a.isLt
      have hx4 : x % 4 = i := by
        simp only [physSize] at e
        omega
      constructor
      · apply BitVec.eq_of_getLsbD_eq
        intro j hj
        simp only [BitVec.getLsbD_or]
        by_cases h5 : j = 5
        · subst h5; simp
        by_cases h6 : j = 6
        · subst h6; simp
        rw [bit j hj (by omega) (by omega)]
      · rintro (h | h)
        · apply BitVec.eq_of_getLsbD_eq
          intro j hj
          exact bit j hj (by omega) (by omega)
        · simp [hp] at h
    · exact ⟨rfl, fun _ => rfl⟩
  · have : (s.storeAll (physRange a.toNat 4) (leBytes 4 v)).byteAt x = s.byteAt x := by
      refine byteAt_storeAll_out _ _ _ _ (fun y hy e => hx ?_) hm
      have : y % physSize = y := by
        simp only [physRange, List.mem_map, List.mem_range] at hy
        obtain ⟨i, -, rfl⟩ := hy
        simp
      rw [this] at e
      rwa [e]
    simp [this]

/-- What agreed with memory at an aligned address still does after a read-only computation. -/
theorem AgreeAt.later {s t : State} {a v : Word} (h : ReadOnly s t) (hm : MemOk s) (al : a.toNat % 4 = 0)
    (k : AgreeAt s a v) : AgreeAt t a v := by
  intro i hi j hj d h5 h6
  rw [isDevice_congr h.1.plat] at d
  rw [k i hi j hj d h5 h6]
  have key := (h.2 hm).2 (a.toNat + i)
  by_cases hi0 : i = 0
  · have := congrArg (fun v => v.getLsbD j) key.1
    have n6 : (0x60#8).getLsbD j = false := by
      have : j = 0 ∨ j = 1 ∨ j = 2 ∨ j = 3 ∨ j = 4 ∨ j = 7 := by omega
      rcases this with rfl | rfl | rfl | rfl | rfl | rfl <;> rfl
    simpa [n6] using this.symm
  · rw [key.2 (.inl (by omega))]

/-- Writing back a table entry, some read-only steps after it was read. -/
theorem updateEntry_readOnly {s0 s s' : State} {a old new : Word} (h0 : ReadOnly s0 s)
    (al : a.toNat % 4 = 0) (hp : s0.pg = true) (ho : AgreeAt s0 a old) (hv : Agree new old)
    (h : updateEntry a old new s = .ok () s') : ReadOnly s0 s' := by
  unfold updateEntry at h
  split at h
  · cases h
    exact h0
  · simp only [physWrite, writeBytes_run] at h
    cases h
    refine ⟨h0.1.trans (storeAll_quiet _ _ _), fun hm => ?_⟩
    exact (h0.trans (storeEntry_readOnly s a new al (h0.1.pg.trans hp) fun _ =>
      (AgreeAt.later h0 hm al ho).change hv)).2 hm

/-- Writing back a table entry completes. -/
theorem updateEntry_ok (a old new : Word) (s : State) : ∃ t, updateEntry a old new s = .ok () t := by
  unfold updateEntry
  split
  · exact ⟨s, rfl⟩
  · exact ⟨_, rfl⟩

/-- A doubleword with bits 1 and 0 clear. -/
theorem aligned_of_bits {v : Word} (h0 : v.getLsbD 0 = false) (h1 : v.getLsbD 1 = false) :
    v.toNat % 4 = 0 := by
  simp only [BitVec.getLsbD, Nat.testBit_succ, Nat.testBit_zero, decide_eq_false_iff_not] at h0 h1
  omega

theorem tableSlot_bits (x : BitVec 10) (i : Nat) (hi : i < 2) : (x ++ 0#2).getLsbD i = false := by
  rw [BitVec.getLsbD_append]
  simp [hi]

theorem pdeAddr_aligned (cr3 lin : Word) : (pdeAddr cr3 lin).toNat % 4 = 0 :=
  aligned_of_bits (by simpa [pdeAddr] using tableSlot_bits _ 0 (by omega))
    (by simpa [pdeAddr] using tableSlot_bits _ 1 (by omega))

theorem pteAddr_aligned (pde lin : Word) : (pteAddr pde lin).toNat % 4 = 0 :=
  aligned_of_bits (by simpa [pteAddr] using tableSlot_bits _ 0 (by omega))
    (by simpa [pteAddr] using tableSlot_bits _ 1 (by omega))

theorem pde_agree (pde : Word) (b : Bool) : Agree (setBit (pde ||| 0x20#32) 6 b) pde := by
  intro j h5 h6
  by_cases hj : j < 32
  · cases b <;> interval_cases j <;> simp_all [setBit]
  · simp [Nat.le_of_not_lt hj]

theorem pte_agree (pte : Word) (w : Bool) :
    Agree (pte ||| 0x20#32 ||| (if w then 0x40#32 else 0)) pte := by
  intro j h5 h6
  by_cases hj : j < 32
  · cases w <;> interval_cases j <;> simp_all
  · simp [Nat.le_of_not_lt hj]

/-- Filling the TLB touches the TLB and the counter. -/
theorem fillTlb_readOnly (e : TlbEntry) : Does readOnly (fillTlb e) :=
  Does.bind (fun _ => ReadOnly.ofMem (Quiet.of_eq rfl) rfl) fun _ =>
    Does.ite (Does.bind (fun _ => ReadOnly.ofMem (Quiet.of_eq rfl) rfl) fun _ =>
      Does.change fun _ => ReadOnly.ofMem (Quiet.of_eq rfl) rfl) (Does.pure _)

/-- The end of a walk that found both entries, `s0` being the state before it: they are written back, the
translation is entered. -/
theorem walkEnd_readOnly (lin : Word) (w : Bool) (pde pte a b : Word) (s0 s : State) (h0 : ReadOnly s0 s)
    (hp : s0.pg = true) (al : a.toNat % 4 = 0) (bl : b.toNat % 4 = 0) (h1 : AgreeAt s0 a pde)
    (h2 : AgreeAt s0 b pte) (uu ww : Bool) :
    readOnly.holds s0 ((do
      let d6 ← draw Config.freeWord
      updateEntry a pde (setBit (pde ||| 0x20#32) 6 (d6.getLsbD 6))
      let pte' := pte ||| 0x20#32 ||| (if w then 0x40#32 else 0)
      updateEntry b pte pte'
      fillTlb { page := pageOf lin, v := true, d := pte'.getLsbD 6, u := uu, w := ww,
                phys := pte.extractLsb' 12 20, known := true }
      return frameAddr (pte.extractLsb' 12 20) lin : M Word) s) := by
  obtain ⟨s1, e1⟩ := updateEntry_ok a pde
    (setBit (pde ||| 0x20#32) 6 ((Config.freeWord s.draws).getLsbD 6)) { s with draws := s.draws + 1 }
  obtain ⟨s2, e2⟩ := updateEntry_ok b pte (pte ||| 0x20#32 ||| (if w then 0x40#32 else 0)) s1
  have r0 : ReadOnly s0 { s with draws := s.draws + 1 } :=
    h0.trans (ReadOnly.ofMem (Quiet.of_eq rfl) rfl)
  have r1 := updateEntry_readOnly r0 al hp h1 (pde_agree _ _) e1
  have r2 := updateEntry_readOnly r1 bl hp h2 (pte_agree _ _) e2
  rw [bind_ok (draw_run s _), bind_ok e1]
  rw [bind_ok e2]
  exact Rel.then r2 (Does.bind (fillTlb_readOnly _) (fun _ => Does.pure _) s2)

theorem pageFault_readOnly {α : Type} (lin : Word) (p w u : Bool) (s : State) :
    readOnly.holds s ((pageFault lin p w u : M α) s) := ReadOnly.refl s

/-- A read of a doubleword is read-only. -/
theorem read_readOnly {s t : State} (e : t = { s with draws := t.draws, io := t.io }) (h : DeviceIo s t) :
    ReadOnly s t := by
  refine ReadOnly.ofMem ⟨?_, h⟩ (by rw [e])
  rw [e]

/-- A walk writes nothing but accessed and dirty bits (rule R112). -/
theorem walk_readOnly (lin : Word) (w u : Bool) (s : State) (hp : s.pg = true) :
    readOnly.holds s (walk lin w u s) := by
  obtain ⟨pde, s1, p1, e1, d1, a1⟩ := physRead_ok (pdeAddr s.cr.cr3 lin) s
  have r1 := read_readOnly e1 d1
  obtain ⟨pte, s2, p2, e2, d2, a2⟩ := physRead_ok (pteAddr pde lin) s1
  have r2 := r1.trans (read_readOnly e2 d2)
  have a2 : AgreeAt s (pteAddr pde lin) pte := by
    intro i hi j hj d
    have := a2 i hi j hj
    rw [e1] at this
    exact this d
  unfold walk
  rw [bind_ok (look_run s _), bind_ok p1]
  split
  · exact Rel.then r1 (pageFault_readOnly _ _ _ _ _)
  rw [bind_ok p2]
  split
  · exact Rel.then r2 (pageFault_readOnly _ _ _ _ _)
  change readOnly.holds s ((if (!pageOk w u (pde.getLsbD 2 && pte.getLsbD 2)
    (pde.getLsbD 1 && pte.getLsbD 1)) = true then pageFault lin true w u else _ : M Word) s2)
  by_cases k : (!pageOk w u (pde.getLsbD 2 && pte.getLsbD 2) (pde.getLsbD 1 && pte.getLsbD 1)) = true
  · rw [if_pos k]
    exact Rel.then r2 (pageFault_readOnly _ _ _ _ _)
  rw [if_neg k]
  exact walkEnd_readOnly lin w pde pte _ _ s _ r2 hp (pdeAddr_aligned _ _) (pteAddr_aligned _ _) a1 a2 _ _

/-- Every read, check and translation is read-only. -/
theorem readOnly_access : Access readOnly where
  draws _ _ := ReadOnly.ofMem (Quiet.of_eq rfl) rfl
  pend _ _ := ReadOnly.ofMem (Quiet.of_eq rfl) rfl
  cr2 s _ := ReadOnly.refl s
  drop _ _ := ReadOnly.ofMem (Quiet.of_eq rfl) rfl
  io _ _ h := ReadOnly.ofMem ⟨rfl, DeviceIo.one rfl h⟩ rfl
  walk lin w u s h := walk_readOnly lin w u s h

end Sys2Proof.Machine
end

