-- ==== Sys2Proof/Laws/Accessed.lean ====
section
/-! SUPPORT. What accesses that store leave as it was: the stores of windows and descriptors, and how they
compose with reads. -/

namespace Sys2Proof.Machine

/-- A read-only computation, whatever else is stored to. -/
theorem Accessed.ofReadOnly {s t : State} (h : ReadOnly s t) (ps : List Nat) : Accessed ps s t :=
  ⟨h.1, fun m => ⟨(h.2 m).1, fun a _ => (h.2 m).2 a⟩⟩

theorem Accessed.refl (s : State) (ps : List Nat) : Accessed ps s s :=
  Accessed.ofReadOnly (ReadOnly.refl s) ps

/-- One access after another. -/
theorem Accessed.trans {ps : List Nat} {a b c : State} (h : Accessed ps a b) (k : Accessed ps b c) :
    Accessed ps a c :=
  ⟨h.1.trans k.1, fun m => ⟨(k.2 (h.2 m).1).1, fun x hx =>
    ⟨((k.2 (h.2 m).1).2 x hx).1.trans ((h.2 m).2 x hx).1, fun y =>
      (((k.2 (h.2 m).1).2 x hx).2 (by rwa [h.1.pg])).trans (((h.2 m).2 x hx).2 y)⟩⟩⟩

theorem Accessed.mono {ps qs : List Nat} {s t : State} (h : Accessed ps s t) (k : ps ⊆ qs) :
    Accessed qs s t :=
  ⟨h.1, fun m => ⟨(h.2 m).1, fun x hx => (h.2 m).2 x fun y => hx (k y)⟩⟩

/-- Bytes stored at physical addresses. -/
theorem storeAll_accessed {ps : List Nat} (hp : ∀ p ∈ ps, p < physSize) (s : State) (bs : List Byte) :
    Accessed ps s (s.storeAll ps bs) :=
  ⟨storeAll_quiet s ps bs, fun m => ⟨storeAll_wf s ps bs m, fun x hx => by
    have e : (s.storeAll ps bs).byteAt x = s.byteAt x :=
      byteAt_storeAll_out s ps bs x (fun a ha h => hx (by rw [h, Nat.mod_eq_of_lt (hp a ha)]; exact ha)) m
    simp [e]⟩⟩

theorem watched_readOnly (s : State) (w : Win) (k : Bool) : ReadOnly s (s.watched w k) :=
  readOnly_access.watched s w k

/-- A value stored in a window. -/
theorem putList_accessed {w : Win} (hp : ∀ p ∈ w.phys, p < physSize) (s : State) (bs : List Byte) :
    Accessed w.phys s (s.putList w bs) :=
  (Accessed.ofReadOnly (watched_readOnly s w true) _).trans (storeAll_accessed hp _ bs)

theorem put_accessed {w : Win} (hp : ∀ p ∈ w.phys, p < physSize) (s : State) (v : Word) :
    Accessed w.phys s (s.put w v) := putList_accessed hp s _

/-- Values stored in windows. -/
theorem puts_accessed {ws : List Win} (hp : ∀ w ∈ ws, ∀ p ∈ w.phys, p < physSize) (vs : List Word)
    (s : State) : Accessed (ws.flatMap (·.phys)) s (s.puts ws vs) := by
  induction ws generalizing s vs with
  | nil => exact Accessed.refl s _
  | cons w ws ih =>
    cases vs with
    | nil => exact Accessed.refl s _
    | cons v vs =>
      refine Accessed.trans ((put_accessed (hp w (List.mem_cons_self)) s v).mono ?_)
        ((ih (fun x hx => hp x (List.mem_cons_of_mem w hx)) vs _).mono ?_)
      · simp
      · simp

/-! ## The addresses of windows -/

theorem physRange_lt (a n : Nat) : ∀ p ∈ physRange a n, p < physSize := by
  intro p hp
  simp only [physRange, List.mem_map] at hp
  obtain ⟨i, -, rfl⟩ := hp
  exact Nat.mod_lt _ (by decide)

theorem forceHigh_lt (a : Nat) : forceHigh a < physSize := by
  unfold forceHigh physSize
  omega

@[simp] theorem physRange_length (a n : Nat) : (physRange a n).length = n := by simp [physRange]

/-- As many physical addresses as bytes, each in the space. -/
theorem translateRange_phys {lin : Word} {n : Nat} {w u : Bool} {s t : State} {ps : List Nat}
    (h : translateRange lin n w u s = .ok ps t) : (∀ p ∈ ps, p < physSize) ∧ ps.length = n := by
  unfold translateRange at h
  rw [bind_run] at h
  cases e : translate lin w u s with
  | error x s' => simp [e] at h
  | ok p s' =>
    simp only [e] at h
    split at h
    · cases h
      exact ⟨physRange_lt _ _, physRange_length _ _⟩
    · rw [bind_run] at h
      cases e' : translate (lin + BitVec.ofNat 32 (pageLeft lin)) w u s' with
      | error x s'' => simp [e'] at h
      | ok q s'' =>
        simp only [e'] at h
        cases h
        refine ⟨fun p hp => ?_, by simp; omega⟩
        rcases List.mem_append.mp hp with h | h
        · exact physRange_lt _ _ p h
        · exact physRange_lt _ _ p h

/-- A checked window has the length asked for and lies in the space. -/
theorem segWindow_phys {x : SegReg} {off : Word} {n : Nat} {k : Bool} {s t : State} {w : Win}
    (h : segWindow x off n k s = .ok w t) : (∀ p ∈ w.phys, p < physSize) ∧ w.phys.length = n ∧ w.n = n := by
  unfold segWindow at h
  rw [bind_run] at h
  cases e : segCheck x off n k s with
  | error y s' => simp [e] at h
  | ok _ s' =>
    simp only [e, bind_run, get_run] at h
    cases e' : translateRange ((s'.segOf x).base + off) n k s'.user s' with
    | error y s'' => simp [e'] at h
    | ok ps s'' =>
      simp only [e'] at h
      cases h
      have hp := translateRange_phys e'
      refine ⟨fun p hm => ?_, ?_, rfl⟩
      · dsimp only at hm
        split at hm
        · obtain ⟨q, -, rfl⟩ := List.mem_map.mp hm
          exact forceHigh_lt q
        · exact hp.1 p hm
      · dsimp only
        split
        · simp [hp.2]
        · exact hp.2

theorem memWindow_phys {m : MemOp} {k : Word} {n : Nat} {b : Bool} {s t : State} {w : Win}
    (h : memWindow m k n b s = .ok w t) : (∀ p ∈ w.phys, p < physSize) ∧ w.phys.length = n ∧ w.n = n :=
  segWindow_phys (x := m.seg) (off := s.offsetOf m k) (k := b) h

/-- The windows of pushes lie in the space, one for each size. -/
theorem pushWindows_phys {b : Bool} {k : Word} {ns : List Nat} {s t : State} {ws : List Win}
    (h : pushWindows b k ns s = .ok ws t) :
    (∀ w ∈ ws, ∀ p ∈ w.phys, p < physSize) ∧ ws.map (·.n) = ns := by
  induction ns generalizing k s ws with
  | nil => cases h; simp
  | cons n ns ih =>
    simp only [pushWindows, bind_run, get_run] at h
    cases e : segWindow .ss (s.stackAt (k - BitVec.ofNat 32 n)) n true s with
    | error y s' => simp [e] at h
    | ok w s' =>
      simp only [e] at h
      cases e' : pushWindows b (k - BitVec.ofNat 32 n) ns s' with
      | error y s'' => simp [e'] at h
      | ok vs s'' =>
        simp only [e'] at h
        cases h
        have hw := segWindow_phys e
        have hv := ih e'
        refine ⟨fun x hx => ?_, ?_⟩
        · rcases List.mem_cons.mp hx with rfl | hx
          · exact hw.1
          · exact hv.1 x hx
        · simp [hv.2, hw.2.2]

theorem preparePushes_phys {b : Bool} {ns : List Nat} {s t : State} {ws : List Win}
    (h : preparePushes b ns s = .ok ws t) :
    (∀ w ∈ ws, ∀ p ∈ w.phys, p < physSize) ∧ ws.map (·.n) = ns := by
  simp only [preparePushes, bind_run, get_run] at h
  cases e : stackRange (s.stackAt (-(BitVec.ofNat 32 ns.sum))) ns.sum s with
  | error y s' => simp [e] at h
  | ok _ s' =>
    simp only [e] at h
    exact pushWindows_phys h

/-- The addresses an accessed bit is written to lie in the space. -/
theorem prepareA_phys {d : Desc} {s t : State} {ps : List Nat} (h : prepareA d s = .ok ps t) :
    ∀ p ∈ ps, p < physSize := by
  unfold prepareA at h
  split at h
  · cases h; simp
  · exact (translateRange_phys h).1

/-- What the translation of a direct load's write of the accessed bit can have done (rules R97, R256, R257): nothing
where the bit is set; the bytes of `accessedSpan` translated; or, where those fault, byte 5 alone. -/
theorem prepareLoad_cases (d : Desc) (s : State) :
    (d.accessed = true ∧ prepareLoad d s = .ok [] s) ∨
      prepareLoad d s =
        translateRange (d.addr + (d.accessedSpan s.pg).1) (d.accessedSpan s.pg).2 true false s ∨
      (Config.accessedByteAlone = true ∧
        (∃ e t, translateRange (d.addr + (d.accessedSpan s.pg).1) (d.accessedSpan s.pg).2 true false s =
          .error (.exc e) t) ∧
        prepareLoad d s = prepareA d s) := by
  unfold prepareLoad
  rw [bind_ok (look_run _ _)]
  split
  · exact .inl ⟨‹_›, rfl⟩
  · exact .inr (retry_cases _ _ _ _)

/-- A direct load whose write of the doubleword at +4 faults: so does the load, with the doubleword's address in CR2
or, as the free choice has it, as the translation of byte 5 leaves it (log entry 56). -/
theorem prepareLoad_of_exc {d : Desc} {s t : State} {e : Exc} (hd : d.accessed = false)
    (h : translateRange (d.addr + (d.accessedSpan s.pg).1) (d.accessedSpan s.pg).2 true false s =
      .error (.exc e) t) :
    prepareLoad d s = if Config.accessedByteAlone then prepareA d s else .error (.exc e) t := by
  unfold prepareLoad
  rw [bind_ok (look_run _ _), if_neg (by simp [hd]), retry_of_exc h]

theorem prepareLoad_phys {d : Desc} {s t : State} {ps : List Nat} (h : prepareLoad d s = .ok ps t) :
    ∀ p ∈ ps, p < physSize := by
  rcases prepareLoad_cases d s with ⟨-, k⟩ | k | ⟨-, -, k⟩ <;> rw [k] at h
  · cases h; simp
  · exact (translateRange_phys h).1
  · exact prepareA_phys h

theorem markA_accessed {ps : List Nat} (hp : ∀ p ∈ ps, p < physSize) (s : State) (d : Desc) :
    Accessed ps s (s.markA d ps) := by
  obtain ⟨qs, bs, h, e⟩ := s.markA_storeAll d ps
  rw [e]
  exact (storeAll_accessed (fun p k => hp p (h k)) s bs).mono h

/-- The windows of an inner stack lie in the space. -/
theorem innerWindows_phys {b : Bool} {c : SegCache} {e k : Word} {ns : List Nat} {s t : State} {ws : List Win}
    (h : innerWindows b c e k ns s = .ok ws t) : ∀ w ∈ ws, ∀ p ∈ w.phys, p < physSize := by
  induction ns generalizing k s ws with
  | nil => cases h; simp
  | cons n ns ih =>
    simp only [innerWindows, bind_run] at h
    cases e1 : translateRange (c.base + stackOff c.big (e + (k - BitVec.ofNat 32 n))) n true false s with
    | error y s' => simp [e1] at h
    | ok ps s' =>
      simp only [e1] at h
      cases e2 : innerWindows b c e (k - BitVec.ofNat 32 n) ns s' with
      | error y s'' => simp [e2] at h
      | ok vs s'' =>
        simp only [e2] at h
        cases h
        intro x hx
        rcases List.mem_cons.mp hx with rfl | hx
        · exact (translateRange_phys e1).1
        · exact ih e2 x hx

end Sys2Proof.Machine
end

