-- ==== Sys2Proof/Laws/Ops.lean ====
section
/-! SUPPORT. What each shared operation has done when it completes: its checks held, and the state it leaves. -/

namespace Sys2Proof.Machine

/-! ## Addresses without paging -/

/-- Without paging a linear address is a physical address (rule R110). -/
theorem translate_off {s : State} (h : s.pg = false) (lin : Word) (w u : Bool) :
    translate lin w u s = .ok lin s := by
  simp [translate, h]

/-- Two ranges, one after the other, are one. -/
theorem physRange_append (a k n : Nat) :
    physRange a k ++ physRange (a + k) n = physRange a (k + n) := by
  simp only [physRange, List.range_add, List.map_append, List.map_map]
  congr 1
  apply List.map_congr_left
  intro i _
  simp [Nat.add_assoc]

theorem physRange_mod (a n : Nat) : physRange (a % physSize) n = physRange a n := by
  simp only [physRange]
  apply List.map_congr_left
  intro i _
  simp

/-- Without paging an access lies at consecutive physical addresses (rules R110, R111). -/
theorem translateRange_off {s : State} (h : s.pg = false) (lin : Word) (n : Nat) (w u : Bool) :
    translateRange lin n w u s = .ok (physRange lin.toNat n) s := by
  unfold translateRange
  rw [bind_ok (translate_off h lin w u)]
  split
  · rfl
  · rw [bind_ok (translate_off h _ w u)]
    have hl : pageLeft lin < 2 ^ 32 := by
      unfold pageLeft
      omega
    have e : (lin + BitVec.ofNat 32 (pageLeft lin)).toNat = (lin.toNat + pageLeft lin) % physSize := by
      simp [BitVec.toNat_add, physSize]
    have hn : pageLeft lin + (n - pageLeft lin) = n := by omega
    rw [e, physRange_mod, physRange_append, hn]
    rfl

/-- Without paging, and where no device answers, a system read is the bytes at its address (rules R12, R84). -/
theorem sysRead_off {s : State} (h : s.pg = false) {lin : Word} {n : Nat}
    (hd : s.noDevice (physRange lin.toNat n)) :
    sysRead lin n s = .ok (leWord (s.bytesAt (physRange lin.toNat n))) s := by
  unfold sysRead
  rw [bind_ok (translateRange_off h _ _ _ _), bind_ok (readBytes_run hd)]
  rfl

/-- Without paging, and where no device answers, a descriptor is the two doublewords at its address (rule
R102). -/
theorem readDesc_off {s : State} (h : s.pg = false) {a : Word} (h0 : s.noDevice (physRange a.toNat 4))
    (h1 : s.noDevice (physRange (a + 4).toNat 4)) :
    readDesc a s = .ok { d0 := s.dwordAt a, d1 := s.dwordAt (a + 4), addr := a } s := by
  unfold readDesc
  rw [bind_ok (sysRead_off h h0), bind_ok (sysRead_off h h1)]
  rfl

/-! ## Segmented accesses -/

/-- The checks of an access that were met (rules R149, R150, R152). -/
theorem segCheck_ok {x : SegReg} {off : Word} {n : Nat} {w : Bool} {s t : State} {u : Unit}
    (h : segCheck x off n w s = .ok u t) :
    t = s ∧ limitOk (s.segOf x) off n = true ∧
      (s.pe = true → (s.segOf x).valid = true ∧
        (w = true → (s.segOf x).exec = false ∧ (s.segOf x).wr = true) ∧
        (w = false → (s.segOf x).exec = true → (s.segOf x).wr = true)) := by
  simp only [segCheck, bind_ok_iff, get_run, EStateM.Result.ok.injEq, require_ok_iff] at h
  obtain ⟨a, s0, ⟨rfl, rfl⟩, -, s1, ⟨h1, rfl⟩, -, s2, ⟨h2, rfl⟩, -, s3, ⟨h3, rfl⟩, h4, rfl⟩ := h
  refine ⟨rfl, h4, fun hp => ?_⟩
  simp only [hp, Bool.not_true, Bool.false_or] at h1 h2 h3
  refine ⟨h1, fun hw => ?_, fun hw hx => ?_⟩
  · simpa [hw] using h2
  · simpa [hw, hx] using h3

/-- A window that was opened: the checks held and the range was translated (rules R104, R110). -/
theorem segWindow_ok {x : SegReg} {off : Word} {n : Nat} {k : Bool} {s t : State} {w : Win}
    (h : segWindow x off n k s = .ok w t) :
    segCheck x off n k s = .ok () s ∧ w.lin = (s.segOf x).base + off ∧ w.n = n ∧ w.watch = true ∧
      ∃ ps, translateRange w.lin n k s.user s = .ok ps t ∧
        w.phys = if s.highLatch && x == .cs then ps.map forceHigh else ps := by
  simp only [segWindow, bind_ok_iff, get_run] at h
  obtain ⟨u, s0, h0, a, s1, h1, ps, s2, h2, h3⟩ := h
  obtain ⟨rfl, -⟩ := segCheck_ok h0
  cases h1
  cases h3
  exact ⟨h0, rfl, rfl, rfl, ps, h2, rfl⟩

/-- A push that completed (rule R216). -/
theorem push_ok {n : Nat} {v : Word} {s t : State} (h : push n v s = .ok () t) :
    ∃ w s1, preparePushes true [n] s = .ok [w] s1 ∧
      t = (s1.put w v).moveSp (-(BitVec.ofNat 32 n)) := by
  simp only [push, bind_ok_iff, writeWins, change_run] at h
  obtain ⟨ws, s1, h1, u, s2, h2, h3⟩ := h
  have hl := congrArg List.length (preparePushes_phys h1).2
  obtain ⟨w, rfl⟩ : ∃ w, ws = [w] := List.length_eq_one_iff.mp (by simpa using hl)
  cases h2
  cases h3
  exact ⟨w, s1, h1, rfl⟩

/-! ## Descriptors -/

/-- A descriptor that was found lies inside its table (rule R102). -/
theorem fetchDesc_some {sel : BitVec 16} {d : Desc} {s t : State}
    (h : fetchDesc sel s = .ok (some d) t) :
    ∃ base limit, s.tableOf sel = some (base, limit) ∧ (tableOff sel).toNat + 7 ≤ limit ∧
      readDesc (base + tableOff sel) s = .ok d t := by
  simp only [fetchDesc, bind_run, get_run] at h
  cases e : s.tableOf sel with
  | none => simp [e] at h
  | some p =>
    obtain ⟨base, limit⟩ := p
    simp only [e] at h
    split at h
    · simp only [bind_ok_iff] at h
      obtain ⟨d', s1, h1, h2⟩ := h
      cases h2
      exact ⟨base, limit, rfl, ‹_›, h1⟩
    · simp at h

/-- A descriptor that an exception guards was found. -/
theorem fetchOr_ok {sel : BitVec 16} {e : Exc} {d : Desc} {s t : State} (h : fetchOr sel e s = .ok d t) :
    fetchDesc sel s = .ok (some d) t := by
  simp only [fetchOr, bind_ok_iff] at h
  obtain ⟨r, s1, h1, h2⟩ := h
  cases r with
  | none => simp at h2
  | some d' => cases h2; exact h1

theorem fetchOr_of_some {sel : BitVec 16} {e : Exc} {d : Desc} {s t : State}
    (h : fetchDesc sel s = .ok (some d) t) : fetchOr sel e s = .ok d t := by
  simp [fetchOr, h]

theorem fetchOr_of_none {sel : BitVec 16} {e : Exc} {s t : State} (h : fetchDesc sel s = .ok none t) :
    fetchOr sel e s = .error (.exc e) t := by
  simp [fetchOr, h]

/-- The accessed bit was set by a direct load (rules R256, R257). -/
theorem setLoaded_ok {d : Desc} {s t : State} {u : Unit} (h : setLoaded d s = .ok u t) :
    ∃ ps s1, prepareLoad d s = .ok ps s1 ∧ t = s1.markA d ps := by
  simp only [setLoaded, bind_ok_iff, commitA, change_run] at h
  obtain ⟨ps, s1, h1, h2⟩ := h
  cases h2
  exact ⟨ps, s1, h1, rfl⟩

theorem setLoaded_of_prepareLoad {d : Desc} {s s1 : State} {ps : List Nat} (h : prepareLoad d s = .ok ps s1) :
    setLoaded d s = .ok () (s1.markA d ps) := by
  unfold setLoaded
  rw [bind_ok h]
  rfl

/-- A segment register other than CS that was loaded (rules R256 to R258): in real-address mode, with a null
selector, or from a descriptor whose accessed bit was set. -/
theorem loadSeg_ok {x : SegReg} {sel : BitVec 16} {s t : State} (h : loadSeg x sel s = .ok () t) :
    (s.pe = false ∧ t = s.setSegOf x ((s.segOf x).realLoad sel)) ∨
      (s.pe = true ∧ x ≠ .ss ∧ isNull sel = true ∧
        t = s.setSegOf x { s.segOf x with sel := sel, valid := false }) ∨
      (s.pe = true ∧ isNull sel = false ∧ ∃ d s1 ps s2, fetchDesc sel s = .ok (some d) s1 ∧
        d.s = true ∧ d.present = true ∧ prepareLoad d s1 = .ok ps s2 ∧
        t = (s2.markA d ps).setSegOf x (d.cache sel)) := by
  simp only [loadSeg, bind_run, look_run] at h
  cases hp : s.pe
  · simp only [hp, Bool.not_false, if_true, change_run, EStateM.Result.ok.injEq] at h
    exact .inl ⟨rfl, h.2.symm⟩
  simp only [hp, Bool.not_true, Bool.false_eq_true, if_false] at h
  refine .inr ?_
  by_cases hx : x = .ss
  · simp only [hx, if_true, loadSS, bind_ok_iff, require_ok_iff, look_run, EStateM.Result.ok.injEq,
      change_run] at h
    obtain ⟨-, s0, ⟨hn, rfl⟩, -, s0, ⟨rfl, rfl⟩, d, s1, hd, -, s2, ⟨-, rfl⟩, -, s3, ⟨hw, rfl⟩, -, s4,
      ⟨-, rfl⟩, -, s5, ⟨hpr, rfl⟩, u6, s6, ha, -, rfl⟩ := h
    obtain ⟨ps, s7, hq, rfl⟩ := setLoaded_ok ha
    refine .inr ⟨rfl, by simpa using hn, d, _, ps, s7, fetchOr_ok hd, ?_, hpr, hq, by rw [hx]⟩
    simp only [Desc.isWritable, Bool.and_eq_true] at hw
    exact hw.1.1
  · simp only [hx, if_false, loadData] at h
    split at h
    · rename_i hn
      simp only [change_run, EStateM.Result.ok.injEq] at h
      exact .inl ⟨rfl, hx, hn, h.2.symm⟩
    · rename_i hn
      simp only [bind_ok_iff, require_ok_iff, look_run, EStateM.Result.ok.injEq, change_run] at h
      obtain ⟨-, s0, ⟨rfl, rfl⟩, d, s1, hd, -, s2, ⟨hs, rfl⟩, -, s3, ⟨-, rfl⟩, -, s4, ⟨-, rfl⟩, -, s5,
        ⟨hpr, rfl⟩, u6, s6, ha, -, rfl⟩ := h
      obtain ⟨ps, s7, hq, rfl⟩ := setLoaded_ok ha
      exact .inr ⟨rfl, by simpa using hn, d, _, ps, s7, fetchOr_ok hd, hs, hpr, hq, rfl⟩

/-! ## Stores and the stack pointer -/

theorem store_moveSp (s : State) (k : Word) (a : Nat) (v : Byte) :
    (s.moveSp k).store a v = (s.store a v).moveSp k := by
  have e : (s.moveSp k).kindAt a = s.kindAt a := rfl
  unfold State.store
  rw [e]
  cases s.kindAt a <;> rfl

/-- Memory and the stack pointer are apart. -/
theorem storeAll_moveSp (s : State) (k : Word) (as : List Nat) (vs : List Byte) :
    (s.moveSp k).storeAll as vs = (s.storeAll as vs).moveSp k := by
  induction as generalizing s vs with
  | nil => rfl
  | cons a as ih =>
    cases vs with
    | nil => rfl
    | cons v vs =>
      rw [State.storeAll_cons, store_moveSp]
      exact ih (s.store a v) vs

theorem markA_moveSp (s : State) (k : Word) (d : Desc) (ps : List Nat) :
    (s.moveSp k).markA d ps = (s.markA d ps).moveSp k := by
  obtain ⟨qs, bs, -, e⟩ := s.markA_eq d ps
  rw [e s rfl rfl, e (s.moveSp k) rfl rfl, storeAll_moveSp]

/-! ## The order of a coprocessor operand's bytes -/

/-- An order of free choice loses and adds nothing. -/
theorem freeOrder_perm {α : Type} (k n : Nat) (l : List α) : (freeOrder k n l).Perm l := by
  induction n generalizing l with
  | zero => exact List.Perm.refl _
  | succ n ih =>
    simp only [freeOrder]
    generalize (Config.freeWord (k + n)).toNat % l.length = i
    cases h : l[i]? with
    | none =>
      have := List.getElem?_eq_none_iff.1 h
      rw [List.eraseIdx_of_length_le this]
      exact ih l
    | some x =>
      obtain ⟨hi, rfl⟩ := List.getElem?_eq_some_iff.1 h
      exact (List.Perm.cons _ (ih _)).trans (List.getElem_cons_eraseIdx_perm hi)

/-- What `anyOrder` does: the computation, with what the environment has seen meanwhile in another order. -/
theorem anyOrder_ok {α : Type} {m : M α} {s u : State} {a : α} (h : anyOrder m s = .ok a u) :
    ∃ t, m s = .ok a t ∧ u = { t with io := u.io, draws := u.draws } ∧
      ∀ es, t.io = es ++ s.io → ∃ es', es'.Perm es ∧ u.io = es' ++ s.io := by
  unfold anyOrder at h
  cases e : m s with
  | error x t => rw [e] at h; cases h
  | ok b t =>
    rw [e] at h
    simp only [EStateM.Result.ok.injEq] at h
    obtain ⟨rfl, rfl⟩ := h
    exact ⟨t, rfl, rfl, fun es k => ⟨freeOrder t.draws es.length es, freeOrder_perm _ _ _, by simp [k]⟩⟩

/-! ## Fetching -/

/-- Of an instruction that does not end in the first page the bytes there are looked at for stores before the second
page is translated (rule R138, decision D19). -/
theorem fetchDecode_stale {s s1 s2 : State} {ps : List Nat} {bs : List Byte}
    (h0 : (!s.pe || s.seg.cs.valid) = true) (h1 : s.eip ≤ s.seg.cs.limit)
    (h2 : fetchPage false s.fetchLin (min s.fetchRoom (pageLeft s.fetchLin)) s = .ok ps s1)
    (h3 : readBytes ps s1 = .ok bs s2) (h4 : decode s.code32 bs = .error .more) (h5 : pageLeft s.fetchLin < s.fetchRoom)
    (h6 : (ps.any fun a => s2.dirty.contains a) = true) :
    fetchDecode false s = .error (.refuse .staleCode) s2 := by
  have h : min s.fetchRoom (pageLeft s.fetchLin) < s.fetchRoom := by omega
  have c : checkFresh ps s2 = .error (.refuse .staleCode) s2 := by
    unfold checkFresh
    rw [bind_ok (get_run _), if_pos h6]
    rfl
  unfold fetchDecode
  rw [bind_ok (get_run _), bind_ok (require_ok h0), bind_ok (require_ok (by simpa using h1))]
  refine (bind_ok h2).trans ((bind_ok h3).trans ?_)
  simp only [h4]
  rw [if_pos h, bind_error c]

/-- Where an ICE-386 is active at a level that may, and general detect does not hold, the instruction that is executed
moves no debug register (rule R617). -/
theorem usesDr_of_generalDetect {s t : State} {i : Instr} (h : s.generalDetect = false)
    (hi : s.plat.iceActive = true) (hl : s.level = 0) (hn : nextInstr s.opened = .ok i t) : usesDr i = false := by
  simpa [State.generalDetect, hi, hl, hn] using h

end Sys2Proof.Machine
end

