-- ==== Sys2Proof/Laws/PerInstr.lean ====
section
/-! SUPPORT. The families of statements made per instruction. `EncodeLength`: the bytes the encoder writes for an
instruction are at least one and at most fifteen (30_encoding.md rule R191), whatever its fields and the
default size of the segment. -/

namespace Sys2Proof.Laws

/-! ## The lengths of an encoding's pieces -/

theorem ovrByte_length_le (x : Option SegReg) : (ovrByte x).length ≤ 1 := by
  cases x with
  | none => simp [ovrByte]
  | some x => cases x <;> simp [ovrByte]

theorem oszByte_length_le (d : Bool) (o : OpSize) : (oszByte d o).length ≤ 1 := by
  unfold oszByte; split <;> simp

theorem aszByte_length_le (d : Bool) (a : AddrSize) : (aszByte d a).length ≤ 1 := by
  unfold aszByte; split <;> simp

theorem memBytes_length_le (d : Bool) (m : MemOp) : (m.bytes d).length ≤ 2 := by
  have := ovrByte_length_le m.ovr
  have := aszByte_length_le d m.ea.asz
  simp only [MemOp.bytes, List.length_append]
  omega

theorem rmBytes_length_le (d : Bool) (rm : Rm) : (Rm.bytes d rm).length ≤ 2 := by
  cases rm with
  | reg r => simp [Rm.bytes]
  | mem m => exact memBytes_length_le d m

theorem rm8Bytes_length_le (d : Bool) (rm : Rm8) : (Rm8.bytes d rm).length ≤ 2 := by
  cases rm with
  | reg r => simp [Rm8.bytes]
  | mem m => exact memBytes_length_le d m

@[simp] theorem bytes16_length (v : BitVec 16) : (bytes16 v).length = 2 := rfl

@[simp] theorem bytes32_length (v : BitVec 32) : (bytes32 v).length = 4 := rfl

theorem dispBytes_length_le (d : Disp) : (Disp.bytes d).length ≤ 4 := by
  cases d <;> simp [Disp.bytes]

theorem immBytes_length_le (v : Imm) : (Imm.bytes v).length ≤ 4 := by
  cases v <;> simp [Imm.bytes]

theorem eaEncode_length (reg : BitVec 3) (e : Ea) :
    1 ≤ (e.encode reg).length ∧ (e.encode reg).length ≤ 6 := by
  cases e <;> simp [Ea.encode]
  all_goals
    rename_i v
    have := dispBytes_length_le v
    omega

theorem rmEncode_length (reg : BitVec 3) (rm : Rm) :
    1 ≤ (Rm.encode reg rm).length ∧ (Rm.encode reg rm).length ≤ 6 := by
  cases rm with
  | reg r => simp [Rm.encode]
  | mem m => exact eaEncode_length reg m.ea

theorem rm8Encode_length (reg : BitVec 3) (rm : Rm8) :
    1 ≤ (Rm8.encode reg rm).length ∧ (Rm8.encode reg rm).length ≤ 6 := by
  cases rm with
  | reg r => simp [Rm8.encode]
  | mem m => exact eaEncode_length reg m.ea

/-- The lengths an instruction may have (rule R191). -/
def Fits (bs : List Byte) : Prop := 1 ≤ bs.length ∧ bs.length ≤ 15

theorem fits_encRm (d : Bool) (op : List Byte) (reg : BitVec 3) (rm : Rm) (h : op.length ≤ 6) :
    Fits (encRm d op reg rm) := by
  have := rmBytes_length_le d rm
  have := rmEncode_length reg rm
  simp only [Fits, encRm, List.length_append]
  omega

theorem fits_encRmSz (d : Bool) (o : OpSize) (op : List Byte) (reg : BitVec 3) (rm : Rm)
    (h : op.length ≤ 6) : Fits (encRmSz d o op reg rm) := by
  have := oszByte_length_le d o
  have := rmBytes_length_le d rm
  have := rmEncode_length reg rm
  simp only [Fits, encRmSz, encRm, List.length_append]
  omega

theorem fits_sized (d : Bool) (o : OpSize) (bs : List Byte) (h0 : 1 ≤ bs.length) (h : bs.length ≤ 14) :
    Fits (oszByte d o ++ bs) := by
  have := oszByte_length_le d o
  simp only [Fits, List.length_append]
  omega

theorem fits_special (op : Byte) (n : BitVec 3) (r : Reg) : Fits (encSpecial op n r) := by
  simp [Fits, encSpecial]

namespace EncodeLength

/-- The statement of the family for one instruction. -/
def Statement (i : Instr) : Prop := ∀ d : Bool, Fits (encode d i)

theorem arpl (dst : Rm) (src : Reg) : Statement (.arpl dst src) := fun d => fits_encRm d _ _ _ (by decide)

theorem lar (osz : OpSize) (dst : Reg) (src : Rm) : Statement (.lar osz dst src) :=
  fun d => fits_encRmSz d _ _ _ _ (by decide)

theorem lsl (osz : OpSize) (dst : Reg) (src : Rm) : Statement (.lsl osz dst src) :=
  fun d => fits_encRmSz d _ _ _ _ (by decide)

theorem verr (src : Rm) : Statement (.verr src) := fun d => fits_encRm d _ _ _ (by decide)

theorem verw (src : Rm) : Statement (.verw src) := fun d => fits_encRm d _ _ _ (by decide)

theorem sldt (osz : OpSize) (dst : Rm) : Statement (.sldt osz dst) :=
  fun d => fits_encRmSz d _ _ _ _ (by decide)

theorem str (osz : OpSize) (dst : Rm) : Statement (.str osz dst) :=
  fun d => fits_encRmSz d _ _ _ _ (by decide)

theorem lldt (src : Rm) : Statement (.lldt src) := fun d => fits_encRm d _ _ _ (by decide)

theorem ltr (src : Rm) : Statement (.ltr src) := fun d => fits_encRm d _ _ _ (by decide)

theorem sgdt (osz : OpSize) (dst : Rm) : Statement (.sgdt osz dst) :=
  fun d => fits_encRmSz d _ _ _ _ (by decide)

theorem sidt (osz : OpSize) (dst : Rm) : Statement (.sidt osz dst) :=
  fun d => fits_encRmSz d _ _ _ _ (by decide)

theorem lgdt (osz : OpSize) (src : Rm) : Statement (.lgdt osz src) :=
  fun d => fits_encRmSz d _ _ _ _ (by decide)

theorem lidt (osz : OpSize) (src : Rm) : Statement (.lidt osz src) :=
  fun d => fits_encRmSz d _ _ _ _ (by decide)

theorem movSregRm (num : BitVec 3) (src : Rm) : Statement (.movSregRm num src) :=
  fun d => fits_encRm d _ _ _ (by decide)

theorem movRmSreg (osz : OpSize) (dst : Rm) (sr : SegReg) : Statement (.movRmSreg osz dst sr) :=
  fun d => fits_encRmSz d _ _ _ _ (by decide)

theorem popEs (osz : OpSize) : Statement (.popEs osz) := fun d => fits_sized d _ _ (by simp) (by simp)

theorem popSs (osz : OpSize) : Statement (.popSs osz) := fun d => fits_sized d _ _ (by simp) (by simp)

theorem popDs (osz : OpSize) : Statement (.popDs osz) := fun d => fits_sized d _ _ (by simp) (by simp)

theorem popFs (osz : OpSize) : Statement (.popFs osz) := fun d => fits_sized d _ _ (by simp) (by simp)

theorem popGs (osz : OpSize) : Statement (.popGs osz) := fun d => fits_sized d _ _ (by simp) (by simp)

theorem pushEs (osz : OpSize) : Statement (.pushEs osz) := fun d => fits_sized d _ _ (by simp) (by simp)

theorem pushCs (osz : OpSize) : Statement (.pushCs osz) := fun d => fits_sized d _ _ (by simp) (by simp)

theorem pushSs (osz : OpSize) : Statement (.pushSs osz) := fun d => fits_sized d _ _ (by simp) (by simp)

theorem pushDs (osz : OpSize) : Statement (.pushDs osz) := fun d => fits_sized d _ _ (by simp) (by simp)

theorem pushFs (osz : OpSize) : Statement (.pushFs osz) := fun d => fits_sized d _ _ (by simp) (by simp)

theorem pushGs (osz : OpSize) : Statement (.pushGs osz) := fun d => fits_sized d _ _ (by simp) (by simp)

theorem lds (osz : OpSize) (dst : Reg) (src : Rm) : Statement (.lds osz dst src) :=
  fun d => fits_encRmSz d _ _ _ _ (by decide)

theorem les (osz : OpSize) (dst : Reg) (src : Rm) : Statement (.les osz dst src) :=
  fun d => fits_encRmSz d _ _ _ _ (by decide)

theorem lss (osz : OpSize) (dst : Reg) (src : Rm) : Statement (.lss osz dst src) :=
  fun d => fits_encRmSz d _ _ _ _ (by decide)

theorem lfs (osz : OpSize) (dst : Reg) (src : Rm) : Statement (.lfs osz dst src) :=
  fun d => fits_encRmSz d _ _ _ _ (by decide)

theorem lgs (osz : OpSize) (dst : Reg) (src : Rm) : Statement (.lgs osz dst src) :=
  fun d => fits_encRmSz d _ _ _ _ (by decide)

theorem jmpRel8 (osz : OpSize) (rel : BitVec 8) : Statement (.jmpRel8 osz rel) :=
  fun d => fits_sized d _ _ (by simp) (by simp)

theorem jmpRel (rel : Imm) : Statement (.jmpRel rel) := by
  intro d
  have := oszByte_length_le d rel.osz
  have := immBytes_length_le rel
  simp only [Fits, encode, List.length_append, List.length_singleton]
  omega

theorem jmpRm (osz : OpSize) (src : Rm) : Statement (.jmpRm osz src) :=
  fun d => fits_encRmSz d _ _ _ _ (by decide)

theorem jmpFar (off : Imm) (sel : BitVec 16) : Statement (.jmpFar off sel) := by
  intro d
  have := oszByte_length_le d off.osz
  have := immBytes_length_le off
  simp only [Fits, encode, List.length_append, List.length_singleton, bytes16_length]
  omega

theorem jmpFarM (osz : OpSize) (src : Rm) : Statement (.jmpFarM osz src) :=
  fun d => fits_encRmSz d _ _ _ _ (by decide)

theorem callRel (rel : Imm) : Statement (.callRel rel) := by
  intro d
  have := oszByte_length_le d rel.osz
  have := immBytes_length_le rel
  simp only [Fits, encode, List.length_append, List.length_singleton]
  omega

theorem callRm (osz : OpSize) (src : Rm) : Statement (.callRm osz src) :=
  fun d => fits_encRmSz d _ _ _ _ (by decide)

theorem callFar (off : Imm) (sel : BitVec 16) : Statement (.callFar off sel) := by
  intro d
  have := oszByte_length_le d off.osz
  have := immBytes_length_le off
  simp only [Fits, encode, List.length_append, List.length_singleton, bytes16_length]
  omega

theorem callFarM (osz : OpSize) (src : Rm) : Statement (.callFarM osz src) :=
  fun d => fits_encRmSz d _ _ _ _ (by decide)

theorem ret (osz : OpSize) : Statement (.ret osz) := fun d => fits_sized d _ _ (by simp) (by simp)

theorem retImm (osz : OpSize) (n : BitVec 16) : Statement (.retImm osz n) := by
  intro d
  have := oszByte_length_le d osz
  simp only [Fits, encode, List.length_append, List.length_singleton, bytes16_length]
  omega

theorem retFar (osz : OpSize) : Statement (.retFar osz) := fun d => fits_sized d _ _ (by simp) (by simp)

theorem retFarImm (osz : OpSize) (n : BitVec 16) : Statement (.retFarImm osz n) := by
  intro d
  have := oszByte_length_le d osz
  simp only [Fits, encode, List.length_append, List.length_singleton, bytes16_length]
  omega

theorem inAlImm (port : BitVec 8) : Statement (.inAlImm port) := fun _ => by simp [Fits, encode]

theorem inEaxImm (osz : OpSize) (port : BitVec 8) : Statement (.inEaxImm osz port) :=
  fun d => fits_sized d _ _ (by simp) (by simp)

theorem inAlDx : Statement .inAlDx := fun _ => by simp [Fits, encode]

theorem inEaxDx (osz : OpSize) : Statement (.inEaxDx osz) := fun d => fits_sized d _ _ (by simp) (by simp)

theorem outImmAl (port : BitVec 8) : Statement (.outImmAl port) := fun _ => by simp [Fits, encode]

theorem outImmEax (osz : OpSize) (port : BitVec 8) : Statement (.outImmEax osz port) :=
  fun d => fits_sized d _ _ (by simp) (by simp)

theorem outDxAl : Statement .outDxAl := fun _ => by simp [Fits, encode]

theorem outDxEax (osz : OpSize) : Statement (.outDxEax osz) := fun d => fits_sized d _ _ (by simp) (by simp)

theorem insb (asz : AddrSize) : Statement (.insb asz) := by
  intro d
  have := aszByte_length_le d asz
  simp only [Fits, encode, List.length_append, List.length_singleton]
  omega

theorem ins (osz : OpSize) (asz : AddrSize) : Statement (.ins osz asz) := by
  intro d
  have := oszByte_length_le d osz
  have := aszByte_length_le d asz
  simp only [Fits, encode, List.length_append, List.length_singleton]
  omega

theorem outsb (asz : AddrSize) (ovr : Option SegReg) : Statement (.outsb asz ovr) := by
  intro d
  have := aszByte_length_le d asz
  have := ovrByte_length_le ovr
  simp only [Fits, encode, List.length_append, List.length_singleton]
  omega

theorem outs (osz : OpSize) (asz : AddrSize) (ovr : Option SegReg) : Statement (.outs osz asz ovr) := by
  intro d
  have := oszByte_length_le d osz
  have := aszByte_length_le d asz
  have := ovrByte_length_le ovr
  simp only [Fits, encode, List.length_append, List.length_singleton]
  omega

theorem rep (t : RepTarget) : Statement (.rep t) := by
  intro d
  cases t with
  | insb a =>
    have := aszByte_length_le d a
    simp only [Fits, encode, List.length_append, List.length_singleton]
    omega
  | ins o a =>
    have := aszByte_length_le d a
    have := oszByte_length_le d o
    simp only [Fits, encode, List.length_append, List.length_singleton]
    omega
  | outsb a x =>
    have := aszByte_length_le d a
    have := ovrByte_length_le x
    simp only [Fits, encode, List.length_append, List.length_singleton]
    omega
  | outs o a x =>
    have := aszByte_length_le d a
    have := oszByte_length_le d o
    have := ovrByte_length_le x
    simp only [Fits, encode, List.length_append, List.length_singleton]
    omega
  | application => simp [Fits, encode]

theorem cli : Statement .cli := fun _ => by simp [Fits, encode]

theorem sti : Statement .sti := fun _ => by simp [Fits, encode]

theorem pushf (osz : OpSize) : Statement (.pushf osz) := fun d => fits_sized d _ _ (by simp) (by simp)

theorem popf (osz : OpSize) : Statement (.popf osz) := fun d => fits_sized d _ _ (by simp) (by simp)

theorem int3 : Statement .int3 := fun _ => by simp [Fits, encode]

theorem intN (n : BitVec 8) : Statement (.intN n) := fun _ => by simp [Fits, encode]

theorem into : Statement .into := fun _ => by simp [Fits, encode]

theorem iret (osz : OpSize) : Statement (.iret osz) := fun d => fits_sized d _ _ (by simp) (by simp)

theorem bound (osz : OpSize) (r : Reg) (src : Rm) : Statement (.bound osz r src) :=
  fun d => fits_encRmSz d _ _ _ _ (by decide)

theorem smsw (osz : OpSize) (dst : Rm) : Statement (.smsw osz dst) :=
  fun d => fits_encRmSz d _ _ _ _ (by decide)

theorem lmsw (src : Rm) : Statement (.lmsw src) := fun d => fits_encRm d _ _ _ (by decide)

theorem clts : Statement .clts := fun _ => by simp [Fits, encode]

theorem hlt : Statement .hlt := fun _ => by simp [Fits, encode]

theorem movRegCr (dst : Reg) (n : BitVec 3) : Statement (.movRegCr dst n) := fun _ => fits_special _ _ _

theorem movCrReg (n : BitVec 3) (src : Reg) : Statement (.movCrReg n src) := fun _ => fits_special _ _ _

theorem movRegDr (dst : Reg) (n : BitVec 3) : Statement (.movRegDr dst n) := fun _ => fits_special _ _ _

theorem movDrReg (n : BitVec 3) (src : Reg) : Statement (.movDrReg n src) := fun _ => fits_special _ _ _

theorem movRegTr (dst : Reg) (n : BitVec 3) : Statement (.movRegTr dst n) := fun _ => fits_special _ _ _

theorem movTrReg (n : BitVec 3) (src : Reg) : Statement (.movTrReg n src) := fun _ => fits_special _ _ _

theorem esc (op : BitVec 3) (ext : BitVec 3) (rm : Rm) : Statement (.esc op ext rm) :=
  fun d => fits_encRm d _ _ _ (by simp)

theorem wait : Statement .wait := fun _ => by simp [Fits, encode]

theorem lock (t : LockTarget) : Statement (.lock t) := by
  intro d
  cases t with
  | xchg8 m r =>
    have := memBytes_length_le d m
    have := eaEncode_length r.num m.ea
    simp only [Fits, encode, List.length_append, List.length_singleton]
    omega
  | xchg o m r =>
    have := memBytes_length_le d m
    have := oszByte_length_le d o
    have := eaEncode_length r.num m.ea
    simp only [Fits, encode, List.length_append, List.length_singleton]
    omega
  | application => simp [Fits, encode]
  | illegal => simp [Fits, encode]

theorem xchg8 (rm : Rm8) (r : Reg8) : Statement (.xchg8 rm r) := by
  intro d
  have := rm8Bytes_length_le d rm
  have := rm8Encode_length r.num rm
  simp only [Fits, encode, List.length_append, List.length_singleton]
  omega

theorem xchg (osz : OpSize) (rm : Rm) (r : Reg) : Statement (.xchg osz rm r) :=
  fun d => fits_encRmSz d _ _ _ _ (by decide)

theorem nop : Statement .nop := fun _ => by simp [Fits, encode]

theorem movRegImm (dst : Reg) (v : Imm) : Statement (.movRegImm dst v) := by
  intro d
  have := oszByte_length_le d v.osz
  have := immBytes_length_le v
  simp only [Fits, encode, List.length_append, List.length_singleton]
  omega

theorem movReg8Imm (dst : Reg8) (v : BitVec 8) : Statement (.movReg8Imm dst v) :=
  fun _ => by simp [Fits, encode]

theorem movRmReg (osz : OpSize) (dst : Rm) (src : Reg) : Statement (.movRmReg osz dst src) :=
  fun d => fits_encRmSz d _ _ _ _ (by decide)

theorem movRegRm (osz : OpSize) (dst : Reg) (src : Rm) : Statement (.movRegRm osz dst src) :=
  fun d => fits_encRmSz d _ _ _ _ (by decide)

theorem pushReg (osz : OpSize) (src : Reg) : Statement (.pushReg osz src) :=
  fun d => fits_sized d _ _ (by simp) (by simp)

theorem popReg (osz : OpSize) (dst : Reg) : Statement (.popReg osz dst) :=
  fun d => fits_sized d _ _ (by simp) (by simp)

theorem orEaxImm (v : Imm) : Statement (.orEaxImm v) := by
  intro d
  have := oszByte_length_le d v.osz
  have := immBytes_length_le v
  simp only [Fits, encode, List.length_append, List.length_singleton]
  omega

theorem orAlImm (v : BitVec 8) : Statement (.orAlImm v) := fun _ => by simp [Fits, encode]

end EncodeLength

end Sys2Proof.Laws
end

