-- ==== Sys2Proof/Laws/Tasks.lean ====
section
/-! SUPPORT. What each phase of a task switch can do (44_task_switch.md rules R340 to R349): `memoryOnly.r a b` says
that `b` is `a` but for memory, the TLB, the counters and the events of devices. -/

namespace Sys2Proof.Machine

/-- What completes in the context of the incoming task completes. -/
theorem inIncoming_ok {α : Type} {m : M α} {s t : State} {a : α} (h : inIncoming m s = .ok a t) : m s = .ok a t := by
  unfold inIncoming at h
  split at h
  · simp at h
  · exact h

/-! ## Phases A to C -/

/-- Under another CR3 only what would change under this one changes: CR3 is put back. -/
theorem underCr3_memoryOnly {α : Type} (v : Word) {m : M α} (h : Does memoryOnly m) : Does memoryOnly (underCr3 v m) := by
  intro s
  have k := h (s.switchCr3 v)
  have c : memoryOnly.r { s with cr := { s.cr with cr3 := v } } (s.switchCr3 v) := by
    unfold State.switchCr3
    split <;> rfl
  unfold underCr3
  cases e : m (s.switchCr3 v) with
  | ok a t =>
    rw [e] at k
    simp only [Rel.holds, memoryOnly] at k c ⊢
    rw [k, c]
  | error y t =>
    rw [e] at k
    simp only [Rel.holds, memoryOnly] at k c ⊢
    rw [k, c]

/-- Phase A writes memory only: the accessed and dirty bits of its translations. -/
theorem phaseA_memoryOnly (kind : SwitchKind) (tsel : BitVec 16) (d : Desc) (ext : Bool) :
    Does memoryOnly (phaseA kind tsel d ext) := by
  have w := memoryOnly_writes.translateRange
  unfold phaseA
  iterate 4 refine Does.bind (Does.require _ _) fun _ => ?_
  refine Does.bind Does.needTr fun _ => Does.bind Does.get fun s => Does.ite (Does.refuse _) ?_
  iterate 2 refine Does.bind (w _ _ _ _) fun _ => ?_
  iterate 3 refine Does.bind (Does.listIf _ (w _ _ _ _)) fun _ => ?_
  have p : ∀ l, Does memoryOnly (probeTss d l) := fun l => Does.bind Does.get fun _ =>
    Does.ite (underCr3_memoryOnly _ (w _ _ _ _)) (Does.pure _)
  exact Does.bind (p _) fun _ => Does.pure _

/-- The update of a busy bit writes memory only. -/
theorem updateWord_memoryOnly (ps : List Nat) (f : Word → Word) : Does memoryOnly (updateWord ps f) :=
  Does.bind (memoryOnly_writes.readBytes _) fun _ => memoryOnly_writes.writeBytes _ _

/-- Phase B writes memory only. -/
theorem phaseB_memoryOnly (kind : SwitchKind) (plan : SwitchPlan) (ret : Word) (rf : Bool) :
    Does memoryOnly (phaseB kind plan ret rf) := by
  unfold phaseB
  refine Does.bind ?_ fun _ => Does.bind Does.get fun _ =>
    Does.bind (memoryOnly_writes.writeBytes _ _) fun _ => updateWord_memoryOnly _ _
  unfold drawSix
  iterate 6 refine Does.bind (memoryOnly_writes.draw _) fun _ => ?_
  exact Does.pure _

/-- Phase C: TR is the new task's, TS is set, and memory is written. -/
theorem phaseC_ok {tsel : BitVec 16} {d : Desc} {plan : SwitchPlan} {s t : State}
    (h : phaseC tsel d plan s = .ok () t) :
    memoryOnly.r { s with
      tr := { sel := tsel, base := d.base, limit := d.limit, loaded := true }
      cr := { s.cr with cr0 := s.cr.cr0 ||| 8#32 } } t := by
  simp only [phaseC, bind_ok_iff, look_run, change_run, draw_run, writeBytes_run, EStateM.Result.ok.injEq] at h
  obtain ⟨_, _, ⟨rfl, rfl⟩, _, s1, h1, _, _, ⟨-, rfl⟩, _, _, ⟨rfl, rfl⟩, -, rfl⟩ := h
  have m1 := (updateWord_memoryOnly _ _).ok h1
  have m2 := fun a =>
    memoryOnly_writes.storeAll a plan.link (leBytes 4 (hiLo (lo16 (Config.freeWord s1.draws)) s.tr.sel))
  simp only [memoryOnly] at m1 m2 ⊢
  rw [m2, m1]

/-! ## Phase D -/

/-- Nothing but registers that reading memory does not depend on: trivially so. -/
theorem RegistersOnly.refl (s : State) : RegistersOnly s s := rfl

theorem RegistersOnly.trans {a b c : State} (h : RegistersOnly a b) (k : RegistersOnly b c) : RegistersOnly a c := by
  unfold RegistersOnly at *
  rw [k, h]

/-- Registers loaded before the first read of an image. -/
theorem ImageRead.of_registers {ps : List Nat} {word : Nat → Word} {ks : List Nat} {s a t : State}
    (h : RegistersOnly s a) (r : ImageRead ps word ks a t) : ImageRead ps word ks s t := by
  cases ks with
  | nil => exact h.trans r
  | cons k ks =>
    obtain ⟨b, bs, u, h1, h2⟩ := r
    exact ⟨b, bs, u, h.trans h1, h2⟩

/-- What an image holds at a place that is not read does not matter. -/
theorem ImageRead.congr {ps : List Nat} {w w' : Nat → Word} {ks : List Nat} {s t : State}
    (h : ∀ k ∈ ks, w k = w' k) (r : ImageRead ps w ks s t) : ImageRead ps w' ks s t := by
  induction ks generalizing s with
  | nil => exact r
  | cons k ks ih =>
    obtain ⟨a, bs, u, h1, h2, h3, h4⟩ := r
    exact ⟨a, bs, u, h1, h2, (h k (by simp)) ▸ h3, ih (fun j hj => h j (by simp [hj])) h4⟩

/-- Parts of an image read one after another. -/
theorem ImageRead.append {ps : List Nat} {w : Nat → Word} {ks js : List Nat} {s t u : State}
    (r : ImageRead ps w ks s t) (q : ImageRead ps w js t u) : ImageRead ps w (ks ++ js) s u := by
  induction ks generalizing s with
  | nil => exact q.of_registers r
  | cons k ks ih =>
    obtain ⟨a, bs, b, h1, h2, h3, h4⟩ := r
    exact ⟨a, bs, b, h1, h2, h3, ih h4⟩

/-- The read of a doubleword of the image. -/
theorem imageWord_ok {ps : List Nat} {k : Nat} {v : Word} {s t : State} (h : imageWord ps k s = .ok v t) :
    memoryOnly.r s t ∧ ∃ bs, readBytes ((ps.drop (k - 0x20)).take 4) s = .ok bs t ∧ v = leWord bs := by
  simp only [imageWord, bind_ok_iff, pure_run, EStateM.Result.ok.injEq] at h
  obtain ⟨bs, u, h1, rfl, rfl⟩ := h
  exact ⟨(memoryOnly_writes.readBytes _).ok h1, bs, h1, rfl⟩

/-- A load of a register from a doubleword: it changes what memory does not depend on, and does not depend on
memory. -/
def PlainLoad (f : Word → State → State) : Prop :=
  ∀ v s, RegistersOnly s (f v s) ∧ ∀ m d tl n io,
    f v { s with mem := m, dirty := d, tlb := tl, draws := n, io := io } =
      { f v s with mem := m, dirty := d, tlb := tl, draws := n, io := io }

/-- A plain load of two states that differ in memory leaves them so. -/
theorem PlainLoad.memoryOnly {f : Word → State → State} (h : PlainLoad f) (v : Word) {a b : State}
    (m : memoryOnly.r a b) : memoryOnly.r (f v a) (f v b) := by
  have e := (h v a).2 b.mem b.dirty b.tlb b.draws b.io
  simp only [Machine.memoryOnly] at m ⊢
  rw [← m] at e
  rw [e]

/-- The registers of an image loaded, all at once. -/
def loadAll (word : Nat → Word) (fs : List (Nat × (Word → State → State))) (s : State) : State :=
  fs.foldl (fun s p => p.2 (word p.1) s) s

/-- What `loadFields` does: the places are read in turn, and the registers are loaded from them. -/
theorem loadFields_ok {ps : List Nat} {fs : List (Nat × (Word → State → State))} {s t : State}
    (hf : ∀ p ∈ fs, PlainLoad p.2) (hn : (fs.map (·.1)).Nodup) (h : loadFields ps fs s = .ok () t) :
    ∃ word, ImageRead ps word (fs.map (·.1)) s t ∧ memoryOnly.r (loadAll word fs s) t := by
  induction fs generalizing s with
  | nil =>
    simp only [loadFields, pure_run, EStateM.Result.ok.injEq, true_and] at h
    subst h
    exact ⟨fun _ => 0, rfl, rfl⟩
  | cons p r ih =>
    obtain ⟨k, f⟩ := p
    simp only [loadFields, bind_ok_iff, change_run, EStateM.Result.ok.injEq] at h
    obtain ⟨v, u, h1, _, _, ⟨-, rfl⟩, h2⟩ := h
    simp only [List.map_cons, List.nodup_cons] at hn
    obtain ⟨word, q1, q2⟩ := ih (fun p hp => hf p (by simp [hp])) hn.2 h2
    have pf := hf (k, f) (by simp)
    obtain ⟨m, bs, hb, hv⟩ := imageWord_ok h1
    have ne : ∀ j ∈ r.map (·.1), word j = Function.update word k v j := fun j hj =>
      (Function.update_of_ne (fun e : j = k => hn.1 (e ▸ hj)) _ _).symm
    refine ⟨Function.update word k v, ⟨s, bs, u, rfl, hb, by simpa using hv, ?_⟩, ?_⟩
    · exact (q1.of_registers (pf v u).1).congr ne
    · have e : ∀ (g : List (Nat × (Word → State → State))) (a b : State), (∀ p ∈ g, PlainLoad p.2) →
          (∀ j ∈ g.map (·.1), word j = Function.update word k v j) → memoryOnly.r a b →
          memoryOnly.r (loadAll (Function.update word k v) g a) (loadAll word g b) := by
        intro g
        induction g with
        | nil => exact fun a b _ _ h => h
        | cons q g ihg =>
          intro a b hp hj hab
          refine ihg _ _ (fun p x => hp p (List.mem_cons_of_mem _ x)) (fun j x => hj j (List.mem_cons_of_mem _ x)) ?_
          show memoryOnly.r (q.2 (Function.update word k v q.1) a) (q.2 (word q.1) b)
          rw [← hj q.1 (by simp)]
          exact (hp q (by simp)).memoryOnly _ hab
      have := e r (f v s) (f v u) (fun p hp => hf p (by simp [hp])) ne (pf.memoryOnly v m)
      simp only [loadAll, List.foldl_cons, Function.update_self]
      exact memoryOnly.trans this q2

/-- The registers after LDTR and EFLAGS are plain loads from different places. -/
theorem tssFields_plain : ∀ p ∈ tssFields, PlainLoad p.2 := by
  intro p hp
  simp only [tssFields, List.mem_cons, List.not_mem_nil, or_false] at hp
  rcases hp with rfl | rfl | rfl | rfl | rfl | rfl | rfl | rfl | rfl | rfl | rfl | rfl | rfl | rfl | rfl <;>
    exact fun v s => ⟨rfl, fun _ _ _ _ _ => rfl⟩

/-- The places of the doublewords that phase D reads, in its order. -/
def imagePlaces : List Nat := [0x60, 0x24] ++ tssFields.map (·.1) ++ [0x64]

/-- The registers of the incoming task, all at once (rule R340, phase D). -/
def taskLoaded (kind : SwitchKind) (word : Nat → Word) (s : State) : State :=
  let sel (k : Nat) : BitVec 16 := lo16 (word k)
  { s with
    gpr := { eax := word 0x28, ecx := word 0x2C, edx := word 0x30, ebx := word 0x34, esp := word 0x38,
             ebp := word 0x3C, esi := word 0x40, edi := word 0x44 }
    eip := word 0x20
    eflags := incomingFlags kind (word 0x24)
    seg := { es := s.seg.es.unchecked (sel 0x48), cs := s.seg.cs.unchecked (sel 0x4C),
             ss := s.seg.ss.unchecked (sel 0x50), ds := s.seg.ds.unchecked (sel 0x54),
             fs := s.seg.fs.unchecked (sel 0x58), gs := s.seg.gs.unchecked (sel 0x5C) }
    ldtr := { s.ldtr with sel := sel 0x60, valid := false }
    dr := { s.dr with dr7 := s.dr.dr7 &&& ~~~0x155#32 }
    cpl := rpl (sel 0x4C) }

/-- The reads and loads of phase D. -/
theorem loadTask_ok {kind : SwitchKind} {ps : List Nat} {s t : State} {bt : Bool}
    (h : loadTask kind ps s = .ok bt t) :
    ∃ word, ImageRead ps word imagePlaces s t ∧ (word 0x24).getLsbD bitVM = false ∧
      bt = (word 0x64).getLsbD 0 ∧ memoryOnly.r (taskLoaded kind word s) t := by
  simp only [loadTask, loadFields, bind_ok_iff, change_run, EStateM.Result.ok.injEq, pure_run] at h
  obtain ⟨_, _, ⟨l, u0, h0, _, _, ⟨-, rfl⟩, -, rfl⟩, fl, u1, h1, h⟩ := h
  split at h
  · simp [refuse_run] at h
  rename_i hv
  simp only [bind_ok_iff, change_run, EStateM.Result.ok.injEq, pure_run] at h
  obtain ⟨_, _, ⟨-, rfl⟩, _, u2, h2, tb, u3, h3, _, _, ⟨-, rfl⟩, rfl, rfl⟩ := h
  obtain ⟨w, q1, q2⟩ := loadFields_ok tssFields_plain (by decide) h2
  let word : Nat → Word := fun k => if k = 0x60 then l else if k = 0x24 then fl else if k = 0x64 then tb else w k
  obtain ⟨m0, b0, k0, e0⟩ := imageWord_ok h0
  obtain ⟨m1, b1, k1, e1⟩ := imageWord_ok h1
  obtain ⟨m3, b3, k3, e3⟩ := imageWord_ok h3
  have c : ∀ k ∈ tssFields.map (·.1), w k = word k := by
    intro k hk
    have : k ≠ 0x60 ∧ k ≠ 0x24 ∧ k ≠ 0x64 := by
      revert k
      decide
    simp [word, this]
  refine ⟨word, ?_, by simpa [word] using hv, by simp [word], ?_⟩
  · refine ImageRead.append (ImageRead.append (ks := [0x60, 0x24])
      ⟨s, b0, u0, rfl, k0, by simpa [word] using e0,
        { u0 with ldtr := { u0.ldtr with sel := lo16 l, valid := false } }, b1, u1, rfl, k1,
        by simpa [word] using e1, ?_⟩
      (q1.congr c)) ⟨u2, b3, u3, rfl, k3, by simpa [word] using e3, rfl⟩
    rfl
  · have e : loadAll w tssFields { u1 with eflags := incomingFlags kind fl } =
        loadAll word tssFields { u1 with eflags := incomingFlags kind fl } := by
      simp only [loadAll, tssFields, List.foldl_cons, List.foldl_nil, word]
      simp
    rw [e] at q2
    simp only [memoryOnly] at m0 m1 m3 q2 ⊢
    rw [m3, q2, m1, m0]
    rfl

/-- Registers that memory does not depend on do not change what a doubleword reads as. -/
theorem RegistersOnly.dwordAt {s t : State} (h : RegistersOnly s t) (a : Word) : t.dwordAt a = s.dwordAt a := by
  rw [h]
  rfl

/-- Plain loads change registers only. -/
theorem loadAll_registersOnly {fs : List (Nat × (Word → State → State))} (hf : ∀ p ∈ fs, PlainLoad p.2)
    (word : Nat → Word) (s : State) : RegistersOnly s (loadAll word fs s) := by
  induction fs generalizing s with
  | nil => rfl
  | cons p r ih =>
    exact (hf p (by simp) (word p.1) s).1.trans (ih (fun q hq => hf q (by simp [hq])) _)

/-- A part of a range of addresses. -/
theorem physRange_part {i m n : Nat} (h : i + m ≤ n) (a : Nat) :
    ((physRange a n).drop i).take m = physRange (a + i) m := by
  obtain ⟨r, rfl⟩ : ∃ r, n = i + (m + r) := ⟨n - i - m, by omega⟩
  rw [← physRange_append a i, ← physRange_append (a + i) m]
  simp [physRange]

/-- Where a doubleword of a TSS stands among its bytes 20H to 67H. -/
theorem image_part (base : Word) {k : Nat} (h0 : 0x20 ≤ k) (h1 : k ≤ 0x64) :
    ((physRange (base + 0x20).toNat 0x48).drop (k - 0x20)).take 4 =
      physRange (base + BitVec.ofNat 32 k).toNat 4 := by
  rw [physRange_part (by omega), ← physRange_mod, ← physRange_mod (base + BitVec.ofNat 32 k).toNat]
  congr 1
  simp [BitVec.toNat_add, physSize]
  omega

/-- The addresses of an image without paging. -/
theorem imageAddrs_off {s : State} (hp : s.pg = false) (d : Desc) (plan : SwitchPlan) :
    imageAddrs d plan s = .ok (physRange (d.base + 0x20).toNat 0x48) s := by
  unfold imageAddrs
  rw [bind_ok (show attempt (translateImage d) s = .ok (some _) s by
    unfold attempt translateImage
    rw [translateRange_off hp])]
  rfl

/-- A doubleword of a TSS, where memory answers. -/
theorem imageWord_off {base : Word} {k : Nat} {s u : State} (h0 : 0x20 ≤ k) (h1 : k ≤ 0x64) (h : RegistersOnly s u)
    (hd : s.noDevice (physRange (base + BitVec.ofNat 32 k).toNat 4)) :
    imageWord (physRange (base + 0x20).toNat 0x48) k u = .ok (s.dwordAt (base + BitVec.ofNat 32 k)) u := by
  unfold imageWord
  rw [image_part base h0 h1, bind_ok (readBytes_run (by rw [h]; exact hd)), ← h.dwordAt]
  rfl

/-- Where memory answers the registers take its doublewords. -/
theorem loadFields_off {base : Word} {fs : List (Nat × (Word → State → State))} {s u : State}
    (h : RegistersOnly s u) (hf : ∀ p ∈ fs, PlainLoad p.2) (hk : ∀ p ∈ fs, 0x20 ≤ p.1 ∧ p.1 ≤ 0x64)
    (hd : ∀ p ∈ fs, s.noDevice (physRange (base + BitVec.ofNat 32 p.1).toNat 4)) :
    loadFields (physRange (base + 0x20).toNat 0x48) fs u =
      .ok () (loadAll (fun k => s.dwordAt (base + BitVec.ofNat 32 k)) fs u) := by
  induction fs generalizing u with
  | nil => rfl
  | cons p r ih =>
    obtain ⟨k, f⟩ := p
    have q := hk (k, f) (by simp)
    rw [loadFields, bind_ok (imageWord_off q.1 q.2 h (hd (k, f) (by simp))), bind_ok (change_run _ _)]
    exact ih (h.trans (hf (k, f) (by simp) _ u).1) (fun p hp => hf p (by simp [hp])) (fun p hp => hk p (by simp [hp]))
      (fun p hp => hd p (by simp [hp]))

/-- With paging off, where memory answers, the image is what memory holds. -/
theorem loadTask_off {kind : SwitchKind} {base : Word} {s : State}
    (hd : ∀ k ∈ imagePlaces, s.noDevice (physRange (base + BitVec.ofNat 32 k).toNat 4))
    (hv : (s.dwordAt (base + 0x24)).getLsbD bitVM = false) :
    loadTask kind (physRange (base + 0x20).toNat 0x48) s = .ok ((s.dwordAt (base + 0x64)).getLsbD 0)
      (taskLoaded kind (fun k => s.dwordAt (base + BitVec.ofNat 32 k)) s) := by
  let word (k : Nat) : Word := s.dwordAt (base + BitVec.ofNat 32 k)
  let u0 : State := { s with ldtr := { s.ldtr with sel := lo16 (word 0x60), valid := false } }
  let u1 : State := { u0 with eflags := incomingFlags kind (word 0x24) }
  have r1 : RegistersOnly s u1 := rfl
  have h0 : loadFields (physRange (base + 0x20).toNat 0x48)
      [(0x60, fun v s => { s with ldtr := { s.ldtr with sel := lo16 v, valid := false } })] s = .ok () u0 := by
    rw [loadFields, bind_ok (imageWord_off (by decide) (by decide) (RegistersOnly.refl s) (hd 0x60 (by decide))),
      bind_ok (change_run _ _)]
    rfl
  have hk : ∀ p ∈ tssFields, 0x20 ≤ p.1 ∧ p.1 ≤ 0x64 := by
    have : ∀ k ∈ tssFields.map (·.1), 0x20 ≤ k ∧ k ≤ 0x64 := by decide
    exact fun p hp => this p.1 (List.mem_map_of_mem hp)
  have h2 := loadFields_off r1 tssFields_plain hk fun p h => hd p.1 (by
    simp only [imagePlaces, List.mem_append, List.mem_map]
    exact .inl (.inr ⟨p, h, rfl⟩))
  have h3 := imageWord_off (by decide) (by decide) (r1.trans (loadAll_registersOnly tssFields_plain word u1))
    (hd 0x64 (by decide))
  unfold loadTask
  rw [bind_ok h0, bind_ok (imageWord_off (s := s) (u := u0) (by decide) (by decide) rfl (hd 0x24 (by decide)))]
  refine (congrFun (if_neg (by simpa using hv)) u0).trans ?_
  rw [bind_ok (change_run _ _), bind_ok h2, bind_ok h3, bind_ok (change_run _ _)]
  rfl

/-- Where phase D reads: where the translation puts the image, or where phase A did; memory alone is touched. -/
theorem imageAddrs_ok {d : Desc} {plan : SwitchPlan} {s t : State} {ps : List Nat}
    (h : imageAddrs d plan s = .ok ps t) :
    memoryOnly.r s t ∧
      match translateImage d s with
      | .ok q u => ps = q ∧ t = u
      | .error (.exc _) u => ps = plan.image ∧ t = { u with cr := s.cr }
      | .error _ _ => False := by
  have m : Does memoryOnly (translateImage d) := memoryOnly_writes.translateRange _ _ _ _
  simp only [imageAddrs, bind_ok_iff, pure_run, EStateM.Result.ok.injEq] at h
  obtain ⟨r, u, h1, rfl, rfl⟩ := h
  unfold attempt at h1
  have k := m s
  cases e : translateImage d s with
  | ok q v =>
    rw [e] at h1 k
    cases h1
    exact ⟨k, rfl, rfl⟩
  | error x v =>
    rw [e] at h1 k
    cases x with
    | exc y =>
      cases h1
      refine ⟨?_, rfl, rfl⟩
      simp only [Rel.holds, memoryOnly] at k ⊢
      rw [k]
    | fault _ => cases h1
    | refuse _ => cases h1

/-- Phase D: CR3 with paging on, then the registers, read under the paging that is then in force. -/
theorem phaseD_ok {kind : SwitchKind} {d : Desc} {plan : SwitchPlan} {s t : State} {bt : Bool}
    (h : phaseD kind d plan s = .ok bt t) :
    ∃ s' ps s'' word, (if s.pg then ∃ c u, readBytes ((plan.newTss.drop 0x1C).take 4) s = .ok c u ∧
          s' = u.switchCr3 (leWord c)
        else s' = s) ∧
      imageAddrs d plan s' = .ok ps s'' ∧
      ImageRead ps word imagePlaces s'' t ∧ (word 0x24).getLsbD bitVM = false ∧
      bt = (word 0x64).getLsbD 0 ∧ memoryOnly.r (taskLoaded kind word s') t := by
  simp only [phaseD, bind_ok_iff, look_run, EStateM.Result.ok.injEq] at h
  obtain ⟨_, _, ⟨rfl, rfl⟩, _, s', h1, ps, s'', h2, h3⟩ := h
  obtain ⟨word, q1, q2, q3, q4⟩ := loadTask_ok h3
  have m := (imageAddrs_ok h2).1
  refine ⟨s', ps, s'', word, ?_, h2, q1, q2, q3, ?_⟩
  · unfold onlyIf at h1
    split
    · rename_i hp
      rw [if_pos hp] at h1
      simp only [loadCr3, bind_ok_iff, change_run, EStateM.Result.ok.injEq] at h1
      obtain ⟨c, u, h4, -, rfl⟩ := h1
      exact ⟨c, u, h4, rfl⟩
    · rename_i hp
      rw [if_neg hp] at h1
      simp only [pure_run, EStateM.Result.ok.injEq, true_and] at h1
      exact h1.symm
  · simp only [memoryOnly] at m q4 ⊢
    rw [q4, m]
    rfl

/-- An attempt raises nothing. -/
theorem attempt_not_exc {α : Type} {m : M α} {s t : State} {e : Exc} : attempt m s ≠ .error (.exc e) t := by
  unfold attempt
  split <;> simp_all

/-- Reading the image raises nothing. -/
theorem imageWord_not_error {ps : List Nat} {k : Nat} {s t : State} {x : Exit} : imageWord ps k s ≠ .error x t := by
  obtain ⟨bs, n, io, h, -⟩ := readBytes_ok ((ps.drop (k - 0x20)).take 4) s
  simp [imageWord, h]

theorem loadFields_not_error {ps : List Nat} {fs : List (Nat × (Word → State → State))} {s t : State} {x : Exit} :
    loadFields ps fs s ≠ .error x t := by
  induction fs generalizing s with
  | nil => simp [loadFields]
  | cons p r ih =>
    obtain ⟨k, f⟩ := p
    rw [loadFields, bind_run]
    split
    · exact ih
    · rename_i h
      exact absurd h imageWord_not_error

/-- The reads of phase D raise no exception (rule R578, decision D27). -/
theorem phaseD_not_exc {kind : SwitchKind} {d : Desc} {plan : SwitchPlan} {s t : State} {e : Exc} :
    phaseD kind d plan s ≠ .error (.exc e) t := by
  intro h
  simp only [phaseD, bind_error_iff, look_run, EStateM.Result.ok.injEq, reduceCtorEq, false_or] at h
  obtain ⟨_, _, -, h | ⟨_, u, -, h | ⟨ps, v, -, h⟩⟩⟩ := h
  · unfold onlyIf at h
    split at h
    · rename_i u _
      obtain ⟨bs, n, io, k, -⟩ := readBytes_ok ((plan.newTss.drop 0x1C).take 4) u
      simp [loadCr3, k] at h
    · simp at h
  · simp only [imageAddrs, bind_error_iff, attempt_not_exc, pure_run, reduceCtorEq, and_false, exists_false,
      or_false] at h
  · simp only [loadTask, bind_error_iff, loadFields_not_error, imageWord_not_error, false_or] at h
    obtain ⟨_, _, -, fl, w, -, h⟩ := h
    split at h
    · simp [refuse_run] at h
    · simp only [bind_error_iff, change_run, pure_run, loadFields_not_error, imageWord_not_error, reduceCtorEq,
        and_false, exists_false, or_false] at h

/-! ## Phase E and the error code -/

/-- LDTR of the incoming task: not valid for a null selector, else the LDT that the GDT has for it. -/
theorem checkLdt_ok {ext : Bool} {s t : State} (h : checkLdt ext s = .ok () t) :
    if isNull s.ldtr.sel then t = s
    else ti s.ldtr.sel = false ∧ ∃ l b, fetchDesc s.ldtr.sel s = .ok (some l) b ∧ l.s = false ∧ l.type = 2 ∧
      l.present = true ∧
      t = { b with ldtr := { sel := s.ldtr.sel, base := l.base, limit := l.limit, valid := true } } := by
  simp only [checkLdt, bind_ok_iff, look_run, EStateM.Result.ok.injEq] at h
  obtain ⟨_, _, ⟨rfl, rfl⟩, h⟩ := h
  split at h
  · rename_i n
    simp only [pure_run, EStateM.Result.ok.injEq, true_and] at h
    rw [if_pos n]
    exact h.symm
  · rename_i n
    simp only [bind_ok_iff, require_ok_iff, change_run, EStateM.Result.ok.injEq] at h
    obtain ⟨_, _, ⟨t1, rfl⟩, l, s1, h1, _, _, ⟨t2, rfl⟩, _, _, ⟨t3, rfl⟩, -, rfl⟩ := h
    simp at t1 t2
    rw [if_neg n]
    exact ⟨t1, l, _, fetchOr_ok h1, t2.1, t2.2, t3, rfl⟩

/-- A descriptor fetched and its accessed bit set, as one. -/
theorem fetched {sel : BitVec 16} {e : Exc} {c : Desc} {s s1 s2 : State} {u : Unit}
    (h1 : fetchOr sel e s = .ok c s1) (h2 : setA c s1 = .ok u s2) : Fetched sel c s s2 := by
  simp only [setA, commitA, change_run, bind_ok_iff, EStateM.Result.ok.injEq] at h2
  obtain ⟨ps, b, h3, -, rfl⟩ := h2
  exact ⟨s1, ps, b, fetchOr_ok h1, h3, rfl⟩

/-- It changes memory only. -/
theorem Fetched.memoryOnly {sel : BitVec 16} {c : Desc} {s t : State} (h : Fetched sel c s t) :
    memoryOnly.r s t := by
  obtain ⟨a, ps, b, h1, h2, rfl⟩ := h
  have m1 := (memoryOnly_writes.fetchDesc _).ok h1
  have m2 := (memoryOnly_writes.prepareA _).ok h2
  exact Machine.memoryOnly.trans m1 (Machine.memoryOnly.trans m2 ((memoryOnly_writes.commitA c ps).ok (change_run _ _)))

/-- CS of the incoming task: a present code segment of its level, with EIP inside. -/
theorem checkCs_ok {ext : Bool} {s t : State} (h : checkCs ext s = .ok () t) :
    ∃ c u, isNull s.seg.cs.sel = false ∧ Fetched s.seg.cs.sel c s u ∧ t = u.setSegOf .cs (c.cache s.seg.cs.sel) ∧
      c.isCode = true ∧ c.present = true ∧
      (if c.ec then c.dpl ≤ rpl s.seg.cs.sel else c.dpl = rpl s.seg.cs.sel) ∧ s.eip ≤ c.limit := by
  simp only [checkCs, bind_ok_iff, look_run, EStateM.Result.ok.injEq, require_ok_iff, change_run] at h
  obtain ⟨_, _, ⟨rfl, rfl⟩, _, _, ⟨n, rfl⟩, c, s1, h1, _, _, ⟨t1, rfl⟩, _, _, ⟨t2, rfl⟩, _, _, ⟨t3, rfl⟩, _, _,
    ⟨t4, rfl⟩, _, s2, h2, _, _, ⟨-, rfl⟩, _, _, ⟨rfl, rfl⟩, t5, rfl⟩ := h
  have f := fetched h1 h2
  refine ⟨c, s2, by simpa using n, f, rfl, t1, t4, ?_, ?_⟩
  · clear f h1 h2
    cases hc : c.ec <;> simp_all
  · have e : s2.eip ≤ c.limit := of_decide_eq_true t5
    have m := f.memoryOnly
    simp only [memoryOnly] at m
    rw [m] at e
    exact e

/-- SS of the incoming task: a present writable segment of its level. -/
theorem checkSs_ok {ext : Bool} {s t : State} (h : checkSs ext s = .ok () t) :
    ∃ c u, isNull s.seg.ss.sel = false ∧ Fetched s.seg.ss.sel c s u ∧ t = u.setSegOf .ss (c.cache s.seg.ss.sel) ∧
      c.isWritable = true ∧ c.present = true ∧ rpl s.seg.ss.sel = s.cpl ∧ c.dpl = s.cpl := by
  simp only [checkSs, bind_ok_iff, look_run, EStateM.Result.ok.injEq, require_ok_iff, change_run] at h
  obtain ⟨_, _, ⟨rfl, rfl⟩, _, _, ⟨rfl, rfl⟩, _, _, ⟨n, rfl⟩, c, s1, h1, _, _, ⟨t1, rfl⟩, _, _, ⟨t2, rfl⟩, _, _,
    ⟨t3, rfl⟩, _, _, ⟨t4, rfl⟩, _, s2, h2, -, rfl⟩ := h
  exact ⟨c, s2, by simpa using n, fetched h1 h2, rfl, t1, t4, by simpa using t2, by simpa using t3⟩

/-- A data-segment register of the incoming task: as it was for a null selector, else a present readable segment
that the level and the RPL may use. -/
theorem checkData_ok {ext : Bool} {x : SegReg} {s t : State} (h : checkData ext x s = .ok () t) :
    if isNull (s.segOf x).sel then t = s
    else ∃ c u, Fetched (s.segOf x).sel c s u ∧ t = u.setSegOf x (c.cache (s.segOf x).sel) ∧ c.s = true ∧
      (c.exec = false ∨ c.rw = true) ∧ c.present = true ∧
      (c.isConforming = true ∨ (s.cpl ≤ c.dpl ∧ rpl (s.segOf x).sel ≤ c.dpl)) := by
  simp only [checkData, bind_ok_iff, look_run, EStateM.Result.ok.injEq] at h
  obtain ⟨_, _, ⟨rfl, rfl⟩, _, _, ⟨rfl, rfl⟩, h⟩ := h
  split at h
  · rename_i n
    simp only [pure_run, EStateM.Result.ok.injEq, true_and] at h
    rw [if_pos n]
    exact h.symm
  · rename_i n
    simp only [bind_ok_iff, require_ok_iff, change_run, EStateM.Result.ok.injEq] at h
    obtain ⟨c, s1, h1, _, _, ⟨t1, rfl⟩, _, _, ⟨t2, rfl⟩, _, _, ⟨t3, rfl⟩, _, s2, h2, -, rfl⟩ := h
    rw [if_neg n]
    refine ⟨c, s2, fetched h1 h2, rfl, ?_⟩
    simp only [Bool.and_eq_true, Bool.or_eq_true, Bool.not_eq_true', decide_eq_true_eq] at t1 t2
    refine ⟨t1.1, t1.2, t3, t2.imp id ?_⟩
    intro q
    clear h1 h2
    simp only [maxLevel, BitVec.le_def, BitVec.lt_def] at q ⊢
    split at q <;> omega

/-- EXT is put into errors alone. -/
theorem withExt_ok {α : Type} {ext : Bool} {m : M α} {s t : State} {a : α} (h : withExt ext m s = .ok a t) :
    m s = .ok a t := by
  unfold withExt at h
  split at h
  · cases h
  · exact h

/-- An error code pushed on the incoming task's stack moves ESP and writes memory, unseen by data breakpoints. -/
theorem pushErr_ok {ext : Bool} {err : Option Word} {s t : State} (hp : s.pe = true)
    (h : pushErr ext err s = .ok () t) :
    memoryOnly.r { s with gpr := { s.gpr with
      esp := if err.isSome then stackSet s.seg.ss.big s.gpr.esp (s.gpr.esp - 4) else s.gpr.esp } } t := by
  cases err with
  | none => cases h; rfl
  | some v =>
    simp only [pushErr, bind_ok_iff, writeWins, change_run, EStateM.Result.ok.injEq] at h
    obtain ⟨ws, s1, h0, _, _, ⟨-, rfl⟩, -, rfl⟩ := h
    have h1 := withExt_ok h0
    have m1 := (memoryOnly_writes.preparePushes _ _).ok h1
    have hw : ∀ w ∈ ws, w.watch = false := by
      simp only [preparePushes, bind_ok_iff, get_run, EStateM.Result.ok.injEq] at h1
      obtain ⟨_, _, ⟨rfl, rfl⟩, _, s2, h2, h3⟩ := h1
      simp only [pushWindows, bind_ok_iff, get_run, pure_run, EStateM.Result.ok.injEq] at h3
      obtain ⟨_, _, ⟨rfl, rfl⟩, w, s3, h4, ws', s4, ⟨rfl, rfl⟩, rfl, rfl⟩ := h3
      simp
    have m2 : memoryOnly.r s1 (s1.puts ws [v]) := by
      cases ws with
      | nil => exact memoryOnly.refl s1
      | cons w ws =>
        have : w.watch = false := hw w (by simp)
        cases ws <;> simp only [State.puts, State.put, State.putList, State.watched, this] <;>
          exact memoryOnly_writes.storeAll _ _ _
    have m : memoryOnly.r s (s1.puts ws [v]) := by
      simp only [memoryOnly] at m1 m2 ⊢
      rw [m2, m1]
    simp only [memoryOnly] at m ⊢
    generalize s1.puts ws [v] = u at m
    rw [m]
    simp only [State.moveSp, stackBig, State.pe] at hp ⊢
    rw [hp, ← BitVec.sub_eq_add_neg]
    rfl

end Sys2Proof.Machine
end

