-- ==== Sys2Proof/Tests/Slice0.lean ====
section
/-! SUPPORT. Tests: terms that WellFormed refuses, a decoded word for every instruction, one step for the
vectors of 95_test_vectors.md (their numbers are given as V<n>), and, for every statement with hypotheses, a
state and operands that meet them. -/

namespace Sys2Proof.Tests

open Sys2Proof.Machine

set_option Elab.async false

/-! ## Ill-formed terms -/

/-- A memory operand without an override. -/
def at_ (e : Ea) : Rm := .mem { ovr := none, ea := e }

/-- Base ESP without a SIB byte has no encoding (rule R193). -/
theorem test_wf_base_esp : (Instr.lldt (at_ (.base .esp .none))).wf = false := by decide
/-- Base EBP without a displacement is the displacement-only form (rule R193). -/
theorem test_wf_base_ebp : (Instr.verr (at_ (.base .ebp .none))).wf = false := by decide
/-- A 32-bit form has no 16-bit displacement (rule R193). -/
theorem test_wf_base_disp : (Instr.ltr (at_ (.base .eax (.d16 1)))).wf = false := by decide
/-- ESP is no index register (rule R194). -/
theorem test_wf_index_esp : (Instr.jmpRm .w32 (at_ (.sib 0 (some .esp) .eax .none))).wf = false := by decide
/-- A SIB byte with base EBP and no displacement is the form without a base (rule R194). -/
theorem test_wf_sib_ebp : (Instr.callRm .w32 (at_ (.sib 0 none .ebp .none))).wf = false := by decide
/-- A SIB form has no 16-bit displacement (rule R194). -/
theorem test_wf_sib_disp : (Instr.bound .w32 .eax (at_ (.sib 1 none .eax (.d16 0)))).wf = false := by decide
/-- ESP is no index register of a SIB form without a base (rule R194). -/
theorem test_wf_sibAbs_esp : (Instr.lmsw (at_ (.sibAbs 0 (some .esp) 0))).wf = false := by decide
/-- BP alone without a displacement is the 16-bit displacement-only form (rule R193). -/
theorem test_wf_bp : (Instr.sgdt .w32 (at_ (.mem16 .bp .none))).wf = false := by decide
/-- A 16-bit form has no 32-bit displacement (rule R193). -/
theorem test_wf_mem16_disp : (Instr.esc 0 0 (at_ (.mem16 .si (.d32 0)))).wf = false := by decide
/-- The memory operand of a byte exchange is checked. -/
theorem test_wf_rm8 : (Instr.xchg8 (.mem { ovr := none, ea := .base .esp .none }) .al).wf = false := by decide
/-- The memory operand under a LOCK byte is checked. -/
theorem test_wf_lock :
    (Instr.lock (.xchg .w32 { ovr := none, ea := .base .ebp .none } .eax)).wf = false := by decide

/-! ## A word for every instruction, written out from 30_encoding.md rules R192 to R197 -/

/-- What bytes decode to in a 32-bit segment, if they do. -/
def dec (bs : List Byte) : Option (Instr × Nat) := (decode true bs).toOption

/-- ModR/M C8H, C1H, E1H, E9H: register forms (V30, V32, V35, V37, V39). -/
theorem test_decode_pointer_validation :
    dec [0x63, 0xC8] = some (.arpl (.reg .eax) .ecx, 2) ∧
      dec [0x0F, 0x02, 0xC1] = some (.lar .w32 .eax (.reg .ecx), 3) ∧
      dec [0x0F, 0x03, 0xC1] = some (.lsl .w32 .eax (.reg .ecx), 3) ∧
      dec [0x0F, 0x00, 0xE1] = some (.verr (.reg .ecx), 3) ∧
      dec [0x0F, 0x00, 0xE9] = some (.verw (.reg .ecx), 3) := by decide +kernel

/-- Groups 0F 00 and 0F 01 (V45 to V56); a 16-bit operand size and a DS override. -/
theorem test_decode_tables :
    dec [0x66, 0x0F, 0x00, 0xC0] = some (.sldt .w16 (.reg .eax), 4) ∧
      dec [0x0F, 0x00, 0xC8] = some (.str .w32 (.reg .eax), 3) ∧
      dec [0x0F, 0x00, 0xD0] = some (.lldt (.reg .eax), 3) ∧
      dec [0x0F, 0x00, 0xDB] = some (.ltr (.reg .ebx), 3) ∧
      dec [0x0F, 0x01, 0x05, 0, 0x20, 0, 0] = some (.sgdt .w32 (at_ (.abs32 0x2000)), 7) ∧
      dec [0x0F, 0x01, 0x0D, 0, 0x20, 0, 0] = some (.sidt .w32 (at_ (.abs32 0x2000)), 7) ∧
      dec [0x0F, 0x01, 0x15, 0, 0x20, 0, 0] = some (.lgdt .w32 (at_ (.abs32 0x2000)), 7) ∧
      dec [0x3E, 0x66, 0x0F, 0x01, 0x5D, 0xFC] =
        some (.lidt .w16 (.mem { ovr := some .ds, ea := .base .ebp (.d8 0xFC) }), 6) := by decide +kernel

/-- Segment registers: 8E, 8C, POP, PUSH, LDS to LGS (V60 to V73). -/
theorem test_decode_segment_loads :
    dec [0x8E, 0xD0] = some (.movSregRm 2 (.reg .eax), 2) ∧
      dec [0x66, 0x8C, 0xC8] = some (.movRmSreg .w16 (.reg .eax) .cs, 3) ∧
      dec [0x07] = some (.popEs .w32, 1) ∧ dec [0x17] = some (.popSs .w32, 1) ∧
      dec [0x1F] = some (.popDs .w32, 1) ∧ dec [0x0F, 0xA1] = some (.popFs .w32, 2) ∧
      dec [0x0F, 0xA9] = some (.popGs .w32, 2) ∧ dec [0x06] = some (.pushEs .w32, 1) ∧
      dec [0x0E] = some (.pushCs .w32, 1) ∧ dec [0x16] = some (.pushSs .w32, 1) ∧
      dec [0x1E] = some (.pushDs .w32, 1) ∧ dec [0x0F, 0xA0] = some (.pushFs .w32, 2) ∧
      dec [0x66, 0x0F, 0xA8] = some (.pushGs .w16, 3) ∧
      dec [0xC5, 0x5C, 0x88, 0x10] =
        some (.lds .w32 .ebx (at_ (.sib 2 (some .ecx) .eax (.d8 0x10))), 4) ∧
      dec [0xC4, 0x1D, 0, 0x10, 0, 0] = some (.les .w32 .ebx (at_ (.abs32 0x1000)), 6) ∧
      dec [0x0F, 0xB2, 0x25, 0, 0x10, 0, 0] = some (.lss .w32 .esp (at_ (.abs32 0x1000)), 7) ∧
      dec [0x67, 0x0F, 0xB4, 0x47, 0x02] = some (.lfs .w32 .eax (at_ (.mem16 .bx (.d8 2))), 5) ∧
      dec [0x0F, 0xB5, 0x04, 0x24] = some (.lgs .w32 .eax (at_ (.sib 0 none .esp .none)), 4) := by
  decide +kernel

/-- JMP, CALL, RET (V80 to V93). -/
theorem test_decode_transfers :
    dec [0xEB, 0xFE] = some (.jmpRel8 .w32 0xFE, 2) ∧
      dec [0xE9, 4, 3, 2, 1] = some (.jmpRel (.i32 0x01020304), 5) ∧
      dec [0xFF, 0xE0] = some (.jmpRm .w32 (.reg .eax), 2) ∧
      dec [0xEA, 0, 0x10, 0, 0, 8, 0] = some (.jmpFar (.i32 0x1000) 8, 7) ∧
      dec [0xFF, 0x28] = some (.jmpFarM .w32 (at_ (.base .eax .none)), 2) ∧
      dec [0xE8, 0x10, 0, 0, 0] = some (.callRel (.i32 0x10), 5) ∧
      dec [0x66, 0xFF, 0xD1] = some (.callRm .w16 (.reg .ecx), 3) ∧
      dec [0x66, 0x9A, 2, 1, 0x30, 0] = some (.callFar (.i16 0x102) 0x30, 6) ∧
      dec [0xFF, 0x1E] = some (.callFarM .w32 (at_ (.base .esi .none)), 2) ∧
      dec [0xC3] = some (.ret .w32, 1) ∧ dec [0xC2, 8, 0] = some (.retImm .w32 8, 3) ∧
      dec [0x66, 0xCB] = some (.retFar .w16, 2) ∧ dec [0xCA, 8, 0] = some (.retFarImm .w32 8, 3) := by
  decide +kernel

/-- IN, OUT, INS, OUTS, REP and the flag instructions (V110 to V119). -/
theorem test_decode_io :
    dec [0xE4, 0x28] = some (.inAlImm 0x28, 2) ∧ dec [0x66, 0xE5, 0x26] = some (.inEaxImm .w16 0x26, 3) ∧
      dec [0xEC] = some (.inAlDx, 1) ∧ dec [0xED] = some (.inEaxDx .w32, 1) ∧
      dec [0xE6, 0x20] = some (.outImmAl 0x20, 2) ∧ dec [0xE7, 0x20] = some (.outImmEax .w32 0x20, 2) ∧
      dec [0xEE] = some (.outDxAl, 1) ∧ dec [0xEF] = some (.outDxEax .w32, 1) ∧
      dec [0x6C] = some (.insb .a32, 1) ∧ dec [0x6D] = some (.ins .w32 .a32, 1) ∧
      dec [0x67, 0x26, 0x6E] = some (.outsb .a16 (some .es), 3) ∧
      dec [0x6F] = some (.outs .w32 .a32 none, 1) ∧
      dec [0xF3, 0x66, 0x6D] = some (.rep (.ins .w16 .a32), 3) ∧
      dec [0xF3, 0xA4] = some (.rep .application, 2) ∧ dec [0xFA] = some (.cli, 1) ∧
      dec [0xFB] = some (.sti, 1) ∧ dec [0x9C] = some (.pushf .w32, 1) ∧
      dec [0x66, 0x9D] = some (.popf .w16, 2) := by decide +kernel

/-- Interrupt instructions and system control (V130 to V150). -/
theorem test_decode_system :
    dec [0xCC] = some (.int3, 1) ∧ dec [0xCD, 0x80] = some (.intN 0x80, 2) ∧ dec [0xCE] = some (.into, 1) ∧
      dec [0xCF] = some (.iret .w32, 1) ∧
      dec [0x62, 5, 0, 0x10, 0, 0] = some (.bound .w32 .eax (at_ (.abs32 0x1000)), 6) ∧
      dec [0x0F, 0x01, 0xE0] = some (.smsw .w32 (.reg .eax), 3) ∧
      dec [0x0F, 0x01, 0xF0] = some (.lmsw (.reg .eax), 3) ∧ dec [0x0F, 0x06] = some (.clts, 2) ∧
      dec [0xF4] = some (.hlt, 1) ∧ dec [0x0F, 0x20, 0xC0] = some (.movRegCr .eax 0, 3) ∧
      dec [0x0F, 0x22, 0xDB] = some (.movCrReg 3 .ebx, 3) ∧
      dec [0x0F, 0x21, 0xF0] = some (.movRegDr .eax 6, 3) ∧
      dec [0x0F, 0x23, 0xF9] = some (.movDrReg 7 .ecx, 3) ∧
      dec [0x0F, 0x24, 0xF2] = some (.movRegTr .edx 6, 3) ∧
      dec [0x0F, 0x26, 0xF8] = some (.movTrReg 7 .eax, 3) := by decide +kernel

/-- The coprocessor, LOCK, XCHG (V160 to V168) and the auxiliary instructions (rule R215). -/
theorem test_decode_others :
    dec [0xD9, 0x00] = some (.esc 1 0 (at_ (.base .eax .none)), 2) ∧ dec [0x9B] = some (.wait, 1) ∧
      dec [0xF0, 0x87, 0x03] =
        some (.lock (.xchg .w32 { ovr := none, ea := .base .ebx .none } .eax), 3) ∧
      dec [0xF0, 0x90] = some (.lock .illegal, 2) ∧ dec [0x86, 0xE0] = some (.xchg8 (.reg .al) .ah, 2) ∧
      dec [0x87, 0xD9] = some (.xchg .w32 (.reg .ecx) .ebx, 2) ∧ dec [0x90] = some (.nop, 1) ∧
      dec [0xB8, 0x78, 0x56, 0x34, 0x12] = some (.movRegImm .eax (.i32 0x12345678), 5) ∧
      dec [0xB4, 7] = some (.movReg8Imm .ah 7, 2) ∧
      dec [0x89, 0x18] = some (.movRmReg .w32 (at_ (.base .eax .none)) .ebx, 2) ∧
      dec [0x64, 0x8B, 0x18] =
        some (.movRegRm .w32 .ebx (.mem { ovr := some .fs, ea := .base .eax .none }), 3) ∧
      dec [0x57] = some (.pushReg .w32 .edi, 1) ∧ dec [0x58] = some (.popReg .w32 .eax, 1) ∧
      dec [0x0D, 1, 0, 0, 0] = some (.orEaxImm (.i32 1), 5) ∧ dec [0x0C, 1] = some (.orAlImm 1, 2) := by
  decide +kernel

/-- Encodings without an instruction are refused by name (rules R196, R200, R201, R381). -/
theorem test_decode_refused :
    decode true [0x0F, 0x0B] = .error .invalid ∧ decode true [0x8F, 0xC8] = .error .invalid ∧
      decode true [0x0F, 0x00, 0xF0] = .error .invalid ∧ decode true [0x01, 0xC0] = .error .application ∧
      decode true [0xF2, 0x6C] = .error .repne ∧ decode true [0xE8, 0] = .error .more ∧
      decode true [] = .error .more := by
  refine ⟨?_, ?_, ?_, ?_, ?_, ?_, ?_⟩ <;> rfl

/-! ## One step on a small state -/

/-- Doublewords placed in physical memory. -/
def place (s : State) (l : List (Nat × Word)) : State :=
  { l.foldl (fun t p => t.storeAll (physRange p.1 4) (leBytes 4 p.2)) s with dirty := [] }

/-- Bytes placed where the next instruction is fetched. -/
def code (s : State) (bs : List Byte) : State :=
  { s.storeAll (physRange s.fetchLin.toNat bs.length) bs with dirty := [] }

/-- The doubleword at a physical address. -/
def at32 (t : State) (a : Nat) : Word := t.dwordAt (BitVec.ofNat 32 a)

/-- The word at a physical address. -/
def at16 (t : State) (a : Nat) : BitVec 16 := lo16 (at32 t a)

/-- The next state of an outcome has a property. -/
def nexts (r : Host.Outcome State Fault Refusal) (p : State → Bool) : Bool :=
  match r with
  | .next t => p t
  | _ => false

/-- A computation answers, and what it answers has a property: hypotheses of the form `m s = .ok a t`. -/
def okThen {α : Type} (m : M α) (s : State) (p : α → State → Bool) : Bool :=
  match m s with
  | .ok a t => p a t
  | .error _ _ => false

/-- The outcome is this refusal. -/
def refuses (r : Host.Outcome State Fault Refusal) (x : Refusal) : Bool :=
  match r with
  | .refused y => y == x
  | _ => false

/-- One step over the given bytes. -/
def runs (bs : List Byte) (s : State) (p : State → Bool) : Bool := nexts (step (code s bs)) p

/-- A flat segment register: base 0, limit FFFFFFFFH. -/
def flat (sel : BitVec 16) (attr : BitVec 12) : SegCache :=
  { sel := sel, base := 0, limit := 0xFFFFFFFF, attr := attr, valid := true }

/-- Protected mode at level 0, flat 32-bit segments, EIP = 100H, ESP = 1000H, GDT at 20000H, IDT at 30000H,
TSS at 40000H. -/
def prot : State :=
  { State.reset with
    gpr := { State.reset.gpr with esp := 0x1000 }
    eip := 0x100
    cr := { State.reset.cr with cr0 := 0x11 }
    seg := { es := flat 0x10 0xC93, cs := flat 8 0xC9B, ss := flat 0x10 0xC93, ds := flat 0x10 0xC93,
             fs := flat 0x10 0xC93, gs := flat 0x10 0xC93 }
    gdtr := { base := 0x20000, limit := 0x5F }
    idtr := { base := 0x30000, limit := 0x7FF }
    tr := { sel := 0x28, base := 0x40000, limit := 0x87, loaded := true }
    highLatch := false }

/-- The same at level 3. -/
def user : State :=
  { prot with
    cpl := 3
    seg := { es := flat 0x23 0xCF3, cs := flat 0x1B 0xCFB, ss := flat 0x23 0xCF3, ds := flat 0x23 0xCF3,
             fs := flat 0x23 0xCF3, gs := flat 0x23 0xCF3 } }

/-- GDT: 08H code and 10H data of level 0, 18H code and 20H data of level 3, all flat; the TSS gives level 0
the stack 0010H:9000H and its I/O map starts at 68H. -/
def tables (s : State) : State :=
  place s [(0x20008, 0xFFFF), (0x2000C, 0x00CF9B00), (0x20010, 0xFFFF), (0x20014, 0x00CF9200),
    (0x20018, 0xFFFF), (0x2001C, 0x00CFFB00), (0x20020, 0xFFFF), (0x20024, 0x00CFF300),
    (0x40004, 0x9000), (0x40008, 0x10), (0x40064, 0x00680000)]

/-- An interrupt gate of level 0 for a vector, to 0008H:00005000H. -/
def gate (n : Nat) (s : State) : State := place s [(0x30000 + 8 * n, 0x00085000), (0x30004 + 8 * n, 0x8E00)]

/-- The handler at 0008H:00005000H was entered, with ESP as given. What is pushed holds free halves of selectors,
which a test cannot evaluate; the frames are stated in GateEntrySame and GateEntryInner. -/
def entered (esp : Word) (t : State) : Bool := t.eip == 0x5000 && t.seg.cs.sel == 8 && t.gpr.esp == esp

/-- The same, for an exception with this vector. -/
def took (n : Byte) (esp : Word) (t : State) : Bool := entered esp t && t.ended == .raised n

/-- A computation raises this exception. -/
def raises {α : Type} (m : M α) (s : State) (e : Exc) : Bool :=
  match m s with
  | .error (.exc x) _ => x == e
  | _ => false

/-- A state with a value in a register. -/
def set (r : Reg) (v : Word) (s : State) : State := s.setReg r v

/-! ### Pointer validation -/

/-- V30. -/
theorem test_arpl_adjusts : runs [0x63, 0xC8] (set .eax 8 (set .ecx 0x23 prot)) (fun t =>
    t.gpr.eax == 0xB && t.flag 6 && t.eip == 0x102) = true := by decide +kernel
/-- V31. -/
theorem test_arpl_keeps : runs [0x63, 0xC8] (set .eax 0xB (set .ecx 8 prot)) (fun t =>
    t.gpr.eax == 0xB && !t.flag 6) = true := by decide +kernel
/-- V32 with a 16-bit operand size (the 32-bit result has a free nibble): the accessed bit stays clear. -/
theorem test_lar : runs [0x66, 0x0F, 0x02, 0xC1] (tables (set .ecx 0x10 prot)) (fun t =>
    t.gpr.eax == 0x9200 && t.flag 6 && at32 t 0x20014 == 0x00CF9200) = true := by
  decide +kernel
/-- V33. -/
theorem test_lar_invisible : runs [0x0F, 0x02, 0xC1] (tables (set .ecx 0x10 (set .eax 7 user))) (fun t =>
    t.gpr.eax == 7 && !t.flag 6) = true := by decide +kernel
/-- V35. -/
theorem test_lsl : runs [0x0F, 0x03, 0xC1] (tables (set .ecx 0x10 prot)) (fun t =>
    t.gpr.eax == 0xFFFFFFFF && t.flag 6) = true := by decide +kernel
/-- V36, with the call gate of V4. -/
theorem test_lsl_gate :
    runs [0x0F, 0x03, 0xC1] (place (set .ecx 0x30 prot) [(0x20030, 0x00081234), (0x20034, 0xEC02)]) (fun t =>
      t.gpr.eax == 0 && !t.flag 6) = true := by decide +kernel
/-- V37. -/
theorem test_verr : runs [0x0F, 0x00, 0xE1] (tables (set .ecx 0x23 user)) (fun t => t.flag 6) = true := by
  decide +kernel
/-- V38. -/
theorem test_verr_denied : runs [0x0F, 0x00, 0xE1] (tables (set .ecx 0x13 user)) (fun t => !t.flag 6) = true := by
  decide +kernel
/-- V39: a code segment is not writable. -/
theorem test_verw_code : runs [0x0F, 0x00, 0xE9] (tables (set .ecx 8 prot)) (fun t => !t.flag 6) = true := by
  decide +kernel
/-- A writable data segment (rule R228). -/
theorem test_verw : runs [0x0F, 0x00, 0xE9] (tables (set .ecx 0x10 prot)) (fun t => t.flag 6) = true := by
  decide +kernel

/-! ### Table registers -/

/-- V45, with the source's GDT_pword (S4). -/
theorem test_lgdt : runs [0x0F, 0x01, 0x15, 0, 0x20, 0, 0] (place prot [(0x2000, 0x1000003F), (0x2004, 0)])
    (fun t => t.gdtr == { base := 0x1000, limit := 0x3F } && t.eip == 0x107) = true := by decide +kernel
/-- V46. -/
theorem test_lgdt_denied : runs [0x0F, 0x01, 0x15, 0, 0x20, 0, 0] (gate 13 (tables user)) (fun t =>
    took 13 0x8FE8 t && t.gdtr == prot.gdtr) = true := by decide +kernel
/-- V47: bytes 3F 00 00 10 00 00. -/
theorem test_sgdt :
    runs [0x0F, 0x01, 0x05, 0, 0x20, 0, 0] { prot with gdtr := { base := 0x1000, limit := 0x3F } } (fun t =>
      at32 t 0x2000 == 0x1000003F && at16 t 0x2004 == 0) = true := by decide +kernel
/-- V48: IDTR directly after reset, bytes FF 03 00 00 00 00. -/
theorem test_sidt :
    runs [0x0F, 0x01, 0x0D, 0, 0x20, 0, 0] { prot with idtr := State.reset.idtr } (fun t =>
      at32 t 0x2000 == 0x3FF && at16 t 0x2004 == 0) = true := by decide +kernel
/-- The source's IDT_pword (S4). -/
theorem test_lidt : runs [0x0F, 0x01, 0x1D, 0, 0x20, 0, 0] (place prot [(0x2000, 0x040000FF), (0x2004, 0)])
    (fun t => t.idtr == { base := 0x400, limit := 0xFF }) = true := by decide +kernel
/-- V50. -/
theorem test_lldt :
    runs [0x0F, 0x00, 0xD0] (place (set .eax 0x28 prot) [(0x20028, 0x000000FF), (0x2002C, 0x8202)]) (fun t =>
      t.ldtr == { sel := 0x28, base := 0x20000, limit := 0xFF, valid := true }) = true := by decide +kernel
/-- V52: the descriptor is not present. -/
theorem test_lldt_absent :
    runs [0x0F, 0x00, 0xD0] (gate 11 (tables (place (set .eax 0x28 prot)
      [(0x20028, 0x000000FF), (0x2002C, 0x0202)]))) (fun t => took 11 0xFF0 t && !t.ldtr.valid) = true := by
  decide +kernel
/-- V53. -/
theorem test_sldt : runs [0x66, 0x0F, 0x00, 0xC0] { prot with ldtr := { prot.ldtr with sel := 0x28 } } (fun t =>
    t.gpr.eax == 0x28) = true := by decide +kernel
/-- V54: the descriptor is marked busy. -/
theorem test_ltr : runs [0x0F, 0x00, 0xDB] (place (set .ebx 0x20 prot) [(0x20020, 0x67), (0x20024, 0x8900)])
    (fun t => t.tr == { sel := 0x20, base := 0, limit := 0x67, loaded := true } && at32 t 0x20024 == 0x8B00) = true := by
  decide +kernel
/-- V55: a busy TSS. -/
theorem test_ltr_busy :
    runs [0x0F, 0x00, 0xDB] (gate 13 (place (tables (set .ebx 0x20 prot)) [(0x20020, 0x67), (0x20024, 0x8B00)]))
      (fun t => took 13 0xFF0 t && t.tr == prot.tr) = true := by decide +kernel
/-- V56. -/
theorem test_str : runs [0x66, 0x0F, 0x00, 0xC8] prot (fun t => t.gpr.eax == 0x28) = true := by decide +kernel

/-! ### Segment registers -/

/-- V60: the accessed bit of the descriptor is set. -/
theorem test_mov_ds : runs [0x8E, 0xD8] (tables (set .eax 0x10 { prot with
    seg := { prot.seg with ds := flat 0 0 } })) (fun t =>
    t.seg.ds == flat 0x10 0xC93 && at32 t 0x20014 == 0x00CF9300 && !t.inhibit) = true := by decide +kernel
/-- V61. -/
theorem test_mov_ds_denied : runs [0x8E, 0xD8] (gate 13 (tables (set .eax 0x10 user))) (fun t =>
    took 13 0x8FE8 t && t.seg.ds.sel == 0x23) = true := by decide +kernel
/-- V72. -/
theorem test_mov_from_cs : runs [0x66, 0x8C, 0xC8] user (fun t => t.gpr.eax == 0x1B) = true := by decide +kernel
/-- V69. -/
theorem test_pop_ds : runs [0x1F] (place (tables prot) [(0x1000, 0x10)]) (fun t =>
    t.seg.ds.sel == 0x10 && t.gpr.esp == 0x1004) = true := by decide +kernel
/-- V69 with the descriptor not present. -/
theorem test_pop_ds_absent : runs [0x1F] (gate 11 (place (tables prot) [(0x1000, 0x10), (0x20014, 0xCF1200)]))
    (took 11 0xFF0) = true := by decide +kernel
/-- POP of ES, FS and GS (rule R261). -/
theorem test_pop_others : [([0x07], SegReg.es), ([0x0F, 0xA1], .fs), ([0x0F, 0xA9], .gs)].all (fun p =>
    runs p.1 (place (tables prot) [(0x1000, 0)]) (fun t =>
      (t.segOf p.2).sel == 0 && !(t.segOf p.2).valid && t.gpr.esp == 0x1004)) = true := by decide +kernel
/-- POP SS sets the inhibit latch (rule R261). -/
theorem test_pop_ss : runs [0x17] (place (tables prot) [(0x1000, 0x10)]) (fun t =>
    t.seg.ss.sel == 0x10 && t.gpr.esp == 0x1004 && t.inhibit) = true := by decide +kernel
/-- V73, and the other pushes (rule R265). -/
theorem test_push_segs : [([0x06], 0x10#16), ([0x0E], 8), ([0x16], 0x10), ([0x1E], 0x10), ([0x0F, 0xA0], 0x10),
    ([0x0F, 0xA8], 0x10)].all (fun p => runs p.1 prot (fun t => t.gpr.esp == 0xFFC) &&
    runs (0x66 :: p.1) prot (fun t => t.gpr.esp == 0xFFE && at16 t 0xFFE == p.2)) = true := by decide +kernel
/-- V70. -/
theorem test_les : runs [0xC4, 0x1D, 0, 0x10, 0, 0] (place (tables prot) [(0x1000, 0x12345678), (0x1004, 0x10)])
    (fun t => t.gpr.ebx == 0x12345678 && t.seg.es.sel == 0x10) = true := by decide +kernel
/-- Rule R152: a far pointer at the last offset of a flat segment is past the limit, and raises #GP(0). -/
theorem test_far_pointer_limit : runs [0xC4, 0x1D, 0xFC, 0xFF, 0xFF, 0xFF] (gate 13 (tables prot)) (took 13 0xFF0) =
    true := by decide +kernel
/-- V71. -/
theorem test_lss : runs [0x0F, 0xB2, 0x25, 0, 0x10, 0, 0]
    (place (tables prot) [(0x1000, 0x2000), (0x1004, 0x10)])
    (fun t => t.gpr.esp == 0x2000 && t.seg.ss.sel == 0x10 && !t.inhibit) = true := by decide +kernel
/-- LDS, LFS and LGS, the last with a 16-bit operand size (rule R262). -/
theorem test_lds_lfs_lgs :
    [([0xC5, 0x1D, 0, 0x10, 0, 0], SegReg.ds, 0x101234#32), ([0x0F, 0xB4, 0x1D, 0, 0x10, 0, 0], .fs, 0x101234),
      ([0x66, 0x0F, 0xB5, 0x1D, 0, 0x10, 0, 0], .gs, 0x1234)].all (fun p =>
      runs p.1 (place (tables prot) [(0x1000, 0x101234), (0x1004, 0x10)]) (fun t =>
        t.gpr.ebx == p.2.2 && (t.segOf p.2.1).sel == 0x10)) = true := by decide +kernel

/-! ### Control transfers -/

/-- V80, V81. -/
theorem test_jmp_short : runs [0xEB, 0] prot (fun t => t.eip == 0x102) = true ∧
    runs [0xEB, 0xFE] prot (fun t => t.eip == 0x100) = true := by decide +kernel
/-- E9 with a 16-bit operand size: EIP is cut to 16 bits (rules R278, R312). -/
theorem test_jmp_rel16 : runs [0x66, 0xE9, 0, 0x80] { prot with eip := 0x18000 } (fun t =>
    t.eip == 4) = true := by decide +kernel
/-- V82, V83. -/
theorem test_jmp_rm :
    runs [0xFF, 0xE0] (set .eax 0x2000 { prot with seg := { prot.seg with cs := { flat 8 0xC9B with
      limit := 0xFFFF } } }) (fun t => t.eip == 0x2000) = true ∧
    runs [0xFF, 0xE0] (gate 13 (tables (set .eax 0x10000 { prot with seg := { prot.seg with
      cs := { flat 8 0xC9B with limit := 0xFFFF } } }))) (took 13 0xFF0) = true := by decide +kernel
/-- V84. -/
theorem test_call_rel : runs [0xE8, 0x10, 0, 0, 0] { prot with eip := 0x200 } (fun t =>
    t.eip == 0x215 && t.gpr.esp == 0xFFC && at32 t 0xFFC == 0x205) = true := by decide +kernel
/-- CALL through ESP itself (rule R281). -/
theorem test_call_rm : runs [0xFF, 0xD4] prot (fun t =>
    t.eip == 0x1000 && t.gpr.esp == 0xFFC && at32 t 0xFFC == 0x102) = true := by decide +kernel
/-- V85, V86. -/
theorem test_ret : runs [0xC3] (place prot [(0x1000, 0x205)]) (fun t =>
      t.eip == 0x205 && t.gpr.esp == 0x1004) = true ∧
    runs [0xC2, 8, 0] (place prot [(0x1000, 0x205)]) (fun t =>
      t.eip == 0x205 && t.gpr.esp == 0x100C) = true := by decide +kernel
/-- V87. -/
theorem test_jmp_far : runs [0xEA, 0, 0x10, 0, 0, 8, 0] (tables prot) (fun t =>
    t.seg.cs.sel == 8 && t.eip == 0x1000 && t.gpr.esp == 0x1000) = true := by decide +kernel
/-- V88. -/
theorem test_jmp_far_denied : runs [0xEA, 0, 0x10, 0, 0, 8, 0] (gate 13 (tables user)) (took 13 0x8FE8) =
    true ∧
    raises (farTransfer false .w32 8 0x1000) (tables user) (excGP (.sel 8)) = true := by decide +kernel
/-- A far pointer in memory (rules R283, R286, R287). -/
theorem test_far_memory :
    runs [0xFF, 0x2D, 0, 0x20, 0, 0] (place (tables prot) [(0x2000, 0x1000), (0x2004, 8)]) (fun t =>
      t.seg.cs.sel == 8 && t.eip == 0x1000 && t.gpr.esp == 0x1000) = true ∧
    runs [0x66, 0xFF, 0x1D, 0, 0x20, 0, 0] (place (tables prot) [(0x2000, 0x00081000)]) (fun t =>
      t.eip == 0x1000 && t.gpr.esp == 0xFFC && at16 t 0xFFE == 8 && at16 t 0xFFC == 0x107) = true := by
  decide +kernel
/-- The setup of rule R311 (V93). -/
def gated : State :=
  place (tables (set .esp 0x2000 user))
    [(0x20030, 0x00081234), (0x20034, 0xEC02), (0x2000, 0xAAAA0001), (0x2004, 0xBBBB0002), (0x40004, 0x8000)]
/-- Rule R311, the CALL. -/
theorem test_call_gate : runs [0x9A, 0, 0, 0, 0, 0x30, 0] gated (fun t =>
    t.cpl == 0 && t.seg.cs.sel == 8 && t.eip == 0x1234 && t.seg.ss.sel == 0x10 && t.gpr.esp == 0x7FE8) = true ∧
    okThen (readParams 0 2) gated (fun ps _ => ps == [0xAAAA0001, 0xBBBB0002]) = true := by decide +kernel
/-- Rule R311, the return: data segments of level 0 become null. -/
theorem test_ret_far_outer : runs [0xCA, 8, 0] (place (tables (set .esp 0x7FE8 prot))
    [(0x7FE8, 0x107), (0x7FEC, 0x1B), (0x7FF0, 0xAAAA0001), (0x7FF4, 0xBBBB0002), (0x7FF8, 0x2000),
      (0x7FFC, 0x23)]) (fun t =>
    t.cpl == 3 && t.seg.cs.sel == 0x1B && t.eip == 0x107 && t.seg.ss.sel == 0x23 && t.gpr.esp == 0x2008 &&
      t.seg.ds.sel == 0 && !t.seg.ds.valid) = true := by decide +kernel
/-- A far RET at the same level, with a 16-bit operand size (rules R300, R312). -/
theorem test_ret_far : runs [0x66, 0xCB] (place (tables prot) [(0x1000, 0x00080700)]) (fun t =>
    t.seg.cs.sel == 8 && t.eip == 0x700 && t.gpr.esp == 0x1004) = true := by decide +kernel

/-! ### Task switch -/

/-- The setup of rule R360. -/
def taskA : State :=
  place { prot with
      gpr := { prot.gpr with eax := 0x11111111, esp := 0x9000 }
      eflags := 0x202
      gdtr := { base := 0x1000, limit := 0x27 }
      tr := { sel := 0x18, base := 0x2000, limit := 0x67, loaded := true } }
    [(0x1008, 0xFFFF), (0x100C, 0x00CF9A00), (0x1010, 0xFFFF), (0x1014, 0x00CF9200),
      (0x1018, 0x20000067), (0x101C, 0x8B00), (0x1020, 0x30000067), (0x1024, 0x8900),
      (0x3020, 0x400), (0x3024, 2), (0x3038, 0xA000), (0x3048, 0x10), (0x304C, 8), (0x3050, 0x10),
      (0x3054, 0x10)]
/-- Rule R360, the CALL: what the outgoing TSS receives from 2020H on, with zeros in the unused halves. -/
theorem test_task_image : (List.range 14).map (fun k =>
    leWord (((saveImage taskA 0x107 taskA.eflags [0, 0, 0, 0, 0, 0]).drop (4 * k)).take 4)) =
    [0x107, 0x202, 0x11111111, 0, 0x300, 0, 0x9000, 0, 0, 0, 0x10, 8, 0x10, 0x10] := by decide +kernel
/-- Rule R360, the CALL: what phase A finds to write, and the NT flag. -/
theorem test_task_plan : okThen (phaseA .call 0x20 { d0 := 0x30000067, d1 := 0x8900, addr := 0x1020 } false) taskA
    (fun p t => p == { newTss := physRange 0x3000 104, save := physRange 0x2020 64, link := physRange 0x3000 4,
                       oldBusy := [], newBusy := physRange 0x1024 4, image := physRange 0x3020 72 } && t == taskA) = true ∧
    incomingFlags .call 2 = 0x4002 ∧ incomingFlags .jmp 0x4002 = 2 ∧ incomingFlags .iret 0x202 = 0x202 := by
  decide +kernel
/-- Rule R360, the CALL: the registers of the incoming task. -/
theorem test_task_loads : okThen (phaseD .call { d0 := 0x30000067, d1 := 0x8900, addr := 0x1020 }
    ⟨physRange 0x3000 104, [], [], [], [], []⟩) taskA (fun bt t =>
    !bt && t.eflags == 0x4002 && t.eip == 0x400 && t.gpr.esp == 0xA000 && t.gpr.eax == 0 &&
      t.seg.cs.sel == 8 && t.seg.ss.sel == 0x10 && t.seg.fs.sel == 0 && !t.ldtr.valid) = true := by decide +kernel
/-- V101, V102, V103: a busy TSS, one that is not present, one that is too small. -/
theorem test_task_checks : [(0x8B00#32, excGP (.sel 0x20), 0x67#32), (0x900, excNP (.sel 0x20), 0x67),
    (0x8900, excTS (.sel 0x20), 0x66)].all (fun p => raises (farTransfer false .w32 0x20 0)
      (place taskA [(0x1020, 0x30000000 ||| p.2.2), (0x1024, p.1)]) p.2.1) = true := by decide +kernel

/-! ### Input, output and flags -/

/-- The map of rule R396 (c): port 41 is denied. -/
def mapped (s : State) : State := place (tables s) [(0x4006C, 0x0200)]
/-- Rule R396 (c): IN AL, 40 reads one port. -/
theorem test_in_al : runs [0xE4, 0x28] (mapped (set .eax 0x11111111 user)) (fun t =>
    t.eip == 0x102 && t.io.length == 1) = true := by decide +kernel
/-- Rule R396 (c): IN AL, 41. -/
theorem test_in_al_denied : runs [0xE4, 0x29] (gate 13 (mapped user)) (fun t =>
    took 13 0x8FE8 t && t.io == []) = true := by decide +kernel
/-- U23: IN above IOPL before TR was ever loaded. -/
theorem test_in_without_tr : refuses (step (code { user with tr := State.reset.tr } [0xE4, 0x28])) .trNeverLoaded =
    true := by decide +kernel
/-- Rule R396 (c): IN EAX, 38 spans port 41; IN AX, 38 does not. -/
theorem test_in_eax : runs [0xE5, 0x26] (gate 13 (mapped user)) (took 13 0x8FE8) = true ∧
    runs [0x66, 0xE5, 0x26] (mapped user) (fun t => t.eip == 0x103 && t.io.length == 1) = true := by
  decide +kernel
/-- V110, and the wider form. -/
theorem test_in_dx : runs [0xEC] (set .edx 0x3F8 prot) (fun t =>
      t.io.map (fun e => match e with | .portRead p n _ => (p, n) | _ => (0, 0)) == [(0x3F8, 1)]) = true ∧
    runs [0xED] (set .edx 0xFFFC prot) (fun t =>
      t.io.map (fun e => match e with | .portRead p n _ => (p, n) | _ => (0, 0)) == [(0xFFFC, 4)]) = true := by
  decide +kernel
/-- V111, and the wider forms. -/
theorem test_out : runs [0xE6, 0x20] (set .eax 0x11111120 prot) (fun t => t.io == [.portWrite 0x20 1 0x20]) = true ∧
    runs [0x66, 0xE7, 0x20] (set .eax 0x11112222 prot) (fun t => t.io == [.portWrite 0x20 2 0x2222]) = true := by
  decide +kernel
/-- OUT through DX (rule R372). -/
theorem test_out_dx : runs [0xEE] (set .edx 0x378 (set .eax 0x41 prot)) (fun t =>
      t.io == [.portWrite 0x378 1 0x41]) = true ∧
    runs [0xEF] (set .edx 0x378 (set .eax 0x12345678 prot)) (fun t =>
      t.io == [.portWrite 0x378 4 0x12345678]) = true := by decide +kernel
/-- A range of ports past FFFFH is refused (U20). -/
theorem test_port_wrap : refuses (step (code (set .edx 0xFFFD prot) [0xED])) .portWrap = true := by decide +kernel
/-- Rules R373, R374, R382: the memory operand of INSD and OUTSD is checked before a range past FFFFH is refused. -/
theorem test_port_wrap_after_operand : [(false, 0x6D#8), (true, 0x6D), (false, 0x6F), (true, 0x6F)].all (fun p =>
    let short : SegCache := { flat 0x10 0xC93 with limit := 0xFFF }
    let s := gate 13 (tables (set .edx 0xFFFD (set .esi 0x2000 (set .edi 0x2000 prot))))
    if p.1 then runs [p.2] { s with seg := { s.seg with es := short, ds := short } } (took 13 0xFF0)
    else refuses (step (code s [p.2])) .portWrap) = true := by decide +kernel
/-- Rules R386, R384, U20: above IOPL the map's bit of port FFFFH decides, and one past it is not looked at. -/
theorem test_port_wrap_map :
    [(0#32, true), (0xFF000000#32, false)].all (fun p =>
      let s := place { user with tr := { user.tr with limit := 0x3000 } }
        [(0x40064, 0x680000), (0x42064, p.1), (0x42068, 0xFF)]
      okThen (ioCheck 0xFFFF 2) s (fun _ _ => true) == p.2 && raises (ioCheck 0xFFFF 2) s excGP0 == !p.2) = true := by
  decide +kernel
/-- V112. -/
theorem test_insd : runs [0x6D] (set .edi 0x2000 (set .edx 0x170 prot)) (fun t =>
    t.gpr.edi == 0x2004 && t.io.length == 1 && t.eip == 0x101) = true := by decide +kernel
/-- INSB downwards, with a 16-bit index (rules R373, R380). -/
theorem test_insb : runs [0x67, 0x6C] (set .edi 0x10000 { prot with eflags := 0x402 }) (fun t =>
    t.gpr.edi == 0x1FFFF) = true := by decide +kernel
/-- V113. -/
theorem test_outsb : runs [0x6E] (place (set .esi 0x3000 (set .edx 0x378 { prot with eflags := 0x402 }))
    [(0x3000, 0x41)]) (fun t => t.io == [.portWrite 0x378 1 0x41] && t.gpr.esi == 0x2FFF) = true := by
  decide +kernel
/-- OUTSD (rule R374). -/
theorem test_outsd : runs [0x6F] (place (set .esi 0x3000 (set .edx 0x378 prot)) [(0x3000, 0x12345678)]) (fun t =>
    t.io == [.portWrite 0x378 4 0x12345678] && t.gpr.esi == 0x3004) = true := by decide +kernel
/-- V114: the first of three repetitions; the instruction stands again. -/
theorem test_rep_outsb : runs [0xF3, 0x6E] (place (set .ecx 3 (set .esi 0x3000 prot)) [(0x3000, 0x434241)])
    (fun t => t.io == [.portWrite 0x300 1 0x41] && t.gpr.ecx == 2 && t.gpr.esi == 0x3001 && t.eip == 0x100) =
    true := by decide +kernel
/-- V115. -/
theorem test_rep_zero : runs [0xF3, 0x6E] (set .esi 0x3000 prot) (fun t =>
    t.io == [] && t.gpr.esi == 0x3000 && t.eip == 0x102) = true := by decide +kernel
/-- V117. -/
theorem test_cli_denied : runs [0xFA] (gate 13 (tables { user with eflags := 0x202 })) (took 13 0x8FE8) = true := by decide +kernel
/-- V118. -/
theorem test_cli : runs [0xFA] { user with eflags := 0x3202 } (fun t => t.eflags == 0x3002) = true := by
  decide +kernel
/-- STI (rule R390). -/
theorem test_sti : runs [0xFB] prot (fun t => t.eflags == 0x202 && t.stiShadow) = true := by decide +kernel
/-- Rule R390 opens one boundary: a debug exception taken there closes it. -/
theorem test_sti_debug : nexts (step (gate 1 (tables { prot with
      stiShadow := true, eflags := 0x202, pend := { Pending.none with bs := true } })))
    (fun t => !t.stiShadow && t.dr.dr6 == 0x4000) = true := by decide +kernel
/-- V119. -/
theorem test_pushfd : runs [0x9C] { prot with eflags := 0x3202 } (fun t =>
    at32 t 0xFFC == 0x3202 && t.gpr.esp == 0xFFC) = true := by decide +kernel
/-- V120, V121. -/
theorem test_popfd : runs [0x9D] (place { user with eflags := 0x202 } [(0x1000, 0x3003)]) (fun t =>
      t.eflags == 0x203) = true ∧
    runs [0x9D] (place { prot with eflags := 0x202 } [(0x1000, 0x3003)]) (fun t => t.eflags == 0x3003) = true := by
  decide +kernel
/-- V122. -/
theorem test_popfd_iopl : runs [0x9D] (place { user with
      eflags := 0x1202, cpl := 1, seg := { user.seg with ss := flat 0x31 0xCB3 } } [(0x1000, 2)])
    (fun t => t.eflags == 0x1002) = true := by decide +kernel

/-! ### Interrupts and exceptions -/

/-- V130, through a trap gate: IF unchanged. -/
theorem test_int : runs [0xCD, 0x40] (place (tables { prot with eflags := 0x302 })
    [(0x30200, 0x00082000), (0x30204, 0x8F00)]) (fun t =>
    t.gpr.esp == 0xFF4 && t.eip == 0x2000 && t.eflags == 0x202) = true := by decide +kernel
/-- V131: the gate's level is checked before anything else. -/
theorem test_int_denied : runs [0xCD, 0x40] (gate 0x40 (gate 13 (tables user))) (took 13 0x8FE8) =
    true ∧
    raises (softInt 0x40) (gate 0x40 (tables user)) (excGP (.sel 0x202)) = true := by decide +kernel
/-- V136: rule R426. -/
theorem test_int_inner : runs [0xCD, 0x80] (place (tables { set .esp 0x2000 user with eip := 0x300, eflags := 0x246 })
    [(0x30400, 0x00085000), (0x30404, 0xEE00)]) (fun t =>
    t.cpl == 0 && t.seg.cs.sel == 8 && t.eip == 0x5000 && t.seg.ss.sel == 0x10 && t.gpr.esp == 0x8FEC &&
      t.eflags == 0x46) = true := by decide +kernel
/-- V132. -/
theorem test_int3 : runs [0xCC] (gate 3 (tables { prot with eip := 0x200 })) (entered 0xFF4) = true := by
  decide +kernel
/-- V133. -/
theorem test_into : runs [0xCE] prot (fun t => t.eip == 0x101) = true ∧
    runs [0xCE] (gate 4 (tables { prot with eflags := 0x802 })) (entered 0xFF4) = true := by decide +kernel
/-- V134: inside, above and below the bounds. -/
theorem test_bound : runs [0x62, 5, 0, 0x10, 0, 0] (place (set .eax 9 prot) [(0x1000, 0), (0x1004, 9)])
      (fun t => t.eip == 0x106) = true ∧
    runs [0x62, 5, 0, 0x10, 0, 0] (gate 5 (tables (place (set .eax 10 prot) [(0x1000, 0), (0x1004, 9)])))
      (took 5 0xFF4) = true ∧
    runs [0x62, 5, 0, 0x10, 0, 0] (gate 5 (tables (place (set .eax 0xFFFFFFFF prot) [(0x1000, 0), (0x1004, 9)])))
      (took 5 0xFF4) = true := by decide +kernel
/-- V135. -/
theorem test_iret : runs [0xCF] (place (tables (set .esp 0xFF4 prot))
    [(0xFF4, 0x102), (0xFF8, 8), (0xFFC, 0x202)]) (fun t =>
    t.eip == 0x102 && t.seg.cs.sel == 8 && t.eflags == 0x202 && t.gpr.esp == 0x1000) = true := by decide +kernel
/-- Rule R426, the way back: IF is loaded by the level that is left; DS of level 0 becomes null. -/
theorem test_iret_outer : runs [0xCF] (place (tables (set .esp 0x8FEC { prot with eflags := 0x46 }))
    [(0x8FEC, 0x302), (0x8FF0, 0x1B), (0x8FF4, 0x246), (0x8FF8, 0x2000), (0x8FFC, 0x23)]) (fun t =>
    t.cpl == 3 && t.eip == 0x302 && t.seg.ss.sel == 0x23 && t.gpr.esp == 0x2000 && t.eflags == 0x246 &&
      t.seg.ds.sel == 0) = true := by decide +kernel
/-- V170: rule R590 (1), for the #GP(0) of a null selector (V91). -/
theorem test_gp : runs [0xEA, 0, 0, 0, 0, 0, 0] (gate 13 (tables { prot with eip := 0x123, eflags := 0x202 }))
    (fun t => took 13 0xFF0 t && t.eflags == 2) = true := by decide +kernel
/-- V171. -/
theorem test_idt_limit : runs [0xCD, 0x40] (gate 13 (tables { user with
    idtr := { base := 0x30000, limit := 0x1FF } })) (took 13 0x8FE8) = true ∧
    raises (softInt 0x40) { user with idtr := { base := 0x30000, limit := 0x1FF } } (excGP (.sel 0x202)) = true := by decide +kernel
/-- V173: the double fault is delivered with an error code. -/
theorem test_double_fault : runs [0xEA, 0, 0, 0, 0, 0, 0] (gate 8 (tables prot)) (took 13 0xFF0) = true := by
  decide +kernel
/-- V173: then shutdown. -/
theorem test_shutdown : runs [0xEA, 0, 0, 0, 0, 0, 0] (tables prot) (fun t => t.run == .shutdown) = true := by
  decide +kernel
/-- V49, V67, V92: #UD. -/
theorem test_ud : runs [0x0F, 0x01, 0xD0] (gate 6 (tables prot)) (took 6 0xFF4) = true ∧
    runs [0x8E, 0xC8] (gate 6 (tables prot)) (took 6 0xFF4) = true ∧
    runs [0xFF, 0xE8] (gate 6 (tables prot)) (took 6 0xFF4) = true := by decide +kernel
/-- V177: an interrupt waits for IF, and then is taken before the instruction. -/
theorem test_intr : runs [0x90] (gate 0x20 (tables { prot with pins := { Pins.idle with intr := some 0x20 } }))
      (fun t => t.eip == 0x101) = true ∧
    runs [0x90] (gate 0x20 (tables { prot with eflags := 0x202, pins := { Pins.idle with intr := some 0x20 } }))
      (fun t => entered 0xFF4 t && t.eflags == 2) = true := by decide +kernel
/-- V178: an NMI is taken once. -/
theorem test_nmi : runs [0x90] (gate 2 (tables { prot with pins := { Pins.idle with nmi := true } })) (fun t =>
      entered 0xFF4 t && t.nmiLatch) = true ∧
    runs [0x90] (gate 2 (tables { prot with nmiLatch := true, pins := { Pins.idle with nmi := true } })) (fun t =>
      t.eip == 0x101) = true := by decide +kernel
/-- V178, decision D36: an NMI presented at the boundary before an IRET, with the latch set, is not remembered. -/
theorem test_nmi_forgotten : runs [0xCF] (place (tables { prot with
      nmiLatch := true, env := [{ Pins.idle with nmi := true }] }) [(0x1000, 0x700), (0x1004, 8), (0x1008, 2)])
    (fun t => t.eip == 0x700 && !t.nmiLatch && !t.pins.nmi) = true := by decide +kernel
/-- Rule R607: a match that is not enabled goes with one that is reported late. -/
theorem test_late_unarmed : ({ Pending.none with late := 1, others := 6 } : Pending).promote.unarmed = 6 ∧
    ({ Pending.none with others := 6 } : Pending).promote.unarmed = 0 := by decide
/-- Rule R610: the breakpoint at an INT n is reported, though the delivery of that interrupt would be refused. -/
theorem test_break_before_refused_int : runs [0xCD, 0x40] (gate 1 (place (tables { prot with
      dr := { prot.dr with dr0 := 0x100, dr7 := 1 } }) [(0x30200, 0x00085000), (0x30204, 0x8600)])) (fun t =>
    entered 0xFF4 t) = true := by decide +kernel

/-- Rule R549: the #SS of an error code pushed on the stack of an interrupt task. -/
theorem test_push_error_ext : [false, true].all (fun x =>
    raises (pushErr x (some 0)) { prot with seg := { prot.seg with ss := { flat 0x10 0xC93 with limit := 0xFF } } }
      { vector := 12, code := .sel (if x then 1 else 0) }) = true := by decide +kernel
/-- Rule R473: an instruction breakpoint at a WAIT that waits is reported, with nothing more from the environment. -/
theorem test_break_while_waiting : runs [0x9B] (gate 1 (tables { prot with
      run := .waiting, pins := { prot.pins with busy := true }, dr := { prot.dr with dr0 := 0x100, dr7 := 1 } }))
    (fun t => entered 0xFF4 t && t.dr.dr6.getLsbD 0) = true := by decide +kernel
/-- Rules R601, R614, R620: a single-step trap with an instruction breakpoint at the next instruction may report it too,
but not with RF set, and sets BS. -/
theorem test_trap_beside :
    let s : State := { code prot [0x90] with pend := { Pending.none with bs := true },
                                             dr := { prot.dr with dr0 := 0x100, dr7 := 1 } }
    s.besideTrap = 1 ∧ ({ s with eflags := 0x10002 } : State).besideTrap = 0 ∧
      (({ s with eflags := 0x10002 } : State).trapped false).dr.dr6 = 0x4000 := by decide +kernel

/-! ### Paging and debugging -/

/-- The setup of 95_test_vectors.md section 2.2. -/
def paged (pte : Word) : State :=
  place { prot with cr := { prot.cr with cr0 := 0x80000011, cr3 := 0x10000 } }
    [(0x10004, 0x00011007), (0x1100C, pte)]
/-- V20. -/
theorem test_walk_addresses : pdeAddr 0x10000 0x00403004 = 0x10004 ∧ pteAddr 0x00011007 0x00403004 = 0x1100C ∧
    frameAddr (BitVec.extractLsb' 12 20 0x00055005#32) 0x00403004 = 0x00055004 := by decide +kernel
/-- V22: the fault of a user write to a read-only page. -/
theorem test_page_fault : (match translate 0x00403004 true true (paged 0x00055005) with
    | .error (.exc e) t => e.vector == 14 && e.code == .page 7 && t.cr.cr2 == 0x00403004 &&
        at32 t 0x1100C == 0x00055005 && at32 t 0x10004 == 0x00011007
    | _ => false) = true := by decide +kernel
/-- V24: a page that is not present, by a user read and by a supervisor write. -/
theorem test_page_absent : [(false, true, 4#3), (true, false, 2)].all (fun p =>
    match translate 0x00403004 p.1 p.2.1 (paged 0x00055004) with
    | .error (.exc e) t => e.vector == 14 && e.code == .page p.2.2 && t.cr.cr2 == 0x00403004
    | _ => false) = true := by decide +kernel
/-- Rules R97, R110, R256: the write of an accessed bit into a page that is gone faults at the doubleword at +4 or at
byte 5, the free choice of log entry 56. -/
theorem test_accessed_fault :
    let d : Desc := { d0 := 0, d1 := 0x9200, addr := 0x00403000 }
    let s := paged 0x00055004
    let faultsAt (m : M (List Nat)) (a : Word) : Bool := match m s with
      | .error (.exc e) t => e.vector == 14 && e.code == .page 2 && t.cr.cr2 == a
      | _ => false
    [false, true].all (fun b => faultsAt (retry b (translateRange (d.addr + (d.accessedSpan s.pg).1)
      (d.accessedSpan s.pg).2 true false) (prepareA d)) (if b then 0x00403005 else 0x00403004)) = true := by
  decide +kernel
/-- Rule R626: the thirteen references of Table 12-1. -/
theorem test_table_12_1 :
    let d : DebugRegs := { dr0 := 0xA0001, dr1 := 0xA0002, dr2 := 0xB0002, dr3 := 0xC0000, dr6 := 0,
                           dr7 := 0xF7330000 }
    let hits (a : Word) (n : Nat) := maskOf fun k => d.dataMatch k a n true
    [hits 0xA0001 1, hits 0xA0002 1, hits 0xA0001 2, hits 0xA0002 2, hits 0xB0002 2, hits 0xB0001 4,
      hits 0xC0000 4, hits 0xC0001 2, hits 0xC0003 1, hits 0xA0000 1, hits 0xA0003 4, hits 0xB0000 2,
      hits 0xC0004 4] = [1, 2, 3, 2, 4, 4, 8, 8, 8, 0, 0, 0, 0] := by decide +kernel
/-- Rule R627 (2): an instruction breakpoint is a fault, and RF in the image lets the instruction run. -/
theorem test_code_breakpoint : runs [0x90] (gate 1 (tables { prot with
      eip := 0x1000, dr := { prot.dr with dr1 := 0x1000, dr7 := 4 } })) (fun t =>
      entered 0xFF4 t && t.dr.dr6.getLsbD 1) = true ∧
    runs [0x90] { prot with eip := 0x1000, eflags := 0x10002, dr := { prot.dr with dr1 := 0x1000, dr7 := 4 } }
      (fun t => t.eip == 0x1001 && t.eflags == 2) = true := by decide +kernel
/-- Rule R627 (3): a single step is recorded and then reported before the next instruction. -/
theorem test_single_step : runs [0x90] { prot with eflags := 0x102 } (fun t => t.pend.bs && t.eip == 0x101) =
      true ∧
    runs [0x90] (gate 1 (tables { prot with eflags := 0x102, pend := { Pending.none with bs := true } }))
      (fun t => entered 0xFF4 t && t.dr.dr6.getLsbD 14 && t.eflags == 2) = true := by decide +kernel

/-! ### System control -/

/-- V140, V143. -/
theorem test_mov_cr0 : runs [0x0F, 0x20, 0xC0] prot (fun t => t.gpr.eax == 0x11) = true ∧
    runs [0x0F, 0x20, 0xC8] (gate 6 (tables prot)) (took 6 0xFF4) = true := by decide +kernel
/-- V141, V142. -/
theorem test_mov_to_cr0 : runs [0x0F, 0x22, 0xC0] (gate 13 (tables (set .eax 0x80000000 prot))) (fun t =>
      took 13 0xFF0 t && t.cr.cr0 == 0x11) = true ∧
    runs [0x0F, 0x22, 0xC0] (gate 13 (tables (set .eax 0x11 user))) (took 13 0x8FE8) = true := by decide +kernel
/-- Setting PE in real-address mode starts level 0 and the prefetch obligation (rules R439, R652, R653). -/
theorem test_set_pe : runs [0x0F, 0x22, 0xC0] { set .eax 1 prot with cr := State.reset.cr } (fun t =>
    t.pe && t.cpl == 0 && t.hazard == .pe && t.seg == prot.seg) = true := by decide +kernel
/-- V145. -/
theorem test_mov_dr7 : runs [0x0F, 0x23, 0xF8] (set .eax 0xD0002 prot) (fun t =>
    t.dr.dr7 == 0xD0002 && t.dr.enabled 0 && t.dr.rw 0 == 1 && t.dr.len 0 == 3) = true := by decide +kernel
/-- V146, and the same at level 0. -/
theorem test_mov_from_dr6 : runs [0x0F, 0x21, 0xF0] (gate 13 (tables user)) (took 13 0x8FE8) = true ∧
    runs [0x0F, 0x21, 0xF0] { prot with dr := { prot.dr with dr6 := 0x4001 } } (fun t =>
      t.gpr.eax == 0x4001) = true := by decide +kernel
/-- V193. -/
theorem test_general_detect : runs [0x0F, 0x23, 0xC0] (gate 1 (tables { prot with
    plat := { prot.plat with iceActive := true } })) (fun t => entered 0xFF4 t && t.dr.dr6.getLsbD 13 && t.eflags == 2) = true := by
  decide +kernel
/-- Rule R509: after a load of SS general detect is held off, and a pending NMI too, which stays pending. -/
theorem test_inhibit : runs [0x0F, 0x23, 0xC0] { prot with
      plat := { prot.plat with iceActive := true }, inhibit := true, pins := { Pins.idle with nmi := true },
      env := [Pins.idle] } (fun t => t.eip == 0x103 && t.pins.nmi && t.ended == .completed) = true := by decide +kernel
/-- A write command and a lookup command of the TLB (rules R128, R129). -/
theorem test_tlb : runs [0x0F, 0x26, 0xF0] (set .eax 0x00403D40 { prot with
      test := { prot.test with tr7 := 0x00055018 } }) (fun t =>
      tlbAt t.tlb 19 == { page := 0x403, v := true, d := true, u := true, w := true, phys := 0x55, known := true }) = true ∧
    runs [0x0F, 0x26, 0xF0] (set .eax 0x00403D41 { prot with
      tlb := prot.tlb.set 19 { page := 0x403, v := true, d := true, u := true, w := true, phys := 0x55, known := true } })
      (fun t => t.test.tr7 == 0x00055018) = true := by decide +kernel
/-- TR6 and TR7 are read back; TR5 stops (U14). -/
theorem test_mov_tr : runs [0x0F, 0x24, 0xF0] { prot with test := { tr6 := 5, tr7 := 6 } } (fun t =>
      t.gpr.eax == 5) = true ∧
    refuses (step (code prot [0x0F, 0x24, 0xE8])) .testRegister = true := by decide +kernel
/-- V147. -/
theorem test_lmsw : runs [0x0F, 0x01, 0xF0] (set .eax 0xA prot) (fun t => t.cr.cr0 == 0x1B) = true := by
  decide +kernel
/-- V148, at level 3. -/
theorem test_smsw : runs [0x66, 0x0F, 0x01, 0xE0] { user with cr := { user.cr with cr0 := 0x1B } } (fun t =>
    t.gpr.eax == 0x1B) = true := by decide +kernel
/-- V149. -/
theorem test_clts : runs [0x0F, 0x06] { prot with cr := { prot.cr with cr0 := 0x1B } } (fun t =>
    t.cr.cr0 == 0x13) = true := by decide +kernel
/-- V150, V151. -/
theorem test_hlt : runs [0xF4] (gate 13 (tables user)) (took 13 0x8FE8) = true ∧
    runs [0xF4] prot (fun t => t.run == .halted && t.eip == 0x101) = true := by decide +kernel

/-! ### Coprocessor, exchanges, auxiliary instructions -/

/-- V160, V161. -/
theorem test_esc_nm : [0x1D#32, 0x19].all (fun c =>
    runs [0xD9, 0x00] (gate 7 (tables { prot with cr := { prot.cr with cr0 := c } })) (took 7 0xFF4)) = true := by
  decide +kernel
/-- BUSY# active: the instruction stands (rule R684). -/
theorem test_esc_busy : runs [0xD9, 0x00] { prot with pins := { Pins.idle with busy := true } } (fun t =>
    t.eip == 0x100 && t.io == []) = true := by decide +kernel
/-- V163, V164, V165. -/
theorem test_wait : runs [0x9B] (gate 7 (tables { prot with cr := { prot.cr with cr0 := 0x1B } })) (took 7 0xFF4) =
      true ∧
    runs [0x9B] { prot with cr := { prot.cr with cr0 := 0x19 }, pins := { Pins.idle with busy := true } } (fun t =>
      t.eip == 0x100 && t.run == .waiting && (step t matches .fault .waitingForever) &&
        nexts (step { t with env := [Pins.idle] }) (fun u => u.eip == 0x101 && u.run == .running)) = true ∧
    runs [0x9B] (gate 16 (tables { prot with pins := { Pins.idle with error := true } })) (took 16 0xFF4) = true := by
  decide +kernel
/-- V166, V168. -/
theorem test_xchg : runs [0x87, 5, 0, 0x10, 0, 0] (set .eax 1 prot) (fun t =>
      at32 t 0x1000 == 1 && t.gpr.eax == 0) = true ∧
    runs [0xF0, 0x87, 5, 0, 0x10, 0, 0] (set .eax 1 prot) (fun t =>
      at32 t 0x1000 == 1 && t.gpr.eax == 0) = true := by decide +kernel
/-- V167: the saved EIP is the LOCK byte's. -/
theorem test_lock_illegal : runs [0xF0, 0x0F, 0x22, 0xC0] (gate 6 (tables prot)) (took 6 0xFF4) = true := by
  decide +kernel
/-- XCHG AL, AH (rule R483). -/
theorem test_xchg8 : runs [0x86, 0xE0] (set .eax 0xAABBCCDD prot) (fun t => t.gpr.eax == 0xAABBDDCC) = true := by
  decide +kernel
/-- NOP and the moves (rule R215). -/
theorem test_moves : runs [0x90] prot (fun t => t.eip == 0x101) = true ∧
    runs [0x66, 0xB8, 0x34, 0x12] (set .eax 0xAAAA0000 prot) (fun t => t.gpr.eax == 0xAAAA1234) = true ∧
    runs [0xB4, 7] (set .eax 0x11111111 prot) (fun t => t.gpr.eax == 0x11110711) = true ∧
    runs [0x89, 0x18] (set .eax 0x2000 (set .ebx 7 prot)) (fun t => at32 t 0x2000 == 7) = true ∧
    runs [0x8B, 0x00] (place (set .eax 0x2000 prot) [(0x2000, 9)]) (fun t => t.gpr.eax == 9) = true := by
  decide +kernel
/-- Decision D4: a store to ROM changes nothing, a store to a device is an event, and so is each byte of a read. -/
theorem test_memory_map :
    let s (k : MemKind) : State := set .eax 0x2000 (set .ebx 7 { prot with plat := { prot.plat with
      map := [{ base := 0x2000, size := 4, kind := k }] } })
    runs [0x89, 0x18] (s .rom) (fun t => at32 t 0x2000 == 0 && t.io == []) = true ∧
      runs [0x89, 0x18] (s .device) (fun t => t.io.length == 4 && t.eip == 0x102) = true ∧
      runs [0x8B, 0x00] (s .device) (fun t => t.io.length == 4) = true := by decide +kernel
/-- PUSH ESP pushes the old value; POP ESP takes the value from the stack (rule R215). -/
theorem test_push_pop : runs [0x54] prot (fun t => at32 t 0xFFC == 0x1000 && t.gpr.esp == 0xFFC) = true ∧
    runs [0x5C] (place prot [(0x1000, 0x7777)]) (fun t => t.gpr.esp == 0x7777) = true := by decide +kernel
/-- OR: OF and CF clear, SF, ZF and PF of the result, whatever AF (rule R215). -/
theorem test_or : runs [0x0C, 0x80] (set .eax 1 prot) (fun t => t.gpr.eax == 0x81 && t.eip == 0x102) = true ∧
    runs [0x0D, 0, 0, 1, 0] (set .eax 1 prot) (fun t => t.gpr.eax == 0x10001) = true ∧
    ∀ af, orFlags 0x843 0x81 8 af = setBit 0x86 4 af ∧ orFlags 2 0 32 af = setBit 0x46 4 af := by decide +kernel
/-- Rule R196: 8C with number 6 is invalid before its displacement is read. -/
theorem test_decode_sreg6 : decode true [0x8C, 0x35] = .error .invalid ∧ decode true [0x8C, 0x1D] = .error .more := by
  decide +kernel
/-- Rule R138, decision D19: the ModR/M byte that makes a LOCK illegal belongs to the instruction. -/
theorem test_lock_stale : decode true [0xF0, 0x01, 0xC0] = .ok (.lock .illegal, 3) ∧
    refuses (step { code prot [0xF0, 0x01, 0xC0] with dirty := [0x102] }) .staleCode = true := by decide +kernel

/-! ### Reset -/

/-- S1: the values after RESET, memory kept. -/
theorem test_reset : nexts (step { prot with
      mem := [(7, 9)], pins := { Pins.idle with reset := true }, plat := { prot.plat with steppingId := 5, cop387 := true } })
    (fun t => t.eflags == 2 && t.eip == 0xFFF0 && t.seg.cs.sel == 0xF000 && t.gpr.edx == 0x305 &&
      t.cr.cr0 == 0x10 && t.idtr == { base := 0, limit := 0x3FF } && t.mem == [(7, 9)] &&
      t.fetchPhys [t.fetchLin.toNat] == [0xFFFFFFF0]) = true := by decide +kernel
/-- The first instruction of program P1: EB 8E at FFFFFFF0H goes to FF80H. -/
theorem test_first_fetch : nexts (step (State.reset.withFetchWord 16 0x8EEB)) (fun t => t.eip == 0xFF80) =
    true := by decide +kernel

/-! ## Witnesses: for every statement with hypotheses, states and operands that meet them -/

/-- ResetValues: RESET sensed; BUSY# active with either result of the self-test. -/
theorem witness_ResetValues :
    (State.sense { prot with pins := { Pins.idle with reset := true } }).pins.reset = true ∧
      [true, false].all (fun b => ({ prot with
        pins := { Pins.idle with busy := true }, plat := { prot.plat with selfTestPasses := b } } : State).pins.busy) =
      true := by decide
/-- The invariants and a step: NOP at level 3 with an entry in the TLB; a halted processor with paging on. -/
theorem witness_StepKeeps :
    let s := code { user with tlb := prot.tlb.set 19 { page := 0x403, v := true, d := true, u := true, w := true,
                                                       phys := 0x55, known := true } } [0x90]
    let h : State := { paged 0x00055005 with run := .halted, env := [Pins.idle] }
    Memory.wf s.mem = true ∧ (s.eflags = normFlags s.eflags ∧ s.flag bitVM = false) ∧ s.tlb.length = 32 ∧
      (∀ i < 32, (tlbAt s.tlb i).v = true →
        (tlbAt s.tlb i).known = true ∧ (tlbAt s.tlb i).page.toNat % 8 = i % 8) ∧
      (∀ i < 32, ∀ j < 32, (tlbAt s.tlb i).v = true → (tlbAt s.tlb j).v = true →
        (tlbAt s.tlb i).sameTag (tlbAt s.tlb j) = true → i = j) ∧
      nexts (step s) (fun t => t.eip == 0x101) = true ∧ (h.pg = true → h.pe = true) ∧ h.pg = true ∧
      nexts (step h) (fun t => t.run == .halted) = true := by decide +kernel
/-- PrivilegedStateKept: a NOP at level 3, in a step and alone. -/
theorem witness_PrivilegedStateKept : user.pe = true ∧ user.cpl ≠ 0 ∧ nexts (exec .nop user) (fun _ => true) = true := by
  decide +kernel
/-- DecodeEncode: an instruction of every addressing form. -/
theorem witness_DecodeEncode : (Instr.lldt (at_ (.sib 3 (some .ebp) .ebp (.d8 0)))).wf = true ∧
    (Instr.jmpFarM .w16 (at_ (.mem16 .bp (.d16 0xFFFF)))).wf = true ∧ Instr.nop.wf = true := by decide
/-- FetchDecodes: the last byte of a page holds NOP; the first byte of a CALL stands there. -/
theorem witness_FetchDecodes :
    let s := code { prot with eip := 0xFFF } [0x90]
    let t := code { prot with eip := 0xFFF } [0xE8, 0, 0, 0, 0]
    s.pg = false ∧ s.seg.cs.valid = true ∧ s.eip ≤ s.seg.cs.limit ∧ s.hazard = .none ∧
      min s.fetchRoom (pageLeft s.fetchLin) = 1 ∧ t.fetchRoom = 15 ∧
      (decode s.code32 (s.bytesAt ((s.fetchPhys (physRange s.fetchLin.toNat s.fetchRoom)).take 1))).toOption =
        some (.nop, 1) ∧
      decode t.code32 (t.bytesAt ((t.fetchPhys (physRange t.fetchLin.toNat t.fetchRoom)).take 1)) = .error .more ∧
      (decode t.code32 (t.bytesAt (t.fetchPhys (physRange t.fetchLin.toNat t.fetchRoom)))).toOption =
        some (.callRel (.i32 0), 5) ∧ s.dirty = [] ∧ t.dirty = [] ∧
      s.plat.map = [] ∧ t.plat.map = [] := by
  refine ⟨?_, ?_, ?_, ?_, ?_, ?_, ?_, rfl, ?_, ?_, ?_, ?_, ?_⟩ <;> decide +kernel
/-- StepRunsDecoded: the state before a NOP. -/
theorem witness_StepRunsDecoded :
    let s := code prot [0x90]
    s.calm ∧ okThen nextInstr s.opened (fun i _ => i == .nop) = true := by
  refine ⟨⟨rfl, rfl, .inl rfl, rfl, rfl, rfl, ?_, .inl rfl, .inl rfl, rfl⟩, ?_⟩ <;> decide +kernel
/-- OperandWindow: the last bytes inside a limit, and one byte past it, for an expand-up segment and for expand-down
ones of either size; a null and a read-only segment. -/
theorem witness_OperandWindow :
    let c : SegCache := { flat 0x10 0x093 with limit := 0xFFF }
    let n : SegCache := { c with valid := false }
    let r : SegCache := flat 0x10 0xC91
    let down (attr : BitVec 12) : SegCache := { flat 0x10 attr with limit := 0xFFF }
    limitOk c 0xFFC 4 = true ∧ limitOk c 0xFFD 4 = false ∧ (down 0x097).exec = false ∧ (down 0x097).ec = true ∧
      limitOk (down 0x097) 0x1000 4 = true ∧ limitOk (down 0x097) 0xFFF 1 = false ∧
      limitOk (down 0x097) 0xFFFC 4 = true ∧ limitOk (down 0x097) 0xFFFD 4 = false ∧
      limitOk (down 0x497) 0xFFFFFFFC 4 = true ∧ limitOk (down 0x497) 0xFFFFFFFD 4 = false ∧
      (c.valid && (!c.exec && c.wr)) = true ∧ n.valid = false ∧
      (r.valid && (!r.exec && r.wr)) = false ∧ r.valid = true ∧ prot.pg = false ∧ prot.pe = true := by decide +kernel
/-- StoreWritesItsBytes: a doubleword of RAM across the end of a page; ROM below 2000H and a device from there on. -/
theorem witness_StoreWritesItsBytes :
    let s : State := { prot with plat := { prot.plat with
      map := [{ base := 0, size := 0x2000, kind := .rom }, { base := 0x2000, size := 1, kind := .device }] } }
    Memory.wf prot.mem = true ∧ okThen (memWindow { ovr := none, ea := .abs32 0x1FFE } 0 4 true) prot
      (fun w t => w.phys == [0x1FFE, 0x1FFF, 0x2000, 0x2001] && decide w.phys.Nodup &&
        w.phys.all fun a => t.kindAt a == .ram) = true ∧
    okThen (memWindow { ovr := none, ea := .abs32 0x1FFF } 0 2 true) s
      (fun w t => w.phys.all fun a => t.kindAt a != .ram) = true ∧
    s.kindAt 0x1FFF = .rom ∧ s.kindAt 0x2000 = .device ∧ s.kindAt 0x2001 = .ram := by decide +kernel
/-- WalkTranslates: V21 to V24, the tables in RAM; no entry for the page, one, and one whose D is clear, whatever
the block that is looked at first and whatever the entry's fate. -/
theorem witness_WalkTranslates :
    let s := paged 0x00055005
    let pde := s.dwordAt (pdeAddr s.cr.cr3 0x00403004)
    let pte := s.dwordAt (pteAddr pde 0x00403004)
    let u := paged 0x00055004
    let e (d : Bool) : TlbEntry := { page := 0x403, v := true, d := d, u := true, w := false, phys := 0x55, known := true }
    s.pg = true ∧ prot.pg = false ∧ Memory.wf s.mem = true ∧ s.plat.map = [] ∧
      pdeAddr s.cr.cr3 0x00403004 ≠ pteAddr pde 0x00403004 ∧ pde.getLsbD 0 = true ∧ pte.getLsbD 0 = true ∧
      pageOk false true (pde.getLsbD 2 && pte.getLsbD 2) (pde.getLsbD 1 && pte.getLsbD 1) = true ∧
      pageOk true false (pde.getLsbD 2 && pte.getLsbD 2) (pde.getLsbD 1 && pte.getLsbD 1) = true ∧
      pageOk true true (pde.getLsbD 2 && pte.getLsbD 2) (pde.getLsbD 1 && pte.getLsbD 1) = false ∧
      (u.dwordAt (pteAddr (u.dwordAt (pdeAddr u.cr.cr3 0x00403004)) 0x00403004)).getLsbD 0 = false ∧
      (s.dwordAt (pdeAddr s.cr.cr3 0x00803004)).getLsbD 0 = false ∧
      (∀ b : BitVec 2, tlbHits s.tlb b (pageOf 0x00403004) = [] ∧
        tlbHits (s.tlb.set 19 (e true)) b (pageOf 0x00403004) = [19]) ∧
      pageOk true true (e true).u (e true).w = false ∧ pageOk false true (e true).u (e true).w = true ∧
      pageOk true false (e false).u (e false).w = true ∧ (e true).d = true ∧ (e false).d = false ∧
      (Config.tlbKeeps s.draws = true ∨ Config.tlbKeeps s.draws = false) := by
  refine ⟨?_, ?_, ?_, ?_, ?_, ?_, ?_, ?_, ?_, ?_, ?_, ?_, ?_, ?_, ?_, ?_, ?_, ?_, ?_⟩
  case refine_19 => cases Config.tlbKeeps _ <;> simp
  all_goals decide +kernel
/-- DescriptorLookup: the last descriptor of the GDT and of an LDT, and one past them; an LDTR that is not valid; two
selectors of one descriptor; the last entry of the IDT, inside and outside; one on a page that is not present. -/
theorem witness_DescriptorLookup :
    let s := tables { prot with ldtr := { sel := 0x28, base := 0x20000, limit := 0x5F, valid := true } }
    ti 0x5F = true ∧ prot.ldtr.valid = false ∧ s.ldtr.valid = true ∧ s.plat.map = [] ∧ s.pg = false ∧
      okThen (fetchDesc 0x5B) s (fun r _ => r.isSome) = true ∧ okThen (fetchDesc 0x5F) s (fun r _ => r.isSome) = true ∧
      s.gdtr.limit.toNat < 8 * ((0x60#16).toNat / 8) + 7 ∧ s.ldtr.limit.toNat < 8 * ((0x64#16).toNat / 8) + 7 ∧
      (0x58#16).extractLsb' 2 14 = (0x5B#16).extractLsb' 2 14 ∧ s.pe = true ∧
      8 * (0xFF#8).toNat + 7 ≤ s.idtr.limit.toNat ∧
      ({ s with idtr := { base := 0x30000, limit := 0x7FE } } : State).idtr.limit.toNat < 8 * (0xFF#8).toNat + 7 ∧
      raises (readDesc 0x307F8) (paged 0x00055005) { vector := 14, code := .page 0 } = true := by decide +kernel

/-! ### Selectors, tables, segment registers -/

/-- ArplAdjustsRpl: equal levels; a register and a memory destination with a smaller one; real-address mode. -/
theorem witness_ArplAdjustsRpl :
    let s := place (set .ecx 3 prot) [(0x2000, 0x8)]
    let m : MemOp := { ovr := none, ea := .abs32 0x2000 }
    s.pe = true ∧ State.reset.pe = false ∧ rpl (lo16 (s.reg .ecx)) = 3 ∧
      okThen (readRm16 (.reg .ecx)) s (fun d t => t == s && d == 3) = true ∧
      okThen (readRm16 (.reg .eax)) s (fun d t => t == s && d == 0) = true ∧
      okThen (readRm16 (.mem m)) s (fun d t => d == 8 && okThen (memWindow m 0 2 true) t (fun _ _ => true)) =
        true := by decide +kernel
/-- SelectorTests: null selectors; a visible descriptor, an invisible one, one of no valid type, none; real-address
mode. -/
theorem witness_SelectorTests :
    protectedInstr (.str .w32 (.reg .eax)) = true ∧ State.reset.pe = false ∧ isNull 3 = true ∧
    okThen (readRm16 (.reg .ecx)) (set .ecx 3 user) (fun sel _ => sel == 3) = true ∧
    [(0x23#32, 1), (0x10, 2), (0x30, 3), (0x60, 4)].all (fun p =>
      let s := place (tables (set .ecx p.1 user)) [(0x20030, 0xFFFF), (0x20034, 0x00CFE800)]
      s.pe && okThen (readRm16 (.reg .ecx)) s (fun sel t => !isNull sel && okThen (fetchDesc sel) t (fun r _ =>
        (match r with
          | none => 4
          | some d => if !d.s && d.type == 8 then 3 else if visible t.level sel d then 1 else 2) == p.2))) = true := by
  decide +kernel
/-- VerifyTests: an operand past the limit; a table on a page that is not present; a descriptor, and none; real-address
mode. -/
theorem witness_VerifyTests :
    let s : State := { prot with seg := { prot.seg with ds := { flat 0x10 0x093 with limit := 0xFFF } } }
    State.reset.pe = false ∧ s.pe = true ∧ raises (readRm16 (at_ (.abs32 0xFFF))) s excGP0 = true ∧
    okThen (readRm16 (.reg .ecx)) (set .ecx 0x10 (paged 0x00055005)) (fun sel t => !isNull sel &&
      raises (fetchDesc sel) t { vector := 14, code := .page 0 }) = true ∧
    [(0x5B#32, true), (0x60, false)].all (fun p =>
      okThen (readRm16 (.reg .ecx)) (tables (set .ecx p.1 user)) (fun sel t => !isNull sel &&
        okThen (fetchDesc sel) t fun r _ => r.isSome == p.2)) = true := by decide +kernel
/-- SystemStores: the last two bytes of a segment; both words of a table register. -/
theorem witness_SystemStores :
    let s : State := { prot with seg := { prot.seg with ds := { flat 0x10 0x093 with limit := 0xFFF } } }
    okThen (memWindow { ovr := none, ea := .abs32 0xFFE } 0 2 true) s (fun _ _ => true) = true ∧
      okThen (memWindow { ovr := none, ea := .abs32 0xFFA } 0 2 true) s (fun _ t =>
        okThen (memWindow { ovr := none, ea := .abs32 0xFFA } 2 4 true) t (fun _ _ => true)) = true := by
  decide +kernel
/-- A GDT with an LDT at 28H, the same not present at 30H, an idle TSS at 38H, and a conforming code segment at 58H,
the last descriptor of the table. -/
def systems : State :=
  place (tables prot) [(0x20028, 0xFF), (0x2002C, 0x8202), (0x20030, 0xFF), (0x20034, 0x0202), (0x20038, 0x67),
    (0x2003C, 0x8900), (0x20040, 0xFFFF), (0x20044, 0x00CF1200), (0x20058, 0xFFFF), (0x2005C, 0x00CF9E00)]
/-- LldtLoads: a null selector, one of the LDT, one past the table, one of a data segment, one of an LDT that is
not present, and one of an LDT. -/
theorem witness_LldtLoads : systems.pe = true ∧ systems.cpl = 0 ∧ isNull 3 = true ∧ ti 0x2C = true ∧
    okThen (fetchDesc 0x60) systems (fun r _ => r == none) = true ∧
    okThen (fetchDesc 0x10) systems (fun r _ => r.any Desc.s) = true ∧
    okThen (fetchDesc 0x30) systems (fun r _ => r.any fun d => !d.s && d.type == 2 && !d.present) = true ∧
    okThen (readRm16 (.reg .eax)) (set .eax 0x28 systems) (fun sel t => okThen (fetchDesc sel) t (fun r _ =>
      r.any fun d => !d.s && d.type == 2 && d.present)) = true := by decide +kernel
/-- A GDT of 32 entries with one descriptor of each kind that a transfer or a load meets; the names say which. -/
def zoo (s : State) : State :=
  place (tables { s with gdtr := { base := 0x20000, limit := 0xFF } })
    [(0x20030, 0xFF), (0x20034, 0x0202), (0x20038, 0x67), (0x2003C, 0x8900), (0x20048, 0x67), (0x2004C, 0x8B00),
      (0x20058, 0xFFFF), (0x2005C, 0x00CF9E00), (0x20060, 0x2B), (0x20064, 0x8100), (0x20068, 0xFFFF),
      (0x2006C, 0x00CF1A00), (0x20070, 0x67), (0x20074, 0x0900), (0x20078, 0x00081234), (0x2007C, 0x8C00),
      (0x20080, 0x00081234), (0x20084, 0x0C00), (0x20088, 0x00FF), (0x2008C, 0x00409A00), (0x20090, 0x00085000),
      (0x20094, 0x8E00), (0x200A0, 0xFFFF), (0x200A4, 0x00CFB200), (0x200A8, 0xFFFF), (0x200AC, 0x00CF1200),
      (0x200B0, 0xFFFF), (0x200B4, 0x00CFF200), (0x200B8, 0xFFFF), (0x200BC, 0x00CF7A00), (0x200C0, 0xFFFF),
      (0x200C4, 0x00CF7200)]
/-- A descriptor is found under a selector and is as said. -/
def finds (s : State) (sel : BitVec 16) (p : Desc → Bool) : Bool :=
  okThen (fetchDesc sel) s fun r _ => r.any p
/-- Nothing is found under a selector. -/
def finds_none (s : State) (sel : BitVec 16) : Bool := okThen (fetchDesc sel) s fun r _ => r == none

/-- LtrLoads: null, of the LDT, past the table; an 80286 TSS, a busy one, a segment, one not present, and an idle one. -/
theorem witness_LtrLoads : isNull 3 = true ∧ isNull 0x3C = false ∧ ti 0x3C = true ∧ finds_none prot 0x60 = true ∧
    finds (zoo prot) 0x60 (fun d => !d.s && d.type == 1) = true ∧
    finds (zoo prot) 0x48 (fun d => !d.s && d.type == 11) = true ∧ finds (zoo prot) 8 Desc.s = true ∧
    finds (zoo prot) 0x70 (fun d => !d.s && d.type == 9 && !d.present) = true ∧
    okThen (readRm16 (.reg .eax)) (set .eax 0x38 (zoo prot)) (fun sel t =>
      !isNull sel && !ti sel && okThen (fetchDesc sel) t (fun r u => r.any fun d =>
        !d.s && d.type == 9 && d.present && okThen (translateRange (d.addr + 4) 4 true false) u fun _ _ => true)) =
    true := by decide +kernel
/-- TableLoads: an operand at the end of a segment. -/
theorem witness_TableLoads :
    let s : State := { prot with seg := { prot.seg with ds := { flat 0x10 0x093 with limit := 0xFFF } } }
    s.level = 0 ∧ okThen (memRead { ovr := none, ea := .abs32 0xFFA } 0 2) s (fun _ t =>
      okThen (memRead { ovr := none, ea := .abs32 0xFFA } 2 4) t (fun _ _ => true)) = true := by decide +kernel
/-- PrivilegedDenied. -/
theorem witness_PrivilegedDenied :
    privilegedInstr .hlt = true ∧ privilegedInstr (.lgdt .w32 (at_ (.abs32 0))) = true ∧ user.pe = true ∧
      user.cpl ≠ 0 := by decide
/-- DataSegmentLoad: null, past the table, a system descriptor, one not present, and the last descriptor of the
table, conforming code whose accessed bit is clear. -/
theorem witness_DataSegmentLoad : isNull 3 = true ∧ systems.pe = true ∧
    okThen (fetchDesc 0x63) systems (fun r _ => r == none) = true ∧
    okThen (fetchDesc 0x28) systems (fun r _ => r.any fun d => !d.s) = true ∧
    okThen (fetchDesc 0x40) systems (fun r _ => r.any fun d => d.s && !d.exec && !d.present) = true ∧
    okThen (fetchDesc 0x5B) systems (fun r t => r.any fun d => d.isConforming && d.rw && d.present &&
      okThen (prepareLoad d) t fun ps _ => ps.length == 4) = true := by decide +kernel
/-- StackSegmentLoad: null, past the table, code, one not present, and a writable segment of the level. -/
theorem witness_StackSegmentLoad : isNull 0 = true ∧
    okThen (fetchDesc 0x60) systems (fun r _ => r == none) = true ∧
    okThen (fetchDesc 8) systems (fun r _ => r.any Desc.exec) = true ∧
    okThen (fetchDesc 0x40) systems (fun r _ => r.any fun d => d.isWritable && d.dpl == 0 && !d.present) = true ∧
    okThen (fetchDesc 0x10) systems (fun r t => r.any fun d => d.isWritable && d.dpl == 0 && d.present &&
      okThen (prepareLoad d) t fun ps _ => ps.length == 4) = true := by decide +kernel
/-- SegmentLoadInstructions: MOV, POP and a far pointer that load the selector 10H; a readable operand and one past the
limit; an offset past the limit, a selector past it, and one that ends at it; real-address mode. -/
theorem witness_SegmentLoadInstructions :
    let s := place (tables (set .eax 0x10 prot)) [(0x1000, 0x10), (0x1004, 0x10)]
    State.reset.pe = false ∧
      okThen (readRm16 (.reg .eax)) s (fun sel t => okThen (loadSeg .ss sel) t fun _ _ => true) = true ∧
      raises (readRm16 (at_ (.abs32 0xFFF))) { prot with seg := { prot.seg with
        ds := { flat 0x10 0x093 with limit := 0xFFF } } } excGP0 = true ∧
      okThen (stackRead 0 4) s (fun v t => okThen (loadSeg .fs (lo16 v)) t fun _ _ => true) = true ∧
      okThen (readFarPtr .w32 { ovr := none, ea := .abs32 0x1000 }) s (fun p t =>
        okThen (loadSeg .ds p.2) t fun _ _ => true) = true ∧
      (let m : MemOp := { ovr := none, ea := .abs32 0x1000 }
       let upTo (l : Word) : State := { s with seg := { s.seg with ds := { flat 0x10 0x093 with limit := l } } }
       raises (memRead m 0 4) (upTo 0x1002) excGP0 = true ∧
       okThen (memRead m 0 4) (upTo 0x1004) (fun _ _ => !limitOk ((upTo 0x1004).segOf m.seg) 0x1000 6) = true ∧
       okThen (memRead m 0 4) (upTo 0x1005) (fun _ u => limitOk ((upTo 0x1005).segOf m.seg) 0x1000 6 &&
         okThen (segRead m.seg 0x1004 2) u fun v _ => v == 0x10) = true) := by decide +kernel
/-- Pushes: both sizes, at the bottom of a stack segment. -/
theorem witness_Pushes :
    let s : State := { set .esp 4 prot with seg := { prot.seg with ss := { flat 0x10 0x493 with limit := 0xFFF } } }
    [2, 4].all (fun n => okThen (preparePushes true [n]) s fun ws _ => ws.length == 1) = true ∧
      okThen (preparePushes true [4]) s.drawn (fun ws _ => ws.length == 1) = true := by decide +kernel
/-- Pops: both sizes, at the end of a stack segment. -/
theorem witness_Pops :
    let s : State := { set .esp 0xFFC prot with seg := { prot.seg with
      ss := { flat 0x10 0x493 with limit := 0xFFF } } }
    [2, 4].all (fun n => okThen (stackRead 0 n) s fun _ _ => true) = true := by decide +kernel

/-! ### Transfers -/

/-- NearTransfers: a destination at the limit and one past it; a CALL's push; a return offset. -/
theorem witness_NearTransfers :
    let s : State := { set .eax 0xFFFF (place prot [(0x1000, 0xFFFF)]) with seg := { prot.seg with
      cs := { flat 8 0xC9B with limit := 0xFFFF } } }
    okThen (readRm .w32 (.reg .eax)) s (fun dst t => decide (dst ≤ s.seg.cs.limit) &&
      okThen (preparePushes true [4]) t fun ws _ => ws.length == 1) = true ∧
    okThen (readRm .w32 (.reg .eax)) (set .eax 0x10000 s) (fun dst _ => !decide (dst ≤ s.seg.cs.limit)) = true ∧
    okThen (stackRead 0 4) s (fun dst _ => decide (dst ≤ s.seg.cs.limit)) = true := by decide +kernel
/-- Real-address mode with a stack pointer of 4. -/
def real : State := { State.reset with gpr := { State.reset.gpr with esp := 4 }, highLatch := false }
/-- FarTransfersReal: a direct pointer, with room for both pushes. -/
theorem witness_FarTransfersReal :
    real.pe = false ∧ FarOperand true (.callFar (.i16 0x10) 0x1234) .w16 0x10 0x1234 real real ∧
      FarOperand false (.jmpFar (.i16 0x10) 0x1234) .w16 0x10 0x1234 real real ∧
      okThen (preparePushes true [2, 2]) real (fun _ t => okThen (pushedSel .w16 real.seg.cs.sel) t fun _ _ =>
        true) = true :=
  ⟨rfl, .inl ⟨.i16 0x10, rfl, rfl, rfl, rfl⟩, .inl ⟨.i16 0x10, rfl, rfl, rfl, rfl⟩, by decide +kernel⟩
/-- FarTransfersDirect: conforming code of level 0 from level 3, with its accessed bit clear; nonconforming code
of another level, and of the level with a higher RPL; code that is not present; an offset at the limit and past it; a
null selector, none, data, an interrupt gate, an 80286 TSS. -/
theorem witness_FarTransfersDirect :
    let s := zoo user
    FarOperand true (.callFar (.i32 0x1000) 0x58) .w32 0x1000 0x58 s s ∧ s.pe = true ∧ isNull 0x58 = false ∧
      isNull 3 = true ∧ finds_none s 0x100 = true ∧
      okThen (fetchDesc 0x58) s (fun r t => r.any fun d => d.isCode && d.ec && decide (d.dpl ≤ s.cpl) && d.present &&
        decide (0x1000#32 ≤ d.limit) && okThen (prepareA d) t (fun pa _ => pa.length == 1) &&
        okThen (preparePushes true [4, 4]) t fun _ u => okThen (prepareA d) u fun _ v =>
          okThen (pushedSel .w32 s.seg.cs.sel) v fun _ _ => true) = true ∧
      finds s 8 (fun d => d.isCode && !d.ec && d.dpl != s.cpl) = true ∧
      finds (zoo prot) 0xB (fun d => d.isCode && !d.ec && d.dpl == prot.cpl && !decide (rpl 0xB ≤ prot.cpl)) = true ∧
      finds s 0xBB (fun d => d.isCode && !d.ec && d.dpl == s.cpl && !d.present) = true ∧
      finds (zoo prot) 0x88 (fun d => d.isCode && d.present && decide (0xFF#32 ≤ d.limit) &&
        !decide (0x100#32 ≤ d.limit)) = true ∧
      finds s 0x10 (fun d => d.s && !d.isCode) = true ∧ finds s 0x90 (fun d => !d.s && d.type == 14) = true ∧
      finds s 0x60 (fun d => !d.s && d.type == 1) = true :=
  ⟨.inl ⟨.i32 0x1000, rfl, rfl, rfl, rfl⟩, by decide +kernel⟩
/-- What `innerStack` finds of a stack segment's descriptor under a selector placed in the TSS of `zoo`. -/
def innerSs (sel : Word) (p : Desc → Bool) : Bool :=
  let s := place (zoo user) [(0x40004, 0x9000), (0x40008, sel)]
  okThen (sysRead (s.tr.base + 4) 4) s fun _ s1 => okThen (sysRead (s.tr.base + 8) 2) s1 fun v s2 =>
    lo16 v == lo16 sel && !isNull (lo16 v) && okThen (fetchDesc (lo16 v)) s2 fun r _ =>
      (match r with | none => p { d0 := 0, d1 := 0, addr := 0 } | some d => p d)
/-- CallGateInner: rule R311, the inner stack's room exactly what is pushed; TR never loaded; a TSS that ends with the
slot and one byte before; a selector that is null, past the table, of another RPL, of code, of another level, and of a
segment that is not present; a stack without room; parameters past the old stack's limit; an offset past the limit. -/
theorem witness_CallGateInner :
    let s := place gated [(0x40004, 0x18)]
    FarOperand true (.callFar (.i32 0) 0x30) .w32 0 0x30 s s ∧
    State.reset.tr.loaded = false ∧ s.tr.loaded = true ∧ isNull 3 = true ∧
    ({ s.tr with limit := 9 } : TaskReg).limit.toNat = 4 + 8 * (0#2).toNat + 5 ∧
    ({ s.tr with limit := 8 } : TaskReg).limit.toNat < 4 + 8 * (0#2).toNat + 5 ∧
    innerSs 0x100 (fun d => d == { d0 := 0, d1 := 0, addr := 0 }) = true ∧ innerSs 0x11 (fun d => d.isWritable) = true ∧
    innerSs 8 (fun d => !d.isWritable) = true ∧ innerSs 0x20 (fun d => d.isWritable && d.dpl != 0) = true ∧
    innerSs 0xA8 (fun d => d.isWritable && d.dpl == 0 && !d.present) = true ∧
    okThen (fetchDesc 0x30) s (fun r s2 => r.any fun g => !g.s && g.type == 12 && decide (s.cpl ≤ g.dpl) &&
      decide (rpl 0x30 ≤ g.dpl) && g.present && !isNull g.gateSel && g.gateCount == 2 &&
      okThen (fetchDesc g.gateSel) s2 (fun r s3 => r.any fun t => t.isCode && !t.ec && decide (t.dpl < s.cpl) &&
        t.present && decide (g.gateOff ≤ t.limit) && !decide (g.gateOff ≤ ({ t with d0 := 0xFF, d1 := 0x409A00 } : Desc).limit) &&
        raises (innerStack t.dpl false) { s3 with tr := { s3.tr with limit := 8 } } (excTS (.sel 0x28)) &&
        okThen (innerStack t.dpl false) s3 fun p s4 =>
          stackRoom (p.2.2.cache p.1) p.2.1 24 && !stackRoom { p.2.2.cache p.1 with limit := 0x16 } p.2.1 24 &&
          raises (readParams 0 2) { s4 with seg := { s4.seg with ss := { s4.seg.ss with limit := 0x2006, attr := 0x4F3 } } }
            (excSS (.sel 0)) && okThen (readParams 0 2) s4 fun _ s5 =>
          okThen (prepareA t) s5 fun _ s6 => okThen (prepareA p.2.2) s6 fun _ s7 =>
          okThen (innerWindows true (p.2.2.cache p.1) p.2.1 0 (List.replicate 6 4)) s7 fun _ s8 =>
          okThen (pushedSel .w32 s.seg.ss.sel) s8 fun _ s9 =>
          okThen (pushedSel .w32 s.seg.cs.sel) s9 fun _ _ => true)) = true :=
  ⟨.inl ⟨.i32 0, rfl, rfl, rfl, rfl⟩, by decide +kernel⟩
/-- A call gate of level 3 at 50H of `zoo`, to a given selector and offset. -/
def gateTo (sel off : Word) (s : State) : State := place (zoo s) [(0x20050, (sel <<< 16) ||| off), (0x20054, 0xEC00)]
/-- What stands behind that gate. -/
def behind (sel off : Word) (s : State) (p : Desc → Desc → State → Bool) : Bool :=
  okThen (fetchDesc 0x50) (gateTo sel off s) fun r s2 => r.any fun g => !g.s && g.type == 12 && g.present &&
    decide (s.cpl ≤ g.dpl) && decide (rpl 0x50 ≤ g.dpl) && !isNull g.gateSel && okThen (fetchDesc g.gateSel) s2 fun r s3 =>
      r.any fun t => p g t s3
/-- CallGateSameLevel: a gate that the level, or the RPL, may not use; one that is not present; a null selector behind
it; none, data, code of an inner level for JMP, code of an outer level, code that is not present; an offset past the
limit; and one at the limit. -/
theorem witness_CallGateSameLevel :
    let s := gateTo 8 0x1234 prot
    FarOperand true (.callFar (.i32 0) 0x50) .w32 0 0x50 s s ∧ FarOperand false (.jmpFar (.i32 0) 0x50) .w32 0 0x50 s s ∧
    finds (zoo user) 0x78 (fun g => !g.s && g.type == 12 && !decide (user.cpl ≤ g.dpl)) = true ∧
    finds (zoo prot) 0x7B (fun g => g.type == 12 && !decide (rpl 0x7B ≤ g.dpl)) = true ∧
    finds (zoo prot) 0x80 (fun g => !g.s && g.type == 12 && !g.present && prot.cpl == 0) = true ∧
    finds (gateTo 3 0 prot) 0x50 (fun g => g.type == 12 && g.present && isNull g.gateSel) = true ∧
    finds_none s 0x100 = true ∧ behind 0x10 0 prot (fun _ t _ => !t.isCode) = true ∧
    behind 8 0 user (fun _ t _ => t.isCode && !t.ec && decide (t.dpl < user.cpl)) = true ∧
    behind 0x18 0 prot (fun _ t _ => t.isCode && !decide (t.dpl ≤ prot.cpl)) = true ∧
    behind 0x68 0 prot (fun _ t _ => t.isCode && t.dpl == 0 && !t.present) = true ∧
    behind 0x88 0x100 prot (fun g t _ => t.isCode && t.dpl == 0 && t.present && !decide (g.gateOff ≤ t.limit)) = true ∧
    behind 0x88 0xFF prot (fun g t s3 => t.isCode && !t.ec && t.dpl == 0 && t.present && decide (g.gateOff ≤ t.limit) &&
      okThen (prepareA t) s3 (fun _ _ => true) && okThen (preparePushes true [4, 4]) s3 fun _ s4 =>
        okThen (prepareA t) s4 fun _ s5 => okThen (pushedSel .w32 s.seg.cs.sel) s5 fun _ _ => true) = true :=
  ⟨.inl ⟨.i32 0, rfl, rfl, rfl, rfl⟩, .inl ⟨.i32 0, rfl, rfl, rfl, rfl⟩, by decide +kernel⟩
/-- FarReturnSame: a selector of an inner level, null, none, data, code of another level, code that is not present; a
stack one byte too small; a return pointer at the end of the stack segment, its offset at the limit and past it; and
real-address mode. -/
theorem witness_FarReturnSame :
    let z := zoo prot
    let s : State := { place (set .esp 0xFF8 z) [(0xFF8, 0xFF), (0xFFC, 0x88)] with
      seg := { prot.seg with ss := { flat 0x10 0x493 with limit := 0xFFF } } }
    rpl 0x18 < user.cpl ∧ z.cpl ≤ rpl 3 ∧ isNull 3 = true ∧ finds_none z 0x100 = true ∧
    finds z 0x10 (fun d => !d.isCode) = true ∧ finds z 0x18 (fun d => d.isCode && !d.ec && d.dpl != rpl 0x18) = true ∧
    finds z 0x68 (fun d => d.isCode && !d.ec && d.dpl == rpl 0x68 && !d.present) = true ∧
    (s.seg.ss.valid && limitOk s.seg.ss (s.stackAt 0) 8) = true ∧
    (s.seg.ss.valid && limitOk s.seg.ss ((set .esp 0xFF9 s).stackAt 0) 8) = false ∧
    okThen (stackRead 0 4) s (fun eip s1 => okThen (stackRead (retWord .w32 1) 4) s1 fun v s2 =>
      rpl (lo16 v) == s.cpl && okThen (returnSegment (lo16 v)) s2 fun d s3 => decide (eip ≤ d.limit) &&
        !decide (eip + 1 ≤ d.limit) && okThen (prepareA d) s3 fun _ _ => true) = true ∧
    raises (returnSegment 0x100) z (excGP (.sel 0x100)) = true ∧
    okThen (stackRead 0 2) real (fun _ s1 => okThen (stackRead (retWord .w16 1) 2) s1 fun _ _ => true) = true := by
  decide +kernel
/-- FarReturnOuter: a stack selector that is null, none, of a read-only segment, of another RPL, and of a segment not
present; rule R311, eight bytes of parameters, room for them and for one byte less; the offset at the limit and past
it. -/
theorem witness_FarReturnOuter :
    let z := zoo prot
    let s := place (tables (set .esp 0x7FE8 prot))
      [(0x7FE8, 0x107), (0x7FEC, 0x1B), (0x7FF8, 0x2000), (0x7FFC, 0x23)]
    isNull 3 = true ∧ finds_none z 0x103 = true ∧ finds z 0x1B (fun d => !d.isWritable) = true ∧
    finds z 0x20 (fun d => d.isWritable && d.dpl == rpl 0x1B && rpl 0x20 != rpl 0x1B) = true ∧
    finds z 0xC3 (fun d => d.isWritable && d.dpl == 3 && !d.present) = true ∧
    raises (returnStack 0x103 0x1B) z (excGP (.sel 0x100)) = true ∧
    (s.seg.ss.valid && limitOk s.seg.ss (s.stackAt 0) 8) = true ∧ limitOk s.seg.ss (s.stackAt 0) 24 = true ∧
    limitOk { s.seg.ss with limit := 0x7FFF } (s.stackAt 0) 24 = true ∧
    limitOk { s.seg.ss with limit := 0x7FFE } (s.stackAt 0) 24 = false ∧
    okThen (stackRead 0 4) s (fun eip s1 => okThen (stackRead (retWord .w32 1) 4) s1 fun v s2 =>
      decide (s.cpl < rpl (lo16 v)) && okThen (returnSegment (lo16 v)) s2 fun d s3 => decide (eip ≤ d.limit) &&
        !decide (eip ≤ ({ d with d0 := 0x106, d1 := 0x0040FA00 } : Desc).limit) &&
        okThen (stackRead (retWord .w32 2 + zx16 8) 4) s3 fun _ s4 =>
        okThen (stackRead (retWord .w32 2 + zx16 8 + retWord .w32 1) 4) s4 fun v' s5 =>
        okThen (returnStack (lo16 v') (lo16 v)) s5 fun sd s6 => okThen (prepareA d) s6 fun _ s7 =>
          okThen (prepareA sd) s7 fun _ _ => true) = true := by decide +kernel

/-! ### Input and output -/

/-- IoPermission: real-address mode; a level equal to IOPL; TR never loaded; a map that allows port 40 and denies port
41, and RAM everywhere. -/
theorem witness_IoPermission :
    let s := mapped user
    real.pe = false ∧ ({ user with eflags := 0x3002 } : State).cpl = ({ user with eflags := 0x3002 } : State).iopl ∧
      ({ user with tr := State.reset.tr } : State).tr.loaded = false ∧ s.tr.loaded = true ∧ s.plat.map = [] ∧
      s.pe = true ∧ s.iopl < s.cpl ∧ s.pg = false ∧
      (leWord (s.bytesAt (physRange (s.tr.base + 0x66).toNat 2))).toNat = 0x68 ∧ 0x68 < s.tr.limit.toNat ∧
      (s.byteAt (s.tr.base + 0x6D).toNat).getLsbD 0 = false ∧ (s.byteAt (s.tr.base + 0x6D).toNat).getLsbD 1 = true := by
  decide +kernel
/-- PortMoves: port FFFFH alone, FFFCH for a doubleword. -/
theorem witness_PortMoves : okThen (ioCheck 0xFFFF 1) prot (fun _ _ => true) = true ∧
    okThen (ioCheck 0xFFFC 4) prot (fun _ _ => true) = true ∧ (0xFFFC#16).toNat + 4 ≤ 65536 ∧
    lo16 (set .edx 0xFFFC prot).gpr.edx = 0xFFFC := by decide +kernel
/-- StringMoves: an element at the end of a segment, either way; a range past port FFFFH; an element that does not fit. -/
theorem witness_StringMoves :
    let s : State := { set .edi 0xFFC (set .esi 0xFFC prot) with seg := { prot.seg with
      es := { flat 0x10 0x493 with limit := 0xFFF }, ds := { flat 0x10 0x493 with limit := 0xFFF } } }
    okThen (ioCheck (lo16 s.gpr.edx) 4) s (fun _ t => (lo16 s.gpr.edx).toNat + 4 ≤ 65536 &&
      okThen (segWindow .es (s.strOff .a32 .edi) 4 true) t (fun _ _ => true) &&
      okThen (segRead .ds (s.strOff .a32 .esi) 4) t (fun _ _ => true)) = true ∧
    (let s := set .edx 0xFFFD s
     okThen (ioCheck (lo16 s.gpr.edx) 4) s (fun _ t => 65536 < (lo16 s.gpr.edx).toNat + 4 &&
       okThen (segWindow .es (s.strOff .a32 .edi) 4 true) t (fun _ _ => true) &&
       okThen (segRead .ds (s.strOff .a32 .esi) 4) t (fun _ _ => true))) = true ∧
    (let s := set .edi 0xFFD (set .esi 0xFFD s)
     okThen (ioCheck (lo16 s.gpr.edx) 4) s (fun _ t =>
       raises (segWindow .es (s.strOff .a32 .edi) 4 true) t excGP0 &&
       raises (segRead .ds (s.strOff .a32 .esi) 4) t excGP0)) = true := by decide +kernel
/-- RepeatsElements: a count of zero, of one, of two. -/
theorem witness_RepeatsElements : (set .ecx 0 prot).strOff .a32 .ecx = 0 ∧
    [1#32, 2].all (fun c => (set .ecx c prot).strOff .a32 .ecx != 0 &&
      okThen (outsElement 1 .a32 none) (set .ecx c prot) fun _ t =>
        (t.bumpStr .a32 .ecx (-1)).strOff .a32 .ecx == c - 1) = true := by decide +kernel
/-- InterruptFlag: real-address mode, a level equal to IOPL, a level above it. -/
theorem witness_InterruptFlag : real.pe = false ∧
    ({ user with eflags := 0x3002 } : State).cpl ≤ ({ user with eflags := 0x3002 } : State).iopl ∧ user.pe = true ∧
    user.iopl < user.cpl := by decide

/-! ### Interrupts and exceptions -/

/-- SoftwareInterrupts: a handler's state, a refused gate, and real-address mode with the last entry of the table and
one past it; a handler's task is in `witness_SoftwareInterrupts_task`. -/
theorem witness_SoftwareInterrupts : prot.flag 11 = false ∧ ({ prot with eflags := 0x802 } : State).flag 11 = true ∧
    okThen (deliver { vector := 0x40, cls := .software, ret := 0x102, ext := false }) (gate 0x40 (tables prot))
      (fun b _ => !b) = true ∧
    raises (deliver { vector := 0x40, cls := .software, ret := 0x102, ext := false }) (gate 0x40 (tables user))
      (excGP (.sel 0x202)) = true ∧
    (let s := set .esp 0x100 real
     s.pe = false ∧ 4 * (0xFF#8).toNat + 3 ≤ s.idtr.limit.toNat ∧ s.plat.map = [] ∧
       ({ s with idtr := { base := 0, limit := 0x3FE } } : State).idtr.limit.toNat < 4 * (0xFF#8).toNat + 3 ∧
       okThen (preparePushes false [2, 2, 2]) s (fun _ _ => true) = true) := by decide +kernel
/-- An IDT entry for vector 13 of given type, level and presence, to a selector and an offset, over `zoo`. -/
def entry (attr sel off : Word) (s : State) : State := place (zoo s) [(0x30068, (sel <<< 16) ||| off), (0x3006C, attr <<< 8)]
/-- What stands in the IDT for vector 13, and behind it. -/
def entryIs (s : State) (p : Desc → Bool) (q : Desc → Option Desc → Bool) : Bool :=
  okThen (readDesc (s.idtr.base + 0x68)) s fun g s1 => p g && okThen (fetchDesc g.gateSel) s1 fun r _ => q g r
/-- GateEntrySame: an 80286 gate, a call gate, a gate of level 0 used from level 3, one not present; behind it a null
selector, none, data, code that is not present; an offset past the limit; no room on the stack; and an exception
with an error code through an interrupt gate, the offset at the limit. -/
theorem witness_GateEntrySame :
    let s := entry 0x8E 0x88 0xFF prot
    8 * (13#8).toNat + 7 ≤ s.idtr.limit.toNat ∧ (s.seg.ss.valid && limitOk s.seg.ss (s.stackAt (-16)) 16) = true ∧
    (s.seg.ss.valid && limitOk { s.seg.ss with limit := 0xFFE } (s.stackAt (-16)) 16) = false ∧
    entryIs (entry 0x86 8 0 prot) (fun g => !g.s && g.type == 6) (fun _ _ => true) = true ∧
    entryIs (entry 0x8C 8 0 prot) (fun g => !g.s && g.type == 12) (fun _ _ => true) = true ∧
    entryIs (entry 0x8E 8 0 user) (fun g => !g.s && g.type == 14 && !decide (user.cpl ≤ g.dpl)) (fun _ _ => true) = true ∧
    entryIs (entry 0x0E 8 0 prot) (fun g => !g.s && g.type == 14 && !g.present) (fun _ _ => true) = true ∧
    entryIs (entry 0x8F 3 0 prot) (fun g => g.type == 15 && g.present && isNull g.gateSel) (fun _ _ => true) = true ∧
    entryIs (entry 0x8F 0x100 0 prot) (fun g => g.present && !isNull g.gateSel) (fun _ r => r == none) = true ∧
    entryIs (entry 0x8F 0x10 0 prot) (fun g => g.present) (fun _ r => r.any fun t => !t.isCode) = true ∧
    entryIs (entry 0x8F 0x68 0 prot) (fun g => g.present) (fun _ r => r.any fun t => t.isCode && !t.present) = true ∧
    entryIs (entry 0x8F 0x88 0x100 prot) (fun g => g.present) (fun g r => r.any fun t =>
      t.isCode && t.dpl == 0 && t.present && !decide (g.gateOff ≤ t.limit)) = true ∧
    okThen (readDesc (s.idtr.base + 0x68)) s (fun g s1 => !g.s && g.type == 14 && g.present && !isNull g.gateSel &&
      okThen (pushedCode (.sel 0)) s1 fun err s2 => err.toList.length == 1 &&
      okThen (fetchDesc g.gateSel) s2 fun r s3 => r.any fun t => t.isCode && !t.ec && t.dpl == s.cpl && t.present &&
        decide (g.gateOff ≤ t.limit) && okThen (prepareA t) s3 fun _ s4 =>
        okThen (preparePushes false (List.replicate 4 4)) s4 fun _ s5 =>
        okThen (pushedSel .w32 s.seg.cs.sel) s5 fun _ _ => true) = true := by decide +kernel
/-- GateEntryInner: a software interrupt of level 3 through a gate of level 3, rule R426, with room for the frame and
without; an offset past the limit; a TSS without the slot. -/
theorem witness_GateEntryInner :
    let s := place (tables user) [(0x30400, 0x00085000), (0x30404, 0xEE00), (0x40004, 20)]
    8 * (0x80#8).toNat + 7 ≤ s.idtr.limit.toNat ∧
    okThen (readDesc (s.idtr.base + 0x400)) s (fun g s1 => !g.s && g.type == 14 && g.present &&
      decide (s.cpl ≤ g.dpl) && !isNull g.gateSel && okThen (pushedCode .none) s1 fun err s2 => err == none &&
      okThen (fetchDesc g.gateSel) s2 fun r s3 => r.any fun t => t.isCode && !t.ec && decide (t.dpl < s.cpl) &&
        t.present && decide (g.gateOff ≤ t.limit) && !decide (g.gateOff ≤ ({ t with d0 := 0xFF, d1 := 0x409A00 } : Desc).limit) &&
        raises (innerStack t.dpl false) { s3 with tr := { s3.tr with limit := 8 } } (excTS (.sel 0x28)) &&
        okThen (innerStack t.dpl false) s3 fun p s4 =>
        stackRoom (p.2.2.cache p.1) p.2.1 20 && !stackRoom { p.2.2.cache p.1 with limit := 18 } p.2.1 20 &&
        okThen (prepareA t) s4 fun _ s5 => okThen (prepareA p.2.2) s5 fun _ s6 =>
        okThen (innerWindows false (p.2.2.cache p.1) p.2.1 0 (List.replicate 5 4)) s6 fun _ s7 =>
        okThen (pushedSel .w32 s.seg.ss.sel) s7 fun _ s8 =>
        okThen (pushedSel .w32 s.seg.cs.sel) s8 fun _ _ => true) = true := by decide +kernel
/-- ExceptionTaken: #GP delivered; #GP during #GP, a double fault; #GP during #UD, in series; #GP during #DF,
shutdown. -/
theorem witness_ExceptionTaken :
    okThen (deliver { vector := 13, cls := .exception, code := .sel 0, fault := true, ret := 0x100, ext := true })
      (gate 13 (tables prot)) (fun b _ => !b) = true ∧
    [(13#8, true), (6, false), (8, false)].all (fun p =>
      raises (deliver { vector := p.1, cls := .exception, ret := 0x100, ext := true }) (tables prot)
        (excGP (idtErr p.1 true)) && (contributory p.1 && contributory 13) == p.2) = true := by decide +kernel
/-- Shutdown: an IDT with limit 0; shutdown with nothing to come, with an input without RESET and an NMI, held where
the NMI latch is clear and forgotten where it is set, and with RESET. -/
theorem witness_Shutdown :
    let d : State := { prot with run := .shutdown }
    ({ prot with idtr := { base := 0, limit := 0 } } : State).idtr.limit = 0 ∧ d.run = .shutdown ∧ d.env = [] ∧
      d.pins.reset = false ∧ { Pins.idle with nmi := true }.reset = false ∧
      nexts (step { d with env := [{ Pins.idle with nmi := true }] }) (fun t => t.run == .shutdown && t.pins.nmi) = true ∧
      nexts (step { d with nmiLatch := true, env := [{ Pins.idle with nmi := true }] })
        (fun t => t.run == .shutdown && t.nmiLatch && !t.pins.nmi) = true ∧
      nexts (step { d with env := [{ Pins.idle with reset := true }] }) (fun t => t.run == .running) = true := by
  decide +kernel
/-- IretSame: a stack that ends with the frame and one that ends before; a code segment not present; the offset at the
limit and past it; an image with VM set; real-address mode. -/
theorem witness_IretSame :
    let s : State := { place (set .esp 0xFF4 (zoo prot)) [(0xFF4, 0xFF), (0xFF8, 0x88), (0xFFC, 0x202)] with
      seg := { prot.seg with ss := { flat 0x10 0x493 with limit := 0xFFF } } }
    (s.seg.ss.valid && limitOk s.seg.ss (s.stackAt 0) 12) = true ∧ s.flag 14 = false ∧
    (s.seg.ss.valid && limitOk { s.seg.ss with limit := 0xFFE } (s.stackAt 0) 12) = false ∧
    raises (returnSegment 0x68) s (excNP (.sel 0x68)) = true ∧ (0x20202#32).getLsbD 17 = true ∧
    okThen (stackRead 0 4) s (fun eip s1 => okThen (stackRead (retWord .w32 1) 4) s1 fun v s2 =>
      okThen (stackRead (retWord .w32 2) 4) s2 fun fl s3 => !fl.getLsbD 17 && rpl (lo16 v) == s.cpl &&
        okThen (returnSegment (lo16 v)) s3 fun d s4 => decide (eip ≤ d.limit) && !decide (eip + 1 ≤ d.limit) &&
          okThen (prepareA d) s4 fun _ _ => true) = true ∧
    okThen (stackRead 0 2) real (fun _ s1 => okThen (stackRead (retWord .w16 1) 2) s1 fun _ s2 =>
      okThen (stackRead (retWord .w16 2) 2) s2 fun _ _ => true) = true := by decide +kernel
/-- IretOuter: rule R426, room for the frame and for one byte less; the offset past the limit; a stack segment that is
not present; an image with VM set. -/
theorem witness_IretOuter :
    let s := place (zoo (set .esp 0x8FEC prot))
      [(0x8FEC, 0x302), (0x8FF0, 0x1B), (0x8FF4, 0x246), (0x8FF8, 0x2000), (0x8FFC, 0x23)]
    s.flag 14 = false ∧ (s.seg.ss.valid && limitOk s.seg.ss (s.stackAt 0) 12) = true ∧
      limitOk s.seg.ss (s.stackAt 0) 20 = true ∧ limitOk { s.seg.ss with limit := 0x8FFE } (s.stackAt 0) 20 = false ∧
      raises (returnStack 0xC3 0x1B) s (excSS (.sel 0xC0)) = true ∧ (0x20246#32).getLsbD 17 = true ∧ s.cpl = 0 ∧
    okThen (stackRead 0 4) s (fun eip s1 => okThen (stackRead (retWord .w32 1) 4) s1 fun v s2 =>
      okThen (stackRead (retWord .w32 2) 4) s2 fun fl s3 => !fl.getLsbD 17 && decide (s.cpl < rpl (lo16 v)) &&
        okThen (returnSegment (lo16 v)) s3 fun d s4 => decide (eip ≤ d.limit) &&
          !decide (eip ≤ ({ d with d0 := 0x106, d1 := 0x0040FA00 } : Desc).limit) &&
          okThen (stackRead (retWord .w32 3) 4) s4 fun _ s5 =>
          okThen (stackRead (retWord .w32 3 + retWord .w32 1) 4) s5 fun v' s6 =>
          okThen (returnStack (lo16 v') (lo16 v)) s6 fun sd s7 => okThen (prepareA d) s7 fun _ s8 =>
            okThen (prepareA sd) s8 fun _ _ => true) = true := by decide +kernel
/-- BoundChecks: an index at the upper bound, and bounds that shut everything out. -/
theorem witness_BoundChecks :
    let m : MemOp := { ovr := none, ea := .abs32 0x1000 }
    okThen (memRead m 0 4) (place (set .eax 9 prot) [(0x1000, 0), (0x1004, 9)]) (fun lo t =>
      okThen (memRead m (retWord .w32 1) 4) t fun hi u => decide (signedOf .w32 lo ≤ signedOf .w32 (u.regSz .w32 .eax)) &&
        decide (signedOf .w32 (u.regSz .w32 .eax) ≤ signedOf .w32 hi)) = true ∧
    okThen (memRead m 0 2) (place prot [(0x1000, 0x80007FFF)]) (fun lo t =>
      okThen (memRead m (retWord .w16 1) 2) t fun hi u => decide (signedOf .w16 (u.regSz .w16 .eax) < signedOf .w16 lo) &&
        decide (signedOf .w16 hi < signedOf .w16 (u.regSz .w16 .eax))) = true := by decide +kernel
/-- BoundaryOrder: NOP after a load of SS; a debug trap; the T-bit trap of the debug handler's own task, and of
another; an instruction breakpoint at NOP and at an instruction that raises #GP; general detect; NMI held off and
accepted; INTR; a WAIT that waits, with an instruction breakpoint; a processor that is halted for ever, and one that waits for ever. -/
theorem witness_BoundaryOrder :
    let s := code prot [0x90]
    let own := place { prot with pend := { Pending.none with bt := true } } [(0x30008, 0x280000), (0x3000C, 0x8500)]
    let bp (t : State) : State := { t with dr := { t.dr with dr0 := 0x100, dr7 := 1 } }
    let ends (t : State) (e : Ended) : Bool :=
      t.pend.trap == false && t.run == .running && t.debugFaults && !t.dr.undefinedOn &&
        okThen nextInstr t.opened fun i u => nexts (exec i u) fun v => v.ended == e
    s.env = [] ∧ s.pins.reset = false ∧ s.run ≠ .shutdown ∧ s.flag bitVM = false ∧ s.inhibit = false ∧
      s.dr.undefinedOn = false ∧
      okThen nextInstr { s with inhibit := false, stiShadow := false, pend := .none, run := .running }
        (fun i _ => i == .nop) = true ∧
      ({ prot with pend := { Pending.none with bs := true } } : State).pend.trap = true ∧ prot.pend.trap = false ∧
      okThen ownDebugTask own (fun b _ => b) = true ∧
      okThen ownDebugTask { own with tr := { own.tr with sel := 0x38 } } (fun b _ => !b) = true ∧
      (bp s).codeHits true = 1 ∧ (bp s).generalDetect = false ∧ ends (bp s) .completed = true ∧
      ends (bp (code (gate 13 (tables user)) [0xF4])) (.raised 13) = true ∧
      (let w := bp (code { prot with run := .waiting, pins := { prot.pins with busy := true } } [0x9B])
       w.run = .waiting ∧ w.debugFaults = true ∧ (okThen nextInstr w.opened fun i u =>
         nexts (exec i u) fun v => v.ended == .completed) = true) ∧
      (let g := code { prot with plat := { prot.plat with iceActive := true } } [0x0F, 0x23, 0xC0]
       g.codeHits true = 0 ∧ g.generalDetect = true ∧ ends g .completed = true) ∧ prot.debugFaults = false ∧
      prot.nmiLatch = false ∧ prot.pins.nmi = false ∧ ({ prot with eflags := 0x202 } : State).flag bitIF = true ∧
      prot.stiShadow = false ∧ prot.flag bitIF = false ∧ prot.pins.intr = none ∧
      (step { prot with run := .halted } matches .fault .haltedForever) = true ∧
      (step { prot with run := .waiting, pins := { prot.pins with busy := true } } matches .fault .waitingForever) =
        true := by decide +kernel

/-! ### System control, the coprocessor, exchanges -/

/-- MachineStatus: level 0 and real-address mode. -/
theorem witness_MachineStatus : prot.level = 0 ∧ real.level = 0 ∧ real.pe = false ∧
    okThen (readRm16 (.reg .eax)) (set .eax 1 real) (fun v _ => v.getLsbD 0) = true := by decide +kernel
/-- ControlRegisterMoves: values that set PG without PE, set both, clear PE, keep PG clear; CR3 written and never
written; a TLB with a valid entry and without; the numbers of the other registers. -/
theorem witness_ControlRegisterMoves : prot.level = 0 ∧
    ((set .eax 0x80000000 prot).reg .eax).getLsbD 31 = true ∧ ((set .eax 0x80000000 prot).reg .eax).getLsbD 0 = false ∧
    ((set .eax 0x80000001 prot).reg .eax).getLsbD 0 = true ∧ ((set .eax 0x80000001 prot).reg .eax).getLsbD 31 = true ∧
    prot.pe = true ∧ ((set .eax 0x10 prot).reg .eax).getLsbD 0 = false ∧
    ((set .eax 0x10 prot).reg .eax).getLsbD 31 = false ∧ real.pe = false ∧
    prot.pg = false ∧ ((set .eax 1 prot).reg .eax).getLsbD 31 = false ∧ ((set .eax 1 prot).reg .eax).getLsbD 0 = true ∧
    prot.cr.cr3Written = false ∧ ({ prot with cr := { prot.cr with cr3Written := true } } : State).cr.cr3Written = true ∧
    (∀ e ∈ prot.tlb, e.v = false) ∧ ¬ (∀ e ∈ prot.tlb.set 19 { TlbEntry.invalid with v := true }, e.v = false) ∧
    (1#3 ≠ 0 ∧ 1#3 ≠ 2 ∧ 1#3 ≠ 3) ∧ ((4#3 = 4 ∨ 4#3 = 5) ∧ (5#3 = 4 ∨ 5#3 = 5)) ∧
    ∀ n ∈ [0#3, 1, 2, 3, 6, 7], n ≠ 4 ∧ n ≠ 5 := by decide +kernel
/-- DebugConditions: an access of one byte, of a page, at the last byte of the address space into the first, and of the
whole space; breakpoint 3; exact and not; a window that is watched and one that is not, read from RAM. -/
theorem witness_DebugConditions :
    let d : DebugRegs := { prot.dr with dr3 := 0, dr7 := 0x100000C0 }
    let s : State := { prot with dr := d }
    let w : Win := { lin := 0x1000, n := 4, phys := physRange 0x1000 4 }
    (∀ k ∈ [1, 4096, 4294967296], 0 < k ∧ k ≤ 4294967296) ∧ d.enabled 3 = true ∧
      d.dataMatch 3 0xFFFFFFFF 2 true = true ∧ d.dataMatch 3 0xFFFFFFFF 1 true = false ∧
      d.dataMatch 3 0xFFFFFFFF 2 false = false ∧ s.dr.exact = false ∧
      ({ s with dr := { d with dr7 := 0x100001C0 } } : State).dr.exact = true ∧
      ({ s with dr := { d with dr7 := 0x10000100 } } : State).dr.enabled 3 = false ∧
      okThen w.read s (fun _ _ => true) = true ∧ okThen ({ w with watch := false } : Win).read s (fun _ _ => true) = true ∧
      okThen (pure Done.next) s (fun _ _ => true) = true := by decide +kernel
/-- TestRegisterMoves: a write command with HT set and clear, for a tag that no other block holds, that another block
holds, and that another block holds with D changed; a lookup that misses and one that hits one block, with V = 1, and
with V = 0 and every tag initialised. -/
theorem witness_TestRegisterMoves :
    let e : TlbEntry := { page := 0x403, v := true, d := true, u := true, w := true, phys := 0x55, known := true }
    let t := prot.tlb.set 19 e
    let full := (List.range 32).map fun i => ({ TlbEntry.invalid with page := BitVec.ofNat 20 i, known := true } : TlbEntry)
    (0x00403D40#32).getLsbD 0 = false ∧ (0x00055018#32).getLsbD 4 = true ∧ (0x00055008#32).getLsbD 4 = false ∧
      pairsDefined 0x00403D40 = true ∧ duplicates prot.tlb 1 e = false ∧ duplicates t 1 e = true ∧
      duplicates t 1 { e with d := false } = false ∧ duplicates t 2 e = false ∧
      duplicates (prot.tlb.set 19 { e with v := false }) 1 { e with v := false } = true ∧
      (0x00403D41#32).getLsbD 0 = true ∧ (0x00403D41#32).getLsbD 11 = true ∧
      lookupBlocks prot.tlb 0x00403D41 7 = [] ∧ lookupBlocks t 0x00403D41 7 = [2] ∧
      (∀ x ∈ full, x.known = true) ∧ (0x000032A1#32).getLsbD 11 = false ∧ pairsDefined 0x000032A1 = true ∧
      lookupBlocks full 0x000032A1 7 = [0] ∧ lookupBlocks full 0x004032A1 7 = [] ∧
      prot.pg = false ∧ ({ prot with cr := { prot.cr with cr0 := 0x80000001 } } : State).pg = true := by decide +kernel
/-- CoprocessorTests: V160, V161, V163, BUSY# active, ERROR# active. -/
theorem witness_CoprocessorTests :
    let at_cr0 (c : Word) : State := { prot with cr := { prot.cr with cr0 := c } }
    (at_cr0 0x1D).em = true ∧ (at_cr0 0x19).ts = true ∧ (at_cr0 0x1B).mp = true ∧ prot.em = false ∧ prot.ts = false ∧
      prot.mp = false ∧ prot.pins.busy = false ∧ prot.pins.error = false := by decide
/-- EscapeHandsOver: a memory operand, whatever the number of its bytes and the direction in which they move; one in a
segment that may not be read; one that wraps around 64K with its ends accessible and a byte between not. -/
theorem witness_EscapeHandsOver (op : BitVec 3) (b : Byte) :
    let bad : State := { prot with seg := { prot.seg with ds := { flat 0 0 with valid := false } } }
    let s : State := { prot with seg := { prot.seg with ds := { flat 0x10 0x093 with limit := 0xFFFD } } }
    let m : MemOp := { ovr := none, ea := .abs32 0xFFFC }
    prot.em = false ∧ prot.ts = false ∧ prot.pins.busy = false ∧ prot.pins.error = false ∧
    okThen (escWindows { ovr := none, ea := .abs32 0x1000 } (Config.escLength op b prot.draws % 109)
      (Config.escStores op b)) prot.drawn (fun ws t => okThen (escMove (Config.escStores op b) ws) t fun _ _ => true) =
      true ∧
    raises (escWindows { ovr := none, ea := .abs32 0x1000 } 8 false) bad (excGP (.sel 0)) = true ∧
    s.pe = true ∧ (s.offsetOf m 0).toNat < 65536 ∧ 65536 < (s.offsetOf m 0).toNat + 8 ∧
    okThen (escWindow m 0 false) s.drawn (fun _ s1 => okThen (escWindow m 7 false) s1 fun _ s2 =>
      okThen (escBytes m false 0 8) s2 fun ws _ => ws.contains none) = true := by
  have all : ∀ n < 109, ∀ b, okThen (escWindows { ovr := none, ea := .abs32 0x1000 } n b)
      prot.drawn (fun ws t => okThen (escMove b ws) t fun _ _ => true) = true := by decide +kernel
  exact ⟨rfl, rfl, rfl, rfl, all _ (Nat.mod_lt _ (by decide)) _, by decide +kernel⟩
/-- Exchanges: the last byte and the last doubleword of a segment. -/
theorem witness_Exchanges :
    let s : State := { prot with seg := { prot.seg with ds := { flat 0x10 0x093 with limit := 0xFFF } } }
    okThen (memWindow { ovr := none, ea := .abs32 0xFFF } 0 1 true) s (fun w t => okThen w.read t fun _ _ => true) =
      true ∧
    okThen (memWindow { ovr := none, ea := .abs32 0xFFC } 0 4 true) s (fun w t => okThen w.read t fun _ _ => true) =
      true := by decide +kernel
/-- AuxiliaryInstructions: a store and a load at the end of a segment. -/
theorem witness_AuxiliaryInstructions :
    let s : State := { prot with seg := { prot.seg with ds := { flat 0x10 0x093 with limit := 0xFFF } } }
    okThen (memWindow { ovr := none, ea := .abs32 0xFFC } 0 4 true) s (fun _ _ => true) = true ∧
      okThen (readRm .w16 (at_ (.abs32 0xFFE))) s (fun _ _ => true) = true := by decide +kernel

/-! ### Task switches

A switch stores free halves of selectors in the outgoing TSS, so that its memory cannot be evaluated; that these
stores leave what the switch reads as it was is proved. -/

/-- A GDT with a TSS at 50000H, idle under 38H and busy under 48H; the current TSS is at 40000H. The new task starts
at 0008H:0 with the stack 0010H:0; a task gate for vector 40H leads to it; NT is set and the back link is 48H. -/
def tasks : State :=
  place (tables { prot with eflags := 0x4002 })
    [(0x20014, 0x00CF9300), (0x20038, 0x67), (0x2003C, 0x8905), (0x20048, 0x67), (0x2004C, 0x8B05),
      (0x50024, 2), (0x5004C, 8), (0x50050, 0x10), (0x40000, 0x48), (0x30200, 0x00380000), (0x30204, 0x8500),
      (0x20050, 0x00380000), (0x20054, 0x8500)]

theorem tasks_gdtr : tasks.gdtr = { base := 0x20000, limit := 0x5F } := by decide +kernel

/-- The idle descriptor, or the busy one for an IRET. -/
def tssOf (kind : SwitchKind) : BitVec 16 × Desc :=
  if kind = .iret then (0x48, { d0 := 0x67, d1 := 0x8B05, addr := 0x20048 })
  else (0x38, { d0 := 0x67, d1 := 0x8905, addr := 0x20038 })

/-- What a switch reads after its first store, but for the busy bits: two descriptors of the GDT, and the new TSS
from 20H on. -/
def readSet : List Nat := physRange 0x20008 16 ++ physRange 0x50020 72

/-- The map stays, memory stays canonical, and what a switch reads stays as it was. -/
def Kept (s t : State) : Prop := t.plat = s.plat ∧
  (Memory.wf s.mem = true → Memory.wf t.mem = true ∧ ∀ a ∈ readSet, t.byteAt a = s.byteAt a)

theorem Kept.trans {a b c : State} (h : Kept a b) (k : Kept b c) : Kept a c := ⟨k.1.trans h.1, fun w =>
  ⟨(k.2 (h.2 w).1).1, fun x hx => ((k.2 (h.2 w).1).2 x hx).trans ((h.2 w).2 x hx)⟩⟩

theorem kept_storeAll (s : State) (as : List Nat) (vs : List Byte)
    (h : ∀ x ∈ readSet, ∀ a ∈ as, x % physSize ≠ a % physSize) : Kept s (s.storeAll as vs) :=
  ⟨by simp, fun w => ⟨storeAll_wf s as vs w, fun x hx => byteAt_storeAll_out s as vs x (h x hx) w⟩⟩

theorem kept_bytes {s t : State} {ps : List Nat} (h : Kept s t) (w : Memory.wf s.mem = true) (hp : ps ⊆ readSet) :
    t.bytesAt ps = s.bytesAt ps :=
  List.map_congr_left fun x hx => (h.2 w).2 x (hp hx)

/-- A map without regions has no device. -/
theorem noDevice_flat {s : State} (h : s.plat.map = []) (ps : List Nat) : s.noDevice ps := fun a _ => by
  simp [State.isDevice, State.kindAt, h]

/-- A descriptor of the GDT of `tasks`. -/
theorem fetch_at {sel : BitVec 16} {d0 d1 : Word} {s : State} (hp : s.pg = false) (hm : s.plat.map = [])
    (hg : s.gdtr = { base := 0x20000, limit := 0x5F }) (ht : ti sel = false) (hl : (tableOff sel).toNat + 7 ≤ 0x5F)
    (h0 : s.dwordAt (0x20000 + tableOff sel) = d0) (h1 : s.dwordAt (0x20000 + tableOff sel + 4) = d1) (e : Exc) :
    fetchOr sel e s = .ok { d0 := d0, d1 := d1, addr := 0x20000 + tableOff sel } s := by
  apply fetchOr_of_some
  have hb : s.tableOf sel = some (0x20000, 0x5F) := by simp [State.tableOf, ht, hg]
  have h := readDesc_off hp (a := 0x20000 + tableOff sel) (noDevice_flat hm _) (noDevice_flat hm _)
  rw [h0, h1] at h
  unfold fetchDesc
  rw [bind_ok (get_run _), hb]
  show (if _ then _ else _ : M (Option Desc)) s = _
  rw [if_pos hl, bind_ok h]
  rfl

/-- The descriptors of code and data in `tasks`. -/
def codeDesc : Desc := { d0 := 0xFFFF, d1 := 0x00CF9B00, addr := 0x20008 }
def dataDesc : Desc := { d0 := 0xFFFF, d1 := 0x00CF9300, addr := 0x20010 }

theorem setA_codeDesc (s : State) : setA codeDesc s = .ok () s := rfl
theorem setA_dataDesc (s : State) : setA dataDesc s = .ok () s := rfl

/-- Phase E with the selectors of `tasks`: CS and SS are loaded, and nothing else changes. -/
theorem phaseE_completes (ext : Bool) (r : State) (hp : r.pg = false) (hm : r.plat.map = [])
    (hg : r.gdtr = { base := 0x20000, limit := 0x5F }) (hl : r.ldtr.sel = 0) (hc : r.seg.cs.sel = 8)
    (hs : r.seg.ss.sel = 0x10) (hd : r.seg.ds.sel = 0) (he : r.seg.es.sel = 0) (hf : r.seg.fs.sel = 0)
    (hgs : r.seg.gs.sel = 0) (h0 : r.cpl = 0) (hi : r.eip = 0) (m1 : r.dwordAt 0x20008 = 0xFFFF)
    (m2 : r.dwordAt 0x2000C = 0x00CF9B00) (m3 : r.dwordAt 0x20010 = 0xFFFF)
    (m4 : r.dwordAt 0x20014 = 0x00CF9300) :
    phaseE ext r = .ok () ((r.setSegOf .cs (codeDesc.cache 8)).setSegOf .ss (dataDesc.cache 0x10)) := by
  have l : checkLdt ext r = .ok () r := by simp [checkLdt, hl, isNull]
  have c : checkCs ext r = .ok () (r.setSegOf .cs (codeDesc.cache 8)) := by
    have f := fetch_at (sel := 8) hp hm hg rfl (by decide) m1 m2 (excTS (selErr 8 ext))
    unfold checkCs
    rw [bind_ok (look_run _ _), hc]
    refine (bind_ok (require_ok (by rfl))).trans ?_
    refine (bind_ok f).trans ?_
    iterate 4 refine (bind_ok (require_ok (by rfl))).trans ?_
    refine (bind_ok (setA_codeDesc r)).trans ?_
    refine (bind_ok (change_run _ _)).trans ((bind_ok (look_run _ _)).trans ?_)
    exact require_ok (by show decide (r.eip ≤ _) = true; rw [hi]; decide)
  let r1 := r.setSegOf .cs (codeDesc.cache 8)
  have k : checkSs ext r1 = .ok () (r1.setSegOf .ss (dataDesc.cache 0x10)) := by
    have f := fetch_at (s := r1) (sel := 0x10) hp hm hg rfl (by decide) m3 m4 (excTS (selErr 0x10 ext))
    unfold checkSs
    rw [bind_ok (look_run _ _), show r1.seg.ss.sel = 0x10 from hs]
    rw [bind_ok (look_run _ _), show r1.cpl = 0 from h0]
    refine (bind_ok (require_ok (by rfl))).trans ?_
    refine (bind_ok f).trans ?_
    iterate 4 refine (bind_ok (require_ok (by rfl))).trans ?_
    refine (bind_ok (setA_dataDesc r1)).trans ?_
    rfl
  let r2 := r1.setSegOf .ss (dataDesc.cache 0x10)
  have d : ∀ x, (r2.segOf x).sel = 0 → checkData ext x r2 = .ok () r2 := by
    intro x hx
    simp [checkData, hx, isNull]
  unfold phaseE
  rw [bind_ok l, bind_ok c, bind_ok k, bind_ok (d .ds hd), bind_ok (d .es he), bind_ok (d .fs hf)]
  exact d .gs hgs

/-- An error code pushed on the stack of `tasks`, which is empty: it goes to FFFFFFFCH. -/
theorem pushErr_completes (ext : Bool) (err : Option Word) (r : State) (hp : r.pg = false) (he : r.pe = true)
    (hs : r.seg.ss = dataDesc.cache 0x10) (h0 : r.gpr.esp = 0) :
    ∃ t, pushErr ext err r = .ok () t ∧ t.seg = r.seg ∧ t.gdtr = r.gdtr ∧ t.ldtr = r.ldtr ∧
      t.gpr.esp = if err.isSome then 0xFFFFFFFC else 0 := by
  cases err with
  | none => exact ⟨r, rfl, rfl, rfl, rfl, h0⟩
  | some v =>
    have ha : r.stackAt (-4) = 0xFFFFFFFC := by
      simp only [State.stackAt, stackBig, he, hs, h0]
      rfl
    have hr : stackRange (r.stackAt (-(BitVec.ofNat 32 [4].sum))) [4].sum r = .ok () r := by
      refine (bind_ok (get_run _)).trans (require_ok ?_)
      show (!r.pe || (r.seg.ss.valid && limitOk r.seg.ss (r.stackAt (-4)) 4)) = true
      rw [ha, hs, he]
      decide
    have hc : segCheck .ss (r.stackAt (-4)) 4 true r = .ok () r := by
      unfold segCheck
      refine (bind_ok (get_run _)).trans ?_
      rw [show r.segOf .ss = dataDesc.cache 0x10 from hs, ha]
      refine (bind_ok (require_ok (by rw [he]; rfl))).trans ((bind_ok (require_ok (by rw [he]; rfl))).trans ?_)
      exact (bind_ok (require_ok (by rw [he]; rfl))).trans (require_ok (by decide))
    have hw : ∃ w, segWindow .ss (r.stackAt (-4)) 4 true r = .ok w r := by
      exact ⟨_, (bind_ok hc).trans ((bind_ok (get_run _)).trans ((bind_ok (translateRange_off hp _ _ _ _)).trans rfl))⟩
    obtain ⟨w, hw⟩ := hw
    have hq : preparePushes false [4] r = .ok [{ w with watch := false }] r := by
      refine (bind_ok (get_run _)).trans ((bind_ok hr).trans ?_)
      exact (bind_ok (get_run _)).trans ((bind_ok hw).trans rfl)
    let u := r.storeAll w.phys (leBytes w.n v)
    have hu : u.stackAt (-4) = r.stackAt (-4) := by simp [u, State.stackAt, State.pe]
    have hx : withExt ext (preparePushes false [4]) r = .ok [{ w with watch := false }] r := by unfold withExt; rw [hq]
    refine ⟨u.moveSp (-4), (bind_ok hx).trans rfl, by simp [u], by simp [u], by simp [u], ?_⟩
    simp only [State.moveSp, stackBig, State.pe, u, State.storeAll_cr, State.storeAll_seg, State.storeAll_gpr, hs, h0]
    rw [show r.cr.cr0.getLsbD 0 = true from he]
    rfl

/-- What phase A finds. -/
def planOf (kind : SwitchKind) : SwitchPlan :=
  { newTss := physRange 0x50000 104, save := physRange 0x40020 64,
    link := if kind.nests then physRange 0x50000 4 else [],
    oldBusy := if kind.nests then [] else physRange 0x2002C 4,
    newBusy := if kind = .iret then [] else physRange 0x2003C 4
    image := physRange 0x50020 72 }

theorem ok_of_okThen {α : Type} {m : M α} {s t : State} {a : α} [DecidableEq α]
    (h : okThen m s (fun b u => b == a && u == t) = true) : m s = .ok a t := by
  unfold okThen at h
  split at h
  · simp_all
  · cases h

theorem phaseA_tasks (kind : SwitchKind) (ext : Bool) :
    phaseA kind (tssOf kind).1 (tssOf kind).2 ext tasks = .ok (planOf kind) tasks := by
  apply ok_of_okThen
  cases kind <;> cases ext <;> decide +kernel

theorem phaseA_tasks_drawn : phaseA .int 0x38 (tssOf .int).2 false tasks.drawn = .ok (planOf .int) tasks.drawn := by
  apply ok_of_okThen
  decide +kernel

/-- Nothing that phases B and C store to is read later. -/
theorem plan_outside (kind : SwitchKind) : ∀ x ∈ readSet,
    ∀ a ∈ (planOf kind).save ++ (planOf kind).oldBusy ++ (planOf kind).newBusy ++ (planOf kind).link,
      x % physSize ≠ a % physSize := by
  cases kind <;> decide +kernel

/-- TR, TS and the count of free values after phase C. -/
def inTask (tsel : BitVec 16) (d : Desc) (s : State) : State :=
  { s with tr := { sel := tsel, base := d.base, limit := d.limit, loaded := true }
           cr := { s.cr with cr0 := s.cr.cr0 ||| 8#32 }
           draws := s.draws + 1 }

theorem updateWord_run {s : State} {ps : List Nat} (h : s.noDevice ps) (f : Word → Word) :
    ∃ bs, updateWord ps f s = .ok () (s.storeAll ps bs) :=
  ⟨_, (bind_ok (readBytes_run h)).trans rfl⟩

/-- Phases B and C complete: they store to the places of the plan, and change TR and CR0. -/
theorem phaseBC_completes (kind : SwitchKind) (plan : SwitchPlan) (ret : Word) (rf : Bool) (tsel : BitVec 16)
    (d : Desc) (s : State) (hm : s.plat.map = []) (out : ∀ x ∈ readSet,
      ∀ a ∈ plan.save ++ plan.oldBusy ++ plan.newBusy ++ plan.link, x % physSize ≠ a % physSize) :
    ∃ b c, phaseB kind plan ret rf s = .ok () b ∧ phaseC tsel d plan b = .ok () c ∧ Kept s c ∧
      c.cr = { s.cr with cr0 := s.cr.cr0 ||| 8#32 } ∧ c.gdtr = s.gdtr := by
  let s0 : State := { s with draws := s.draws + 6 }
  have o (l : List Nat) (h : l ⊆ plan.save ++ plan.oldBusy ++ plan.newBusy ++ plan.link) (t : State)
      (bs : List Byte) : Kept t (t.storeAll l bs) :=
    kept_storeAll t l bs fun y hy a ha => out y hy a (h ha)
  have k0 : Kept s s0 := ⟨rfl, fun w => ⟨w, fun _ _ => rfl⟩⟩
  obtain ⟨img, hb⟩ : ∃ img, phaseB kind plan ret rf s =
      updateWord plan.oldBusy (fun w => w &&& ~~~0x200#32) (s0.storeAll plan.save img) := ⟨_, rfl⟩
  let s1 := s0.storeAll plan.save img
  have m1 : s1.plat.map = [] := by simp [s1, s0, hm]
  obtain ⟨x, hx⟩ := updateWord_run (noDevice_flat m1 plan.oldBusy) fun w => w &&& ~~~0x200#32
  let u := s1.storeAll plan.oldBusy x
  have hu : u.plat.map = [] := by simp [u, m1]
  obtain ⟨y, hy⟩ := updateWord_run (noDevice_flat hu plan.newBusy) fun w => w ||| 0x200#32
  have k1 : Kept s u := (k0.trans (o plan.save (fun y h => by simp [h]) _ img)).trans
    (o plan.oldBusy (fun y h => by simp [h]) _ x)
  have k2 : Kept s (inTask tsel d (u.storeAll plan.newBusy y)) := k1.trans (o plan.newBusy (fun y h => by simp [h]) _ y)
  obtain ⟨z, hc⟩ : ∃ z, phaseC tsel d plan u =
      .ok () ((inTask tsel d (u.storeAll plan.newBusy y)).storeAll plan.link z) :=
    ⟨_, (bind_ok (look_run _ _)).trans ((bind_ok hy).trans rfl)⟩
  refine ⟨u, _, hb.trans hx, hc, k2.trans (o plan.link (fun y h => by simp [h]) _ z), ?_, ?_⟩
  · simp [inTask, u, s1, s0]
  · simp [inTask, u, s1, s0]

/-- What a switch to the TSS of `tasks` leaves. -/
def InNewTask (err : Option Word) (s t : State) : Prop :=
  t.seg.cs = codeDesc.cache 8 ∧ t.seg.ss = dataDesc.cache 0x10 ∧ t.seg.ds.sel = 0 ∧ t.seg.es.sel = 0 ∧
    t.seg.fs.sel = 0 ∧ t.seg.gs.sel = 0 ∧ t.gdtr = s.gdtr ∧ t.gpr.esp = if err.isSome then 0xFFFFFFFC else 0

/-- A switch to the TSS of `tasks` completes, whatever the halves it stores. -/
theorem task_completes {kind : SwitchKind} {ext : Bool} {s : State}
    (hA : phaseA kind (tssOf kind).1 (tssOf kind).2 ext s = .ok (planOf kind) s) (hs : s.mem = tasks.mem)
    (hsc : s.cr = tasks.cr) (hsg : s.gdtr = tasks.gdtr) (hsm : s.plat.map = []) (rf : Bool) (ret : Word)
    (err : Option Word) :
    ∃ t, taskSwitch kind (tssOf kind).1 (tssOf kind).2 ext ret rf err s = .ok () t ∧ InNewTask err s t := by
  have wf : Memory.wf s.mem = true := by rw [hs]; decide +kernel
  have same (ps : List Nat) : s.bytesAt ps = tasks.bytesAt ps := by simp [State.bytesAt, State.byteAt, hs]
  obtain ⟨b, c, hB, hC, kept, hcr, hg⟩ := phaseBC_completes kind (planOf kind) ret rf (tssOf kind).1 (tssOf kind).2
    s hsm (plan_outside kind)
  have hcm : c.plat.map = [] := by rw [kept.1, hsm]
  have cr0 : c.cr.cr0 = 0x19 := by
    rw [hcr, hsc]
    show tasks.cr.cr0 ||| 8#32 = 0x19
    decide +kernel
  have hpg : c.pg = false := by unfold State.pg; rw [cr0]; rfl
  have hb : (tssOf kind).2.base = 0x50000 := by cases kind <;> rfl
  let w (k : Nat) : Word := c.dwordAt (0x50000 + BitVec.ofNat 32 k)
  have dw (a : Word) (h : physRange a.toNat 4 ⊆ readSet) : c.dwordAt a = tasks.dwordAt a :=
    congrArg leWord ((kept_bytes kept wf h).trans (same _))
  have z : ∀ k ∈ [0x60, 0x20, 0x38, 0x48, 0x54, 0x58, 0x5C, 0x64], w k = 0 := fun k hk =>
    (dw _ (by revert k; decide +kernel)).trans (by revert k; decide +kernel)
  have w8 : lo16 (w 0x4C) = 8 := congrArg lo16 ((dw _ (by decide +kernel)).trans (show _ = 8#32 by decide +kernel))
  have w10 : lo16 (w 0x50) = 0x10 :=
    congrArg lo16 ((dw _ (by decide +kernel)).trans (show _ = 0x10#32 by decide +kernel))
  let n := taskLoaded kind w c
  have hD : phaseD kind (tssOf kind).2 (planOf kind) c = .ok false n := by
    have l : loadTask kind (physRange (0x50000#32 + 0x20).toNat 0x48) c = .ok ((w 0x64).getLsbD 0) n :=
      loadTask_off (fun k _ => noDevice_flat hcm _) (by rw [dw _ (by decide +kernel)]; decide +kernel)
    rw [z 0x64 (by simp)] at l
    refine (bind_ok (look_run _ _)).trans ?_
    rw [hpg]
    refine (bind_ok (t := c) rfl).trans ?_
    rw [bind_ok (imageAddrs_off hpg _ _), hb]
    exact l
  have z0 (k : Nat) (h : k ∈ [0x60, 0x20, 0x38, 0x48, 0x54, 0x58, 0x5C, 0x64]) : lo16 (w k) = 0 := by
    rw [z k h]; rfl
  have hE := phaseE_completes ext n hpg hcm (hg.trans (hsg.trans tasks_gdtr)) (z0 0x60 (by simp)) w8 w10
    (z0 0x54 (by simp)) (z0 0x48 (by simp)) (z0 0x58 (by simp)) (z0 0x5C (by simp))
    (show rpl (lo16 (w 0x4C)) = 0 by rw [w8]; rfl) (z 0x20 (by simp))
    ((dw 0x20008 (by decide +kernel)).trans (by decide +kernel))
    ((dw 0x2000C (by decide +kernel)).trans (by decide +kernel))
    ((dw 0x20010 (by decide +kernel)).trans (by decide +kernel))
    ((dw 0x20014 (by decide +kernel)).trans (by decide +kernel))
  let e := (n.setSegOf .cs (codeDesc.cache 8)).setSegOf .ss (dataDesc.cache 0x10)
  have hI : inIncoming (phaseE ext) n = .ok () e := by unfold inIncoming; rw [hE]
  have pe : c.pe = true := by unfold State.pe; rw [cr0]; rfl
  obtain ⟨t, hP, q1, q2, -, q4⟩ := pushErr_completes ext err e hpg pe rfl (z 0x38 (by simp))
  have hQ : inIncoming (pushErr ext err) e = .ok () t := by unfold inIncoming; rw [hP]
  refine ⟨t, ?_, ?_⟩
  · unfold taskSwitch
    rw [bind_ok hA, bind_ok hB, bind_ok hC, bind_ok hD, bind_ok hI]
    exact (bind_ok (t := e) rfl).trans hQ
  · unfold InNewTask
    rw [q1, q2]
    exact ⟨rfl, rfl, z0 0x54 (by simp), z0 0x48 (by simp), z0 0x58 (by simp), z0 0x5C (by simp), hg, q4⟩

/-- A task gate leads to a TSS of `tasks`. -/
theorem gate_completes {kind : SwitchKind} {ext : Bool} {s : State}
    (hA : phaseA kind (tssOf kind).1 (tssOf kind).2 ext s = .ok (planOf kind) s)
    (hf : fetchOr (tssOf kind).1 (excGP (selErr (tssOf kind).1 ext)) s = .ok (tssOf kind).2 s)
    (hs : s.mem = tasks.mem) (hsc : s.cr = tasks.cr) (hsg : s.gdtr = tasks.gdtr) (hsm : s.plat.map = [])
    (rf : Bool) (ret : Word) (err : Option Word) :
    ∃ t, gateToTss kind (tssOf kind).1 ext ret rf err s = .ok () t := by
  obtain ⟨t, h, -⟩ := task_completes hA hs hsc hsg hsm rf ret err
  refine ⟨t, ?_⟩
  unfold gateToTss
  refine (bind_ok (require_ok (by cases kind <;> rfl))).trans ((bind_ok hf).trans ?_)
  refine (bind_ok (require_ok (by cases kind <;> rfl))).trans ?_
  cases kind <;> exact (bind_ok (require_ok (by rfl))).trans h

theorem fetch_tss (kind : SwitchKind) : fetchDesc (tssOf kind).1 tasks = .ok (some (tssOf kind).2) tasks := by
  apply ok_of_okThen
  cases kind <;> decide +kernel

/-- TaskSwitchLoads: a switch of each kind, without an error code and with one; for what stops it, an exception in
the outgoing task, a TSS that is idle, busy, not present, one byte too small, TR never loaded, and a current TSS one byte too small. -/
theorem witness_TaskSwitchLoads (kind : SwitchKind) (err : Option Word) :
    tasks.pe = true ∧
      (∃ t, taskSwitch kind (tssOf kind).1 (tssOf kind).2 false 0x107 false err tasks = .ok () t) ∧
      (tssOf .jmp).2.busy = false ∧ (tssOf .iret).2.busy = true ∧ (tssOf kind).2.busy = (kind == .iret) ∧
      (tssOf kind).2.present = true ∧ (tssOf kind).2.limit.toNat = 103 ∧
      ({ d0 := 0x67, d1 := 0x0900, addr := 0x20038 } : Desc).present = false ∧
      ({ d0 := 0x66, d1 := 0x8900, addr := 0x20038 } : Desc).limit.toNat < 103 ∧
      State.reset.tr.loaded = false ∧ tasks.tr.loaded = true ∧
      raises (taskSwitch .jmp 0x48 { d0 := 0x67, d1 := 0x8B05, addr := 0x20048 } false 0x107 false none) tasks
        { vector := 13, code := .sel 0x48, incoming := false } = true ∧ Memory.wf tasks.mem = true ∧
      ({ tasks with tr := { tasks.tr with limit := 0x66 } } : State).tr.limit.toNat < 103 := by
  obtain ⟨t, h, -⟩ := task_completes (phaseA_tasks kind false) rfl rfl rfl (by decide +kernel) false 0x107 err
  refine ⟨by decide +kernel, ⟨t, h⟩, ?_⟩
  cases kind <;> decide +kernel

/-- TaskSwitchMemory: a switch of each kind; the parts lie apart, and so do the accessed bits and the error code. -/
theorem witness_TaskSwitchMemory (kind : SwitchKind) (err : Option Word) :
    let d := (tssOf kind).2
    let save := physRange (tasks.tr.base + 0x20).toNat 0x40
    let image := physRange (d.base + 0x20).toNat 0x48
    let link := if kind = .call ∨ kind = .int then physRange d.base.toNat 4 else []
    let oldBusy := if kind = .call ∨ kind = .int then [] else
      physRange (tasks.gdtr.base + BitVec.ofNat 32 (8 * (tasks.tr.sel.toNat / 8)) + 4).toNat 4
    let newBusy := if kind = .iret then [] else physRange (d.addr + 4).toNat 4
    tasks.pe = true ∧ tasks.pg = false ∧ Memory.wf tasks.mem = true ∧
      (save ++ oldBusy ++ newBusy ++ link ++ image).Nodup ∧
      (∀ ps, tasks.inRam ps) ∧
      (∃ t, taskSwitch kind (tssOf kind).1 d false 0x107 false err tasks = .ok () t ∧
        t.gdtr = tasks.gdtr ∧ [t.seg.cs.sel, t.seg.ss.sel, t.seg.ds.sel, t.seg.es.sel, t.seg.fs.sel, t.seg.gs.sel] =
          [8, 0x10, 0, 0, 0, 0] ∧
        t.seg.ss.base + (if t.seg.ss.big then t.gpr.esp else t.gpr.esp &&& 0xFFFF#32) =
          if err.isSome then 0xFFFFFFFC else 0) ∧
      (physRange (tasks.gdtr.base + 8 + 4).toNat 4 ++ physRange (tasks.gdtr.base + 16 + 4).toNat 4 ++
        physRange 0xFFFFFFFC 4).all (fun a => !(save ++ oldBusy ++ newBusy ++ link).contains a) = true := by
  obtain ⟨t, h, q1, q2, q3, q4, q5, q6, q7, q8⟩ :=
    task_completes (phaseA_tasks kind false) rfl rfl rfl (by decide +kernel) false 0x107 err
  refine ⟨by decide +kernel, by decide +kernel, by decide +kernel, by cases kind <;> decide +kernel, ?_, ⟨t, h, q7, ?_, ?_⟩,
    by cases kind <;> decide +kernel⟩
  · intro ps a _
    have : tasks.plat.map = [] := by decide +kernel
    simp [State.kindAt, this]
  · rw [q1, q2, q3, q4, q5, q6]
    rfl
  · rw [q2, q8]
    cases err with
    | none => decide
    | some v =>
      show (dataDesc.cache 0x10).base + 0xFFFFFFFC#32 = 0xFFFFFFFC#32
      decide

/-- TaskTransfers: a far CALL and a far JMP to the idle TSS, and through a task gate; and an IRET to the busy one. -/
theorem witness_TaskTransfers :
    (tasks.pe = true ∧ isNull 0x38 = false ∧ ti 0x38 = false ∧ (tssOf .jmp).2.s = false ∧ (tssOf .jmp).2.type = 9 ∧
      tasks.cpl ≤ (tssOf .jmp).2.dpl ∧ rpl 0x38 ≤ (tssOf .jmp).2.dpl ∧ isNull 0x48 = false ∧ ti 0x48 = false ∧
      (tssOf .iret).2.s = false ∧ (tssOf .iret).2.type = 11) ∧
    (∀ call, ∃ s3, FarOperand call (if call then .callFar (.i32 0) 0x38 else .jmpFar (.i32 0) 0x38) .w32 0 0x38
        tasks tasks ∧
      fetchDesc 0x38 tasks = .ok (some (tssOf .jmp).2) tasks ∧
      taskSwitch (if call then .call else .jmp) 0x38 (tssOf .jmp).2 false tasks.eipNext false none tasks =
        .ok () s3) ∧
    (∀ call, ∃ g s3, FarOperand call (if call then .callFar (.i32 0) 0x50 else .jmpFar (.i32 0) 0x50) .w32 0 0x50
        tasks tasks ∧
      fetchDesc 0x50 tasks = .ok (some g) tasks ∧ g.s = false ∧ g.type = 5 ∧ g.present = true ∧
      tasks.cpl ≤ g.dpl ∧ rpl 0x50 ≤ g.dpl ∧ g.gateSel = 0x38 ∧
      gateToTss (if call then .call else .jmp) g.gateSel false tasks.eipNext false none tasks = .ok () s3) ∧
    ∃ s3, tasks.flag 14 = true ∧ tasks.tr.loaded = true ∧ sysRead tasks.tr.base 2 tasks = .ok 0x48 tasks ∧
      fetchDesc 0x48 tasks = .ok (some (tssOf .iret).2) tasks ∧
      taskSwitch .iret 0x48 (tssOf .iret).2 false tasks.eipNext false none tasks = .ok () s3 := by
  have hm : tasks.plat.map = [] := by decide +kernel
  refine ⟨by decide +kernel, fun call => ?_, fun call => ?_, ?_⟩
  · cases call
    · obtain ⟨t, h, -⟩ := task_completes (phaseA_tasks .jmp false) rfl rfl rfl hm false tasks.eipNext none
      exact ⟨t, .inl ⟨.i32 0, rfl, rfl, rfl, rfl⟩, fetch_tss .jmp, h⟩
    · obtain ⟨t, h, -⟩ := task_completes (phaseA_tasks .call false) rfl rfl rfl hm false tasks.eipNext none
      exact ⟨t, .inl ⟨.i32 0, rfl, rfl, rfl, rfl⟩, fetch_tss .call, h⟩
  · have f : fetchDesc 0x50 tasks = .ok (some { d0 := 0x00380000, d1 := 0x8500, addr := 0x20050 }) tasks :=
      ok_of_okThen (by decide +kernel)
    cases call
    · obtain ⟨t, h⟩ := gate_completes (phaseA_tasks .jmp false) (fetchOr_of_some (fetch_tss .jmp)) rfl rfl rfl hm
        false tasks.eipNext none
      exact ⟨_, t, .inl ⟨.i32 0, rfl, rfl, rfl, rfl⟩, f, by decide, by decide, by decide, by decide +kernel,
        by decide, by decide, h⟩
    · obtain ⟨t, h⟩ := gate_completes (phaseA_tasks .call false) (fetchOr_of_some (fetch_tss .call)) rfl rfl rfl hm
        false tasks.eipNext none
      exact ⟨_, t, .inl ⟨.i32 0, rfl, rfl, rfl, rfl⟩, f, by decide, by decide, by decide, by decide +kernel,
        by decide, by decide, h⟩
  · obtain ⟨t, h, -⟩ := task_completes (phaseA_tasks .iret false) rfl rfl rfl hm false tasks.eipNext none
    exact ⟨t, by decide +kernel, by decide +kernel, ok_of_okThen (by decide +kernel), fetch_tss .iret, h⟩

/-- TaskTransfers, SoftwareInterrupts: an event whose handler is a task. -/
theorem witness_SoftwareInterrupts_task :
    ∃ g t, readDesc 0x30200 tasks = .ok g tasks ∧ g.s = false ∧ g.type = 5 ∧ g.present = true ∧
      pushedCode .none tasks = .ok none tasks.drawn ∧
      gateToTss .int g.gateSel false 0x102 false none tasks.drawn = .ok () t ∧
      deliver { vector := 0x40, cls := .software, ret := 0x102, ext := false } tasks = .ok true t := by
  have f : fetchOr 0x38 (excGP (selErr 0x38 false)) tasks.drawn = .ok (tssOf .int).2 tasks.drawn :=
    ok_of_okThen (by decide +kernel)
  have e : tasks.drawn.mem = tasks.mem ∧ tasks.drawn.cr = tasks.cr ∧ tasks.drawn.gdtr = tasks.gdtr := by
    simp only [State.drawn, and_self]
  obtain ⟨t, h⟩ := gate_completes (kind := .int) (s := tasks.drawn) phaseA_tasks_drawn f e.1 e.2.1 e.2.2
    (by decide +kernel) false 0x102 none
  have g : readDesc 0x30200 tasks = .ok { d0 := 0x00380000, d1 := 0x8500, addr := 0x30200 } tasks :=
    ok_of_okThen (by decide +kernel)
  refine ⟨_, t, g, by decide, by decide, by decide, rfl, h, ?_⟩
  have p : deliverProtected { vector := 0x40, cls := .software, ret := 0x102, ext := false } tasks = .ok true t := by
    unfold deliverProtected
    refine (bind_ok (get_run _)).trans ?_
    rw [show tasks.idtr = { base := 0x30000, limit := 0x7FF } by decide +kernel]
    refine (bind_ok (require_ok (by rfl))).trans ((bind_ok g).trans ?_)
    refine (bind_ok (require_ok (by rfl))).trans ((bind_ok (require_ok (by decide +kernel))).trans ?_)
    refine (bind_ok (require_ok (by rfl))).trans ?_
    exact (bind_ok (t := tasks.drawn) rfl).trans ((bind_ok h).trans rfl)
  have pe : tasks.pe = true := by decide +kernel
  refine (bind_ok (look_run _ _)).trans ?_
  rw [pe]
  exact p

/-- TaskTransfers, its faults: what a task gate's selector can name; a TSS above the level's reach, and one of the
LDT; a gate that is not present; a back link that is null, of the LDT, out of the table, no TSS. -/
theorem witness_TaskTransfers_faults :
    let l : State := { prot with ldtr := { sel := 0x28, base := 0x20000, limit := 0x5F, valid := true } }
    isNull 3 = true ∧ ti 0x3C = true ∧ okThen (fetchDesc 0x60) prot (fun r _ => r == none) = true ∧
    okThen (fetchDesc 8) (tables prot) (fun r _ => r.any Desc.s) = true ∧
    okThen (fetchDesc 0x30) (place prot [(0x20030, 0x67), (0x20034, 0x8100)]) (fun r _ => r.any fun d =>
      !d.s && d.type == 1) = true ∧
    okThen (fetchDesc 0x3C) { l with mem := tasks.mem } (fun r _ => r.any fun d => !d.s && d.type == 9) = true ∧
    okThen (fetchDesc 0x38) { user with mem := tasks.mem } (fun r _ => r.any fun d => !d.s && d.type == 9 &&
      decide (d.dpl < user.cpl)) = true ∧
    okThen (fetchDesc 0x30) (place prot [(0x20034, 0x0500)]) (fun r _ => r.any fun d => !d.s && d.type == 5 &&
      decide (prot.cpl ≤ d.dpl) && !d.present) = true ∧
    [0#32, 0x4C, 0x60, 8, 0x30].all (fun v => okThen (sysRead 0x40000 2) (place prot [(0x40000, v)]) fun w _ =>
      w == v) = true ∧ State.reset.tr.loaded = false := by decide +kernel

end Sys2Proof.Tests
end

/-! SUPPORT. What every step keeps. `Invariant P` lists the kinds of update the machine makes; a predicate that allows
each of them is kept by every computation of the model, every instruction, every delivery, and so by every step. -/

namespace Sys2Proof.Machine

/-! ## Predicates that computations keep -/

/-- A predicate stays true, whichever way a computation ends. -/
def Rel.keeps (P : State → Prop) : Rel where
  r s t := P s → P t
  e s t := P s → P t
  refl _ h := h
  trans h k x := k (h x)
  stop _ h := h
  early h k x := k (h x)

/-- A computation keeps a predicate. -/
abbrev Keeps (P : State → Prop) {α : Type} (m : M α) : Prop := Does (Rel.keeps P) m

/-- From a state with the predicate an outcome function answers no next state without it. -/
def Yields (P : State → Prop) (f : State → Host.Outcome State Fault Refusal) : Prop :=
  ∀ ⦃s t⦄, P s → f s = .next t → P t

section
variable {P : State → Prop} {α : Type}

/-- What is read of the state was read of a state with the predicate. -/
theorem Keeps.get_bind {f : State → M α} (h : ∀ s, P s → Keeps P (f s)) : Keeps P (get >>= f) := by
  intro s
  change (Rel.keeps P).holds s (f s s)
  cases e : f s s with
  | ok a t => exact fun hs => (h s hs).ok e hs
  | error x t => exact fun hs => (h s hs).error e hs

/-- After a requirement its condition holds. -/
theorem Keeps.require_bind {b : Bool} {e : Exc} {f : Unit → M α} (h : b = true → Keeps P (f ())) :
    Keeps P (require b e >>= f) := by
  cases b with
  | false => exact fun _ hs => hs
  | true => exact h rfl

theorem Keeps.inIncoming {m : M α} (h : Keeps P m) : Keeps P (Machine.inIncoming m) := by
  intro s
  have k := h s
  unfold Machine.inIncoming
  split <;> simp_all [Rel.holds, Rel.keeps]

theorem Keeps.withExt (x : Bool) {m : M α} (h : Keeps P m) : Keeps P (Machine.withExt x m) := by
  intro s
  have k := h s
  unfold Machine.withExt
  split <;> simp_all [Rel.holds, Rel.keeps]

end

/-! ## The kinds of update -/

/-- Memory, EFLAGS, the control registers and the TLB, of which the invariants speak, are as before. -/
def SameCore (s t : State) : Prop := t.mem = s.mem ∧ t.eflags = s.eflags ∧ t.cr = s.cr ∧ t.tlb = s.tlb

theorem SameCore.trans {a b c : State} (h : SameCore a b) (k : SameCore b c) : SameCore a c :=
  ⟨k.1.trans h.1, k.2.1.trans h.2.1, k.2.2.1.trans h.2.2.1, k.2.2.2.trans h.2.2.2⟩

theorem sameCore_setReg (s : State) (r : Reg) (v : Word) : SameCore s (s.setReg r v) := by simp [SameCore]

theorem sameCore_setRegSz (s : State) (o : OpSize) (r : Reg) (v : Word) : SameCore s (s.setRegSz o r v) := by
  simp [SameCore]

theorem sameCore_setReg8 (s : State) (r : Reg8) (v : Byte) : SameCore s (s.setReg8 r v) := by simp [SameCore]

theorem sameCore_bumpStr (s : State) (a : AddrSize) (r : Reg) (k : Word) : SameCore s (s.bumpStr a r k) := by
  simp [SameCore]

theorem sameCore_setSegOf (s : State) (x : SegReg) (c : SegCache) : SameCore s (s.setSegOf x c) := by
  simp [SameCore]

theorem sameCore_nullOuter (s : State) : SameCore s s.nullOuter := by simp [SameCore]

theorem sameCore_moveSp (s : State) (k : Word) : SameCore s (s.moveSp k) := ⟨rfl, rfl, rfl, rfl⟩

/-- What a predicate must allow for every step to keep it: accesses to memory (`Stores`), any change outside what
`SameCore` names, and each way in which the machine changes EFLAGS, a control register or the TLB. A flags image or a
paging that comes back is one of an earlier state with the predicate. -/
structure Invariant (P : State → Prop) : Prop extends Stores (Rel.keeps P) where
  rest : ∀ {s t : State}, P s → SameCore s t → P t
  setFlag : ∀ {s : State} (k : Nat) (b : Bool), eflagsDefined.getLsbD k = true → k ≠ bitVM → P s →
    P { s with eflags := setBit s.eflags k b }
  freeStatus : ∀ {s : State} (v : Word), P s → P { s with eflags := freeStatus s.eflags v }
  loadFlags : ∀ {s : State} (osz : OpSize) (pe : Bool) (cpl : BitVec 2) (v : Word), P s →
    P { s with eflags := loadFlags osz pe cpl s.eflags v }
  taskFlags : ∀ {s : State} (kind : SwitchKind) (v : Word), v.getLsbD bitVM = false → P s →
    P { s with eflags := incomingFlags kind v }
  oldFlags : ∀ {a b : State}, P a → P b → P { b with eflags := a.eflags }
  setCr0 : ∀ {s : State} (v : Word), (v.getLsbD 31 = true → v.getLsbD 0 = true) → P s → P (s.setCr0 v)
  lmsw : ∀ {s : State} (v : BitVec 16), P s → P (s.setCr0 (lmswValue s.cr.cr0 v))
  setTs : ∀ {s : State}, P s → P { s with cr := { s.cr with cr0 := s.cr.cr0 ||| 8#32 } }
  clearTs : ∀ {s : State}, P s → P { s with cr := { s.cr with cr0 := s.cr.cr0 &&& ~~~8#32 } }
  setCr3 : ∀ {s : State} (v : Word), P s → P (s.setCr3 v)
  switchCr3 : ∀ {s : State} (v : Word), P s → P (s.switchCr3 v)
  oldCr : ∀ {a b : State}, P a → P b → P { b with cr := a.cr }
  oldPaging : ∀ {a b : State}, P a → P b → P { b with cr := { b.cr with cr3 := a.cr.cr3 }, tlb := a.tlb }
  unknownTlb : ∀ {s : State}, P s → P s.unknownTlb
  tlbWrite : ∀ v : Word, Keeps P (Machine.tlbWrite v)
  sense : ∀ {s : State}, P s → P s.sense
  doReset : ∀ {s : State}, P s → P s.doReset

section
variable {P : State → Prop} {α : Type} (A : Invariant P)
include A

theorem Invariant.change {f : State → State} (h : ∀ s, SameCore s (f s)) : Keeps P (Machine.change f) :=
  Does.change fun s hs => A.rest hs (h s)

theorem Invariant.attempt {m : M α} (h : Keeps P m) : Keeps P (Machine.attempt m) := by
  intro s
  have k := h s
  unfold Machine.attempt
  cases e : m s with
  | ok a t => rwa [e] at k
  | error x t =>
    rw [e] at k
    cases x with
    | exc y => exact fun hs => A.oldCr hs (k hs)
    | fault _ => exact k
    | refuse _ => exact k

theorem Invariant.underCr3 (v : Word) {m : M α} (h : Keeps P m) : Keeps P (Machine.underCr3 v m) := by
  intro s
  have k := h (s.switchCr3 v)
  unfold Machine.underCr3
  cases e : m (s.switchCr3 v) with
  | ok a t =>
    rw [e] at k
    exact fun hs => A.oldPaging hs (k (A.switchCr3 v hs))
  | error x t =>
    rw [e] at k
    exact fun hs => A.oldPaging hs (k (A.switchCr3 v hs))

theorem Invariant.anyOrder {m : M α} (h : Keeps P m) : Keeps P (Machine.anyOrder m) := by
  intro s
  have k := h s
  unfold Machine.anyOrder
  cases e : m s with
  | ok a t =>
    rw [e] at k
    exact fun hs => A.rest (k hs) ⟨rfl, rfl, rfl, rfl⟩
  | error x t => rwa [e] at k

/-- OR changes six of the defined flags (rule R215). -/
theorem Invariant.orFlags {s : State} (r : Word) (w : Nat) (af : Bool) (h : P s) :
    P { s with eflags := Machine.orFlags s.eflags r w af } := by
  have h1 := A.setFlag bitOF false (by decide) (by decide) h
  have h2 := A.setFlag bitCF false (by decide) (by decide) h1
  have h3 := A.setFlag bitSF (r.getLsbD (w - 1)) (by decide) (by decide) h2
  have h4 := A.setFlag bitZF (r.extractLsb' 0 w == 0) (by decide) (by decide) h3
  have h5 := A.setFlag bitPF (evenParity (r.truncate 8)) (by decide) (by decide) h4
  exact A.setFlag bitAF af (by decide) (by decide) h5

/-- The flags of a handler are those of the interrupted code but for TF, NT, RF and IF (rule R546). -/
theorem Invariant.handlerFlags {s : State} (isInt : Bool) (h : P s) :
    P { s with eflags := Machine.handlerFlags s.eflags isInt } := by
  have h1 := A.setFlag bitTF false (by decide) (by decide) h
  have h2 := A.setFlag bitNT false (by decide) (by decide) h1
  have h3 := A.setFlag bitRF false (by decide) (by decide) h2
  cases isInt with
  | false => exact h3
  | true => exact A.setFlag bitIF false (by decide) (by decide) h3

end

/-! ## Segment registers and operands -/

section
variable {P : State → Prop} (A : Invariant P)
include A

theorem Invariant.loadData (x : SegReg) (sel : BitVec 16) : Keeps P (Machine.loadData x sel) := by
  unfold Machine.loadData
  refine Does.ite (A.change fun s => sameCore_setSegOf s _ _) ?_
  refine Does.bind (Does.look _) fun _ => Does.bind (A.fetchOr _ _) fun d => ?_
  iterate 4 refine Does.bind (Does.require _ _) fun _ => ?_
  exact Does.bind (A.setLoaded d) fun _ => A.change fun s => sameCore_setSegOf s _ _

theorem Invariant.loadSS (sel : BitVec 16) : Keeps P (Machine.loadSS sel) := by
  unfold Machine.loadSS
  refine Does.bind (Does.require _ _) fun _ => Does.bind (Does.look _) fun _ => Does.bind (A.fetchOr _ _) fun d => ?_
  iterate 4 refine Does.bind (Does.require _ _) fun _ => ?_
  exact Does.bind (A.setLoaded d) fun _ => A.change fun s => sameCore_setSegOf s _ _

theorem Invariant.loadSeg (x : SegReg) (sel : BitVec 16) : Keeps P (Machine.loadSeg x sel) :=
  Does.bind (Does.look _) fun _ => Does.ite (A.change fun s => sameCore_setSegOf s _ _)
    (Does.ite (A.loadSS sel) (A.loadData x sel))

theorem Invariant.writeRm (o : OpSize) (rm : Rm) (v : Word) : Keeps P (Machine.writeRm o rm v) := by
  cases rm with
  | reg r => exact A.change fun s => sameCore_setRegSz s _ _ _
  | mem m => exact Does.bind (A.memWindow _ _ _ _) fun w => A.winWrite w v

theorem Invariant.storeSel (o : OpSize) (rm : Rm) (v : BitVec 16) : Keeps P (Machine.storeSel o rm v) := by
  cases rm with
  | mem m => exact A.writeRm .w16 (.mem m) (zx16 v)
  | reg r =>
    cases o with
    | w16 => exact A.change fun s => sameCore_setRegSz s _ _ _
    | w32 => exact Does.bind (A.draw _) fun _ => A.change fun s => sameCore_setReg s _ _

omit A in
theorem Keeps.memOnly (rm : Rm) : Keeps P (Machine.memOnly rm) := by
  cases rm with
  | mem m => exact Does.pure _
  | reg r => exact Does.raise _

theorem Invariant.push (n : Nat) (v : Word) : Keeps P (Machine.push n v) :=
  Does.bind (A.preparePushes _ _) fun _ => Does.bind (A.writeWins _ _) fun _ => A.change fun s => sameCore_moveSp s _

/-! ## Task switches -/

theorem Invariant.checkLdt (x : Bool) : Keeps P (Machine.checkLdt x) := by
  unfold Machine.checkLdt
  refine Does.bind (Does.look _) fun _ => Does.ite (Does.pure _) ?_
  refine Does.bind (Does.require _ _) fun _ => Does.bind (A.fetchOr _ _) fun _ => ?_
  iterate 2 refine Does.bind (Does.require _ _) fun _ => ?_
  exact A.change fun s => ⟨rfl, rfl, rfl, rfl⟩

theorem Invariant.checkCs (x : Bool) : Keeps P (Machine.checkCs x) := by
  unfold Machine.checkCs
  refine Does.bind (Does.look _) fun _ => Does.bind (Does.require _ _) fun _ => Does.bind (A.fetchOr _ _) fun d => ?_
  iterate 4 refine Does.bind (Does.require _ _) fun _ => ?_
  exact Does.bind (A.setA d) fun _ => Does.bind (A.change fun s => sameCore_setSegOf s _ _) fun _ =>
    Does.bind (Does.look _) fun _ => Does.require _ _

theorem Invariant.checkSs (x : Bool) : Keeps P (Machine.checkSs x) := by
  unfold Machine.checkSs
  refine Does.bind (Does.look _) fun _ => Does.bind (Does.look _) fun _ => Does.bind (Does.require _ _) fun _ =>
    Does.bind (A.fetchOr _ _) fun d => ?_
  iterate 4 refine Does.bind (Does.require _ _) fun _ => ?_
  exact Does.bind (A.setA d) fun _ => A.change fun s => sameCore_setSegOf s _ _

theorem Invariant.checkData (x : Bool) (r : SegReg) : Keeps P (Machine.checkData x r) := by
  unfold Machine.checkData
  refine Does.bind (Does.look _) fun _ => Does.bind (Does.look _) fun _ => Does.ite (Does.pure _) ?_
  refine Does.bind (A.fetchOr _ _) fun d => ?_
  iterate 3 refine Does.bind (Does.require _ _) fun _ => ?_
  exact Does.bind (A.setA d) fun _ => A.change fun s => sameCore_setSegOf s _ _

theorem Invariant.phaseE (x : Bool) : Keeps P (Machine.phaseE x) :=
  Does.bind (A.checkLdt x) fun _ => Does.bind (A.checkCs x) fun _ => Does.bind (A.checkSs x) fun _ =>
    Does.bind (A.checkData x _) fun _ => Does.bind (A.checkData x _) fun _ => Does.bind (A.checkData x _) fun _ =>
    A.checkData x _

theorem Invariant.probeTss (d : Desc) (ps : List Nat) : Keeps P (Machine.probeTss d ps) :=
  Does.bind Does.get fun _ => Does.ite (A.underCr3 _ (A.translateRange _ _ _ _)) (Does.pure _)

theorem Invariant.phaseA (kind : SwitchKind) (sel : BitVec 16) (d : Desc) (x : Bool) :
    Keeps P (Machine.phaseA kind sel d x) := by
  have w := A.translateRange
  unfold Machine.phaseA
  iterate 4 refine Does.bind (Does.require _ _) fun _ => ?_
  refine Does.bind Does.needTr fun _ => Does.bind Does.get fun _ => Does.ite (Does.refuse _) ?_
  iterate 2 refine Does.bind (w _ _ _ _) fun _ => ?_
  iterate 3 refine Does.bind (Does.listIf _ (w _ _ _ _)) fun _ => ?_
  exact Does.bind (A.probeTss _ _) fun _ => Does.pure _

theorem Invariant.updateWord (ps : List Nat) (f : Word → Word) : Keeps P (Machine.updateWord ps f) :=
  Does.bind (A.readBytes _) fun _ => A.writeBytes _ _

theorem Invariant.drawSix : Keeps P Machine.drawSix := by
  unfold Machine.drawSix
  iterate 6 refine Does.bind (A.draw _) fun _ => ?_
  exact Does.pure _

theorem Invariant.phaseB (kind : SwitchKind) (plan : SwitchPlan) (ret : Word) (rf : Bool) :
    Keeps P (Machine.phaseB kind plan ret rf) :=
  Does.bind A.drawSix fun _ => Does.bind Does.get fun _ => Does.bind (A.writeBytes _ _) fun _ => A.updateWord _ _

theorem Invariant.phaseC (sel : BitVec 16) (d : Desc) (plan : SwitchPlan) : Keeps P (Machine.phaseC sel d plan) :=
  Does.bind (Does.look _) fun _ => Does.bind (A.updateWord _ _) fun _ =>
    Does.bind (Does.change fun _ hs => A.rest (A.setTs hs) ⟨rfl, rfl, rfl, rfl⟩) fun _ =>
    Does.bind (A.draw _) fun _ => A.writeBytes _ _

theorem Invariant.loadCr3 (plan : SwitchPlan) : Keeps P (Machine.loadCr3 plan) :=
  Does.bind (A.readBytes _) fun _ => Does.change fun _ hs => A.switchCr3 _ hs

theorem Invariant.imageAddrs (d : Desc) (plan : SwitchPlan) : Keeps P (Machine.imageAddrs d plan) :=
  Does.bind (A.attempt (A.translateRange _ _ _ _)) fun _ => Does.pure _

theorem Invariant.imageWord (ps : List Nat) (k : Nat) : Keeps P (Machine.imageWord ps k) :=
  Does.bind (A.readBytes _) fun _ => Does.pure _

theorem Invariant.loadFields (ps : List Nat) (fs : List (Nat × (Word → State → State)))
    (h : ∀ p ∈ fs, ∀ v s, SameCore s (p.2 v s)) : Keeps P (Machine.loadFields ps fs) := by
  induction fs with
  | nil => exact Does.pure _
  | cons p r ih =>
    exact Does.bind (A.imageWord _ _) fun v => Does.bind (A.change (h p List.mem_cons_self v)) fun _ =>
      ih fun q hq => h q (List.mem_cons_of_mem p hq)

omit A in
/-- The registers after LDTR and EFLAGS are outside what `SameCore` names. -/
theorem tssFields_sameCore : ∀ p ∈ tssFields, ∀ v s, SameCore s (p.2 v s) := by
  simp only [tssFields, List.forall_mem_cons, List.not_mem_nil, false_imp_iff, implies_true, and_true]
  refine ⟨?_, ?_, ?_, ?_, ?_, ?_, ?_, ?_, ?_, ?_, ?_, ?_, ?_, ?_, ?_⟩ <;> exact fun _ _ => ⟨rfl, rfl, rfl, rfl⟩

theorem Invariant.loadTask (kind : SwitchKind) (ps : List Nat) : Keeps P (Machine.loadTask kind ps) := by
  have ldtr : ∀ p ∈ [((0x60 : Nat), fun (v : Word) (s : State) =>
      { s with ldtr := { s.ldtr with sel := lo16 v, valid := false } })], ∀ v s, SameCore s (p.2 v s) :=
    fun p hp _ _ => by
      obtain rfl := List.mem_singleton.mp hp
      exact ⟨rfl, rfl, rfl, rfl⟩
  unfold Machine.loadTask
  refine Does.bind (A.loadFields ps _ ldtr) fun _ => Does.bind (A.imageWord _ _) fun fl => ?_
  split
  · exact Does.refuse _
  · rename_i hv
    exact Does.bind (Does.change fun _ hs => A.taskFlags kind fl (by simpa using hv) hs) fun _ =>
      Does.bind (A.loadFields ps _ tssFields_sameCore) fun _ => Does.bind (A.imageWord _ _) fun _ =>
      Does.bind (A.change fun _ => ⟨rfl, rfl, rfl, rfl⟩) fun _ => Does.pure _

theorem Invariant.phaseD (kind : SwitchKind) (d : Desc) (plan : SwitchPlan) : Keeps P (Machine.phaseD kind d plan) :=
  Does.bind (Does.look _) fun _ => Does.bind (Does.onlyIf _ (A.loadCr3 _)) fun _ => Does.bind (A.imageAddrs _ _) fun _ =>
    A.loadTask _ _

theorem Invariant.pushErr (x : Bool) (err : Option Word) : Keeps P (Machine.pushErr x err) := by
  cases err with
  | none => exact Does.pure _
  | some v => exact Does.bind (Keeps.withExt x (A.preparePushes _ _)) fun _ => Does.bind (A.writeWins _ _) fun _ =>
      A.change fun s => sameCore_moveSp s _

theorem Invariant.taskSwitch (kind : SwitchKind) (sel : BitVec 16) (d : Desc) (x : Bool) (ret : Word) (rf : Bool)
    (err : Option Word) : Keeps P (Machine.taskSwitch kind sel d x ret rf err) :=
  Does.bind (A.phaseA _ _ _ _) fun _ => Does.bind (A.phaseB _ _ _ _) fun _ => Does.bind (A.phaseC _ _ _) fun _ =>
    Does.bind (A.phaseD _ _ _) fun _ => Does.bind (Keeps.inIncoming (A.phaseE _)) fun _ =>
    Does.bind (Does.onlyIf _ (A.change fun _ => ⟨rfl, rfl, rfl, rfl⟩)) fun _ => Keeps.inIncoming (A.pushErr _ _)

theorem Invariant.viaTss (kind : SwitchKind) (sel : BitVec 16) (d : Desc) : Keeps P (Machine.viaTss kind sel d) :=
  Does.bind (Does.require _ _) fun _ => Does.bind (Does.look _) fun _ => Does.bind (Does.require _ _) fun _ =>
    Does.bind (Does.look _) fun _ => A.taskSwitch _ _ _ _ _ _ _

theorem Invariant.gateToTss (kind : SwitchKind) (sel : BitVec 16) (x : Bool) (ret : Word) (rf : Bool)
    (err : Option Word) : Keeps P (Machine.gateToTss kind sel x ret rf err) :=
  Does.bind (Does.require _ _) fun _ => Does.bind (A.fetchOr _ _) fun _ => Does.bind (Does.require _ _) fun _ =>
    Does.ite (Does.refuse _) (Does.bind (Does.require _ _) fun _ => A.taskSwitch _ _ _ _ _ _ _)

theorem Invariant.viaTaskGate (kind : SwitchKind) (sel : BitVec 16) (g : Desc) :
    Keeps P (Machine.viaTaskGate kind sel g) :=
  Does.bind (Does.look _) fun _ => Does.bind (Does.require _ _) fun _ => Does.bind (Does.require _ _) fun _ =>
    Does.bind (Does.look _) fun _ => A.gateToTss _ _ _ _ _ _

theorem Invariant.iretTask : Keeps P Machine.iretTask :=
  Does.bind Does.needTr fun _ => Does.bind Does.get fun _ => Does.bind (A.sysRead _ _) fun _ =>
    Does.bind (Does.require _ _) fun _ => Does.bind (A.fetchOr _ _) fun _ => Does.bind (Does.require _ _) fun _ =>
    Does.ite (Does.refuse _) (Does.bind (Does.require _ _) fun _ => A.taskSwitch _ _ _ _ _ _ _)

/-! ## Delivery -/

theorem Invariant.enterSame (sel : BitVec 16) (off : Word) (t : Desc) (img : Word) (err : Option Word) (ev : Event) :
    Keeps P (Machine.enterSame sel off t img err ev) :=
  Does.bind Does.get fun _ => Does.bind (Keeps.withExt _ (Does.stackRange _ _)) fun _ =>
    Does.bind (Does.require _ _) fun _ => Does.bind (A.prepareA _) fun _ =>
    Does.bind (Keeps.withExt _ (A.preparePushes _ _)) fun _ => Does.bind (A.pushedSel _ _) fun _ =>
    Does.bind (A.commitA _ _) fun _ => Does.bind (A.writeWins _ _) fun _ => A.change fun _ => ⟨rfl, rfl, rfl, rfl⟩

theorem Invariant.enterInner (sel : BitVec 16) (off : Word) (t : Desc) (img : Word) (err : Option Word) (ev : Event) :
    Keeps P (Machine.enterInner sel off t img err ev) :=
  Does.bind (A.innerStack _ _) fun _ => Does.bind (Does.require _ _) fun _ => Does.bind (Does.require _ _) fun _ =>
    Does.bind (A.prepareA _) fun _ => Does.bind (A.prepareA _) fun _ => Does.bind (A.innerWindows _ _ _ _ _) fun _ =>
    Does.bind Does.get fun _ => Does.bind (A.pushedSel _ _) fun _ => Does.bind (A.pushedSel _ _) fun _ =>
    Does.bind (A.commitA _ _) fun _ => Does.bind (A.commitA _ _) fun _ => Does.bind (A.writeWins _ _) fun _ =>
    A.change fun _ => ⟨rfl, rfl, rfl, rfl⟩

theorem Invariant.enterGate (g : Desc) (err : Option Word) (ev : Event) : Keeps P (Machine.enterGate g err ev) :=
  Does.bind (A.handlerSegment _ _) fun _ => Does.bind Does.get fun _ =>
    Does.ite (A.enterInner _ _ _ _ _ _) (A.enterSame _ _ _ _ _ _)

theorem Invariant.deliverProtected (ev : Event) : Keeps P (Machine.deliverProtected ev) := by
  unfold Machine.deliverProtected
  refine Does.bind Does.get fun _ => Does.bind (Does.require _ _) fun _ => Does.bind (A.readDesc _) fun g => ?_
  refine Does.ite (Does.refuse _) ?_
  iterate 3 refine Does.bind (Does.require _ _) fun _ => ?_
  refine Does.bind (A.pushedCode _) fun err => Does.ite ?_ ?_
  · exact Does.bind (A.gateToTss _ _ _ _ _ _) fun _ => Does.pure _
  · exact Does.bind (A.enterGate g err ev) fun _ =>
      Does.bind (Does.change fun _ hs => A.handlerFlags _ hs) fun _ => Does.pure _

theorem Invariant.deliverReal (ev : Event) : Keeps P (Machine.deliverReal ev) := by
  unfold Machine.deliverReal
  refine Keeps.get_bind fun s hs => Does.bind (Does.require _ _) fun _ => Does.bind (A.physRead _ _) fun _ => ?_
  refine Does.bind (A.preparePushes _ _) fun _ => Does.bind (A.writeWins _ _) fun _ => ?_
  refine Does.bind (Does.change fun t ht => ?_) fun _ => Does.pure _
  have h1 := A.setFlag bitIF false (by decide) (by decide) (A.oldFlags hs ht)
  exact A.rest (A.setFlag bitTF false (by decide) (by decide) h1) ⟨rfl, rfl, rfl, rfl⟩

theorem Invariant.deliver (ev : Event) : Keeps P (Machine.deliver ev) :=
  Does.bind (Does.look _) fun _ => Does.ite (A.deliverProtected ev) (A.deliverReal ev)

/-- However deliveries follow one another (rules R550 to R557). -/
theorem Invariant.deliverChain (k : Nat) (ev : Event) : Yields P (Machine.deliverChain k ev) := by
  induction k generalizing ev with
  | zero =>
    intro s t hs h
    cases h
    exact A.rest hs ⟨rfl, rfl, rfl, rfl⟩
  | succ k ih =>
    intro s t hs h
    rcases deliverChain_next_cases h with ⟨b, u, hd, rfl⟩ | ⟨e, u, hd, ⟨-, rfl⟩ | ⟨-, h⟩⟩
    · exact A.rest ((A.deliver ev).ok hd hs) ⟨rfl, rfl, rfl, rfl⟩
    · exact A.rest ((A.deliver ev).error hd hs) ⟨rfl, rfl, rfl, rfl⟩
    · refine ih _ ?_ h
      exact A.rest ((A.deliver ev).error hd hs) ⟨rfl, rfl, rfl, rfl⟩

theorem Invariant.deliverEvent (ev : Event) : Yields P (Machine.deliverEvent ev) := A.deliverChain 5 ev

theorem Invariant.takeException (e : Exc) : Yields P (Machine.takeException e) := fun s t hs h => by
  refine A.deliverEvent _ ?_ h
  exact A.rest hs ⟨rfl, rfl, rfl, rfl⟩

theorem Invariant.complete {s : State} (tf : Bool) (d : Done) (hs : P s) : P (Machine.complete tf d s) := by
  have rf := A.setFlag bitRF false (by decide) (by decide) hs
  cases d with
  | next => exact A.rest rf ⟨rfl, rfl, rfl, rfl⟩
  | transfer => exact A.rest rf ⟨rfl, rfl, rfl, rfl⟩
  | nextKeepRf => exact A.rest hs ⟨rfl, rfl, rfl, rfl⟩
  | transferKeepRf => exact A.rest hs ⟨rfl, rfl, rfl, rfl⟩
  | again => exact A.rest hs ⟨rfl, rfl, rfl, rfl⟩
  | waiting => exact A.rest hs ⟨rfl, rfl, rfl, rfl⟩

/-- An instruction whose body keeps the predicate, whether it completes or takes an exception. -/
theorem Invariant.run {m : M Done} (hm : Keeps P m) : Yields P (Machine.run m) := fun s t hs h => by
  rcases run_next_cases h with ⟨d, u, hd, rfl⟩ | ⟨e, u, he, h⟩
  · exact A.complete _ d (hm.ok hd hs)
  · exact A.takeException e (hm.error he hs) h

theorem Invariant.softInt (n : Byte) : Keeps P (Machine.softInt n) :=
  Does.bind (Does.look _) fun _ => Does.bind (A.deliver _) fun _ => Does.pure _

/-! ## Returns -/

theorem Invariant.returnStack (rss rcs : BitVec 16) : Keeps P (Machine.returnStack rss rcs) := by
  unfold Machine.returnStack
  refine Does.bind (Does.require _ _) fun _ => Does.bind (A.fetchOr _ _) fun _ => ?_
  iterate 4 refine Does.bind (Does.require _ _) fun _ => ?_
  exact Does.pure _

theorem Invariant.returnSame (eip : Word) (rcs : BitVec 16) (d : Desc) (n : Word) :
    Keeps P (Machine.returnSame eip rcs d n) :=
  Does.bind (Does.require _ _) fun _ => Does.bind (A.prepareA _) fun _ => Does.bind (A.commitA _ _) fun _ =>
    A.change fun _ => ⟨rfl, rfl, rfl, rfl⟩

theorem Invariant.returnOuter (o : OpSize) (eip : Word) (rcs : BitVec 16) (d : Desc) (k n : Word) :
    Keeps P (Machine.returnOuter o eip rcs d k n) :=
  Does.bind (A.stackRead _ _) fun _ => Does.bind (A.stackRead _ _) fun _ => Does.bind (A.returnStack _ _) fun _ =>
    Does.bind (Does.require _ _) fun _ => Does.bind (A.prepareA _) fun _ => Does.bind (A.prepareA _) fun _ =>
    Does.bind (A.commitA _ _) fun _ => Does.bind (A.commitA _ _) fun _ =>
    Does.bind (A.change fun _ => ⟨rfl, rfl, rfl, rfl⟩) fun _ => A.change sameCore_nullOuter

theorem Invariant.clearNmi : Keeps P Machine.clearNmi := A.change fun _ => ⟨rfl, rfl, rfl, rfl⟩

theorem Invariant.iretReal (o : OpSize) : Keeps P (Machine.iretReal o) :=
  Does.bind (A.stackRead _ _) fun _ => Does.bind (A.stackRead _ _) fun _ => Does.bind (A.stackRead _ _) fun fl =>
    Does.bind (Does.change fun s hs => A.rest (A.loadFlags o false s.level fl hs) ⟨rfl, rfl, rfl, rfl⟩) fun _ =>
    Does.bind A.clearNmi fun _ => Does.pure _

theorem Invariant.iretTo (o : OpSize) (eip : Word) (rcs : BitVec 16) (d : Desc) (vm : Bool) :
    Keeps P (Machine.iretTo o eip rcs d vm) :=
  Does.bind Does.get fun _ => Does.ite (Does.ite (Does.refuse _) (A.returnSame _ _ _ _))
    (Does.bind (Does.stackRange _ _) fun _ => Does.ite (Does.refuse _) (A.returnOuter _ _ _ _ _ _))

theorem Invariant.iretStack (o : OpSize) : Keeps P (Machine.iretStack o) := by
  unfold Machine.iretStack
  refine Keeps.get_bind fun s hs => Does.bind (Does.stackRange _ _) fun _ => ?_
  iterate 3 refine Does.bind (A.stackRead _ _) fun _ => ?_
  refine Does.bind (A.returnSegment _) fun _ => Does.bind (A.iretTo _ _ _ _ _) fun _ => ?_
  exact Does.bind (Does.change fun t ht => A.loadFlags o true s.level _ (A.oldFlags hs ht)) fun _ =>
    Does.bind A.clearNmi fun _ => Does.pure _

theorem Invariant.iretOp (o : OpSize) : Keeps P (Machine.iretOp o) :=
  Does.bind Does.get fun _ => Does.ite (A.iretReal o) (Does.ite
    (Does.bind A.iretTask fun _ => Does.bind A.clearNmi fun _ => Does.pure _) (A.iretStack o))

end

/-! ## The bodies of instructions -/

section
variable {P : State → Prop} (A : Invariant P)
include A

omit A in
theorem Keeps.nearCheck (dst : Word) : Keeps P (Machine.nearCheck dst) := Does.bind Does.get fun _ => Does.require _ _

theorem Invariant.setEip (dst : Word) : Keeps P (Machine.setEip dst) := A.change fun _ => ⟨rfl, rfl, rfl, rfl⟩

theorem Invariant.nearJump (dst : Word) : Keeps P (Machine.nearJump dst) :=
  Does.bind (Keeps.nearCheck _) fun _ => Does.bind (A.setEip _) fun _ => Does.pure _

theorem Invariant.nearCall (o : OpSize) (dst : Word) : Keeps P (Machine.nearCall o dst) :=
  Does.bind (Keeps.nearCheck _) fun _ => Does.bind (Does.look _) fun _ => Does.bind (A.push _ _) fun _ =>
    Does.bind (A.setEip _) fun _ => Does.pure _

theorem Invariant.nearRet (o : OpSize) (n : BitVec 16) : Keeps P (Machine.nearRet o n) :=
  Does.bind (A.stackRead _ _) fun _ => Does.bind (Keeps.nearCheck _) fun _ =>
    Does.bind (A.change fun _ => ⟨rfl, rfl, rfl, rfl⟩) fun _ => Does.pure _

theorem Invariant.enterCode (d : Desc) (pa : List Nat) (sel : BitVec 16) (off : Word) :
    Keeps P (Machine.enterCode d pa sel off) :=
  Does.bind (A.commitA _ _) fun _ => A.change fun _ => ⟨rfl, rfl, rfl, rfl⟩

theorem Invariant.prepareRet (call : Bool) (o : OpSize) : Keeps P (Machine.prepareRet call o) :=
  Does.listIf _ (A.preparePushes _ _)

theorem Invariant.pushRet (call : Bool) (o : OpSize) (ws : List Win) : Keeps P (Machine.pushRet call o ws) :=
  Does.onlyIf _ (Does.bind Does.get fun _ => Does.bind (A.pushedSel _ _) fun _ => Does.bind (A.writeWins _ _) fun _ =>
    A.change fun s => sameCore_moveSp s _)

theorem Invariant.sameLevel (call : Bool) (o : OpSize) (sel : BitVec 16) (off : Word) (d : Desc) :
    Keeps P (Machine.sameLevel call o sel off d) :=
  Does.bind (Does.require _ _) fun _ => Does.bind (A.prepareRet _ _) fun _ => Does.bind (A.prepareA _) fun _ =>
    Does.bind (A.pushRet _ _ _) fun _ => Does.bind (A.enterCode _ _ _ _) fun _ => Does.pure _

theorem Invariant.directFar (call : Bool) (o : OpSize) (sel : BitVec 16) (off : Word) (d : Desc) :
    Keeps P (Machine.directFar call o sel off d) := by
  unfold Machine.directFar
  refine Does.bind (Does.look _) fun _ => ?_
  iterate 4 refine Does.bind (Does.require _ _) fun _ => ?_
  exact A.sameLevel _ _ _ _ _

theorem Invariant.readParams (i n : Nat) : Keeps P (Machine.readParams i n) := by
  induction n generalizing i with
  | zero => exact Does.pure _
  | succ n ih => exact Does.bind (A.stackRead _ _) fun _ => Does.bind (ih _) fun _ => Does.pure _

theorem Invariant.innerCall (sel : BitVec 16) (off : Word) (count : Nat) (t : Desc) :
    Keeps P (Machine.innerCall sel off count t) :=
  Does.bind (A.innerStack _ _) fun _ => Does.bind (Does.require _ _) fun _ => Does.bind (A.readParams _ _) fun _ =>
    Does.bind (Does.require _ _) fun _ => Does.bind (A.prepareA _) fun _ => Does.bind (A.prepareA _) fun _ =>
    Does.bind (A.innerWindows _ _ _ _ _) fun _ => Does.bind Does.get fun _ => Does.bind (A.pushedSel _ _) fun _ =>
    Does.bind (A.pushedSel _ _) fun _ => Does.bind (A.commitA _ _) fun _ => Does.bind (A.commitA _ _) fun _ =>
    Does.bind (A.writeWins _ _) fun _ => Does.bind (A.change fun _ => ⟨rfl, rfl, rfl, rfl⟩) fun _ => Does.pure _

theorem Invariant.gateTarget (call : Bool) (sel : BitVec 16) : Keeps P (Machine.gateTarget call sel) := by
  unfold Machine.gateTarget
  refine Does.bind (Does.look _) fun _ => Does.bind (Does.require _ _) fun _ => Does.bind (A.fetchOr _ _) fun _ => ?_
  iterate 4 refine Does.bind (Does.require _ _) fun _ => ?_
  exact Does.pure _

theorem Invariant.viaCallGate (call : Bool) (sel : BitVec 16) (g : Desc) : Keeps P (Machine.viaCallGate call sel g) :=
  Does.bind (Does.look _) fun _ => Does.bind (Does.require _ _) fun _ => Does.bind (Does.require _ _) fun _ =>
    Does.bind (A.gateTarget _ _) fun _ => Does.ite (A.innerCall _ _ _ _) (A.sameLevel _ _ _ _ _)

theorem Invariant.farProtected (call : Bool) (o : OpSize) (sel : BitVec 16) (off : Word) :
    Keeps P (Machine.farProtected call o sel off) := by
  unfold Machine.farProtected
  refine Does.bind (Does.require _ _) fun _ => Does.bind (A.fetchOr _ _) fun d => ?_
  refine Does.ite (A.directFar _ _ _ _ _) (Does.bind (Does.require _ _) fun _ => ?_)
  refine Does.ite (A.viaCallGate _ _ _) (Does.ite (Does.bind (A.viaTaskGate _ _ _) fun _ => Does.pure _) ?_)
  exact Does.ite (Does.bind (A.viaTss _ _ _) fun _ => Does.pure _) (Does.ite (Does.refuse _) (Does.raise _))

theorem Invariant.farReal (call : Bool) (o : OpSize) (sel : BitVec 16) (off : Word) :
    Keeps P (Machine.farReal call o sel off) :=
  Does.bind (A.prepareRet _ _) fun _ => Does.bind (A.pushRet _ _ _) fun _ =>
    Does.bind (A.change fun _ => ⟨rfl, rfl, rfl, rfl⟩) fun _ => Does.pure _

theorem Invariant.farTransfer (call : Bool) (o : OpSize) (sel : BitVec 16) (off : Word) :
    Keeps P (Machine.farTransfer call o sel off) :=
  Does.bind (Does.bind (Does.look _) fun _ => Does.ite (A.farProtected _ _ _ _) (A.farReal _ _ _ _)) fun _ =>
    Does.bind (A.change fun _ => ⟨rfl, rfl, rfl, rfl⟩) fun _ => Does.pure _

theorem Invariant.farRetTo (o : OpSize) (eip : Word) (rcs : BitVec 16) (d : Desc) (n : BitVec 16) :
    Keeps P (Machine.farRetTo o eip rcs d n) :=
  Does.bind Does.get fun _ => Does.ite (A.returnSame _ _ _ _)
    (Does.bind (Does.stackRange _ _) fun _ => A.returnOuter _ _ _ _ _ _)

theorem Invariant.farRet (o : OpSize) (n : BitVec 16) : Keeps P (Machine.farRet o n) :=
  Does.bind Does.get fun _ => Does.bind (Does.stackRange _ _) fun _ => Does.bind (A.stackRead _ _) fun _ =>
    Does.bind (A.stackRead _ _) fun _ => Does.ite
      (Does.bind (A.change fun _ => ⟨rfl, rfl, rfl, rfl⟩) fun _ => Does.pure _)
      (Does.bind (A.returnSegment _) fun _ => Does.bind (A.farRetTo _ _ _ _ _) fun _ => Does.pure _)

theorem Invariant.setInhibit (x : SegReg) : Keeps P (Machine.setInhibit x) :=
  Does.ite (A.change fun _ => ⟨rfl, rfl, rfl, rfl⟩) (Does.pure _)

theorem Invariant.popSeg (o : OpSize) (x : SegReg) : Keeps P (Machine.popSeg o x) :=
  Does.bind (A.stackRead _ _) fun _ => Does.bind (A.loadSeg _ _) fun _ =>
    Does.bind (A.change fun s => sameCore_moveSp s _) fun _ => Does.bind (A.setInhibit x) fun _ => Does.pure _

theorem Invariant.pushSeg (o : OpSize) (x : SegReg) : Keeps P (Machine.pushSeg o x) :=
  Does.bind (Does.look _) fun _ => Does.bind (A.pushedSel _ _) fun _ => Does.bind (A.push _ _) fun _ => Does.pure _

theorem Invariant.loadFarPtr (x : SegReg) (o : OpSize) (dst : Reg) (src : Rm) :
    Keeps P (Machine.loadFarPtr x o dst src) :=
  Does.bind (Keeps.memOnly _) fun _ => Does.bind (A.readFarPtr _ _) fun _ => Does.bind (A.loadSeg _ _) fun _ =>
    Does.bind (A.change fun s => sameCore_setRegSz s _ _ _) fun _ => Does.pure _

omit A in
theorem Keeps.protectedOnly : Keeps P Machine.protectedOnly := Does.bind (Does.look _) fun _ => Does.require _ _

omit A in
theorem Keeps.privileged : Keeps P Machine.privileged := Does.bind (Does.look _) fun _ => Does.require _ _

theorem Invariant.setZf (b : Bool) : Keeps P (Machine.setZf b) :=
  Does.change fun _ hs => A.setFlag bitZF b (by decide) (by decide) hs

theorem Invariant.inspect (src : Rm) (ok : BitVec 2 → BitVec 16 → Desc → Bool) : Keeps P (Machine.inspect src ok) :=
  Does.bind Keeps.protectedOnly fun _ => Does.bind (A.readRm16 _) fun _ => Does.bind (Does.look _) fun _ =>
    Does.bind (Does.ite (Does.pure _) (A.fetchDesc _)) fun _ => Does.pure _

theorem Invariant.verify (src : Rm) (ok : BitVec 2 → BitVec 16 → Desc → Bool) : Keeps P (Machine.verify src ok) :=
  Does.bind (A.inspect _ _) fun _ => Does.bind (A.setZf _) fun _ => Does.pure _

theorem Invariant.readPseudo (o : OpSize) (m : MemOp) : Keeps P (Machine.readPseudo o m) :=
  Does.bind (A.memRead _ _ _) fun _ => Does.bind (A.memRead _ _ _) fun _ => Does.pure _

theorem Invariant.writePseudo (o : OpSize) (m : MemOp) (t : TableReg) : Keeps P (Machine.writePseudo o m t) :=
  Does.bind (A.memWindow _ _ _ _) fun _ => Does.bind (A.memWindow _ _ _ _) fun _ => Does.bind (A.draw _) fun _ =>
    Does.bind (A.winWrite _ _) fun _ => A.winWrite _ _

omit A in
theorem Keeps.ioplCheck : Keeps P Machine.ioplCheck := Does.bind Does.get fun _ => Does.require _ _

/-! ### Ports -/

theorem Invariant.mapAllows (base : Word) (limit mb p n : Nat) : Keeps P (Machine.mapAllows base limit mb p n) := by
  induction n generalizing p with
  | zero => exact Does.pure _
  | succ n ih =>
    exact Does.ite (Does.pure _) (Does.bind (A.sysRead _ _) fun _ => Does.ite (Does.pure _) (ih _))

theorem Invariant.bitmapAllows (port : BitVec 16) (n : Nat) : Keeps P (Machine.bitmapAllows port n) :=
  Does.bind Does.needTr fun _ => Does.bind (Does.look _) fun _ => Does.bind (A.sysRead _ _) fun _ =>
    Does.ite (Does.pure _) (A.mapAllows _ _ _ _ _)

theorem Invariant.ioCheck (port : BitVec 16) (n : Nat) : Keeps P (Machine.ioCheck port n) :=
  Does.bind Does.get fun _ => Does.ite (Does.pure _) (Does.bind (A.bitmapAllows _ _) fun _ => Does.require _ _)

omit A in
theorem Keeps.portFits (port : BitVec 16) (n : Nat) : Keeps P (Machine.portFits port n) :=
  Does.ite (Does.pure _) (Does.refuse _)

theorem Invariant.ioRead (port : BitVec 16) (n : Nat) : Keeps P (Machine.ioRead port n) :=
  Does.bind (Keeps.portFits _ _) fun _ => Does.bind (A.draw _) fun _ =>
    Does.bind (A.change fun _ => ⟨rfl, rfl, rfl, rfl⟩) fun _ => Does.pure _

theorem Invariant.ioWrite (port : BitVec 16) (n : Nat) (v : Word) : Keeps P (Machine.ioWrite port n v) :=
  Does.bind (Keeps.portFits _ _) fun _ => A.change fun _ => ⟨rfl, rfl, rfl, rfl⟩

theorem Invariant.inByte (port : BitVec 16) : Keeps P (Machine.inByte port) :=
  Does.bind (A.ioCheck _ _) fun _ => Does.bind (A.ioRead _ _) fun _ =>
    Does.bind (A.change fun s => sameCore_setReg8 s _ _) fun _ => Does.pure _

theorem Invariant.inWord (o : OpSize) (port : BitVec 16) : Keeps P (Machine.inWord o port) :=
  Does.bind (A.ioCheck _ _) fun _ => Does.bind (A.ioRead _ _) fun _ =>
    Does.bind (A.change fun s => sameCore_setRegSz s _ _ _) fun _ => Does.pure _

theorem Invariant.outByte (port : BitVec 16) : Keeps P (Machine.outByte port) :=
  Does.bind (A.ioCheck _ _) fun _ => Does.bind (Does.look _) fun _ => Does.bind (A.ioWrite _ _ _) fun _ => Does.pure _

theorem Invariant.outWord (o : OpSize) (port : BitVec 16) : Keeps P (Machine.outWord o port) :=
  Does.bind (A.ioCheck _ _) fun _ => Does.bind (Does.look _) fun _ => Does.bind (A.ioWrite _ _ _) fun _ => Does.pure _

theorem Invariant.insElement (n : Nat) (a : AddrSize) : Keeps P (Machine.insElement n a) :=
  Does.bind (Does.look _) fun _ => Does.bind (A.ioCheck _ _) fun _ => Does.bind Does.get fun _ =>
    Does.bind (A.segWindow _ _ _ _) fun _ => Does.bind (A.ioRead _ _) fun _ => Does.bind (A.winWrite _ _) fun _ =>
    A.change fun s => sameCore_bumpStr s _ _ _

theorem Invariant.outsElement (n : Nat) (a : AddrSize) (x : Option SegReg) : Keeps P (Machine.outsElement n a x) :=
  Does.bind (Does.look _) fun _ => Does.bind (A.ioCheck _ _) fun _ => Does.bind Does.get fun _ =>
    Does.bind (A.segRead _ _ _) fun _ => Does.bind (A.ioWrite _ _ _) fun _ => A.change fun s => sameCore_bumpStr s _ _ _

theorem Invariant.repeated (a : AddrSize) {m : M Unit} (h : Keeps P m) : Keeps P (Machine.repeated a m) :=
  Does.bind Does.get fun _ => Does.ite (Does.pure _) (Does.bind h fun _ =>
    Does.bind (A.change fun s => sameCore_bumpStr s _ _ _) fun _ => Does.bind Does.get fun _ => Does.pure _)

/-! ### Special registers -/

theorem Invariant.freeFlags : Keeps P Machine.freeFlags :=
  Does.bind (A.draw _) fun _ => Does.change fun _ hs => A.freeStatus _ hs

theorem Invariant.intoReg (dst : Reg) (v : Word) : Keeps P (Machine.intoReg dst v) :=
  Does.bind (A.change fun s => sameCore_setReg s _ _) fun _ => Does.bind A.freeFlags fun _ => Does.pure _

/-- A TLB of which nothing is known, or the one there was. -/
theorem Invariant.loosenTlb {s : State} (hs : P s) : P s.loosenTlb := by
  unfold State.loosenTlb
  split
  · exact A.unknownTlb hs
  · exact hs

theorem Invariant.writeCr0 (v : Word) : Keeps P (Machine.writeCr0 v) := by
  unfold Machine.writeCr0
  refine Keeps.require_bind fun h => Does.bind (Does.look _) fun _ => Does.ite (Does.refuse _) ?_
  refine Does.bind (Does.look _) fun _ => Does.bind (Does.look _) fun _ => Does.ite (Does.refuse _) ?_
  exact Does.bind (Does.change fun _ hs => A.setCr0 v (by simpa [or_iff_not_imp_left] using h) hs) fun _ =>
    Does.onlyIf _ (Does.change fun _ hs => A.loosenTlb hs)

omit A in
theorem Reads.pairBit {R : Rel} (B : Reads R) (x y : Bool) : Does R (Machine.pairBit x y) :=
  Does.ite (Does.pure _) (B.draw _)

omit A in
theorem Reads.describedEntry {R : Rel} (B : Reads R) (v : Word) : Does R (Machine.describedEntry v) :=
  Does.bind (B.pairBit _ _) fun _ => Does.bind (B.pairBit _ _) fun _ => Does.bind (B.pairBit _ _) fun _ =>
    Does.bind (Does.look _) fun _ => Does.pure _

theorem Invariant.tlbLookup (v : Word) : Keeps P (Machine.tlbLookup v) := by
  unfold Machine.tlbLookup
  refine Does.bind (A.draw _) fun _ => Does.bind (A.draw _) fun _ => Does.bind Does.get fun s => ?_
  refine Does.ite ?_ (Does.bind (A.change fun _ => ⟨rfl, rfl, rfl, rfl⟩) fun _ => ?_)
  · exact Does.bind (A.describedEntry v) fun _ => A.change fun _ => ⟨rfl, rfl, rfl, rfl⟩
  · split <;> exact A.change fun _ => ⟨rfl, rfl, rfl, rfl⟩

theorem Invariant.writeTr6 (v : Word) : Keeps P (Machine.writeTr6 v) := by
  have unknown : Keeps P (Machine.change State.unknownTlb) := Does.change fun _ hs => A.unknownTlb hs
  refine Does.bind (Does.look _) fun pg => Does.bind (A.change fun _ => ⟨rfl, rfl, rfl, rfl⟩) fun _ => Does.ite ?_ ?_
  · exact Does.bind (Does.onlyIf _ unknown) fun _ => A.tlbLookup v
  · exact Does.bind (A.tlbWrite v) fun _ => Does.onlyIf _ unknown

omit A in
/-- A debug register is outside what `SameCore` names. -/
theorem sameCore_setDr {s t : State} {n : BitVec 3} {v : Word} (h : s.setDr n v = some t) : SameCore s t := by
  unfold State.setDr at h
  split at h <;> cases h <;> exact ⟨rfl, rfl, rfl, rfl⟩

/-! ### The coprocessor and exchanges -/

theorem Invariant.escWindow (m : MemOp) (k : Nat) (w : Bool) : Keeps P (Machine.escWindow m k w) :=
  Does.bind Does.get fun _ => A.segWindow _ _ _ _

theorem Invariant.escBytes (m : MemOp) (w : Bool) (k n : Nat) : Keeps P (Machine.escBytes m w k n) := by
  induction n generalizing k with
  | zero => exact Does.pure _
  | succ n ih =>
    exact Does.bind (A.attempt (A.escWindow _ _ _)) fun _ => Does.bind (ih _) fun _ => Does.pure _

theorem Invariant.drawBytes (n : Nat) : Keeps P (Machine.drawBytes n) := by
  induction n with
  | zero => exact Does.pure _
  | succ n ih => exact Does.bind (A.draw _) fun _ => Does.bind ih fun _ => Does.pure _

theorem Invariant.escWins (store : Bool) (ws : List Win) : Keeps P (Machine.escWins store ws) := by
  induction ws with
  | nil => exact Does.pure _
  | cons w ws ih =>
    exact Does.ite
      (Does.bind (A.drawBytes _) fun _ => Does.bind (A.winWriteList _ _) fun _ => ih)
      (Does.bind (A.winReadList _) fun _ => Does.bind ih fun _ => Does.pure _)

theorem Invariant.escMove (store : Bool) (ws : List Win) : Keeps P (Machine.escMove store ws) :=
  A.anyOrder (A.escWins store ws)

theorem Invariant.escWindows (m : MemOp) (n : Nat) (store : Bool) : Keeps P (Machine.escWindows m n store) := by
  unfold Machine.escWindows
  refine Does.bind Does.get fun s => Does.ite (Does.pure _) (Does.ite ?_ ?_)
  · exact Does.bind (A.memWindow _ _ _ _) fun _ => Does.pure _
  · refine Does.bind (A.escWindow _ _ _) fun _ => Does.bind (A.escWindow _ _ _) fun _ =>
      Does.bind (A.escBytes _ _ _ _) fun ws => Does.ite (Does.pure _) (Does.ite ?_ (Does.raise _))
    exact Does.bind (Does.listIf _ (A.escMove _ _)) fun _ => Does.raise _

theorem Invariant.escMemory (op : BitVec 3) (b : Byte) (m : MemOp) : Keeps P (Machine.escMemory op b m) :=
  Does.bind (A.draw _) fun _ => Does.bind (A.escWindows _ _ _) fun _ => Does.bind (A.escMove _ _) fun _ =>
    Does.bind (A.change fun _ => ⟨rfl, rfl, rfl, rfl⟩) fun _ => Does.pure _

theorem Invariant.escRegister (op : BitVec 3) (b : Byte) : Keeps P (Machine.escRegister op b) :=
  Does.bind (Does.onlyIf _ (Does.bind (A.drawBytes _) fun _ => A.change fun s => sameCore_setRegSz s _ _ _)) fun _ =>
    Does.bind (A.change fun _ => ⟨rfl, rfl, rfl, rfl⟩) fun _ => Does.pure _

theorem Invariant.xchgByte (rm : Rm8) (r : Reg8) : Keeps P (Machine.xchgByte rm r) := by
  refine Does.bind (Does.look _) fun v => ?_
  cases rm with
  | reg q =>
    exact Does.bind (A.change fun s => (sameCore_setReg8 s _ _).trans (sameCore_setReg8 _ _ _)) fun _ => Does.pure _
  | mem m =>
    exact Does.bind (A.memWindow _ _ _ _) fun _ => Does.bind (A.winRead _) fun _ => Does.bind (A.winWrite _ _) fun _ =>
      Does.bind (A.change fun s => sameCore_setReg8 s _ _) fun _ => Does.pure _

theorem Invariant.xchgWord (o : OpSize) (rm : Rm) (r : Reg) : Keeps P (Machine.xchgWord o rm r) := by
  refine Does.bind (Does.look _) fun v => ?_
  cases rm with
  | reg q =>
    exact Does.bind (A.change fun s => (sameCore_setRegSz s _ _ _).trans (sameCore_setRegSz _ _ _ _)) fun _ =>
      Does.pure _
  | mem m =>
    exact Does.bind (A.memWindow _ _ _ _) fun _ => Does.bind (A.winRead _) fun _ => Does.bind (A.winWrite _ _) fun _ =>
      Does.bind (A.change fun s => sameCore_setRegSz s _ _ _) fun _ => Does.pure _

end

/-! ## Every instruction -/

section
variable {P : State → Prop} (A : Invariant P)
include A

theorem Invariant.execArpl (dst : Rm) (src : Reg) : Yields P (Machine.execArpl dst src) :=
  A.run <| Does.bind Keeps.protectedOnly fun _ => Does.bind (A.readRm16 _) fun _ => Does.bind (Does.look _) fun _ =>
    Does.ite (Does.bind (A.writeRm _ _ _) fun _ => Does.bind (A.setZf _) fun _ => Does.pure _)
      (Does.bind (A.setZf _) fun _ => Does.pure _)

theorem Invariant.execLar (o : OpSize) (dst : Reg) (src : Rm) : Yields P (Machine.execLar o dst src) := by
  refine A.run (Does.bind (A.inspect _ _) fun r => ?_)
  cases r with
  | none => exact Does.bind (A.setZf _) fun _ => Does.pure _
  | some d => exact Does.bind (A.draw _) fun _ => Does.bind (A.change fun s => sameCore_setRegSz s _ _ _) fun _ =>
      Does.bind (A.setZf _) fun _ => Does.pure _

theorem Invariant.execLsl (o : OpSize) (dst : Reg) (src : Rm) : Yields P (Machine.execLsl o dst src) := by
  refine A.run (Does.bind (A.inspect _ _) fun r => ?_)
  cases r with
  | none => exact Does.bind (A.setZf _) fun _ => Does.pure _
  | some d => exact Does.bind (A.change fun s => sameCore_setRegSz s _ _ _) fun _ =>
      Does.bind (A.setZf _) fun _ => Does.pure _

theorem Invariant.execSldt (o : OpSize) (dst : Rm) : Yields P (Machine.execSldt o dst) :=
  A.run <| Does.bind Keeps.protectedOnly fun _ => Does.bind (Does.look _) fun _ => Does.bind (A.storeSel _ _ _) fun _ =>
    Does.pure _

theorem Invariant.execStr (o : OpSize) (dst : Rm) : Yields P (Machine.execStr o dst) :=
  A.run <| Does.bind Keeps.protectedOnly fun _ => Does.bind (Does.look _) fun _ => Does.bind (A.storeSel _ _ _) fun _ =>
    Does.pure _

theorem Invariant.execLldt (src : Rm) : Yields P (Machine.execLldt src) :=
  A.run <| Does.bind Keeps.protectedOnly fun _ => Does.bind Keeps.privileged fun _ => Does.bind (A.readRm16 _) fun _ =>
    Does.ite (Does.bind (A.change fun _ => ⟨rfl, rfl, rfl, rfl⟩) fun _ => Does.pure _)
      (Does.bind (Does.require _ _) fun _ => Does.bind (A.fetchOr _ _) fun _ => Does.bind (Does.require _ _) fun _ =>
        Does.bind (Does.require _ _) fun _ => Does.bind (A.change fun _ => ⟨rfl, rfl, rfl, rfl⟩) fun _ => Does.pure _)

theorem Invariant.execLtr (src : Rm) : Yields P (Machine.execLtr src) :=
  A.run <| Does.bind Keeps.protectedOnly fun _ => Does.bind Keeps.privileged fun _ => Does.bind (A.readRm16 _) fun _ =>
    Does.bind (Does.require _ _) fun _ => Does.bind (Does.require _ _) fun _ => Does.bind (A.fetchOr _ _) fun _ =>
    Does.ite (Does.refuse _) (Does.bind (Does.require _ _) fun _ => Does.bind (Does.require _ _) fun _ =>
      Does.bind (A.sysWrite _ _ _) fun _ => Does.bind (A.change fun _ => ⟨rfl, rfl, rfl, rfl⟩) fun _ => Does.pure _)

theorem Invariant.execSgdt (o : OpSize) (dst : Rm) : Yields P (Machine.execSgdt o dst) :=
  A.run <| Does.bind (Keeps.memOnly _) fun _ => Does.bind (Does.look _) fun _ => Does.bind (A.writePseudo _ _ _) fun _ =>
    Does.pure _

theorem Invariant.execSidt (o : OpSize) (dst : Rm) : Yields P (Machine.execSidt o dst) :=
  A.run <| Does.bind (Keeps.memOnly _) fun _ => Does.bind (Does.look _) fun _ => Does.bind (A.writePseudo _ _ _) fun _ =>
    Does.pure _

theorem Invariant.execLgdt (o : OpSize) (src : Rm) : Yields P (Machine.execLgdt o src) :=
  A.run <| Does.bind (Keeps.memOnly _) fun _ => Does.bind Keeps.privileged fun _ => Does.bind (A.readPseudo _ _) fun _ =>
    Does.bind (A.change fun _ => ⟨rfl, rfl, rfl, rfl⟩) fun _ => Does.pure _

theorem Invariant.execLidt (o : OpSize) (src : Rm) : Yields P (Machine.execLidt o src) :=
  A.run <| Does.bind (Keeps.memOnly _) fun _ => Does.bind Keeps.privileged fun _ => Does.bind (A.readPseudo _ _) fun _ =>
    Does.bind (A.change fun _ => ⟨rfl, rfl, rfl, rfl⟩) fun _ => Does.pure _

theorem Invariant.execMovSregRm (n : BitVec 3) (src : Rm) : Yields P (Machine.execMovSregRm n src) := by
  refine A.run (Does.bind (A.readRm16 _) fun _ => ?_)
  split
  · exact Does.raise _
  · exact Does.raise _
  · exact Does.bind (A.loadSeg _ _) fun _ => Does.bind (A.setInhibit _) fun _ => Does.pure _

theorem Invariant.execMovRmSreg (o : OpSize) (dst : Rm) (x : SegReg) : Yields P (Machine.execMovRmSreg o dst x) :=
  A.run <| Does.bind (Does.look _) fun _ => Does.bind (A.storeSel _ _ _) fun _ => Does.pure _

theorem Invariant.execJmpRel8 (o : OpSize) (rel : BitVec 8) : Yields P (Machine.execJmpRel8 o rel) :=
  A.run <| Does.bind (Does.look _) fun _ => A.nearJump _

theorem Invariant.execJmpRel (rel : Imm) : Yields P (Machine.execJmpRel rel) :=
  A.run <| Does.bind (Does.look _) fun _ => A.nearJump _

theorem Invariant.execJmpRm (o : OpSize) (src : Rm) : Yields P (Machine.execJmpRm o src) :=
  A.run <| Does.bind (A.readRm _ _) fun _ => A.nearJump _

theorem Invariant.execJmpFarM (o : OpSize) (src : Rm) : Yields P (Machine.execJmpFarM o src) :=
  A.run <| Does.bind (Keeps.memOnly _) fun _ => Does.bind (A.readFarPtr _ _) fun _ => A.farTransfer _ _ _ _

theorem Invariant.execCallRel (rel : Imm) : Yields P (Machine.execCallRel rel) :=
  A.run <| Does.bind (Does.look _) fun _ => A.nearCall _ _

theorem Invariant.execCallRm (o : OpSize) (src : Rm) : Yields P (Machine.execCallRm o src) :=
  A.run <| Does.bind (A.readRm _ _) fun _ => A.nearCall _ _

theorem Invariant.execCallFarM (o : OpSize) (src : Rm) : Yields P (Machine.execCallFarM o src) :=
  A.run <| Does.bind (Keeps.memOnly _) fun _ => Does.bind (A.readFarPtr _ _) fun _ => A.farTransfer _ _ _ _

theorem Invariant.execInAlDx : Yields P Machine.execInAlDx := A.run <| Does.bind (Does.look _) fun _ => A.inByte _

theorem Invariant.execInEaxDx (o : OpSize) : Yields P (Machine.execInEaxDx o) :=
  A.run <| Does.bind (Does.look _) fun _ => A.inWord _ _

theorem Invariant.execOutDxAl : Yields P Machine.execOutDxAl := A.run <| Does.bind (Does.look _) fun _ => A.outByte _

theorem Invariant.execOutDxEax (o : OpSize) : Yields P (Machine.execOutDxEax o) :=
  A.run <| Does.bind (Does.look _) fun _ => A.outWord _ _

theorem Invariant.execInsb (a : AddrSize) : Yields P (Machine.execInsb a) :=
  A.run <| Does.bind (A.insElement _ _) fun _ => Does.pure _

theorem Invariant.execIns (o : OpSize) (a : AddrSize) : Yields P (Machine.execIns o a) :=
  A.run <| Does.bind (A.insElement _ _) fun _ => Does.pure _

theorem Invariant.execOutsb (a : AddrSize) (x : Option SegReg) : Yields P (Machine.execOutsb a x) :=
  A.run <| Does.bind (A.outsElement _ _ _) fun _ => Does.pure _

theorem Invariant.execOuts (o : OpSize) (a : AddrSize) (x : Option SegReg) : Yields P (Machine.execOuts o a x) :=
  A.run <| Does.bind (A.outsElement _ _ _) fun _ => Does.pure _

theorem Invariant.execRep (r : RepTarget) : Yields P (Machine.execRep r) := by
  cases r with
  | insb a => exact A.run (A.repeated _ (A.insElement _ _))
  | ins o a => exact A.run (A.repeated _ (A.insElement _ _))
  | outsb a x => exact A.run (A.repeated _ (A.outsElement _ _ _))
  | outs o a x => exact A.run (A.repeated _ (A.outsElement _ _ _))
  | application => exact fun _ _ _ h => nomatch h

theorem Invariant.execCli : Yields P Machine.execCli :=
  A.run <| Does.bind Keeps.ioplCheck fun _ =>
    Does.bind (Does.change fun _ hs => A.setFlag bitIF false (by decide) (by decide) hs) fun _ => Does.pure _

theorem Invariant.execSti : Yields P Machine.execSti :=
  A.run <| Does.bind Keeps.ioplCheck fun _ => Does.bind (Does.change fun _ hs =>
    A.rest (A.setFlag bitIF true (by decide) (by decide) hs) ⟨rfl, rfl, rfl, rfl⟩) fun _ => Does.pure _

theorem Invariant.execPushf (o : OpSize) : Yields P (Machine.execPushf o) :=
  A.run <| Does.bind (Does.look _) fun _ => Does.bind (A.push _ _) fun _ => Does.pure _

theorem Invariant.execPopf (o : OpSize) : Yields P (Machine.execPopf o) :=
  A.run <| Does.bind (A.stackRead _ _) fun v => Does.bind (Does.change fun s hs =>
    A.rest (A.loadFlags o s.pe s.level v hs) ⟨rfl, rfl, rfl, rfl⟩) fun _ => Does.pure _

theorem Invariant.execInto : Yields P Machine.execInto :=
  A.run <| Does.bind (Does.look _) fun _ => Does.ite (A.softInt _) (Does.pure _)

theorem Invariant.execBound (o : OpSize) (r : Reg) (src : Rm) : Yields P (Machine.execBound o r src) :=
  A.run <| Does.bind (Keeps.memOnly _) fun _ => Does.bind (A.memRead _ _ _) fun _ => Does.bind (A.memRead _ _ _) fun _ =>
    Does.bind (Does.look _) fun _ => Does.bind (Does.require _ _) fun _ => Does.pure _

theorem Invariant.execSmsw (o : OpSize) (dst : Rm) : Yields P (Machine.execSmsw o dst) :=
  A.run <| Does.bind (Does.look _) fun _ => Does.bind (A.storeSel _ _ _) fun _ => Does.pure _

theorem Invariant.execLmsw (src : Rm) : Yields P (Machine.execLmsw src) :=
  A.run <| Does.bind Keeps.privileged fun _ => Does.bind (A.readRm16 _) fun v =>
    Does.bind (Does.change fun _ hs => A.lmsw v hs) fun _ => Does.pure _

theorem Invariant.execClts : Yields P Machine.execClts :=
  A.run <| Does.bind Keeps.privileged fun _ => Does.bind (Does.change fun _ hs => A.clearTs hs) fun _ => Does.pure _

theorem Invariant.execHlt : Yields P Machine.execHlt :=
  A.run <| Does.bind Keeps.privileged fun _ => Does.bind (A.change fun _ => ⟨rfl, rfl, rfl, rfl⟩) fun _ => Does.pure _

theorem Invariant.execMovRegCr (dst : Reg) (n : BitVec 3) : Yields P (Machine.execMovRegCr dst n) := by
  refine A.run (Does.bind Keeps.privileged fun _ => Does.bind (Does.look _) fun c => ?_)
  split
  · exact A.intoReg _ _
  · exact A.intoReg _ _
  · exact A.intoReg _ _
  · exact Does.raise _

theorem Invariant.execMovCrReg (n : BitVec 3) (src : Reg) : Yields P (Machine.execMovCrReg n src) := by
  refine A.run (Does.bind Keeps.privileged fun _ => Does.bind (Does.look _) fun v => ?_)
  have tail : ∀ u : Unit, Keeps P (do Machine.freeFlags; return Done.next : M Done) := fun _ =>
    Does.bind A.freeFlags fun _ => Does.pure _
  dsimp only
  split
  · exact Does.bind (A.writeCr0 v) tail
  · exact Does.bind (Does.change fun s => A.toReads.cr2 s v) tail
  · exact Does.bind (Does.change fun _ hs => A.setCr3 v hs) tail
  · exact Does.bind (Does.raise _) tail

theorem Invariant.execMovRegDr (dst : Reg) (n : BitVec 3) : Yields P (Machine.execMovRegDr dst n) := by
  refine A.run (Does.bind Keeps.privileged fun _ => Does.bind (Does.look _) fun v => ?_)
  cases v with
  | none => exact Does.refuse _
  | some v => exact A.intoReg _ _

theorem Invariant.execMovDrReg (n : BitVec 3) (src : Reg) : Yields P (Machine.execMovDrReg n src) := by
  refine A.run (Does.bind Keeps.privileged fun _ => Keeps.get_bind fun s hs => ?_)
  split
  · exact Does.refuse _
  · rename_i t h
    exact Does.bind (Does.change fun _ _ => A.rest hs (sameCore_setDr h)) fun _ => Does.bind A.freeFlags fun _ =>
      Does.pure _

theorem Invariant.execMovRegTr (dst : Reg) (n : BitVec 3) : Yields P (Machine.execMovRegTr dst n) := by
  refine A.run (Does.bind Keeps.privileged fun _ => Does.bind (Does.look _) fun t => ?_)
  split
  · exact A.intoReg _ _
  · exact A.intoReg _ _
  · exact Does.refuse _

theorem Invariant.execMovTrReg (n : BitVec 3) (src : Reg) : Yields P (Machine.execMovTrReg n src) := by
  refine A.run (Does.bind Keeps.privileged fun _ => Does.bind (Does.look _) fun v => ?_)
  have tail : ∀ u : Unit, Keeps P (do Machine.freeFlags; return Done.next : M Done) := fun _ =>
    Does.bind A.freeFlags fun _ => Does.pure _
  dsimp only
  split
  · exact Does.bind (A.writeTr6 v) tail
  · exact Does.bind (A.change fun _ => ⟨rfl, rfl, rfl, rfl⟩) tail
  · exact Does.bind (Does.refuse _) tail

theorem Invariant.execEsc (op ext : BitVec 3) (rm : Rm) : Yields P (Machine.execEsc op ext rm) := by
  refine A.run (Does.bind Does.get fun s => Does.bind (Does.require _ _) fun _ => Does.bind (Does.require _ _) fun _ =>
    Does.ite (Does.pure _) (Does.bind (Does.require _ _) fun _ => ?_))
  cases rm with
  | reg r => exact A.escRegister _ _
  | mem m => exact A.escMemory _ _ _

theorem Invariant.execWait : Yields P Machine.execWait :=
  A.run <| Does.bind Does.get fun _ => Does.bind (Does.require _ _) fun _ => Does.ite (Does.pure _)
    (Does.bind (Does.require _ _) fun _ => Does.pure _)

theorem Invariant.execLock (l : LockTarget) : Yields P (Machine.execLock l) := by
  cases l with
  | xchg8 m r => exact A.run (A.xchgByte _ _)
  | xchg o m r => exact A.run (A.xchgWord _ _ _)
  | application => exact fun _ _ _ h => nomatch h
  | illegal => exact A.run (Does.raise _)

theorem Invariant.execMovRegImm (r : Reg) (v : Imm) : Yields P (Machine.execMovRegImm r v) :=
  A.run <| Does.bind (A.change fun s => sameCore_setRegSz s _ _ _) fun _ => Does.pure _

theorem Invariant.execMovReg8Imm (r : Reg8) (v : BitVec 8) : Yields P (Machine.execMovReg8Imm r v) :=
  A.run <| Does.bind (A.change fun s => sameCore_setReg8 s _ _) fun _ => Does.pure _

theorem Invariant.execMovRmReg (o : OpSize) (dst : Rm) (src : Reg) : Yields P (Machine.execMovRmReg o dst src) :=
  A.run <| Does.bind (Does.look _) fun _ => Does.bind (A.writeRm _ _ _) fun _ => Does.pure _

theorem Invariant.execMovRegRm (o : OpSize) (dst : Reg) (src : Rm) : Yields P (Machine.execMovRegRm o dst src) :=
  A.run <| Does.bind (A.readRm _ _) fun _ => Does.bind (A.change fun s => sameCore_setRegSz s _ _ _) fun _ =>
    Does.pure _

theorem Invariant.execPushReg (o : OpSize) (src : Reg) : Yields P (Machine.execPushReg o src) :=
  A.run <| Does.bind (Does.look _) fun _ => Does.bind (A.push _ _) fun _ => Does.pure _

theorem Invariant.execPopReg (o : OpSize) (dst : Reg) : Yields P (Machine.execPopReg o dst) :=
  A.run <| Does.bind (A.stackRead _ _) fun _ => Does.bind
    (A.change fun s => (sameCore_moveSp s _).trans (sameCore_setRegSz _ _ _ _)) fun _ => Does.pure _

theorem Invariant.execOrEaxImm (v : Imm) : Yields P (Machine.execOrEaxImm v) := by
  refine A.run (Does.bind (A.draw _) fun u => Does.bind (Does.change fun s hs => ?_) fun _ => Does.pure _)
  let r := s.regSz v.osz .eax ||| v.word
  have h := A.orFlags r (8 * v.osz.bytes) (u.getLsbD bitAF) (A.rest hs (sameCore_setRegSz s v.osz .eax r))
  rwa [State.setRegSz_eflags] at h

theorem Invariant.execOrAlImm (v : BitVec 8) : Yields P (Machine.execOrAlImm v) := by
  refine A.run (Does.bind (A.draw _) fun u => Does.bind (Does.change fun s hs => ?_) fun _ => Does.pure _)
  let r := s.reg8 .al ||| v
  have h := A.orFlags (r.zeroExtend 32) 8 (u.getLsbD bitAF) (A.rest hs (sameCore_setReg8 s .al r))
  rwa [State.setReg8_eflags] at h

theorem Invariant.exec (i : Instr) : Yields P (Machine.exec i) := by
  cases i with
  | arpl dst src => exact A.execArpl dst src
  | lar o dst src => exact A.execLar o dst src
  | lsl o dst src => exact A.execLsl o dst src
  | verr src => exact A.run (A.verify _ _)
  | verw src => exact A.run (A.verify _ _)
  | sldt o dst => exact A.execSldt o dst
  | str o dst => exact A.execStr o dst
  | lldt src => exact A.execLldt src
  | ltr src => exact A.execLtr src
  | sgdt o dst => exact A.execSgdt o dst
  | sidt o dst => exact A.execSidt o dst
  | lgdt o src => exact A.execLgdt o src
  | lidt o src => exact A.execLidt o src
  | movSregRm n src => exact A.execMovSregRm n src
  | movRmSreg o dst x => exact A.execMovRmSreg o dst x
  | popEs o => exact A.run (A.popSeg o .es)
  | popSs o => exact A.run (A.popSeg o .ss)
  | popDs o => exact A.run (A.popSeg o .ds)
  | popFs o => exact A.run (A.popSeg o .fs)
  | popGs o => exact A.run (A.popSeg o .gs)
  | pushEs o => exact A.run (A.pushSeg o .es)
  | pushCs o => exact A.run (A.pushSeg o .cs)
  | pushSs o => exact A.run (A.pushSeg o .ss)
  | pushDs o => exact A.run (A.pushSeg o .ds)
  | pushFs o => exact A.run (A.pushSeg o .fs)
  | pushGs o => exact A.run (A.pushSeg o .gs)
  | lds o dst src => exact A.run (A.loadFarPtr .ds o dst src)
  | les o dst src => exact A.run (A.loadFarPtr .es o dst src)
  | lss o dst src => exact A.run (A.loadFarPtr .ss o dst src)
  | lfs o dst src => exact A.run (A.loadFarPtr .fs o dst src)
  | lgs o dst src => exact A.run (A.loadFarPtr .gs o dst src)
  | jmpRel8 o rel => exact A.execJmpRel8 o rel
  | jmpRel rel => exact A.execJmpRel rel
  | jmpRm o src => exact A.execJmpRm o src
  | jmpFar off sel => exact A.run (A.farTransfer _ _ _ _)
  | jmpFarM o src => exact A.execJmpFarM o src
  | callRel rel => exact A.execCallRel rel
  | callRm o src => exact A.execCallRm o src
  | callFar off sel => exact A.run (A.farTransfer _ _ _ _)
  | callFarM o src => exact A.execCallFarM o src
  | ret o => exact A.run (A.nearRet o 0)
  | retImm o n => exact A.run (A.nearRet o n)
  | retFar o => exact A.run (A.farRet o 0)
  | retFarImm o n => exact A.run (A.farRet o n)
  | inAlImm port => exact A.run (A.inByte _)
  | inEaxImm o port => exact A.run (A.inWord o _)
  | inAlDx => exact A.execInAlDx
  | inEaxDx o => exact A.execInEaxDx o
  | outImmAl port => exact A.run (A.outByte _)
  | outImmEax o port => exact A.run (A.outWord o _)
  | outDxAl => exact A.execOutDxAl
  | outDxEax o => exact A.execOutDxEax o
  | insb a => exact A.execInsb a
  | ins o a => exact A.execIns o a
  | outsb a x => exact A.execOutsb a x
  | outs o a x => exact A.execOuts o a x
  | rep r => exact A.execRep r
  | cli => exact A.execCli
  | sti => exact A.execSti
  | pushf o => exact A.execPushf o
  | popf o => exact A.execPopf o
  | int3 => exact A.run (A.softInt 3)
  | intN n => exact A.run (A.softInt n)
  | into => exact A.execInto
  | iret o => exact A.run (A.iretOp o)
  | bound o r src => exact A.execBound o r src
  | smsw o dst => exact A.execSmsw o dst
  | lmsw src => exact A.execLmsw src
  | clts => exact A.execClts
  | hlt => exact A.execHlt
  | movRegCr dst n => exact A.execMovRegCr dst n
  | movCrReg n src => exact A.execMovCrReg n src
  | movRegDr dst n => exact A.execMovRegDr dst n
  | movDrReg n src => exact A.execMovDrReg n src
  | movRegTr dst n => exact A.execMovRegTr dst n
  | movTrReg n src => exact A.execMovTrReg n src
  | esc op ext rm => exact A.execEsc op ext rm
  | wait => exact A.execWait
  | lock l => exact A.execLock l
  | xchg8 rm r => exact A.run (A.xchgByte rm r)
  | xchg o rm r => exact A.run (A.xchgWord o rm r)
  | nop => exact A.run (Does.pure _)
  | movRegImm dst v => exact A.execMovRegImm dst v
  | movReg8Imm dst v => exact A.execMovReg8Imm dst v
  | movRmReg o dst src => exact A.execMovRmReg o dst src
  | movRegRm o dst src => exact A.execMovRegRm o dst src
  | pushReg o src => exact A.execPushReg o src
  | popReg o dst => exact A.execPopReg o dst
  | orEaxImm v => exact A.execOrEaxImm v
  | orAlImm v => exact A.execOrAlImm v

/-! ## Fetching -/

omit A in
theorem Keeps.checkFresh (ps : List Nat) : Keeps P (Machine.checkFresh ps) :=
  Does.bind Does.get fun _ => Does.ite (Does.refuse _) (Does.pure _)

theorem Invariant.fetchPage (flat : Bool) (lin : Word) (n : Nat) : Keeps P (Machine.fetchPage flat lin n) :=
  Does.bind (Does.bind Does.get fun _ => Does.ite (Does.pure _) (A.translate _ _ _)) fun _ =>
    Does.bind Does.get fun _ => Does.pure _

omit A in
theorem Keeps.decoded (d : Bool) (bs : List Byte) (ps : List Nat) : Keeps P (Machine.decoded d bs ps) := by
  unfold Machine.decoded
  split
  · exact Does.bind (Keeps.checkFresh _) fun _ => Does.pure _
  · exact Does.bind (Keeps.checkFresh _) fun _ => Does.raise _
  · exact Does.bind (Keeps.checkFresh _) fun _ => Does.raise _
  · exact Does.refuse _
  · exact Does.refuse _

theorem Invariant.fetchDecode (flat : Bool) : Keeps P (Machine.fetchDecode flat) := by
  unfold Machine.fetchDecode
  refine Does.bind Does.get fun s => Does.bind (Does.require _ _) fun _ => Does.bind (Does.require _ _) fun _ => ?_
  refine Does.bind (A.fetchPage _ _ _) fun ps => Does.bind (A.readBytes _) fun bs => ?_
  split
  · refine Does.ite (Does.bind (Keeps.checkFresh _) fun _ => ?_) (Keeps.decoded _ _ _)
    exact Does.bind (A.fetchPage _ _ _) fun _ => Does.bind (A.readBytes _) fun _ => Keeps.decoded _ _ _
  · exact Keeps.decoded _ _ _

theorem Invariant.identityMapped (lin : Word) (n : Nat) : Keeps P (Machine.identityMapped lin n) :=
  Does.bind Does.get fun _ => Does.bind (A.attempt (A.translateRange _ _ _ _)) fun _ => Does.pure _

theorem Invariant.checkHazard (i : Instr) (n : Nat) : Keeps P (Machine.checkHazard i n) :=
  Does.bind Does.get fun _ => Does.ite (Does.pure _) (Does.ite (Does.refuse _)
    (Does.bind (A.identityMapped _ _) fun _ => Does.ite (A.change fun _ => ⟨rfl, rfl, rfl, rfl⟩) (Does.refuse _)))

theorem Invariant.nextInstr : Keeps P Machine.nextInstr :=
  Does.bind (Does.look _) fun _ => Does.bind (A.fetchDecode _) fun _ => Does.bind (A.checkHazard _ _) fun _ =>
    Does.bind (A.change fun _ => ⟨rfl, rfl, rfl, rfl⟩) fun _ => Does.pure _

/-! ## The boundary -/

theorem Invariant.debugged {s : State} (b o : BitVec 4) (bd bs bt : Bool) (hs : P s) :
    P (s.debugged b o bd bs bt) := A.rest hs ⟨rfl, rfl, rfl, rfl⟩

theorem Invariant.ownDebugTask : Keeps P Machine.ownDebugTask :=
  Does.bind Does.get fun _ => Does.ite (Does.pure _) (Does.bind (A.readDesc _) fun _ => Does.pure _)

theorem Invariant.reportTraps : Yields P Machine.reportTraps := fun _ _ hs h =>
  A.deliverEvent _ (A.debugged _ _ _ _ _ hs) h

theorem Invariant.debugTrap : Yields P Machine.debugTrap := by
  intro s t hs h
  unfold Machine.debugTrap at h
  split at h
  · split at h
    · rename_i u hu
      cases h
      exact A.rest (A.ownDebugTask.ok hu hs) ⟨rfl, rfl, rfl, rfl⟩
    · exact A.reportTraps hs h
  · exact A.reportTraps hs h

theorem Invariant.debugFault : Yields P Machine.debugFault := fun _ _ hs h =>
  A.deliverEvent _ (A.debugged _ _ _ _ _ hs) h

theorem Invariant.execute : Yields P Machine.execute := by
  intro s t hs h
  have hc : P s.cleared := A.rest hs ⟨rfl, rfl, rfl, rfl⟩
  unfold Machine.execute at h
  split at h
  · cases h
  · split at h
    · exact A.exec _ (A.nextInstr.ok ‹_› hc) h
    · exact A.takeException _ (A.nextInstr.error ‹_› hc) h
    · cases h
    · cases h

theorem Invariant.acceptNmi : Yields P Machine.acceptNmi := by
  intro s t hs h
  refine A.deliverEvent _ ?_ h
  exact A.rest hs ⟨rfl, rfl, rfl, rfl⟩

theorem Invariant.acceptIntr (n : Byte) : Yields P (Machine.acceptIntr n) := by
  intro s t hs h
  refine A.deliverEvent _ ?_ h
  exact A.rest hs ⟨rfl, rfl, rfl, rfl⟩

theorem Invariant.interruptOr {go : State → Host.Outcome State Fault Refusal} (hg : Yields P go) :
    Yields P (Machine.interruptOr go) := by
  intro s t hs h
  have hd : P { s with draws := s.draws + 1 } := A.rest hs ⟨rfl, rfl, rfl, rfl⟩
  unfold Machine.interruptOr at h
  split at h
  · exact A.acceptNmi hs h
  · split at h
    · exact A.acceptIntr _ hd h
    · exact hg hd h

theorem Invariant.breakOr : Yields P Machine.breakOr := by
  intro s t hs h
  have hd : P { s with draws := s.draws + 1 } := A.rest hs ⟨rfl, rfl, rfl, rfl⟩
  have fault : Machine.debugFault s = .next t → P t := A.debugFault hs
  unfold Machine.breakOr at h
  split at h
  · cases h
  · dsimp only at h
    split at h
    · rename_i u hu
      split at h
      · split at h
        · exact fault h
        · cases h
          exact A.execute hd hu
      · exact fault h
    · split at h
      · exact fault h
      · cases h
    · split at h
      · exact fault h
      · cases h

theorem Invariant.boundary : Yields P Machine.boundary := by
  intro s t hs h
  unfold Machine.boundary at h
  split at h
  · refine A.execute ?_ h
    exact A.rest hs ⟨rfl, rfl, rfl, rfl⟩
  · split at h
    · exact A.debugTrap hs h
    · split at h
      · refine A.interruptOr (go := .next) ?_ hs h
        intro _ _ hu hn
        cases hn
        exact hu
      · split at h
        · exact A.breakOr hs h
        · exact A.interruptOr A.execute hs h

/-- Every step keeps a predicate that allows the updates the machine makes. -/
theorem Invariant.step : Yields P Machine.step := by
  intro s t hs h
  have hn : P s.sense := A.sense hs
  unfold Machine.step at h
  iterate 3
    split at h
    · cases h
  dsimp only at h
  split at h
  · cases h
    exact A.doReset hn
  · split at h
    · cases h
      exact hn
    · split at h
      · cases h
      · exact A.boundary hn h

end

/-! ## Physical memory -/

theorem memOk_of_mem {s t : State} (h : MemOk s) (e : t.mem = s.mem) : MemOk t := by
  unfold MemOk
  rwa [e]

/-- The writes of other bus masters that the environment presents keep memory canonical. -/
theorem memOk_sense {s : State} (h : MemOk s) : MemOk s.sense := by
  unfold State.sense
  split
  · exact h
  · exact busWrites_wf _ _ h

theorem keepsMem_tlbWrite (v : Word) : Keeps MemOk (tlbWrite v) :=
  Does.bind Does.get fun _ => Does.ite (Does.refuse _) (Does.bind (keepsMem_stores.toReads.describedEntry v) fun _ =>
    Does.ite (Does.refuse _) (Does.change fun _ h => h))

/-- Of the updates that the machine makes only a store changes memory, and it keeps the canonical form. -/
theorem memOk_invariant : Invariant MemOk where
  toStores := keepsMem_stores
  rest h e := memOk_of_mem h e.1
  setFlag _ _ _ _ h := h
  freeStatus _ h := h
  loadFlags _ _ _ _ h := h
  taskFlags _ _ _ h := h
  oldFlags _ h := h
  setCr0 _ _ h := h
  lmsw _ h := h
  setTs h := h
  clearTs h := h
  setCr3 _ h := h
  switchCr3 v h := memOk_of_mem h (State.switchCr3_mem _ v)
  oldCr _ h := h
  oldPaging _ h := h
  unknownTlb h := h
  tlbWrite := keepsMem_tlbWrite
  sense := memOk_sense
  doReset h := h

/-- Settles O3: `MemOk` is an invariant. -/
theorem stepKeepsMemory : Obligations.StepKeepsMemory := fun _ _ hs h => memOk_invariant.step hs h


/-! ## ESC handed over -/

/-- Bytes from the coprocessor cost as many free values. -/
theorem drawBytes_run (n : Nat) (s : State) : ∃ bs, drawBytes n s = .ok bs { s with draws := s.draws + n } := by
  induction n generalizing s with
  | zero => exact ⟨[], rfl⟩
  | succ n ih =>
    obtain ⟨bs, h⟩ := ih { s with draws := s.draws + 1 }
    refine ⟨Config.coprocessorByte s.draws :: bs, ?_⟩
    rw [drawBytes, bind_ok (draw_run s _), bind_ok h]
    simp [Nat.add_comm, Nat.add_left_comm]

/-- Two bodies that do the same from a state run the same. -/
theorem run_congr {m m' : M Done} {s : State} (h : m s = m' s) : run m s = run m' s := by
  unfold run
  rw [h]

section
variable {op ext : BitVec 3} {s : State} (he : s.em = false) (ht : s.ts = false) (hb : s.pins.busy = false)
  (hx : s.pins.error = false)
include he ht hb hx

/-- Past its tests, an ESC with a register form is handed over (rules R472, R479). -/
theorem exec_esc_reg (q : Reg) :
    exec (.esc op ext (.reg q)) s = run (escRegister op ((Rm.reg q).modrm ext)) s := by
  refine run_congr ?_
  simp only [bind_run, get_run, require_run, he, ht, hb, hx]
  simp

theorem exec_esc_mem (m : MemOp) :
    exec (.esc op ext (.mem m)) s = run (escMemory op ((Rm.mem m).modrm ext) m) s := by
  refine run_congr ?_
  simp only [bind_run, get_run, require_run, he, ht, hb, hx]
  simp

end

/-- A register form changes at most AX and is recorded (rule R472). -/
theorem escRegister_ok (op : BitVec 3) (b : Byte) (s : State) : ∃ ax n, escRegister op b s = .ok .next { s with
    gpr := { s.gpr with eax := if Config.escWritesAx op b then setLo16 s.gpr.eax ax else s.gpr.eax }
    draws := n, io := .escape op b none [] :: s.io } := by
  obtain ⟨bs, h⟩ := drawBytes_run 2 s
  unfold escRegister
  cases Config.escWritesAx op b with
  | false => exact ⟨0, s.draws, rfl⟩
  | true =>
    refine ⟨lo16 (leWord bs), s.draws + 2, ?_⟩
    rw [bind_run, onlyIf_run, if_pos rfl, bind_ok h]
    rfl

/-! ### The windows of a memory operand -/

theorem escWraps_iff (s : State) (m : MemOp) (n : Nat) :
    s.escWraps m n = true ↔ (s.offsetOf m 0).toNat < (s.segOf m.seg).span ∧
      (s.segOf m.seg).span < (s.offsetOf m 0).toNat + n := by
  simp [State.escWraps]

theorem escWindows_zero (m : MemOp) (b : Bool) (s : State) : escWindows m 0 b s = .ok [] s := rfl

/-- An operand that does not wrap is one window. -/
theorem escWindows_straight {m : MemOp} {n : Nat} {b : Bool} {s : State} (hn : 0 < n)
    (hw : ¬((s.offsetOf m 0).toNat < (s.segOf m.seg).span ∧ (s.segOf m.seg).span < (s.offsetOf m 0).toNat + n)) :
    escWindows m n b s = (do let w ← memWindow m 0 n b; return [w] : M (List Win)) s := by
  rw [← escWraps_iff] at hw
  unfold escWindows
  rw [bind_ok (get_run s), if_neg (by omega), if_pos (by simpa using hw)]

/-- What is attempted and succeeds, completes. -/
theorem attempt_some {α : Type} {m : M α} {a : α} {s t : State} (h : attempt m s = .ok (some a) t) : m s = .ok a t := by
  unfold attempt at h
  split at h <;> simp_all

/-- An attempt is read-only where its computation is: CR2 is put back. -/
theorem attempt_readOnly {α : Type} {m : M α} (h : Does readOnly m) : Does readOnly (attempt m) := by
  intro s
  have k := h s
  unfold attempt
  cases e : m s with
  | ok a t => rwa [e] at k
  | error x t =>
    rw [e] at k
    cases x with
    | exc y =>
      have c : { t.cr with cr2 := s.cr.cr2 } = s.cr := Quiet.cr k.1
      change ReadOnly s { t with cr := { t.cr with cr2 := s.cr.cr2 } } at k
      rwa [c] at k
    | fault _ => exact k
    | refuse _ => exact k

theorem escWindow_readOnly (m : MemOp) (k : Nat) (b : Bool) : Does readOnly (escWindow m k b) :=
  Does.bind Does.get fun _ => readOnly_access.segWindow _ _ _ _

theorem escWindow_phys {m : MemOp} {k : Nat} {b : Bool} {s t : State} {w : Win} (h : escWindow m k b s = .ok w t) :
    ∀ p ∈ w.phys, p < physSize := by
  rw [escWindow, bind_ok (get_run s)] at h
  exact (segWindow_phys h).1

theorem escBytes_readOnly (m : MemOp) (b : Bool) (k n : Nat) : Does readOnly (escBytes m b k n) := by
  induction n generalizing k with
  | zero => exact Does.pure _
  | succ n ih =>
    exact Does.bind (attempt_readOnly (escWindow_readOnly _ _ _)) fun _ => Does.bind (ih _) fun _ => Does.pure _

/-- One answer for each byte; those that are accessible lie in the space. -/
theorem escBytes_ok {m : MemOp} {b : Bool} {k n : Nat} {s t : State} {ws : List (Option Win)}
    (h : escBytes m b k n s = .ok ws t) :
    ws.length = n ∧ ∀ w, some w ∈ ws → ∀ p ∈ w.phys, p < physSize := by
  induction n generalizing k s ws with
  | zero => cases h; simp
  | succ n ih =>
    simp only [escBytes, bind_ok_iff, pure_run, EStateM.Result.ok.injEq] at h
    obtain ⟨x, u, hx, xs, v, hxs, rfl, rfl⟩ := h
    obtain ⟨hl, hp⟩ := ih hxs
    refine ⟨by simp [hl], fun w hw => ?_⟩
    rcases List.mem_cons.mp hw with rfl | hw
    · exact escWindow_phys (attempt_some hx)
    · exact hp w hw

/-- An operand that was opened: nothing was stored, and its windows lie in the space. -/
theorem escWindows_ok {m : MemOp} {n : Nat} {b : Bool} {s t : State} {ws : List Win}
    (h : escWindows m n b s = .ok ws t) : ReadOnly s t ∧ ∀ w ∈ ws, ∀ p ∈ w.phys, p < physSize := by
  unfold escWindows at h
  rw [bind_ok (get_run s)] at h
  split at h
  · cases h
    exact ⟨ReadOnly.refl s, by simp⟩
  split at h
  · simp only [bind_ok_iff, pure_run, EStateM.Result.ok.injEq] at h
    obtain ⟨w, u, hw, rfl, rfl⟩ := h
    refine ⟨(readOnly_access.memWindow _ _ _ _).ok hw, fun x hx => ?_⟩
    rw [List.mem_singleton.mp hx]
    exact (memWindow_phys hw).1
  · simp only [bind_ok_iff] at h
    obtain ⟨w0, s1, h0, w1, s2, h1, xs, s3, h2, h⟩ := h
    obtain ⟨-, hp⟩ := escBytes_ok h2
    have r1 : ReadOnly s s1 := (escWindow_readOnly _ _ _).ok h0
    have r2 : ReadOnly s1 s2 := (escWindow_readOnly _ _ _).ok h1
    have r3 : ReadOnly s2 s3 := (escBytes_readOnly _ _ _ _).ok h2
    split at h
    · cases h
      exact ⟨(r1.trans r2).trans r3, fun w hw => hp w (by simpa using hw)⟩
    · split at h
      · simp only [bind_ok_iff, raise_run, reduceCtorEq, and_false, exists_false] at h
      · simp at h

/-- #MP: in protected mode, a load that wraps, its ends accessible and not all between (rule R475). -/
theorem escWindows_aborts {m : MemOp} {n : Nat} {s s1 s2 s3 : State} {w0 w1 : Win} {ws : List (Option Win)}
    (hp : s.pe = true) (hw : s.escWraps m n = true) (h0 : escWindow m 0 false s = .ok w0 s1)
    (h1 : escWindow m (n - 1) false s1 = .ok w1 s2) (h2 : escBytes m false 0 n s2 = .ok ws s3) (hn : none ∈ ws) :
    escWindows m n false s = .error (.exc excMP) s3 := by
  obtain ⟨a, b⟩ := (escWraps_iff s m n).mp hw
  have hl : (ws.filterMap id).length ≠ n := by
    have hlt := (List.length_filterMap_lt_length_iff_exists (f := (id : Option Win → Option Win))).mpr ⟨none, hn, rfl⟩
    have := (escBytes_ok h2).1
    omega
  unfold escWindows
  rw [bind_ok (get_run s), if_neg (by omega), if_neg (by simp [hw])]
  refine (bind_ok h0).trans ((bind_ok h1).trans ((bind_ok h2).trans ?_))
  rw [if_neg hl, if_pos hp]
  rfl

/-! ### The bytes of a memory operand -/

theorem escWins_load_readOnly (ws : List Win) : Does readOnly (escWins false ws) := by
  induction ws with
  | nil => exact Does.pure _
  | cons w ws ih => exact Does.bind (readOnly_access.winReadList w) fun _ => Does.bind ih fun _ => Does.pure _

theorem escWins_store_accessed {ws : List Win} (hp : ∀ w ∈ ws, ∀ p ∈ w.phys, p < physSize) {s t : State}
    {bs : List Byte} (h : escWins true ws s = .ok bs t) : Accessed (ws.flatMap (·.phys)) s t := by
  induction ws generalizing s with
  | nil =>
    cases h
    exact Accessed.refl _ _
  | cons w ws ih =>
    obtain ⟨ds, hd⟩ := drawBytes_run w.n s
    rw [escWins, if_pos rfl, bind_ok hd] at h
    have r : ReadOnly s { s with draws := s.draws + w.n } := ReadOnly.ofMem (Quiet.of_eq rfl) rfl
    have first := (Accessed.ofReadOnly r w.phys).trans (putList_accessed (hp w List.mem_cons_self) _ ds)
    have rest := ih (fun x hx => hp x (List.mem_cons_of_mem w hx)) h
    exact (first.mono (by simp)).trans (rest.mono (by simp))

/-- The order in which the environment sees accesses touches nothing else. -/
theorem anyOrder_accessed {α : Type} {m : M α} {ps : List Nat} {s u : State} {a : α}
    (hm : ∀ t, m s = .ok a t → Accessed ps s t) (h : anyOrder m s = .ok a u) : Accessed ps s u := by
  obtain ⟨t, ht, hu, hio⟩ := anyOrder_ok h
  obtain ⟨⟨hq, es, he, hd⟩, hk⟩ := hm t ht
  obtain ⟨es', hperm, he'⟩ := hio es he
  have hmem : u.mem = t.mem := by rw [hu]
  have hbyte : u.byteAt = t.byteAt := by
    funext x
    simp only [State.byteAt, hmem]
  refine ⟨⟨?_, es', he', ?_⟩, fun ok => ?_⟩
  · rw [hu, hq]
  · rw [List.all_eq_true] at hd ⊢
    exact fun x hx => hd x (hperm.mem_iff.mp hx)
  · obtain ⟨hok, hbytes⟩ := hk ok
    exact ⟨memOk_of_mem hok hmem, by rwa [hbyte]⟩

/-- A load stores nothing, a store no byte outside the operand. -/
theorem escMove_accessed {store : Bool} {ws : List Win} (hp : ∀ w ∈ ws, ∀ p ∈ w.phys, p < physSize) {s t : State}
    {bs : List Byte} (h : escMove store ws s = .ok bs t) :
    Accessed (if store then ws.flatMap (·.phys) else []) s t := by
  refine anyOrder_accessed (fun u hu => ?_) h
  cases store with
  | false => exact Accessed.ofReadOnly ((escWins_load_readOnly ws).ok hu) _
  | true => exact escWins_store_accessed hp hu

/-- The address that the coprocessor is given does not depend on what accesses change. -/
theorem Quiet.escAddr {s t : State} (h : Quiet s t) (m : MemOp) : t.escAddr m = s.escAddr m := by
  rw [h.1]
  rfl

/-- A memory form whose operand was opened and moved is recorded with its address (rules R472, R478). -/
theorem escMemory_ok {op : BitVec 3} {b : Byte} {m : MemOp} {s s1 s2 : State} {ws : List Win} {bs : List Byte}
    (hw : escWindows m (Config.escLength op b s.draws % 109) (Config.escStores op b) s.drawn = .ok ws s1)
    (hm : escMove (Config.escStores op b) ws s1 = .ok bs s2) :
    escMemory op b m s = .ok .next { s2 with io := .escape op b (some (s2.escAddr m)) bs :: s2.io } := by
  unfold escMemory
  refine (bind_ok (draw_run s _)).trans ((bind_ok hw).trans ((bind_ok hm).trans ?_))
  rfl

/-- What its operand raises, a memory form raises. -/
theorem escMemory_error {op : BitVec 3} {b : Byte} {m : MemOp} {s s1 : State} {x : Exit}
    (hw : escWindows m (Config.escLength op b s.draws % 109) (Config.escStores op b) s.drawn = .error x s1) :
    escMemory op b m s = .error x s1 := by
  unfold escMemory
  exact (bind_ok (draw_run s _)).trans (bind_error hw)

/-- Settles O57, clause by clause: the register form; a memory operand that is moved, that raises an exception, that
does not wrap; and the abort #MP. -/
theorem escapeHandsOver : Obligations.EscapeHandsOver := by
  intro op ext s he ht hb hx
  refine ⟨fun q => ?_, fun m => ⟨fun ws s1 bs s2 hw hm => ?_, fun e s1 hw => ?_, fun k t => ⟨rfl, ?_, ?_⟩, ?_⟩⟩
  · obtain ⟨ax, n, h⟩ := escRegister_ok op ((Rm.reg q).modrm ext) s
    exact ⟨ax, n, by rw [exec_esc_reg he ht hb hx, run_ok h]; rfl⟩
  · obtain ⟨r1, hp⟩ := escWindows_ok hw
    have r0 : ReadOnly s s.drawn := ReadOnly.ofMem (Quiet.of_eq rfl) rfl
    have a := (Accessed.ofReadOnly (r0.trans r1) _).trans (escMove_accessed hp hm)
    refine ⟨?_, a⟩
    rw [exec_esc_mem he ht hb hx, run_ok (escMemory_ok hw hm), a.1.escAddr m]
    rfl
  · rw [exec_esc_mem he ht hb hx, run_exc (escMemory_error hw)]
  · intro hk hw w u h
    rw [escWindows_straight hk hw, bind_ok h]
    rfl
  · intro hk hw x u h
    rw [escWindows_straight hk hw, bind_error h]
  · intro hpe h0 h1 hst w0 s1 w1 s2 ws s3 hw0 hw1 hws hn
    have abort := escWindows_aborts (s := s.drawn) hpe ((escWraps_iff s.drawn m _).mpr ⟨h0, h1⟩) hw0 hw1 hws hn
    rw [← hst] at abort
    rw [exec_esc_mem he ht hb hx, run_exc (escMemory_error abort)]

end Sys2Proof.Machine

/-! SUPPORT. Every step keeps the reserved bits of EFLAGS and VM, and the form of the TLB: the two predicates as
instances of `Invariant`. Then the state after RESET, and a fetch across two pages. -/

namespace Sys2Proof.Machine

/-! ## What the environment's writes to memory leave alone -/

theorem State.busWrites_eflags (s : State) (ws : List Host.Cell) : (s.busWrites ws).eflags = s.eflags := by
  induction ws generalizing s with
  | nil => rfl
  | cons w ws ih => exact (ih _).trans (State.busWrite_eflags _ _ _)

theorem State.busWrites_tlb (s : State) (ws : List Host.Cell) : (s.busWrites ws).tlb = s.tlb := by
  induction ws generalizing s with
  | nil => rfl
  | cons w ws ih => exact (ih _).trans (State.busWrite_tlb _ _ _)

@[simp] theorem State.sense_eflags (s : State) : s.sense.eflags = s.eflags := by
  unfold State.sense
  split
  · rfl
  · exact State.busWrites_eflags _ _

@[simp] theorem State.sense_tlb (s : State) : s.sense.tlb = s.tlb := by
  unfold State.sense
  split
  · rfl
  · exact State.busWrites_tlb _ _

/-! ## The reserved bits of EFLAGS -/

/-- The bits of EFLAGS that a load may write where VM is never set (rule R25, decision D2). -/
def loadableFlags : Word := eflagsDefined &&& ~~~(1#32 <<< bitVM)

/-- One word with the bits of a mask taken from another: the form of every write to EFLAGS but a task switch's. -/
def mergeBits (mask old new : Word) : Word := (old &&& ~~~mask) ||| (new &&& mask)

theorem getLsbD_mergeBits (mask old new : Word) (k : Nat) :
    (mergeBits mask old new).getLsbD k = if mask.getLsbD k then new.getLsbD k else old.getLsbD k := by
  by_cases h : k < 32
  · simp only [mergeBits, BitVec.getLsbD_or, BitVec.getLsbD_and, BitVec.getLsbD_not, h, decide_true, Bool.true_and]
    cases mask.getLsbD k <;> simp
  · simp [BitVec.getLsbD_of_ge _ k (by omega : 32 ≤ k)]

theorem setBit_eq_mergeBits (v : Word) (k : Nat) (b : Bool) :
    setBit v k b = mergeBits (1#32 <<< k) v (if b then BitVec.allOnes 32 else 0#32) := by
  cases b with
  | false => simp [setBit, mergeBits]
  | true =>
    apply BitVec.eq_of_getLsbD_eq
    intro j hj
    rw [getLsbD_mergeBits, setBit, if_pos rfl, if_pos rfl, BitVec.getLsbD_or]
    cases (1#32 <<< k).getLsbD j <;>
      simp only [BitVec.getLsbD_allOnes, hj, decide_true, Bool.or_true, Bool.or_false, if_true, Bool.false_eq_true,
        if_false]

/-- A mask of loadable bits reaches no reserved bit and not VM. -/
theorem loadable_getLsbD {mask : Word} (h : mask &&& ~~~loadableFlags = 0#32) {k : Nat} (hk : mask.getLsbD k = true) :
    eflagsDefined.getLsbD k = true ∧ k ≠ bitVM := by
  have lt : k < 32 := BitVec.lt_of_getLsbD hk
  have bit : (mask &&& ~~~loadableFlags).getLsbD k = false := by rw [h]; simp
  have load : loadableFlags.getLsbD k = true := by simpa [hk, lt] using bit
  refine ⟨?_, ?_⟩
  · rw [loadableFlags, BitVec.getLsbD_and, Bool.and_eq_true] at load
    exact load.1
  · rintro rfl
    exact absurd load (by decide)

theorem getLsbD_normFlags (v : Word) (k : Nat) :
    (normFlags v).getLsbD k = (v.getLsbD k && eflagsDefined.getLsbD k || (2#32).getLsbD k) := by
  simp [normFlags]

/-- The reserved bits and VM, bit by bit. -/
theorem flagsOk_iff (s : State) : FlagsOk s ↔
    (∀ k, s.eflags.getLsbD k = (s.eflags.getLsbD k && eflagsDefined.getLsbD k || (2#32).getLsbD k)) ∧
      s.eflags.getLsbD bitVM = false := by
  refine and_congr_left fun _ => ⟨fun h k => ?_, fun h => BitVec.eq_of_getLsbD_eq fun k _ => ?_⟩
  · rw [← getLsbD_normFlags, ← h]
  · rw [getLsbD_normFlags, ← h k]

/-- The bit that is drawn as one is reserved (rule R25). -/
theorem reserved_one {k : Nat} (h : eflagsDefined.getLsbD k = true) : (2#32).getLsbD k = false := by
  have disjoint : (eflagsDefined &&& 2#32).getLsbD k = false := by simp [eflagsDefined]
  rwa [BitVec.getLsbD_and, h, Bool.true_and] at disjoint

/-- Loadable bits may take any value. -/
theorem FlagsOk.merge {s : State} (h : FlagsOk s) {mask : Word} (hm : mask &&& ~~~loadableFlags = 0#32) (new : Word) :
    FlagsOk { s with eflags := mergeBits mask s.eflags new } := by
  obtain ⟨drawn, vm⟩ := (flagsOk_iff s).mp h
  refine (flagsOk_iff _).mpr ⟨fun k => ?_, ?_⟩
  · rw [getLsbD_mergeBits]
    split
    next hk =>
      have hd := (loadable_getLsbD hm hk).1
      simp [hd, reserved_one hd]
    next => exact drawn k
  · rw [getLsbD_mergeBits]
    split
    next hk => exact absurd rfl (loadable_getLsbD hm hk).2
    next => exact vm

theorem FlagsOk.setBit {s : State} (h : FlagsOk s) {k : Nat} (b : Bool) (hd : eflagsDefined.getLsbD k = true)
    (hv : k ≠ bitVM) : FlagsOk { s with eflags := setBit s.eflags k b } := by
  have loadable : ∀ k < 32, eflagsDefined.getLsbD k = true → k ≠ bitVM →
      (1#32 <<< k) &&& ~~~loadableFlags = 0#32 := by decide
  rw [setBit_eq_mergeBits]
  exact h.merge (loadable k (BitVec.lt_of_getLsbD hd) hd hv) _

/-- POPF and IRET load neither a reserved bit nor VM, whatever the size and the level (rules R393, R422). -/
theorem popMask_loadable (osz : OpSize) (pe : Bool) (cpl : BitVec 2) (old : Word) :
    popMask osz pe cpl old &&& ~~~loadableFlags = 0#32 := by
  unfold popMask
  split <;> split <;> split <;> decide

/-- An image of a task switch is loaded with its reserved bits as drawn, and VM as it was refused to be one (rule R343,
decision D2). -/
theorem FlagsOk.incoming (s : State) (kind : SwitchKind) {v : Word} (hv : v.getLsbD bitVM = false) :
    FlagsOk { s with eflags := incomingFlags kind v } := by
  have norm : ∀ w : Word, w.getLsbD bitVM = false → FlagsOk { s with eflags := normFlags w } := by
    intro w hw
    refine (flagsOk_iff _).mpr ⟨fun k => ?_, ?_⟩
    · simp only [getLsbD_normFlags]
      cases hd : eflagsDefined.getLsbD k with
      | false => simp
      | true => simp [reserved_one hd]
    · rw [getLsbD_normFlags, hw]
      decide
  have nt : ∀ b, (Sys2Proof.setBit v bitNT b).getLsbD bitVM = false := by
    intro b
    have apart : (1#32 <<< bitNT).getLsbD bitVM = false := by decide
    rw [setBit_eq_mergeBits, getLsbD_mergeBits, apart, if_neg Bool.false_ne_true, hv]
  cases kind with
  | call | int | jmp => exact norm _ (nt _)
  | iret => exact norm v hv

/-- EFLAGS is the only register that the predicate looks at. -/
theorem FlagsOk.of_eflags {s t : State} (h : FlagsOk s) (e : t.eflags = s.eflags) : FlagsOk t := by
  unfold FlagsOk State.flag
  rwa [e]

theorem flagsOk_reset : FlagsOk State.reset := by
  unfold FlagsOk
  decide

/-- A predicate that a free value and the new entry, in whatever block, leave true. -/
theorem Keeps.fillTlb {P : State → Prop} {e : TlbEntry} (draws : ∀ s n, P s → P { s with draws := n })
    (enter : ∀ (s : State) (b : BitVec 2), P s → P { s with tlb := enterTlb s.tlb b e }) :
    Keeps P (Machine.fillTlb e) :=
  Does.bind (fun s h => draws s _ h) fun _ =>
    Does.ite (Does.bind (fun s h => draws s _ h) fun b => Does.change fun s h => enter s b h) (Does.pure _)

/-- Accesses to memory, walks included, change no flag. -/
theorem keepsFlags_stores : Stores (Rel.keeps FlagsOk) where
  draws _ _ h := h
  pend _ _ h := h
  cr2 _ _ h := h
  drop _ _ h := h
  io _ _ _ h := h
  walk lin w u s _ := Does.walkOf (R := Rel.keeps FlagsOk) (fun _ _ h => h) (fun _ _ _ h => h)
    (fun s a v h => h.of_eflags (State.store_eflags s a v)) (fun _ _ h => h)
    (fun _ _ _ => Keeps.fillTlb (fun _ _ h => h) fun _ _ h => h) lin w u s
  store s a v h := h.of_eflags (State.store_eflags s a v)

theorem keepsFlags_tlbWrite (v : Word) : Keeps FlagsOk (tlbWrite v) :=
  Does.bind Does.get fun _ => Does.ite (Does.refuse _) (Does.bind (keepsFlags_stores.toReads.describedEntry v) fun _ =>
    Does.ite (Does.refuse _) (Does.change fun _ h => h))

/-- Each way in which the machine changes EFLAGS writes loadable bits alone, or brings back an image that met the
predicate. -/
theorem flagsOk_invariant : Invariant FlagsOk where
  toStores := keepsFlags_stores
  rest h e := h.of_eflags e.2.1
  setFlag _ b hd hv h := h.setBit b hd hv
  freeStatus v h := h.merge (mask := statusBits) (by decide) v
  loadFlags osz pe cpl v h := h.merge (popMask_loadable osz pe cpl _) v
  taskFlags kind _ hv _ := FlagsOk.incoming _ kind hv
  oldFlags ha _ := ha
  setCr0 _ _ h := h
  lmsw _ h := h
  setTs h := h
  clearTs h := h
  setCr3 _ h := h
  switchCr3 v h := h.of_eflags (State.switchCr3_eflags _ v)
  oldCr _ h := h
  oldPaging _ h := h
  unknownTlb h := h
  tlbWrite := keepsFlags_tlbWrite
  sense h := h.of_eflags (State.sense_eflags _)
  doReset _ := flagsOk_reset

/-- Settles O4: `FlagsOk` is an invariant. -/
theorem stepKeepsFlags : Obligations.StepKeepsFlags := fun _ _ hs h => flagsOk_invariant.step hs h

/-! ## The TLB -/

theorem tlbAt_set (t : List TlbEntry) {i : Nat} (e : TlbEntry) (j : Nat) (h : i < t.length) :
    tlbAt (t.set i e) j = if i = j then e else tlbAt t j := by
  simp only [tlbAt, List.getD_eq_getElem?_getD, List.getElem?_set, if_pos h]
  split <;> rfl

theorem tlbAt_map (t : List TlbEntry) (f : TlbEntry → TlbEntry) {i : Nat} (h : i < t.length) :
    tlbAt (t.map f) i = f (tlbAt t i) := by
  simp [tlbAt, h]

theorem sameTag_iff (e f : TlbEntry) :
    e.sameTag f = true ↔ e.page = f.page ∧ e.v = f.v ∧ e.d = f.d ∧ e.u = f.u ∧ e.w = f.w := by
  simp [TlbEntry.sameTag, and_assoc]

theorem sameTag_comm (e f : TlbEntry) : e.sameTag f = f.sameTag e := by
  rw [Bool.eq_iff_iff, sameTag_iff, sameTag_iff]
  simp only [eq_comm]

theorem page_low (page : BitVec 20) : (page.extractLsb' 0 3).toNat = page.toNat % 8 := by
  simp [BitVec.extractLsb'_toNat]

theorem tlbIndex_lt (b : BitVec 2) (page : BitVec 20) : tlbIndex b page < 32 := by
  have := b.isLt
  rw [tlbIndex, page_low]
  omega

/-- An entry stands in the set that its page selects (rule R127). -/
theorem tlbIndex_mod (b : BitVec 2) (page : BitVec 20) : page.toNat % 8 = tlbIndex b page % 8 := by
  rw [tlbIndex, page_low]
  omega

/-- The places in the set of a page are those of its four blocks (rule R127). -/
theorem eq_tlbIndex {j : Nat} {page : BitVec 20} (hj : j < 32) (h : page.toNat % 8 = j % 8) :
    j = tlbIndex (BitVec.ofNat 2 (j / 8)) page := by
  rw [tlbIndex, page_low, BitVec.toNat_ofNat]
  omega

theorem TlbOk.of_tlb {s t : State} (h : TlbOk s) (e : t.tlb = s.tlb) : TlbOk t := by
  unfold TlbOk
  rwa [e]

/-- Entries may go. -/
theorem TlbOk.shrink {s t : State} (h : TlbOk s) (len : t.tlb.length = 32)
    (old : ∀ i < 32, (tlbAt t.tlb i).v = true → tlbAt t.tlb i = tlbAt s.tlb i) : TlbOk t := by
  obtain ⟨-, wf, unique⟩ := h
  refine ⟨len, fun i hi hv => ?_, fun i hi j hj vi vj tag => ?_⟩
  · have e := old i hi hv
    rw [e] at hv ⊢
    exact wf i hi hv
  · have ei := old i hi vi
    have ej := old j hj vj
    rw [ei] at vi tag
    rw [ej] at vj tag
    exact unique i hi j hj vi vj tag

/-- An entry may come in the set of its page, where no other valid one has its tag. -/
theorem TlbOk.put {s t : State} (h : TlbOk s) {b : BitVec 2} {e : TlbEntry}
    (set : t.tlb = s.tlb.set (tlbIndex b e.page) e) (known : e.known = true)
    (fresh : ∀ j < 32, j ≠ tlbIndex b e.page → (tlbAt s.tlb j).v = true → (tlbAt s.tlb j).sameTag e = false) :
    TlbOk t := by
  obtain ⟨len, wf, unique⟩ := h
  have at_ : ∀ j, tlbAt t.tlb j = if tlbIndex b e.page = j then e else tlbAt s.tlb j := fun j => by
    rw [set, tlbAt_set _ _ _ (by rw [len]; exact tlbIndex_lt b e.page)]
  refine ⟨by rw [set, List.length_set, len], fun i hi hv => ?_, fun i hi j hj vi vj tag => ?_⟩
  · rw [at_] at hv ⊢
    split at hv
    next hx =>
      rw [if_pos hx, ← hx]
      exact ⟨known, tlbIndex_mod b e.page⟩
    next hx =>
      rw [if_neg hx]
      exact wf i hi hv
  · rw [at_] at vi tag
    rw [at_ j] at vj tag
    split at vi <;> split at vj
    next hx hy => exact hx.symm.trans hy
    next hx hy =>
      rw [if_pos hx, if_neg hy, sameTag_comm, fresh j hj (Ne.symm hy) vj] at tag
      exact absurd tag Bool.false_ne_true
    next hx hy =>
      rw [if_neg hx, if_pos hy, fresh i hi (Ne.symm hx) vi] at tag
      exact absurd tag Bool.false_ne_true
    next hx hy =>
      rw [if_neg hx, if_neg hy] at tag
      exact unique i hi j hj vi vj tag

/-- Whatever is done to each entry, if it makes none valid and leaves as it is each that stays valid. -/
theorem TlbOk.mapped {s t : State} (h : TlbOk s) (f : TlbEntry → TlbEntry) (map : t.tlb = s.tlb.map f)
    (keep : ∀ e, (f e).v = true → f e = e) : TlbOk t := by
  have len := h.1
  refine h.shrink (by rw [map, List.length_map, len]) fun i hi hv => ?_
  rw [map, tlbAt_map _ _ (by omega)] at hv ⊢
  exact keep _ hv

theorem TlbOk.flush {s t : State} (h : TlbOk s) (e : t.tlb = s.flushTlb.tlb) : TlbOk t :=
  h.mapped _ e fun _ hv => absurd hv Bool.false_ne_true

theorem TlbOk.switched {s : State} (h : TlbOk s) (v : Word) : TlbOk (s.switchCr3 v) := by
  by_cases hv : v = s.cr.cr3
  · exact h.of_tlb (by rw [State.switchCr3_tlb, if_pos hv])
  · exact h.flush (by rw [State.switchCr3_tlb, if_neg hv])

theorem TlbOk.drop {s : State} (h : TlbOk s) (i : Nat) : TlbOk { s with tlb := tlbWithout s.tlb i } := by
  have len := h.1
  refine h.shrink (by simp [tlbWithout, len]) fun j hj hv => ?_
  by_cases hi : i < s.tlb.length
  · rw [tlbWithout, tlbAt_set _ _ _ hi] at hv ⊢
    split at hv
    next => exact absurd hv Bool.false_ne_true
    next hx => exact if_neg hx
  · rw [tlbWithout, List.set_eq_of_length_le (by omega)]

/-- A walk enters its translation after what the TLB held for the page has gone, so that no two entries have its tag. -/
theorem TlbOk.enter {s : State} (h : TlbOk s) (b : BitVec 2) {e : TlbEntry} (known : e.known = true) :
    TlbOk { s with tlb := enterTlb s.tlb b e } := by
  have len := h.1
  have gone : TlbOk { s with
      tlb := s.tlb.map fun x => if x.holds e.page then { x with v := false, known := false } else x } := by
    refine h.mapped _ rfl fun x hv => ?_
    split at hv
    next => exact absurd hv Bool.false_ne_true
    next hx => exact if_neg hx
  refine gone.put rfl known fun j hj _ hv => ?_
  rw [tlbAt_map _ _ (by omega)] at hv ⊢
  split at hv
  next => exact absurd hv Bool.false_ne_true
  next hx =>
    rw [if_neg hx, ← Bool.not_eq_true, sameTag_iff]
    rintro ⟨page, -⟩
    exact hx (by simp [TlbEntry.holds, hv, page])

/-- The write command refuses a tag that another block holds, and every valid entry with the tag stands in one of the
four blocks of the set (rule R128). -/
theorem TlbOk.written {s t : State} (h : TlbOk s) {b : BitVec 2} {e : TlbEntry} (known : e.known = true)
    (one : duplicates s.tlb b e = false) (set : t.tlb = s.tlb.set (tlbIndex b e.page) e) : TlbOk t := by
  have every : ∀ c : BitVec 2, c ∈ blocksFrom 0 := by decide
  refine h.put set known fun j hj hne hv => ?_
  obtain ⟨-, wf, -⟩ := h
  obtain ⟨hk, hset⟩ := wf j hj hv
  by_contra tag
  rw [Bool.not_eq_false] at tag
  rw [((sameTag_iff _ _).mp tag).1] at hset
  have place := eq_tlbIndex hj hset
  generalize BitVec.ofNat 2 (j / 8) = c at place
  have other : c ≠ b := fun hc => hne (hc ▸ place)
  rw [duplicates, List.any_eq_false] at one
  exact one c (every c) (by rw [← place]; simp [other, hk, tag])

/-! ### A TLB of which nothing is known -/

theorem tlbAt_anyTlb (k : Nat) {i : Nat} (h : i < 32) : tlbAt (anyTlb k) i = { anyEntry k i with
    v := (anyEntry k i).v && (List.range i).all fun j => !(anyEntry k j).sameTag (anyEntry k i) } := by
  simp [tlbAt, anyTlb, h]

theorem anyEntry_known (k i : Nat) (h : (anyEntry k i).v = true) : (anyEntry k i).known = true :=
  Bool.or_eq_true_iff.mpr (.inl h)

theorem anyEntry_set (k i : Nat) : (anyEntry k i).page.toNat % 8 = i % 8 := by
  have page : (anyEntry k i).page.toNat =
      ((Config.freeWord (k + 2 * i)).extractLsb' 12 17).toNat <<< 3 + (BitVec.ofNat 3 i).toNat := by
    rw [Nat.shiftLeft_add_eq_or_of_lt (BitVec.isLt _)]
    exact BitVec.toNat_append _ _
  rw [page, BitVec.toNat_ofNat]
  omega

/-- Of two valid entries with one tag the later would have been left out. -/
theorem anyTlb_unique (k : Nat) {i j : Nat} (hij : i < j) (hj : j < 32) (vi : (tlbAt (anyTlb k) i).v = true)
    (vj : (tlbAt (anyTlb k) j).v = true) : (tlbAt (anyTlb k) i).sameTag (tlbAt (anyTlb k) j) = false := by
  rw [tlbAt_anyTlb k (hij.trans hj)] at vi ⊢
  rw [tlbAt_anyTlb k hj] at vj ⊢
  obtain ⟨wi, -⟩ := Bool.and_eq_true_iff.mp vi
  obtain ⟨wj, out⟩ := Bool.and_eq_true_iff.mp vj
  have apart := List.all_eq_true.mp out i (List.mem_range.mpr hij)
  rw [Bool.not_eq_true', ← Bool.not_eq_true, sameTag_iff] at apart
  rw [← Bool.not_eq_true, sameTag_iff]
  rintro ⟨page, -, d, u, w⟩
  exact apart ⟨page, wi.trans wj.symm, d, u, w⟩

theorem tlbOk_unknownTlb (s : State) : TlbOk s.unknownTlb := by
  refine ⟨by simp [State.unknownTlb, anyTlb], fun i hi hv => ?_, fun i hi j hj vi vj tag => ?_⟩
  · change (tlbAt (anyTlb s.draws) i).v = true at hv
    change (tlbAt (anyTlb s.draws) i).known = true ∧ (tlbAt (anyTlb s.draws) i).page.toNat % 8 = i % 8
    rw [tlbAt_anyTlb _ hi] at hv ⊢
    exact ⟨anyEntry_known _ _ (Bool.and_eq_true_iff.mp hv).1, anyEntry_set _ _⟩
  · rcases lt_trichotomy i j with hij | hij | hij
    · exact absurd tag (Bool.not_eq_true _ ▸ anyTlb_unique s.draws hij hj vi vj)
    · exact hij
    · rw [sameTag_comm] at tag
      exact absurd tag (Bool.not_eq_true _ ▸ anyTlb_unique s.draws hij hi vj vi)

/-- A TLB without a valid entry, as after RESET. -/
theorem tlbOk_of_replicate {s : State} (e : s.tlb = List.replicate 32 .invalid) : TlbOk s := by
  have invalid : ∀ i, (tlbAt s.tlb i).v = false := fun i => by
    rw [e, tlbAt, List.getD_eq_getElem?_getD, List.getElem?_replicate]
    split <;> rfl
  refine ⟨by rw [e, List.length_replicate], fun i _ hv => ?_, fun i _ _ _ hv => ?_⟩
  all_goals
    rw [invalid i] at hv
    exact absurd hv Bool.false_ne_true

/-! ### The invariant -/

/-- Accesses to memory change the TLB by translations alone: entries that go and entries that a walk enters. -/
theorem keepsTlb_stores : Stores (Rel.keeps TlbOk) where
  draws _ _ h := h
  pend _ _ h := h
  cr2 _ _ h := h
  drop _ i h := h.drop i
  io _ _ _ h := h
  walk lin w u s _ := Does.walkOf (R := Rel.keeps TlbOk) (fun _ _ h => h) (fun _ _ _ h => h)
    (fun s a v h => h.of_tlb (State.store_tlb s a v)) (fun _ _ h => h)
    (fun _ _ known => Keeps.fillTlb (fun _ _ h => h) fun _ b h => h.enter b known) lin w u s
  store s a v h := h.of_tlb (State.store_tlb s a v)

theorem pairBit_ok {x y b : Bool} {s t : State} (h : pairBit x y s = .ok b t) : ∃ n, t = { s with draws := n } := by
  unfold pairBit at h
  split at h
  · cases h
    exact ⟨s.draws, rfl⟩
  · cases h
    exact ⟨s.draws + 1, rfl⟩

/-- A described entry counts as initialised (log entry 29), and free values alone are drawn for it. -/
theorem describedEntry_ok {v : Word} {e : TlbEntry} {s t : State} (h : describedEntry v s = .ok e t) :
    e.known = true ∧ ∃ n, t = { s with draws := n } := by
  simp only [describedEntry, bind_ok_iff, look_run, pure_run, EStateM.Result.ok.injEq] at h
  obtain ⟨d, s1, h1, u, s2, h2, w, s3, h3, tr7, s4, ⟨-, rfl⟩, rfl, rfl⟩ := h
  obtain ⟨n1, rfl⟩ := pairBit_ok h1
  obtain ⟨n2, rfl⟩ := pairBit_ok h2
  obtain ⟨n3, rfl⟩ := pairBit_ok h3
  exact ⟨rfl, n3, rfl⟩

theorem keepsTlb_tlbWrite (v : Word) : Keeps TlbOk (tlbWrite v) := by
  intro s
  rw [tlbWrite, bind_ok (get_run s)]
  split
  · exact fun hs => hs
  rw [bind_run]
  cases h : describedEntry v s with
  | error x t => exact (keepsTlb_stores.toReads.describedEntry v).error h
  | ok e t =>
    obtain ⟨known, n, rfl⟩ := describedEntry_ok h
    dsimp only
    split
    next => exact fun hs => hs
    next one => exact fun hs => hs.written known (Bool.not_eq_true _ ▸ one) rfl

/-- Each way in which the machine changes the TLB keeps its form. -/
theorem tlbOk_invariant : Invariant TlbOk where
  toStores := keepsTlb_stores
  rest h e := h.of_tlb e.2.2.2
  setFlag _ _ _ _ h := h
  freeStatus _ h := h
  loadFlags _ _ _ _ h := h
  taskFlags _ _ _ h := h
  oldFlags _ h := h
  setCr0 _ _ h := h
  lmsw _ h := h
  setTs h := h
  clearTs h := h
  setCr3 _ h := h.flush rfl
  switchCr3 v h := h.switched v
  oldCr _ h := h
  oldPaging h _ := h
  unknownTlb _ := tlbOk_unknownTlb _
  tlbWrite := keepsTlb_tlbWrite
  sense h := h.of_tlb (State.sense_tlb _)
  doReset _ := tlbOk_of_replicate rfl

/-- Settles O6: `TlbOk` is an invariant. -/
theorem stepKeepsTlb : Obligations.StepKeepsTlb := fun _ _ hs h => tlbOk_invariant.step hs h

/-! ## The state after RESET -/

/-- Settles O2: memory lists nothing, paging is off, and no TLB entry is valid. -/
theorem resetMeetsInvariants : Obligations.ResetMeetsInvariants :=
  ⟨rfl, flagsOk_reset, fun paging => absurd paging Bool.false_ne_true, tlbOk_of_replicate rfl⟩

/-! ## Code across two pages -/

/-- Without paging the bytes of one page of code stand at its linear address. -/
theorem fetchPage_off {s : State} (h : s.pg = false) (flat : Bool) (lin : Word) (n : Nat) :
    fetchPage flat lin n s = .ok (s.fetchPhys (physRange lin.toNat n)) s := by
  have lin_ : fetchTranslate flat lin s = .ok lin s := by
    rw [fetchTranslate, bind_ok (get_run s)]
    cases flat
    · exact translate_off h lin false s.user
    · rfl
  rw [fetchPage, bind_ok lin_]
  rfl

/-- The bytes F3 0F BA 20 at CS:EIP: REP before an instruction of Part I. BA is the last byte of its page and was stored
since the last transfer. -/
def staleGroup : State := { State.reset with
  eip := 0xFFD, highLatch := false, seg := { State.reset.seg with cs := .ofReset 0 }
  mem := [(0xFFD, 0xF3), (0xFFE, 0x0F), (0xFFF, 0xBA), (0x1000, 0x20)], dirty := [0xFFF] }

theorem staleGroup_noDevice (ps : List Nat) : staleGroup.noDevice ps := fun _ _ => rfl

theorem staleGroup_room : staleGroup.fetchRoom = 15 ∧ pageLeft staleGroup.fetchLin = 3 := by decide

theorem staleGroup_firstPage :
    staleGroup.fetchPhys (physRange staleGroup.fetchLin.toNat 3) = [0xFFD, 0xFFE, 0xFFF] := by decide

/-- The three bytes of the first page leave the group open. -/
theorem staleGroup_open : decode staleGroup.code32 (staleGroup.bytesAt [0xFFD, 0xFFE, 0xFFF]) = .error .more := by
  decide

theorem staleGroup_refused : nextInstr staleGroup = .error (.refuse .staleCode) staleGroup := by
  obtain ⟨room, left⟩ := staleGroup_room
  have page : fetchPage false staleGroup.fetchLin (min staleGroup.fetchRoom (pageLeft staleGroup.fetchLin)) staleGroup =
      .ok [0xFFD, 0xFFE, 0xFFF] staleGroup := by
    rw [fetchPage_off rfl, room, left]
    exact congrArg (EStateM.Result.ok · staleGroup) staleGroup_firstPage
  have fetch := fetchDecode_stale rfl (by decide) page (readBytes_run (staleGroup_noDevice _)) staleGroup_open
    (by rw [room, left]; decide) rfl
  rw [nextInstr, bind_ok (look_run staleGroup _)]
  exact bind_error fetch

/-- Refutes O10: the decoder reads F3 0F BA 20 as a REP before an instruction of Part I, two bytes long, but reads two
more to see it. Where the third is the last of its page and stale, the fetch refuses (rule R138), though the two bytes
that the length counts are fresh. -/
theorem not_fetchDecodes : ¬ Obligations.FetchDecodes := by
  intro h
  obtain ⟨room, left⟩ := staleGroup_room
  have fetched := h staleGroup (.rep .application) 2 rfl (fun _ => rfl) (by decide) rfl (staleGroup_noDevice _)
    (.inr ⟨by rw [room, left]; decide, by rw [room, left]; exact staleGroup_open, by rw [room]; rfl⟩)
    (by rw [room]; decide) (by rw [room]; decide)
  rw [staleGroup_refused] at fetched
  cases fetched

end Sys2Proof.Machine

/-! SUPPORT. Where memory operands lie and what their stores leave; where descriptors are found in their tables. -/

namespace Sys2Proof.Machine

/-! ## Where a memory operand lies -/

/-- The limit check of an access is the check of each of its bytes (rule R152). -/
theorem limitOk_iff (c : SegCache) (off : Word) {n : Nat} (hn : 0 < n) :
    limitOk c off n = true ↔ ∀ k < n,
      if c.exec = false ∧ c.ec = true then
        c.limit.toNat < off.toNat + k ∧ off.toNat + k ≤ (if c.big then 0xFFFFFFFF else 0xFFFF)
      else off.toNat + k ≤ c.limit.toNat := by
  by_cases down : c.exec = false ∧ c.ec = true
  · generalize htop : (if c.big then 0xFFFFFFFF else 0xFFFF) = top
    simp only [limitOk, down, htop, Bool.not_false, Bool.and_self, and_self, if_true, Bool.and_eq_true,
      decide_eq_true_eq]
    refine ⟨fun ⟨low, high⟩ k hk => by omega, fun h => ?_⟩
    have first := h 0 hn
    have last := h (n - 1) (by omega)
    omega
  · have up : (!c.exec && c.ec) = false := by simpa using down
    simp only [limitOk, up, down, Bool.false_eq_true, if_false, decide_eq_true_eq]
    refine ⟨fun high k hk => by omega, fun h => ?_⟩
    have last := h (n - 1) (by omega)
    omega

/-- Whether a segment register may be used for an access, null and type, in protected mode (rules R149, R150). -/
def SegCache.allows (c : SegCache) (write : Bool) : Bool :=
  c.valid && (if write then !c.exec && c.wr else !c.exec || c.wr)

/-- An access that its segment register allows, inside the limit, passes its checks. -/
theorem segCheck_of_allows {x : SegReg} {off : Word} {n : Nat} {write : Bool} {s : State}
    (ok : ((s.segOf x).allows write || !s.pe) = true) (lim : limitOk (s.segOf x) off n = true) :
    segCheck x off n write s = .ok () s := by
  rw [segCheck, bind_ok (get_run s)]
  cases hp : s.pe <;> cases write <;> simp_all [SegCache.allows]

/-- Past the limit the access raises #SS(0) or #GP(0) (rule R152). -/
theorem segCheck_of_limit {x : SegReg} {off : Word} {n : Nat} {write : Bool} {s : State}
    (ok : ((s.segOf x).allows write || !s.pe) = true) (lim : limitOk (s.segOf x) off n = false) :
    segCheck x off n write s = .error (.exc (segExc x)) s := by
  rw [segCheck, bind_ok (get_run s)]
  cases hp : s.pe <;> cases write <;> simp_all [SegCache.allows]

/-- A null segment register raises #SS(0) or #GP(0) in protected mode (rule R150). -/
theorem segCheck_of_null {x : SegReg} {off : Word} {n : Nat} {write : Bool} {s : State}
    (hp : s.pe = true) (null : (s.segOf x).valid = false) :
    segCheck x off n write s = .error (.exc (segExc x)) s := by
  rw [segCheck, bind_ok (get_run s), bind_error (require_error (by simp [hp, null]))]

/-- A type that forbids the access raises #GP(0) in protected mode (rule R149). -/
theorem segCheck_of_type {x : SegReg} {off : Word} {n : Nat} {write : Bool} {s : State}
    (hp : s.pe = true) (valid : (s.segOf x).valid = true) (bad : (s.segOf x).allows write = false) :
    segCheck x off n write s = .error (.exc excGP0) s := by
  rw [segCheck, bind_ok (get_run s), bind_ok (require_ok (by simp [valid]))]
  simp only [SegCache.allows, valid, Bool.true_and] at bad
  cases write with
  | true => rw [bind_error (require_error (by simpa [hp] using bad))]
  | false => rw [bind_ok (require_ok (by simp)), bind_error (require_error (by simpa [hp] using bad))]

/-- With paging off a checked access lies at base plus offset, seen through the high-address latch (rules R66, R104,
R110). -/
theorem segWindow_off {x : SegReg} {off : Word} {n : Nat} {write : Bool} {s : State} (hpg : s.pg = false)
    (check : segCheck x off n write s = .ok () s) :
    segWindow x off n write s = .ok
      { lin := (s.segOf x).base + off, n := n,
        phys := if s.highLatch && x == .cs then (physRange ((s.segOf x).base + off).toNat n).map forceHigh
                else physRange ((s.segOf x).base + off).toNat n } s := by
  rw [segWindow, bind_ok check, bind_ok (get_run s), bind_ok (translateRange_off hpg _ _ _ _)]
  rfl

theorem segWindow_of_error {x : SegReg} {off : Word} {n : Nat} {write : Bool} {s : State} {e : Exit}
    (check : segCheck x off n write s = .error e s) : segWindow x off n write s = .error e s :=
  bind_error check

/-- Settles O12: the window of an operand is that of its segment register at its offset. -/
theorem operandWindow : Obligations.OperandWindow := by
  refine ⟨fun c off n hn => limitOk_iff c off hn, fun m k n write s hpg => ⟨fun ok lim => ?_, fun hp null => ?_,
    fun hp valid bad => ?_, fun ok lim => ?_⟩⟩
  · exact segWindow_off hpg (segCheck_of_allows ok lim)
  · exact segWindow_of_error (segCheck_of_null hp null)
  · exact segWindow_of_error (segCheck_of_type hp valid (by rwa [hp, Bool.not_true, Bool.or_false] at bad))
  · exact segWindow_of_error (segCheck_of_limit ok lim)

/-! ## Stores -/

/-- Where RAM does not answer a store of several bytes leaves memory as it was (decision D4). -/
theorem storeAll_mem_other {s : State} {as : List Nat} (vs : List Byte) (h : ∀ a ∈ as, s.kindAt a ≠ .ram) :
    (s.storeAll as vs).mem = s.mem := by
  induction as generalizing s vs with
  | nil => rfl
  | cons a as ih =>
    cases vs with
    | nil => rfl
    | cons v vs =>
      rw [State.storeAll_cons, ih vs fun b hb => by simpa using h b (List.mem_cons_of_mem a hb),
        s.store_mem_other v (h a List.mem_cons_self)]

/-- Addresses in the space are what they are modulo its size (rule R80). -/
theorem map_mod_self {ps : List Nat} (space : ∀ p ∈ ps, p < physSize) : ps.map (· % physSize) = ps :=
  (List.map_congr_left fun p hp => Nat.mod_eq_of_lt (space p hp)).trans (List.map_id' _)

/-- A value stored in a window of RAM is read back (rule R84). -/
theorem bytesAt_put {s : State} {w : Win} (v : Word) (hm : MemOk s) (space : ∀ p ∈ w.phys, p < physSize)
    (len : w.phys.length = w.n) (distinct : w.phys.Nodup) (ram : s.inRam w.phys) :
    (s.put w v).bytesAt w.phys = leBytes w.n v := by
  have watched := watched_readOnly s w true
  refine bytesAt_storeAll _ _ _ (by simp [len]) (by rwa [map_mod_self space]) (fun a ha => ?_) (watched.2 hm).1
  rw [kindAt_congr watched.1.plat]
  exact ram a ha

/-- The record of data breakpoints is apart from memory. -/
theorem noteHits_mem (exact : Bool) (p : Nat → Bool) (ns : List Nat) (s : State) :
    (s.noteHits exact p ns).mem = s.mem := by
  induction ns generalizing s with
  | nil => rfl
  | cons n ns ih =>
    rw [State.noteHits, ih]
    split
    · unfold State.noteHit
      split <;> rfl
    · rfl

theorem watched_mem (s : State) (w : Win) (write : Bool) : (s.watched w write).mem = s.mem := by
  unfold State.watched
  split
  · exact noteHits_mem _ _ _ s
  · rfl

/-- Where RAM does not answer a value stored in a window leaves memory as it was. -/
theorem put_mem_other {s : State} {w : Win} (v : Word) (h : ∀ a ∈ w.phys, s.kindAt a ≠ .ram) :
    (s.put w v).mem = s.mem := by
  have plat := (watched_readOnly s w true).1.plat
  refine (storeAll_mem_other _ fun a ha => ?_).trans (watched_mem s w true)
  rw [kindAt_congr plat]
  exact h a ha

/-- A byte read where a device answers is a free value, which the environment sees (decision D4). -/
theorem readByte_device {s : State} {a : Nat} (h : s.kindAt a = .device) :
    readByte a s = .ok (Config.deviceByte s.draws) { s with
      draws := s.draws + 1, io := .memRead (a % physSize) (Config.deviceByte s.draws) :: s.io } := by
  simp [readByte, State.isDevice, h]

/-- Settles O13: what `Accessed` says of a store, the bytes read back in RAM, and nothing stored elsewhere. -/
theorem storeWritesItsBytes : Obligations.StoreWritesItsBytes := by
  refine ⟨fun m k v n s s1 w h => ?_, fun s a v => ⟨s.store_rom v, fun hd => ⟨s.store_device v hd, readByte_device hd⟩⟩⟩
  obtain ⟨space, len, size⟩ := memWindow_phys h
  have opened : ReadOnly s s1 := (readOnly_access.memWindow m k n true).ok h
  refine ⟨(Accessed.ofReadOnly opened _).trans (put_accessed space s1 v), len, fun hm distinct ram => ?_,
    fun other => ?_⟩
  · rw [← size]
    refine bytesAt_put v (opened.2 hm).1 space (len.trans size.symm) distinct fun a ha => ?_
    rw [kindAt_congr opened.1.plat]
    exact ram a ha
  · refine put_mem_other v fun a ha => ?_
    rw [kindAt_congr opened.1.plat]
    exact other a ha

/-! ## Descriptors in their tables -/

/-- The byte offset of a descriptor is eight times its index (rule R101). -/
theorem tableOff_eq (sel : BitVec 16) : tableOff sel = BitVec.ofNat 32 (8 * (sel.toNat / 8)) := by
  have index : sel &&& (0xFFF8 : BitVec 16) = (sel >>> 3) <<< 3 := by
    ext i hi
    interval_cases i <;> simp
  have lt := sel.isLt
  apply BitVec.eq_of_toNat_eq
  rw [tableOff, index]
  simp only [BitVec.toNat_setWidth, BitVec.toNat_shiftLeft, BitVec.toNat_ushiftRight, Nat.shiftLeft_eq,
    Nat.shiftRight_eq_div_pow, BitVec.toNat_ofNat]
  omega

theorem tableOff_toNat (sel : BitVec 16) : (tableOff sel).toNat = 8 * (sel.toNat / 8) := by
  have := sel.isLt
  rw [tableOff_eq, BitVec.toNat_ofNat]
  omega

/-- The RPL names no descriptor: the table and the place in it are those of the upper bits (rule R101). -/
theorem fetchDesc_congr {sel sel' : BitVec 16} (h : sel.extractLsb' 2 14 = sel'.extractLsb' 2 14) :
    fetchDesc sel = fetchDesc sel' := by
  have bit : ∀ k, sel.getLsbD (2 + k) = sel'.getLsbD (2 + k) := by
    intro k
    by_cases hk : k < 14
    · have := congrArg (fun v => v.getLsbD k) h
      simpa [hk] using this
    · rw [BitVec.getLsbD_of_ge _ _ (by omega), BitVec.getLsbD_of_ge _ _ (by omega)]
  have table : ti sel = ti sel' := bit 0
  have place : tableOff sel = tableOff sel' := by
    rw [tableOff_eq, tableOff_eq]
    have := congrArg BitVec.toNat h
    simp only [BitVec.extractLsb'_toNat, Nat.shiftRight_eq_div_pow] at this
    have := sel.isLt
    have := sel'.isLt
    congr 2
    omega
  unfold fetchDesc State.tableOf
  rw [table, place]

/-- Base and limit of the table of a selector that is there (rule R102). -/
theorem tableOf_eq {sel : BitVec 16} {s : State} (h : ti sel = true → s.ldtr.valid = true) :
    s.tableOf sel = some (if ti sel then s.ldtr.base else s.gdtr.base,
      if ti sel then s.ldtr.limit.toNat else s.gdtr.limit.toNat) := by
  unfold State.tableOf
  split
  next hti => rw [if_pos (h hti)]
  next => rfl

/-- A selector of a table that is not there names nothing. -/
theorem fetchDesc_of_noTable {sel : BitVec 16} {s : State} (h : s.tableOf sel = none) :
    fetchDesc sel s = .ok none s := by
  rw [fetchDesc, bind_ok (get_run s), h]
  rfl

/-- A selector outside its table names nothing, and nothing is read (rules R102, R155). -/
theorem fetchDesc_outside {sel : BitVec 16} {s : State} {base : Word} {limit : Nat}
    (h : s.tableOf sel = some (base, limit)) (out : limit < (tableOff sel).toNat + 7) :
    fetchDesc sel s = .ok none s := by
  rw [fetchDesc, bind_ok (get_run s), h]
  exact congrFun (if_neg (by omega)) s

/-- A selector inside its table names the descriptor at its place there (rule R102). -/
theorem fetchDesc_inside {sel : BitVec 16} {s : State} {base : Word} {limit : Nat}
    (h : s.tableOf sel = some (base, limit)) (inside : (tableOff sel).toNat + 7 ≤ limit) :
    fetchDesc sel s = (do let d ← readDesc (base + tableOff sel); return some d : M (Option Desc)) s := by
  rw [fetchDesc, bind_ok (get_run s), h]
  exact congrFun (if_pos inside) s

/-- A descriptor remembers where it was read. -/
theorem readDesc_addr {a : Word} {d : Desc} {s t : State} (h : readDesc a s = .ok d t) : d.addr = a := by
  simp only [readDesc, bind_ok_iff, pure_run, EStateM.Result.ok.injEq] at h
  obtain ⟨d0, s1, -, d1, s2, -, rfl, -⟩ := h
  rfl

/-- Eight bytes are two doublewords. -/
theorem physRange_eight (a : Word) : physRange a.toNat 8 = physRange a.toNat 4 ++ physRange (a + 4).toNat 4 := by
  have next : (a + 4).toNat = (a.toNat + 4) % physSize := by simp [BitVec.toNat_add, physSize]
  rw [next, physRange_mod, physRange_append]

/-- A vector outside the IDT raises #GP with the vector and the IDT bit (rule R521). -/
theorem deliver_outside {ev : Event} {s : State} (hp : s.pe = true)
    (out : s.idtr.limit.toNat < 8 * ev.vector.toNat + 7) :
    deliver ev s = .error (.exc (excGP (idtErr ev.vector ev.ext))) s := by
  rw [deliver, bind_ok (look_run s _), if_pos hp, deliverProtected, bind_ok (get_run s),
    bind_error (require_error (by simpa using out))]

/-- A vector inside the IDT reads its gate there (rule R521). -/
theorem deliver_of_gate_error {ev : Event} {s t : State} {x : Exit} (hp : s.pe = true)
    (inside : 8 * ev.vector.toNat + 7 ≤ s.idtr.limit.toNat)
    (h : readDesc (s.idtr.base + BitVec.ofNat 32 (8 * ev.vector.toNat)) s = .error x t) :
    deliver ev s = .error x t := by
  rw [deliver, bind_ok (look_run s _), if_pos hp, deliverProtected, bind_ok (get_run s),
    bind_ok (require_ok (by simpa using inside)), bind_error h]

/-- Settles O15: the tables of `tableOf`, and inside them the two doublewords of `readDesc`. -/
theorem descriptorLookup : Obligations.DescriptorLookup := by
  refine ⟨fun sel s hti invalid => fetchDesc_of_noTable (by simp [State.tableOf, hti, invalid]),
    fun sel s there => ⟨fun out => ?_, fun inside => ⟨fun r t h => ?_, fun hpg mem => ?_⟩⟩,
    fun sel sel' => fetchDesc_congr, fun ev s hp =>
      ⟨deliver_outside hp, fun inside x t => deliver_of_gate_error hp inside⟩⟩
  all_goals have table := tableOf_eq there
  · exact fetchDesc_outside table (by rwa [tableOff_toNat])
  all_goals
    have found := fetchDesc_inside table (by rwa [tableOff_toNat])
    rw [tableOff_eq] at found
  · rw [found, bind_ok_iff] at h
    obtain ⟨d, u, read, rest⟩ := h
    cases rest
    exact ⟨d, rfl, readDesc_addr read⟩
  · rw [physRange_eight] at mem
    rw [found, bind_ok (readDesc_off hpg (fun p hp => mem p (List.mem_append_left _ hp))
      fun p hp => mem p (List.mem_append_right _ hp))]
    rfl

end Sys2Proof.Machine

/-! SUPPORT. The moves to and from control, debug and test registers at level 0 or in real-address mode. -/

namespace Sys2Proof.Machine

/-! ## Moves of special registers -/

theorem privileged_ok {s : State} (h : s.level = 0) : privileged s = .ok () s :=
  (bind_ok (look_run s _)).trans (require_ok (by simp [h]))

theorem freeFlags_run (s : State) : freeFlags s = .ok () s.flagsFreed := rfl

/-- A move to a special register that wrote it: the status flags are free, and the instruction ends (rule R436). -/
theorem freeFlags_next {m : M Unit} {s t : State} (h : m s = .ok () t) :
    (do m; freeFlags; return .next : M Done) s = .ok .next t.flagsFreed := by
  rw [bind_ok h, bind_ok (freeFlags_run t)]
  rfl

/-- What `run` answers when the body stops. -/
theorem run_refused {m : M Done} {f : Refusal} {s t : State} (h : m s = .error (.refuse f) t) :
    run m s = .refused f := by simp [run, h]

/-! ### The value of CR0 -/

section
variable {v : Word} {s : State}

/-- PG without PE raises #GP(0) (rule R440). -/
theorem writeCr0_pagingAlone (hpg : v.getLsbD 31 = true) (hpe : v.getLsbD 0 = false) :
    writeCr0 v s = .error (.exc (excGP (.sel 0))) s :=
  bind_error (require_error (by rw [hpg, hpe]; rfl))

/-- Clearing PE stops (decision D31). -/
theorem writeCr0_clearPE (on : s.pe = true) (hpe : v.getLsbD 0 = false) (hpg : v.getLsbD 31 = false) :
    writeCr0 v s = .error (.refuse .clearPE) s := by
  rw [writeCr0, bind_ok (require_ok (by rw [hpg]; rfl)), bind_ok (look_run s _), if_pos (by rw [on, hpe]; rfl)]
  rfl

/-- Setting PG while CR3 was never written stops (rule R671 row 3). -/
theorem writeCr0_cr3NeverWritten (hpe : v.getLsbD 0 = true) (hpg : v.getLsbD 31 = true) (off : s.pg = false)
    (never : s.cr.cr3Written = false) : writeCr0 v s = .error (.refuse .cr3NeverWritten) s := by
  rw [writeCr0, bind_ok (require_ok (by simp [hpe])), bind_ok (look_run s _), if_neg (by simp [hpe]),
    bind_ok (look_run s _), bind_ok (look_run s _), if_pos (by simp [hpg, off, never])]
  rfl

/-- Any other value is written; a change of PG leaves a TLB of which nothing is known, where it holds a valid entry
(U21, log entry 28). -/
theorem writeCr0_ok (valid : v.getLsbD 0 = true ∨ (v.getLsbD 31 = false ∧ s.pe = false))
    (cr3 : v.getLsbD 31 = true → s.pg = true ∨ s.cr.cr3Written = true) :
    writeCr0 v s = .ok () (if s.pg = v.getLsbD 31 ∨ ∀ e ∈ s.tlb, e.v = false then s.setCr0 v
      else (s.setCr0 v).unknownTlb) := by
  have first : (!(v.getLsbD 31 && !v.getLsbD 0)) = true := by
    rcases valid with hpe | ⟨hpg, -⟩
    · simp [hpe]
    · rw [hpg]
      rfl
  have second : ¬ (s.pe && !v.getLsbD 0) = true := by
    rcases valid with hpe | ⟨-, off⟩
    · simp [hpe]
    · simp [off]
  have third : ¬ (v.getLsbD 31 && !s.pg && !s.cr.cr3Written) = true := by
    cases hpg : v.getLsbD 31 with
    | false => simp
    | true => rcases cr3 hpg with on | written <;> simp [*]
  rw [writeCr0, bind_ok (require_ok first), bind_ok (look_run s _), if_neg second, bind_ok (look_run s _),
    bind_ok (look_run s _), if_neg third, bind_ok (change_run s _), onlyIf_run]
  by_cases same : s.pg = v.getLsbD 31
  · simp [same]
  · rw [if_pos (by simpa using same), change_run, State.loosenTlb]
    have entries : (s.setCr0 v).tlb = s.tlb := rfl
    by_cases empty : ∀ e ∈ s.tlb, e.v = false
    · rw [if_neg (by simpa [entries] using empty), if_pos (.inr empty)]
    · rw [if_pos (by simpa [entries] using empty), if_neg (not_or.mpr ⟨same, empty⟩)]

end

section
variable {s : State} (level : s.level = 0) (r : Reg)
include level

/-! ### Control registers -/

theorem exec_movRegCr0 : exec (.movRegCr r 0) s = .next (s.retires (s.setReg r s.cr.cr0).flagsFreed) :=
  run_ok ((bind_ok (privileged_ok level)).trans rfl)

theorem exec_movRegCr2 : exec (.movRegCr r 2) s = .next (s.retires (s.setReg r s.cr.cr2).flagsFreed) :=
  run_ok ((bind_ok (privileged_ok level)).trans rfl)

theorem exec_movRegCr3 : exec (.movRegCr r 3) s = .next (s.retires (s.setReg r s.cr.cr3).flagsFreed) :=
  run_ok ((bind_ok (privileged_ok level)).trans rfl)

/-- CR1 and CR4 to CR7 raise #UD (rule R435). -/
theorem exec_movCr_undefined {n : BitVec 3} (h0 : n ≠ 0) (h2 : n ≠ 2) (h3 : n ≠ 3) :
    exec (.movRegCr r n) s = takeException excUD s ∧ exec (.movCrReg n r) s = takeException excUD s := by
  have number : n = 1 ∨ n = 4 ∨ n = 5 ∨ n = 6 ∨ n = 7 := by revert n; decide
  rcases number with rfl | rfl | rfl | rfl | rfl <;>
    exact ⟨run_exc ((bind_ok (privileged_ok level)).trans rfl), run_exc ((bind_ok (privileged_ok level)).trans rfl)⟩

theorem exec_movCr2Reg : exec (.movCrReg 2 r) s =
    .next (s.retires ({ s with cr := { s.cr with cr2 := s.reg r } } : State).flagsFreed) :=
  run_ok ((bind_ok (privileged_ok level)).trans rfl)

theorem exec_movCr3Reg : exec (.movCrReg 3 r) s = .next (s.retires (s.setCr3 (s.reg r)).flagsFreed) :=
  run_ok ((bind_ok (privileged_ok level)).trans rfl)

/-- The body of MOV CR0 after its check of the level. -/
theorem exec_movCr0Reg : exec (.movCrReg 0 r) s =
    run (do privileged; writeCr0 (s.reg r); freeFlags; return .next) s := by
  refine run_congr ?_
  rw [bind_ok (privileged_ok level), bind_ok (privileged_ok level)]
  rfl

theorem exec_movCr0Reg_ok {t : State} (h : writeCr0 (s.reg r) s = .ok () t) :
    exec (.movCrReg 0 r) s = .next (s.retires t.flagsFreed) := by
  rw [exec_movCr0Reg level]
  exact run_ok ((bind_ok (privileged_ok level)).trans (freeFlags_next h))

theorem exec_movCr0Reg_exc {e : Exc} (h : writeCr0 (s.reg r) s = .error (.exc e) s) :
    exec (.movCrReg 0 r) s = takeException e s := by
  rw [exec_movCr0Reg level]
  exact run_exc ((bind_ok (privileged_ok level)).trans (bind_error h))

theorem exec_movCr0Reg_refused {f : Refusal} (h : writeCr0 (s.reg r) s = .error (.refuse f) s) :
    exec (.movCrReg 0 r) s = .refused f := by
  rw [exec_movCr0Reg level]
  exact run_refused ((bind_ok (privileged_ok level)).trans (bind_error h))

/-! ### Debug registers -/

/-- DR4 and DR5 stop (U14). -/
theorem exec_movDr_undefined {n : BitVec 3} (h : n = 4 ∨ n = 5) :
    exec (.movRegDr r n) s = .refused .debugRegister45 ∧ exec (.movDrReg n r) s = .refused .debugRegister45 := by
  rcases h with rfl | rfl <;>
    exact ⟨run_refused ((bind_ok (privileged_ok level)).trans rfl),
      run_refused ((bind_ok (privileged_ok level)).trans rfl)⟩

theorem exec_movRegDr {n : BitVec 3} {v : Word} (h : s.drOf n = some v) :
    exec (.movRegDr r n) s = .next (s.retires (s.setReg r v).flagsFreed) := by
  refine run_ok ((bind_ok (privileged_ok level)).trans ((bind_ok (look_run s _)).trans ?_))
  rw [h]
  rfl

theorem exec_movDrReg {n : BitVec 3} {t : State} (h : s.setDr n (s.reg r) = some t) :
    exec (.movDrReg n r) s = .next (s.retires t.flagsFreed) := by
  refine run_ok ((bind_ok (privileged_ok level)).trans ((bind_ok (get_run s)).trans ?_))
  rw [h]
  rfl

end

/-- Settles O53: the moves of each control register, and each way a write of CR0 can end; then the debug registers. -/
theorem controlRegisterMoves : Obligations.ControlRegisterMoves := by
  refine ⟨fun r s level => ⟨exec_movRegCr0 level r, exec_movRegCr2 level r, exec_movRegCr3 level r,
    fun n => exec_movCr_undefined level r, exec_movCr2Reg level r, exec_movCr3Reg level r,
    fun hpg hpe => exec_movCr0Reg_exc level r (writeCr0_pagingAlone hpg hpe),
    fun on hpe hpg => exec_movCr0Reg_refused level r (writeCr0_clearPE on hpe hpg),
    fun hpe hpg off never => exec_movCr0Reg_refused level r (writeCr0_cr3NeverWritten hpe hpg off never),
    fun valid cr3 => ?_⟩, fun r n s level => ⟨exec_movDr_undefined level r, fun h4 h5 => ?_⟩⟩
  · have cpl : (if !s.pe && (s.reg r).getLsbD 0 then 0 else s.cpl) =
        if s.pe = false ∧ (s.reg r).getLsbD 0 = true then 0 else s.cpl := by simp
    have written := exec_movCr0Reg_ok level r (writeCr0_ok valid cr3)
    simpa only [State.setCr0, cpl] using written
  · have number : n = 0 ∨ n = 1 ∨ n = 2 ∨ n = 3 ∨ n = 6 ∨ n = 7 := by revert n; decide
    rcases number with rfl | rfl | rfl | rfl | rfl | rfl <;>
      exact ⟨_, _, exec_movRegDr level r rfl, exec_movDrReg level r rfl, rfl, by simp⟩

/-! ## Test registers -/

section
variable {s : State} (level : s.level = 0) (r : Reg)
include level

theorem exec_movRegTr6 : exec (.movRegTr r 6) s = .next (s.retires (s.setReg r s.test.tr6).flagsFreed) :=
  run_ok ((bind_ok (privileged_ok level)).trans rfl)

theorem exec_movRegTr7 : exec (.movRegTr r 7) s = .next (s.retires (s.setReg r s.test.tr7).flagsFreed) :=
  run_ok ((bind_ok (privileged_ok level)).trans rfl)

theorem exec_movTr7Reg : exec (.movTrReg 7 r) s =
    .next (s.retires ({ s with test := { s.test with tr7 := s.reg r } } : State).flagsFreed) :=
  run_ok ((bind_ok (privileged_ok level)).trans rfl)

/-- A test register other than TR6 and TR7 stops (U14). -/
theorem exec_movTr_undefined {n : BitVec 3} (h6 : n ≠ 6) (h7 : n ≠ 7) :
    exec (.movRegTr r n) s = .refused .testRegister ∧ exec (.movTrReg n r) s = .refused .testRegister := by
  have number : n = 0 ∨ n = 1 ∨ n = 2 ∨ n = 3 ∨ n = 4 ∨ n = 5 := by revert n; decide
  rcases number with rfl | rfl | rfl | rfl | rfl | rfl <;>
    exact ⟨run_refused ((bind_ok (privileged_ok level)).trans rfl),
      run_refused ((bind_ok (privileged_ok level)).trans rfl)⟩

/-- The body of MOV TR6 after its check of the level. -/
theorem exec_movTr6Reg : exec (.movTrReg 6 r) s =
    run (do privileged; writeTr6 (s.reg r); freeFlags; return .next) s := by
  refine run_congr ?_
  rw [bind_ok (privileged_ok level), bind_ok (privileged_ok level)]
  rfl

theorem exec_movTr6Reg_ok {t : State} (h : writeTr6 (s.reg r) s = .ok () t) :
    exec (.movTrReg 6 r) s = .next (s.retires t.flagsFreed) := by
  rw [exec_movTr6Reg level]
  exact run_ok ((bind_ok (privileged_ok level)).trans (freeFlags_next h))

theorem exec_movTr6Reg_refused {f : Refusal} {t : State} (h : writeTr6 (s.reg r) s = .error (.refuse f) t) :
    exec (.movTrReg 6 r) s = .refused f := by
  rw [exec_movTr6Reg level]
  exact run_refused ((bind_ok (privileged_ok level)).trans (bind_error h))

end

/-! ### The write command -/

/-- A bit of an entry's tag: as its pair says, and free where the pair is 00 or 11 (Table 10-1, U4). -/
theorem pairBit_run (x y : Bool) (s : State) :
    ∃ b n, pairBit x y s = .ok b { s with draws := n } ∧ (x ≠ y → b = x) := by
  by_cases h : x = y
  · exact ⟨_, _, congrFun (if_neg (by simp [h])) s, fun k => absurd h k⟩
  · exact ⟨x, s.draws, congrFun (if_pos (by simpa using h)) s, fun _ => rfl⟩

/-- The attributes that TR6 describes where their pairs are defined (Table 10-1). -/
def Described (v : Word) (d u w : Bool) : Prop :=
  (v.getLsbD 10 ≠ v.getLsbD 9 → d = v.getLsbD 10) ∧ (v.getLsbD 8 ≠ v.getLsbD 7 → u = v.getLsbD 8) ∧
    (v.getLsbD 6 ≠ v.getLsbD 5 → w = v.getLsbD 6)

/-- The entry that TR6 and TR7 describe (rule R128). -/
theorem describedEntry_run (v : Word) (s : State) : ∃ d u w n, Described v d u w ∧
    describedEntry v s = .ok { page := pageOf v, v := v.getLsbD 11, d := d, u := u, w := w,
                               phys := s.test.tr7.extractLsb' 12 20, known := true } { s with draws := n } := by
  obtain ⟨d, n1, h1, k1⟩ := pairBit_run (v.getLsbD 10) (v.getLsbD 9) s
  obtain ⟨u, n2, h2, k2⟩ := pairBit_run (v.getLsbD 8) (v.getLsbD 7) { s with draws := n1 }
  obtain ⟨w, n3, h3, k3⟩ := pairBit_run (v.getLsbD 6) (v.getLsbD 5) { s with draws := n2 }
  refine ⟨d, u, w, n3, ⟨k1, k2, k3⟩, ?_⟩
  rw [describedEntry, bind_ok h1, bind_ok h2, bind_ok h3]
  rfl

theorem duplicates_iff (t : List TlbEntry) (b : BitVec 2) (e : TlbEntry) :
    duplicates t b e = true ↔ ∃ c : BitVec 2, c ≠ b ∧ ∃ x, t[8 * c.toNat + e.page.toNat % 8]? = some x ∧
      x.known = true ∧ x.sameTag e = true := by
  have every : ∀ c : BitVec 2, c ∈ blocksFrom 0 := by decide
  have entry : ∀ c, ((tlbAt t (tlbIndex c e.page)).known = true ∧ (tlbAt t (tlbIndex c e.page)).sameTag e = true) ↔
      ∃ x, t[8 * c.toNat + e.page.toNat % 8]? = some x ∧ x.known = true ∧ x.sameTag e = true := by
    intro c
    rw [tlbAt, List.getD_eq_getElem?_getD, tlbIndex, page_low]
    cases t[8 * c.toNat + e.page.toNat % 8]? with
    | none => simp [TlbEntry.invalid]
    | some x => simp
  simp only [duplicates, List.any_eq_true, Bool.and_eq_true, bne_iff_ne, and_assoc, entry, every, true_and]

section
variable {v : Word} {s : State}

/-- A write command with HT clear stops (U4). -/
theorem tlbWrite_htClear (ht : s.test.tr7.getLsbD 4 = false) : tlbWrite v s = .error (.refuse .tlbWriteHt) s := by
  rw [tlbWrite, bind_ok (get_run s)]
  exact congrFun (if_pos (by rw [ht]; rfl)) s

/-- One with HT set enters the entry it describes, unless another block holds its tag (rule R128, U10). -/
theorem tlbWrite_htSet {e : TlbEntry} {t : State} (ht : s.test.tr7.getLsbD 4 = true)
    (h : describedEntry v s = .ok e t) :
    tlbWrite v s = if duplicates s.tlb (s.test.tr7.extractLsb' 2 2) e then .error (.refuse .tlbDuplicate) t
      else .ok () { t with tlb := t.tlb.set (tlbIndex (s.test.tr7.extractLsb' 2 2) e.page) e } := by
  rw [tlbWrite, bind_ok (get_run s)]
  refine (congrFun (if_neg (by rw [ht]; decide)) s).trans ((bind_ok h).trans ?_)
  cases duplicates s.tlb (s.test.tr7.extractLsb' 2 2) e <;> rfl

/-- A move to TR6 with its bit 0 clear is a write command (rule R128). -/
theorem writeTr6_of_write {x : Exit} {t : State} (c : v.getLsbD 0 = false)
    (h : tlbWrite v { s with test := { s.test with tr6 := v } } = .error x t) : writeTr6 v s = .error x t := by
  rw [writeTr6, bind_ok (look_run s _), bind_ok (change_run s _)]
  refine (congrFun (if_neg (by rw [c]; decide)) _).trans (bind_error h)

theorem writeTr6_of_write_ok {t : State} (c : v.getLsbD 0 = false)
    (h : tlbWrite v { s with test := { s.test with tr6 := v } } = .ok () t) :
    writeTr6 v s = .ok () (if s.pg then t.unknownTlb else t) := by
  rw [writeTr6, bind_ok (look_run s _), bind_ok (change_run s _)]
  refine (congrFun (if_neg (by rw [c]; decide)) _).trans ((bind_ok h).trans ?_)
  rw [onlyIf_run]
  split <;> rfl

/-- A move to TR6 with its bit 0 set is a lookup command; with paging on it finds a TLB of which nothing is known
(rules R129, R130). -/
theorem writeTr6_of_lookup {t : State} (c : v.getLsbD 0 = true)
    (h : tlbLookup v (if s.pg then ({ s with test := { s.test with tr6 := v } } : State).unknownTlb
      else { s with test := { s.test with tr6 := v } }) = .ok () t) : writeTr6 v s = .ok () t := by
  rw [writeTr6, bind_ok (look_run s _), bind_ok (change_run s _)]
  refine (congrFun (if_pos c) _).trans ?_
  cases hpg : s.pg <;> rw [hpg] at h <;> exact h

end

/-! ### The lookup command -/

/-- Whether an entry has the tag that a lookup asks for (rule R129). -/
def TlbEntry.asked (e : TlbEntry) (v : Word) : Prop :=
  e.page = pageOf v ∧ e.v = v.getLsbD 11 ∧ e.d = v.getLsbD 10 ∧ e.u = v.getLsbD 8 ∧ e.w = v.getLsbD 6

/-- With defined pairs no choice is left to a lookup (Table 10-1). -/
theorem lookup_iff {e : TlbEntry} {v : Word} (k : Nat) (h : pairsDefined v = true) :
    e.lookup v k = true ↔ e.asked v := by
  simp only [pairsDefined, Bool.and_eq_true, bne_iff_ne] at h
  obtain ⟨⟨hd, hu⟩, hw⟩ := h
  simp only [TlbEntry.lookup, pairMatch, bne_iff_ne, hd, hu, hw, if_true, ne_eq, not_false_eq_true, Bool.and_eq_true,
    beq_iff_eq, TlbEntry.asked, and_assoc]

theorem mem_lookupBlocks {t : List TlbEntry} {v : Word} (k : Nat) (h : pairsDefined v = true) (c : BitVec 2) :
    c ∈ lookupBlocks t v k ↔ (tlbAt t (tlbIndex c (pageOf v))).asked v := by
  have every : ∀ c : BitVec 2, c ∈ blocksFrom 0 := by decide
  simp only [lookupBlocks, List.mem_filter, every, true_and, lookup_iff _ h]

/-- Where one block alone matches, the list of those that match is that block. -/
theorem lookupBlocks_unique {t : List TlbEntry} {v : Word} {k : Nat} {c : BitVec 2}
    (h : ∀ b, b ∈ lookupBlocks t v k ↔ b = c) : lookupBlocks t v k = [c] := by
  have each : (blocksFrom 0).Nodup := by decide
  exact List.perm_singleton.mp ((List.perm_ext_iff_of_nodup (each.filter _) (List.nodup_singleton c)).mpr fun b =>
    (h b).trans List.mem_singleton.symm)

/-- What a lookup leaves in the test registers, `tr7` being TR7 before it: TR6 as written or with the pairs of the entry
that it hits, which has the described attributes; HT, REP and the physical page of TR7 replaced. -/
structure LookupLeaves (t : List TlbEntry) (v tr7 : Word) (r : TestRegs) : Prop where
  tr6 : r.tr6 = v ∨ ∃ e, r.tr6 = tr6Result v e ∧ (pairsDefined v = true → Described v e.d e.u e.w)
  tr7 : ∃ ht b phys, r.tr7 = tr7Result tr7 ht b phys ∧ (unpredictable t v = false → ∃ k,
    (lookupBlocks t v k = [] → ht = false) ∧
      ∀ c, lookupBlocks t v k = [c] → ht = true ∧ b = c ∧ phys = (tlbAt t (tlbIndex c (pageOf v))).phys)

theorem tlbLookup_run {v : Word} {s : State} (written : s.test.tr6 = v) :
    ∃ r n, tlbLookup v s = .ok () { s with test := r, draws := n } ∧ LookupLeaves s.tlb v s.test.tr7 r := by
  obtain ⟨d, u, w, n, attrs, described⟩ := describedEntry_run v { s with draws := s.draws + 2 }
  unfold tlbLookup
  rw [bind_ok (draw_run s _), bind_ok (draw_run _ _), bind_ok (get_run _)]
  dsimp only
  by_cases unknown : unpredictable s.tlb v = true
  · rw [if_pos unknown, bind_ok described, change_run]
    refine ⟨_, _, rfl, ?_, _, _, _, rfl, fun h => absurd (h.symm.trans unknown) (by decide)⟩
    dsimp only
    split
    · exact .inr ⟨_, rfl, fun _ => attrs⟩
    · exact .inl rfl
  · rw [if_neg unknown, bind_ok (change_run _ _)]
    dsimp only
    rcases blocks : lookupBlocks s.tlb v (s.draws + 2) with _ | ⟨c, _ | ⟨c', cs⟩⟩
    · refine ⟨_, _, rfl, .inl written, _, _, _, rfl, fun _ => ⟨s.draws + 2, fun _ => rfl, fun c one => ?_⟩⟩
      exact absurd (blocks.symm.trans one) (List.cons_ne_nil c []).symm
    · refine ⟨_, _, rfl, .inr ⟨_, rfl, fun h => ?_⟩, _, _, _, rfl, fun _ =>
        ⟨s.draws + 2, fun empty => ?_, fun b one => ?_⟩⟩
      · have hit := (mem_lookupBlocks (s.draws + 2) h c).mp (by rw [blocks]; exact List.mem_cons_self)
        obtain ⟨-, -, hd, hu, hw⟩ := hit
        exact ⟨fun _ => hd, fun _ => hu, fun _ => hw⟩
      · exact absurd (blocks.symm.trans empty) (List.cons_ne_nil _ _)
      · obtain rfl : c = b := by simpa [blocks] using one
        exact ⟨rfl, rfl, rfl⟩
    · refine ⟨_, _, rfl, .inl written, _, _, _, rfl, fun _ => ⟨s.draws + 2, fun empty => ?_, fun b one => ?_⟩⟩
      · exact absurd (blocks.symm.trans empty) (List.cons_ne_nil _ _)
      · exact absurd (blocks.symm.trans one) (by simp)

/-! ### The fields of TR6 and TR7 -/

/-- Each bit of a doubleword with one bit set to a given value. -/
theorem getLsbD_setBit {k : Nat} (hk : k < 32) (v : Word) (b : Bool) (j : Nat) :
    (setBit v k b).getLsbD j = if k = j then b else v.getLsbD j := by
  have place : (1#32 <<< k).getLsbD j = decide (k = j) := by
    rw [← BitVec.twoPow_eq, BitVec.getLsbD_twoPow, decide_eq_true hk, Bool.true_and]
  rw [setBit_eq_mergeBits, getLsbD_mergeBits, place]
  by_cases h : k = j
  · subst h
    cases b with
    | true => rw [if_pos rfl, BitVec.getLsbD_allOnes, decide_eq_true hk]; simp
    | false => simp
  · simp [h]

/-- Bits outside a mask do not see a bit in it being set. -/
theorem setBit_and {mask : Word} {k : Nat} (hk : k < 32) (h : mask.getLsbD k = false) (v : Word) (b : Bool) :
    setBit v k b &&& mask = v &&& mask := by
  apply BitVec.eq_of_getLsbD_eq
  intro j _
  rw [BitVec.getLsbD_and, BitVec.getLsbD_and, getLsbD_setBit hk]
  split
  next e => simp [← e, h]
  next => rfl

theorem setBit_self {k : Nat} (hk : k < 32) (v : Word) : setBit v k (v.getLsbD k) = v := by
  apply BitVec.eq_of_getLsbD_eq
  intro j _
  rw [getLsbD_setBit hk]
  split
  next e => rw [e]
  next => rfl

/-- An entry with the described attributes leaves TR6 as it was written. -/
theorem tr6Result_described {v : Word} {e : TlbEntry} (defined : pairsDefined v = true)
    (h : Described v e.d e.u e.w) : tr6Result v e = v := by
  simp only [pairsDefined, Bool.and_eq_true, bne_iff_ne] at defined
  obtain ⟨⟨hd, hu⟩, hw⟩ := defined
  obtain ⟨d, u, w⟩ := h
  have d9 : (!e.d) = v.getLsbD 9 := by rw [d hd]; exact (Bool.eq_not_of_ne hd.symm).symm
  have u7 : (!e.u) = v.getLsbD 7 := by rw [u hu]; exact (Bool.eq_not_of_ne hu.symm).symm
  have w5 : (!e.w) = v.getLsbD 5 := by rw [w hw]; exact (Bool.eq_not_of_ne hw.symm).symm
  rw [tr6Result, d9, u7, w5, d hd, u hu, w hw]
  iterate 6 rw [setBit_self (by decide)]

/-- A lookup writes the three pairs of TR6 alone (rule R129). -/
theorem tr6Result_outside (v : Word) (e : TlbEntry) : tr6Result v e &&& ~~~0x7E0#32 = v &&& ~~~0x7E0#32 := by
  rw [tr6Result]
  iterate 6 rw [setBit_and (by decide) (by decide)]

section
variable (old : Word) (ht : Bool) (b : BitVec 2) (phys : BitVec 20)

/-- TR7 after a lookup, bit by bit: the physical page, what stood there, HT, REP, what stood there. -/
theorem getLsbD_tr7Result (j : Nat) : (tr7Result old ht b phys).getLsbD j =
    if 12 ≤ j then phys.getLsbD (j - 12) else if j = 4 then ht else if j = 2 ∨ j = 3 then b.getLsbD (j - 2)
    else old.getLsbD j := by
  by_cases h : j < 12
  · simp only [tr7Result, BitVec.getLsbD_append]
    interval_cases j <;> simp
  · have e : j - 2 - 2 - 1 - 7 = j - 12 := by omega
    rw [if_pos (by omega), tr7Result]
    simp only [BitVec.getLsbD_append, e, show ¬ j < 2 by omega, show ¬ j - 2 < 2 by omega,
      show ¬ j - 2 - 2 < 1 by omega, show ¬ j - 2 - 2 - 1 < 7 by omega, if_false]

theorem tr7Result_outside : tr7Result old ht b phys &&& 0xFE3#32 = old &&& 0xFE3#32 := by
  apply BitVec.eq_of_getLsbD_eq
  intro j hj
  rw [BitVec.getLsbD_and, BitVec.getLsbD_and, getLsbD_tr7Result]
  have clear : ∀ j < 32, (12 ≤ j ∨ j = 4 ∨ j = 2 ∨ j = 3) → (0xFE3#32).getLsbD j = false := by decide
  split_ifs with page hit block
  · simp [clear j hj (.inl page)]
  · simp [clear j hj (.inr (.inl hit))]
  · simp [clear j hj (.inr (.inr block))]
  · rfl

theorem tr7Result_ht : (tr7Result old ht b phys).getLsbD 4 = ht := getLsbD_tr7Result old ht b phys 4

theorem tr7Result_block : (tr7Result old ht b phys).extractLsb' 2 2 = b := by
  apply BitVec.eq_of_getLsbD_eq
  intro j hj
  rw [BitVec.getLsbD_extractLsb', getLsbD_tr7Result, if_neg (by omega), if_neg (by omega), if_pos (by omega)]
  simp [hj]

theorem tr7Result_phys : (tr7Result old ht b phys).extractLsb' 12 20 = phys := by
  apply BitVec.eq_of_getLsbD_eq
  intro j hj
  rw [BitVec.getLsbD_extractLsb', getLsbD_tr7Result, if_pos (by omega)]
  simp [hj]

end

/-- The six status flags are the only ones that are free (rule R436). -/
theorem freeStatus_outside (old free : Word) : freeStatus old free &&& ~~~statusBits = old &&& ~~~statusBits := by
  apply BitVec.eq_of_getLsbD_eq
  intro j hj
  simp only [freeStatus, BitVec.getLsbD_and, BitVec.getLsbD_or, BitVec.getLsbD_not, hj, decide_true, Bool.true_and]
  cases statusBits.getLsbD j <;> simp

/-! ### The moves to TR6 -/

section
variable {s : State} (level : s.level = 0) (r : Reg)
include level

/-- A move to TR6 that is a write command with HT set (rules R128, R130). -/
theorem exec_movTr6Reg_write (c : (s.reg r).getLsbD 0 = false) (ht : s.test.tr7.getLsbD 4 = true) :
    ∃ d u w n, Described (s.reg r) d u w ∧
      let e : TlbEntry := { page := pageOf (s.reg r), v := (s.reg r).getLsbD 11, d := d, u := u, w := w,
                            phys := s.test.tr7.extractLsb' 12 20, known := true }
      let t : State := { s with
        test := { s.test with tr6 := s.reg r }
        tlb := s.tlb.set (tlbIndex (s.test.tr7.extractLsb' 2 2) (pageOf (s.reg r))) e, draws := n }
      (duplicates s.tlb (s.test.tr7.extractLsb' 2 2) e = true → exec (.movTrReg 6 r) s = .refused .tlbDuplicate) ∧
        (duplicates s.tlb (s.test.tr7.extractLsb' 2 2) e = false →
          exec (.movTrReg 6 r) s = .next (s.retires (if s.pg then t.unknownTlb else t).flagsFreed)) := by
  obtain ⟨d, u, w, n, attrs, described⟩ :=
    describedEntry_run (s.reg r) { s with test := { s.test with tr6 := s.reg r } }
  have write := tlbWrite_htSet (by exact ht) described
  refine ⟨d, u, w, n, attrs, fun twice => ?_, fun once => ?_⟩
  · exact exec_movTr6Reg_refused level r (writeTr6_of_write c (write.trans (if_pos twice)))
  · refine exec_movTr6Reg_ok level r (writeTr6_of_write_ok c (write.trans (if_neg ?_)))
    rw [once]
    decide

/-- A move to TR6 that is a lookup command (rules R129, R130). -/
theorem exec_movTr6Reg_lookup (c : (s.reg r).getLsbD 0 = true) : ∃ t : State,
    exec (.movTrReg 6 r) s = .next (s.retires t.flagsFreed) ∧
      t = { s with test := t.test, draws := t.draws, tlb := t.tlb } ∧ (s.pg = false → t.tlb = s.tlb) ∧
      LookupLeaves t.tlb (s.reg r) s.test.tr7 t.test := by
  let s1 : State := { s with test := { s.test with tr6 := s.reg r } }
  cases hpg : s.pg with
  | true =>
    obtain ⟨test, n, found, leaves⟩ := tlbLookup_run (v := s.reg r) (s := s1.unknownTlb) rfl
    exact ⟨_, exec_movTr6Reg_ok level r (writeTr6_of_lookup c ((congrArg _ (if_pos hpg)).trans found)), rfl,
      fun off => absurd off Bool.false_ne_true.symm, leaves⟩
  | false =>
    obtain ⟨test, n, found, leaves⟩ := tlbLookup_run (v := s.reg r) (s := s1) rfl
    exact ⟨_, exec_movTr6Reg_ok level r (writeTr6_of_lookup c ((congrArg _ (if_neg (by simp [hpg]))).trans found)), rfl,
      fun _ => rfl, leaves⟩

end

section
variable {t : List TlbEntry} {v tr7 : Word} {r : TestRegs} (h : LookupLeaves t v tr7 r)
include h

theorem LookupLeaves.tr6_outside : r.tr6 &&& ~~~0x7E0#32 = v &&& ~~~0x7E0#32 := by
  rcases h.tr6 with e | ⟨x, e, -⟩
  · rw [e]
  · rw [e, tr6Result_outside]

theorem LookupLeaves.tr7_outside : r.tr7 &&& 0xFE3#32 = tr7 &&& 0xFE3#32 := by
  obtain ⟨ht, b, phys, e, -⟩ := h.tr7
  rw [e, tr7Result_outside]

theorem LookupLeaves.tr6_eq (defined : pairsDefined v = true) : r.tr6 = v := by
  rcases h.tr6 with e | ⟨x, e, attrs⟩
  · exact e
  · rw [e, tr6Result_described defined (attrs defined)]

/-- Where no entry matches, a predictable lookup clears HT. -/
theorem LookupLeaves.miss (defined : pairsDefined v = true) (sure : unpredictable t v = false)
    (none : ∀ c, ¬ (tlbAt t (tlbIndex c (pageOf v))).asked v) : r.tr7.getLsbD 4 = false := by
  obtain ⟨ht, b, phys, e, result⟩ := h.tr7
  obtain ⟨k, empty, -⟩ := result sure
  rw [e, tr7Result_ht]
  exact empty (List.eq_nil_iff_forall_not_mem.mpr fun c hc => none c ((mem_lookupBlocks k defined c).mp hc))

/-- Where one entry matches, a predictable lookup finds it. -/
theorem LookupLeaves.hit (defined : pairsDefined v = true) (sure : unpredictable t v = false) {c : BitVec 2}
    (one : (tlbAt t (tlbIndex c (pageOf v))).asked v)
    (unique : ∀ b, (tlbAt t (tlbIndex b (pageOf v))).asked v → b = c) :
    r.tr7.getLsbD 4 = true ∧ r.tr7.extractLsb' 2 2 = c ∧
      r.tr7.extractLsb' 12 20 = (tlbAt t (tlbIndex c (pageOf v))).phys := by
  obtain ⟨ht, b, phys, e, result⟩ := h.tr7
  obtain ⟨k, -, single⟩ := result sure
  obtain ⟨rfl, rfl, rfl⟩ := single c (lookupBlocks_unique fun b =>
    (mem_lookupBlocks k defined b).trans ⟨unique b, fun hb => hb ▸ one⟩)
  rw [e, tr7Result_ht, tr7Result_block, tr7Result_phys]
  exact ⟨rfl, rfl, rfl⟩

end

/-- Settles O55: the moves, the write command by `duplicates`, the lookup command by `LookupLeaves`. -/
theorem testRegisterMoves : Obligations.TestRegisterMoves := by
  intro r s level
  refine ⟨exec_movRegTr6 level r, exec_movRegTr7 level r, exec_movTr7Reg level r, fun n => exec_movTr_undefined level r,
    fun c ht => ?_, fun c ht => ?_, fun c => ?_⟩
  · exact exec_movTr6Reg_refused level r (writeTr6_of_write c (tlbWrite_htClear ht))
  · obtain ⟨d, u, w, n, ⟨hd, hu, hw⟩, twice, once⟩ := exec_movTr6Reg_write level r c ht
    have tag := duplicates_iff s.tlb (s.test.tr7.extractLsb' 2 2)
      { page := pageOf (s.reg r), v := (s.reg r).getLsbD 11, d := d, u := u, w := w,
        phys := s.test.tr7.extractLsb' 12 20, known := true }
    simp only [sameTag_iff] at tag
    rw [tlbIndex, page_low] at once
    exact ⟨d, u, w, n, hd, hu, hw, fun h => twice (tag.mpr h),
      fun h => once (Bool.eq_false_iff.mpr fun h' => h (tag.mp h'))⟩
  · obtain ⟨t, done, frame, tlb, leaves⟩ := exec_movTr6Reg_lookup level r c
    have place : ∀ b page, tlbIndex b page = 8 * b.toNat + page.toNat % 8 := fun b page => by rw [tlbIndex, page_low]
    refine ⟨t.flagsFreed, done, ?_, ?_, tlb, leaves.tr6_outside, leaves.tr7_outside, fun hd hu hw => ?_⟩
    · rw [frame]
      rfl
    · rw [frame]
      exact freeStatus_outside _ _
    · have defined : pairsDefined (s.reg r) = true := by
        simp only [pairsDefined, Bool.and_eq_true, bne_iff_ne]
        exact ⟨⟨hd, hu⟩, hw⟩
      refine ⟨leaves.tr6_eq defined, fun known => ?_⟩
      have sure : unpredictable t.tlb (s.reg r) = false := by
        rcases known with hv | hk
        · rw [unpredictable, hv]
          rfl
        · rw [unpredictable, List.any_eq_false.mpr fun e he => by simp [hk e he], Bool.and_false]
      have miss := leaves.miss defined sure
      have hit := @LookupLeaves.hit _ _ _ _ leaves defined sure
      simp only [place] at miss hit
      exact ⟨miss, fun c => hit⟩

end Sys2Proof.Machine

/-! SUPPORT. The walk of the page tables, its faults, and the entries of the TLB that a translation goes by. -/

namespace Sys2Proof.Machine

/-! ## Doublewords in memory -/

theorem byteAt_congr {s t : State} (h : t.mem = s.mem) (a : Nat) : t.byteAt a = s.byteAt a := by
  rw [State.byteAt, h]
  rfl

theorem bytesAt_congr {s t : State} {ps : List Nat} (h : ∀ p ∈ ps, t.byteAt p = s.byteAt p) :
    t.bytesAt ps = s.bytesAt ps := List.map_congr_left h

theorem dwordAt_congr {s t : State} (h : t.mem = s.mem) (a : Word) : t.dwordAt a = s.dwordAt a :=
  congrArg leWord (bytesAt_congr fun p _ => byteAt_congr h p)

theorem physRange_nodup (a : Nat) {n : Nat} (hn : n ≤ physSize) : (physRange a n).Nodup := by
  refine List.nodup_range.map_on fun i hi j hj e => ?_
  simp only [List.mem_range, physSize] at hi hj hn e
  omega

/-- A doubleword stored in RAM is read back (rule R84). -/
theorem dwordAt_storeAll {s : State} {a : Word} (v : Word) (hm : MemOk s) (ram : s.inRam (physRange a.toNat 4)) :
    (s.storeAll (physRange a.toNat 4) (leBytes 4 v)).dwordAt a = v := by
  have distinct := physRange_nodup a.toNat (n := 4) (by decide)
  rw [State.dwordAt, bytesAt_storeAll s _ _ (by simp) (by rwa [map_mod_self (physRange_lt _ _)]) ram hm, leWord_leBytes4]

/-- Aligned doublewords are apart or the same. -/
theorem physRange_apart {a b : Word} (al : a.toNat % 4 = 0) (bl : b.toNat % 4 = 0) (h : a ≠ b) {p : Nat}
    (hp : p ∈ physRange a.toNat 4) : p ∉ physRange b.toNat 4 := by
  have ne : a.toNat ≠ b.toNat := fun e => h (BitVec.eq_of_toNat_eq e)
  have := a.isLt
  have := b.isLt
  simp only [physRange, List.mem_map, List.mem_range, physSize, not_exists, not_and] at hp ⊢
  obtain ⟨i, hi, rfl⟩ := hp
  intro j hj
  omega

/-! ## Table entries written back -/

/-- The state after a table entry is written back, if it changed (rule R112). -/
def State.updated (s : State) (a old new : Word) : State :=
  if new = old then s else s.storeAll (physRange a.toNat 4) (leBytes 4 new)

theorem updateEntry_run (a old new : Word) (s : State) : updateEntry a old new s = .ok () (s.updated a old new) := by
  unfold updateEntry State.updated
  split <;> rfl

theorem updated_wf {s : State} (hm : MemOk s) (a old new : Word) : MemOk (s.updated a old new) := by
  unfold State.updated
  split
  · exact hm
  · exact storeAll_wf s _ _ hm

theorem updated_plat (s : State) (a old new : Word) : (s.updated a old new).plat = s.plat := by
  unfold State.updated
  split
  · rfl
  · exact s.storeAll_plat _ _

theorem byteAt_updated_out {s : State} (hm : MemOk s) {a old new : Word} {x : Nat}
    (out : x % physSize ∉ physRange a.toNat 4) : (s.updated a old new).byteAt x = s.byteAt x := by
  unfold State.updated
  split
  · rfl
  · refine byteAt_storeAll_out s _ _ x (fun p hp e => out ?_) hm
    rwa [e, Nat.mod_eq_of_lt (physRange_lt _ _ p hp)]

theorem dwordAt_updated_ne {s : State} (hm : MemOk s) {a b old new : Word} (al : a.toNat % 4 = 0)
    (bl : b.toNat % 4 = 0) (h : b ≠ a) : (s.updated a old new).dwordAt b = s.dwordAt b := by
  refine congrArg leWord (bytesAt_congr fun p hp => byteAt_updated_out hm ?_)
  rw [Nat.mod_eq_of_lt (physRange_lt _ _ p hp)]
  exact physRange_apart bl al h hp

theorem dwordAt_updated {s : State} (hm : MemOk s) {a old new : Word} (ram : s.inRam (physRange a.toNat 4))
    (h : s.dwordAt a = old) : (s.updated a old new).dwordAt a = new := by
  unfold State.updated
  split
  next e => rw [h, e]
  next => exact dwordAt_storeAll new hm ram

/-- An entry written back changes its own doubleword at most. -/
theorem dwordAt_updated_cases {s : State} (hm : MemOk s) {a b old new : Word} (al : a.toNat % 4 = 0)
    (bl : b.toNat % 4 = 0) (ram : s.inRam (physRange a.toNat 4)) :
    (s.updated a old new).dwordAt b = s.dwordAt b ∨ (s.updated a old new).dwordAt b = new := by
  by_cases h : b = a
  · subst h
    unfold State.updated
    split
    · exact .inl rfl
    · exact .inr (dwordAt_storeAll new hm ram)
  · exact .inl (dwordAt_updated_ne hm al bl h)

/-- The TLB is entered, or not; memory is apart. -/
theorem fillTlb_run (e : TlbEntry) (s : State) : ∃ t, fillTlb e s = .ok () t ∧ t.mem = s.mem := by
  rw [fillTlb, bind_ok (draw_run s _)]
  split
  · exact ⟨_, rfl, rfl⟩
  · exact ⟨_, rfl, rfl⟩

/-! ## The walk -/

/-- The end of a walk that found both entries, at `a` and `b`, and is permitted (rules R110, R112). -/
def walkEnd (lin : Word) (write : Bool) (a b pde pte : Word) : M Word := do
  let d6 ← draw Config.freeWord
  updateEntry a pde (setBit (pde ||| 0x20#32) 6 (d6.getLsbD 6))
  let pte' := pte ||| 0x20#32 ||| (if write then 0x40#32 else 0)
  updateEntry b pte pte'
  fillTlb { page := pageOf lin, v := true, d := pte'.getLsbD 6, u := pde.getLsbD 2 && pte.getLsbD 2,
            w := pde.getLsbD 1 && pte.getLsbD 1, phys := pte.extractLsb' 12 20, known := true }
  return frameAddr (pte.extractLsb' 12 20) lin

section
variable {lin : Word} {write user : Bool} {s : State} {a b pde pte : Word} (ha : pdeAddr s.cr.cr3 lin = a)
  (hpde : s.dwordAt a = pde) (hb : pteAddr pde lin = b) (hpte : s.dwordAt b = pte)

include ha hpde

/-- No page table: #PF (rule R110). -/
theorem walk_absentTable (ma : s.noDevice (physRange a.toNat 4)) (h : pde.getLsbD 0 = false) :
    walk lin write user s = (pageFault lin false write user : M Word) s := by
  subst ha hpde
  rw [walk, bind_ok (look_run s _), bind_ok (physRead_run ma), if_pos (by rw [h]; rfl)]

include hb hpte

/-- A page that is not present: #PF (rule R110). -/
theorem walk_absentPage (ma : s.noDevice (physRange a.toNat 4)) (mb : s.noDevice (physRange b.toNat 4))
    (h1 : pde.getLsbD 0 = true) (h2 : pte.getLsbD 0 = false) :
    walk lin write user s = (pageFault lin false write user : M Word) s := by
  subst ha hpde hb hpte
  rw [walk, bind_ok (look_run s _), bind_ok (physRead_run ma), if_neg (by rw [h1]; decide), bind_ok (physRead_run mb),
    if_pos (by rw [h2]; rfl)]

/-- A page that is present goes by its protection (rules R110, R183). -/
theorem walk_present (ma : s.noDevice (physRange a.toNat 4)) (mb : s.noDevice (physRange b.toNat 4))
    (h1 : pde.getLsbD 0 = true) (h2 : pte.getLsbD 0 = true) : walk lin write user s = (
      if !pageOk write user (pde.getLsbD 2 && pte.getLsbD 2) (pde.getLsbD 1 && pte.getLsbD 1) then
        pageFault lin true write user
      else walkEnd lin write a b pde pte) s := by
  subst ha hpde hb hpte
  rw [walk, bind_ok (look_run s _), bind_ok (physRead_run ma), if_neg (by rw [h1]; decide), bind_ok (physRead_run mb),
    if_neg (by rw [h2]; decide)]
  rfl

end

/-- What the end of a walk leaves in memory, where RAM answers at both entries: the directory entry is accessed, the
table entry accessed and, after a write, dirty, and no other byte changes (rule R112). -/
theorem walkEnd_run {lin : Word} {write : Bool} {a b pde pte : Word} {s : State} (al : a.toNat % 4 = 0)
    (bl : b.toNat % 4 = 0) (hpde : s.dwordAt a = pde) (hpte : s.dwordAt b = pte)
    (ra : s.inRam (physRange a.toNat 4)) (rb : s.inRam (physRange b.toNat 4)) :
    ∃ t, walkEnd lin write a b pde pte s = .ok (frameAddr (pte.extractLsb' 12 20) lin) t ∧
      (MemOk s → (∀ x, x % physSize ∉ physRange a.toNat 4 ++ physRange b.toNat 4 → t.byteAt x = s.byteAt x) ∧
        (t.dwordAt a).getLsbD 5 = true ∧
        (a ≠ b → t.dwordAt b = pte ||| 0x20#32 ||| (if write then 0x40#32 else 0))) := by
  let s0 : State := { s with draws := s.draws + 1 }
  let pde' := setBit (pde ||| 0x20#32) 6 ((Config.freeWord s.draws).getLsbD 6)
  let pte' := pte ||| 0x20#32 ||| (if write then 0x40#32 else 0)
  let s1 := s0.updated a pde pde'
  let s2 := s1.updated b pte pte'
  obtain ⟨t, filled, mem⟩ := fillTlb_run
    { page := pageOf lin, v := true, d := pte'.getLsbD 6, u := pde.getLsbD 2 && pte.getLsbD 2,
      w := pde.getLsbD 1 && pte.getLsbD 1, phys := pte.extractLsb' 12 20, known := true } s2
  refine ⟨t, ?_, fun hm => ?_⟩
  · rw [walkEnd, bind_ok (draw_run s _), bind_ok (updateEntry_run a pde pde' s0),
      bind_ok (updateEntry_run b pte pte' s1), bind_ok filled]
    rfl
  have m1 : MemOk s1 := updated_wf (s := s0) hm a pde pde'
  have rb1 : s1.inRam (physRange b.toNat 4) := fun p hp => by
    rw [kindAt_congr (s := s) (updated_plat s0 a pde pde')]
    exact rb p hp
  have accessed : s1.dwordAt a = pde' := dwordAt_updated (s := s0) hm ra hpde
  refine ⟨fun x out => ?_, ?_, fun ne => ?_⟩
  · rw [List.mem_append, not_or] at out
    rw [byteAt_congr mem, byteAt_updated_out m1 out.2, byteAt_updated_out (s := s0) hm out.1]
    rfl
  · rw [dwordAt_congr mem]
    rcases dwordAt_updated_cases m1 bl al rb1 (old := pte) (new := pte') with e | e
    · rw [e, accessed, getLsbD_setBit (by decide)]
      simp
    · rw [e]
      simp [pte']
  · rw [dwordAt_congr mem]
    refine dwordAt_updated m1 rb1 ?_
    rw [dwordAt_updated_ne (s := s0) hm al bl (Ne.symm ne)]
    exact hpte

/-! ## The entries of the TLB -/

theorem pageOk_iff (write user u w : Bool) :
    pageOk write user u w = true ↔ user = false ∨ (u = true ∧ (write = true → w = true)) := by
  cases user <;> cases u <;> cases write <;> simp [pageOk]

theorem tlbIndex_eq (b : BitVec 2) (page : BitVec 20) : tlbIndex b page = 8 * b.toNat + page.toNat % 8 := by
  rw [tlbIndex, page_low]

/-- The places looked at are those of the four blocks that hold the page (rule R127), from whichever on. -/
theorem mem_tlbHits (t : List TlbEntry) (from_ : BitVec 2) (page : BitVec 20) (i : Nat) :
    i ∈ tlbHits t from_ page ↔ ∃ b, i = tlbIndex b page ∧ (tlbAt t i).v = true ∧ (tlbAt t i).page = page := by
  have every : ∀ a b : BitVec 2, b ∈ blocksFrom a := by decide
  simp only [tlbHits, List.mem_filter, List.mem_map, every, true_and, TlbEntry.holds, Bool.and_eq_true, beq_iff_eq,
    exists_and_right, eq_comm (b := i)]

/-- No entry is found exactly if no place is looked at. -/
theorem tlbFind_eq_none_iff (t : List TlbEntry) (from_ : BitVec 2) (page : BitVec 20) :
    tlbFind t page = none ↔ tlbHits t from_ page = [] := by
  have every : ∀ a b : BitVec 2, b ∈ blocksFrom a := by decide
  have all : ∀ b : BitVec 2, b ∈ [0#2, 1#2, 2#2, 3#2] := by decide
  simp [tlbFind, tlbHits, List.findSome?_eq_none_iff, List.filter_eq_nil_iff, every, all]

section
variable {lin : Word} {write user : Bool} {s : State}

theorem translate_of_noEntry (on : s.pg = true) (h : tlbHits s.tlb (Config.tlbOrder s.draws) (pageOf lin) = []) :
    translate lin write user s = walk lin write user s := by
  rw [translate, bind_ok (get_run s), if_neg (by rw [on]; decide), if_pos ((tlbFind_eq_none_iff _ _ _).mpr h)]

theorem translate_of_entry (on : s.pg = true) (h : tlbHits s.tlb (Config.tlbOrder s.draws) (pageOf lin) ≠ []) :
    translate lin write user s = byEntries lin write user (tlbHits s.tlb (Config.tlbOrder s.draws) (pageOf lin))
      { s with draws := s.draws + 1 } := by
  rw [translate, bind_ok (get_run s), if_neg (by rw [on]; decide), if_neg (mt (tlbFind_eq_none_iff _ _ _).mp h),
    bind_ok (draw_run s _)]

variable {i : Nat} {is : List Nat}

/-- An entry that is still there decides (decision D18). -/
theorem byEntries_kept (h : Config.tlbKeeps s.draws = true) : byEntries lin write user (i :: is) s =
    byEntry (tlbAt s.tlb i) lin write user { s with draws := s.draws + 1 } := by
  rw [byEntries, bind_ok (draw_run s _), if_pos h, bind_ok (get_run _)]

/-- One that is gone is gone for good (decision D18). -/
theorem byEntries_gone (h : Config.tlbKeeps s.draws = false) : byEntries lin write user (i :: is) s =
    byEntries lin write user is { s with draws := s.draws + 1, tlb := tlbWithout s.tlb i } := by
  rw [byEntries, bind_ok (draw_run s _), if_neg (by rw [h]; decide)]
  rfl

variable {e : TlbEntry}

theorem byEntry_forbidden (h : pageOk write user e.u e.w = false) :
    byEntry e lin write user s = (pageFault lin true write user : M Word) s :=
  congrFun (if_pos (by rw [h]; rfl)) s

theorem byEntry_ok (h : pageOk write user e.u e.w = true) (d : write = false ∨ e.d = true) :
    byEntry e lin write user s = .ok (frameAddr e.phys lin) s := by
  rw [byEntry, if_neg (by rw [h]; decide), if_neg (by rcases d with d | d <;> simp [d])]
  rfl

theorem byEntry_walks (h : pageOk write user e.u e.w = true) (hw : write = true) (d : e.d = false) :
    byEntry e lin write user s = walk lin write user s := by
  rw [byEntry, if_neg (by rw [h]; decide), if_pos (by rw [hw, d]; rfl)]

end

/-- Settles O14: the walk by its two entries, and a translation by the entries that hold its page. -/
theorem walkTranslates : Obligations.WalkTranslates := by
  refine ⟨fun lin write user s on => ⟨fun present permitted ram => ?_, fun fails ma mb => ?_⟩, pageOk_iff,
    fun lin write user s => ⟨fun off => translate_off off lin write user, fun on =>
      ⟨fun i => ?_, translate_of_noEntry on, translate_of_entry on⟩⟩,
    fun lin write user i is s => ⟨rfl, fun kept h => ?_, fun kept h d => ?_, fun kept h hw d => ?_, byEntries_gone⟩⟩
  · have ra : s.inRam _ := fun p hp => ram p (List.mem_append_left _ hp)
    have rb : s.inRam _ := fun p hp => ram p (List.mem_append_right _ hp)
    rw [Bool.or_eq_false_iff, Bool.not_eq_false', Bool.not_eq_false'] at present
    have found := walk_present (write := write) (user := user) rfl rfl rfl rfl (noDevice_of_inRam ra)
      (noDevice_of_inRam rb) present.1 present.2
    obtain ⟨t, done, rest⟩ := walkEnd_run (lin := lin) (write := write) (pdeAddr_aligned _ _) (pteAddr_aligned _ _)
      rfl rfl ra rb
    have walked := (found.trans (congrFun (if_neg (by rw [permitted]; decide)) s)).trans done
    have quiet := walk_readOnly lin write user s on
    rw [walked] at quiet
    exact ⟨t, walked, quiet, rest⟩
  · cases h1 : (s.dwordAt (pdeAddr s.cr.cr3 lin)).getLsbD 0 with
    | false => exact walk_absentTable rfl rfl ma h1
    | true =>
      cases h2 : (s.dwordAt (pteAddr (s.dwordAt (pdeAddr s.cr.cr3 lin)) lin)).getLsbD 0 with
      | false => exact walk_absentPage rfl rfl rfl rfl ma (mb h1) h1 h2
      | true =>
        rw [h1, h2] at fails
        have forbidden := fails.resolve_left (by decide)
        exact (walk_present rfl rfl rfl rfl ma (mb h1) h1 h2).trans (congrFun (if_pos (by rw [forbidden]; rfl)) s)
  · simp only [mem_tlbHits, tlbIndex_eq]
  · rw [byEntries_kept kept, byEntry_forbidden h]
    rfl
  · rw [byEntries_kept kept, byEntry_ok h d]
    rfl
  · rw [byEntries_kept kept, byEntry_walks h hw d]

end Sys2Proof.Machine

/-! SUPPORT. What a task switch that completes has done, phase by phase, and what it raises instead
(44_task_switch.md rules R340 to R349). -/

namespace Sys2Proof.Machine

/-! ## CR3 of the incoming task -/

theorem switchCr3_eq (s : State) (v : Word) :
    s.switchCr3 v = { s with cr := { s.cr with cr3 := v }, tlb := (s.switchCr3 v).tlb } := by
  unfold State.switchCr3
  dsimp only
  split <;> rfl

/-- Another CR3 leaves no valid entry in the TLB (rule R124). -/
theorem switchCr3_flushes {s : State} {v : Word} (h : v ≠ s.cr.cr3) : ∀ e ∈ (s.switchCr3 v).tlb, e.v = false := by
  rw [State.switchCr3_tlb, if_neg h]
  intro e he
  obtain ⟨x, -, rfl⟩ := List.mem_map.mp he
  rfl

/-- What is read only under another CR3 is read only: CR3 and the TLB are put back. -/
theorem underCr3_readOnly {α : Type} (v : Word) {m : M α} (h : Does readOnly m) : Does readOnly (underCr3 v m) := by
  intro s
  have mem : (s.switchCr3 v).mem = s.mem := by rw [switchCr3_eq]
  have back : ∀ t, ReadOnly (s.switchCr3 v) t →
      ReadOnly s { t with cr := { t.cr with cr3 := s.cr.cr3 }, tlb := s.tlb } := by
    rintro t ⟨⟨frame, io⟩, bytes⟩
    rw [switchCr3_eq] at frame io
    refine ⟨⟨?_, io⟩, fun hm => ?_⟩
    · rw [frame]
    · obtain ⟨ok, same⟩ := bytes (by rw [MemOk, mem]; exact hm)
      refine ⟨ok, fun x => ?_⟩
      have := same x
      rw [byteAt_congr mem, switchCr3_eq] at this
      exact this
  have inner := h (s.switchCr3 v)
  unfold underCr3
  cases e : m (s.switchCr3 v) with
  | ok x t =>
    rw [e] at inner
    exact back t inner
  | error x t =>
    rw [e] at inner
    have cr2 : (s.switchCr3 v).cr.cr2 = s.cr.cr2 := by rw [switchCr3_eq]
    have := back _ inner
    rw [cr2] at this
    exact this

/-! ## Phase A -/

/-- Phase A reads, checks and translates; with nothing but accessed and dirty bits changed it ends where the incoming
image is looked for (rules R340, R578). -/
theorem phaseA_ok {kind : SwitchKind} {tsel : BitVec 16} {d : Desc} {ext : Bool} {s t : State} {plan : SwitchPlan}
    (h : phaseA kind tsel d ext s = .ok plan t) : ∃ a, ReadOnly s a ∧ probeTss d plan.newTss a = .ok plan.image t := by
  have range := readOnly_access.translateRange
  simp only [phaseA, bind_ok_iff, require_ok_iff, get_run, EStateM.Result.ok.injEq] at h
  obtain ⟨-, _, ⟨-, rfl⟩, -, _, ⟨-, rfl⟩, -, _, ⟨-, rfl⟩, -, s0, ⟨-, rfl⟩, _, s1, need, _, _, ⟨rfl, rfl⟩, h⟩ := h
  split at h
  · cases h
  simp only [bind_ok_iff, pure_run, EStateM.Result.ok.injEq] at h
  obtain ⟨newTss, s2, h2, save, s3, h3, link, s4, h4, oldBusy, s5, h5, newBusy, s6, h6, image, s7, h7, rfl, rfl⟩ := h
  have r1 : ReadOnly s0 s1 := (Does.needTr (R := readOnly)).ok need
  have r2 : ReadOnly s1 s2 := (range _ _ _ _).ok h2
  have r3 : ReadOnly s2 s3 := (range _ _ _ _).ok h3
  have r4 : ReadOnly s3 s4 := (Does.listIf _ (range _ _ _ _)).ok h4
  have r5 : ReadOnly s4 s5 := (Does.listIf _ (range _ _ _ _)).ok h5
  have r6 : ReadOnly s5 s6 := (Does.listIf _ (range _ _ _ _)).ok h6
  exact ⟨s6, ((((r1.trans r2).trans r3).trans r4).trans r5).trans r6, h7⟩

/-- Where the image is looked for: under the incoming task's CR3, where that is another, or where it has just been found
(log entry 51). -/
theorem probeTss_ok {d : Desc} {newTss image : List Nat} {s t : State} (h : probeTss d newTss s = .ok image t) :
    let v := leWord (s.bytesAt ((newTss.drop 0x1C).take 4))
    if s.pg = true ∧ v ≠ s.cr.cr3 then
      underCr3 v (translateRange (d.base + 0x20) 0x48 false false) s = .ok image t
    else image = newTss.drop 0x20 := by
  rw [probeTss, bind_ok (get_run s)] at h
  dsimp only at h ⊢
  split
  next other =>
    rw [if_pos (by simpa using other)] at h
    exact h
  next other =>
    rw [if_neg (by simpa using other)] at h
    cases h
    rfl

/-- Every early end of phase A leaves memory but for accessed and dirty bits as it was (rules R348, R578). -/
theorem phaseA_readOnly (kind : SwitchKind) (tsel : BitVec 16) (d : Desc) (ext : Bool) :
    Does readOnly (phaseA kind tsel d ext) := by
  have range := readOnly_access.translateRange
  have probe : ∀ l, Does readOnly (probeTss d l) := fun l => Does.bind Does.get fun _ =>
    Does.ite (underCr3_readOnly _ (range _ _ _ _)) (Does.pure _)
  unfold phaseA
  iterate 4 refine Does.bind (Does.require _ _) fun _ => ?_
  refine Does.bind Does.needTr fun _ => Does.bind Does.get fun _ => Does.ite (Does.refuse _) ?_
  iterate 2 refine Does.bind (range _ _ _ _) fun _ => ?_
  iterate 3 refine Does.bind (Does.listIf _ (range _ _ _ _)) fun _ => ?_
  exact Does.bind (probe _) fun _ => Does.pure _

section
variable {kind : SwitchKind} {tsel : BitVec 16} {d : Desc} {ext : Bool} {s : State}

/-- IRET asks for a busy task (rule R340). -/
theorem phaseA_notBusy (hk : kind = .iret) (hb : d.busy = false) :
    phaseA kind tsel d ext s = .error (.exc (excTS (selErr tsel ext))) s :=
  bind_error (require_error (by rw [hk, hb]; rfl))

/-- Every other switch asks for one that is not (rule R340). -/
theorem phaseA_busy (hk : kind ≠ .iret) (hb : d.busy = true) :
    phaseA kind tsel d ext s = .error (.exc (excGP (selErr tsel ext))) s := by
  rw [phaseA, bind_ok (require_ok (by simp [hk])), bind_error (require_error (by simp [hk, hb]))]

section
variable (hb : d.busy = (kind == .iret))
include hb

/-- The two tests of the busy bit, met. -/
theorem busy_tests : (kind != .iret || d.busy) = true ∧ (kind == .iret || !d.busy) = true := by
  rw [hb]
  cases kind <;> decide

theorem phaseA_absent (absent : d.present = false) :
    phaseA kind tsel d ext s = .error (.exc (excNP (selErr tsel ext))) s := by
  obtain ⟨busy, free⟩ := busy_tests hb
  rw [phaseA, bind_ok (require_ok busy), bind_ok (require_ok free), bind_error (require_error absent)]

variable (present : d.present = true)
include present

theorem phaseA_short (short : d.limit.toNat < 103) :
    phaseA kind tsel d ext s = .error (.exc (excTS (selErr tsel ext))) s := by
  obtain ⟨busy, free⟩ := busy_tests hb
  rw [phaseA, bind_ok (require_ok busy), bind_ok (require_ok free), bind_ok (require_ok present),
    bind_error (require_error (by simpa using short))]

variable (long : 103 ≤ d.limit.toNat)
include long

/-- A switch needs a TR that was loaded (rule R341, U23). -/
theorem phaseA_neverLoaded (never : s.tr.loaded = false) :
    phaseA kind tsel d ext s = .error (.refuse .trNeverLoaded) s := by
  obtain ⟨busy, free⟩ := busy_tests hb
  have need : needTr s = .error (.refuse .trNeverLoaded) s := by
    rw [needTr, bind_ok (get_run s), if_neg (by simp [never])]
    rfl
  rw [phaseA, bind_ok (require_ok busy), bind_ok (require_ok free), bind_ok (require_ok present),
    bind_ok (require_ok (by simpa using long)), bind_error need]

/-- A switch needs an outgoing TSS that holds the state (rule R341, U23). -/
theorem phaseA_tooSmall (loaded : s.tr.loaded = true) (small : s.tr.limit.toNat < 103) :
    phaseA kind tsel d ext s = .error (.refuse .tssTooSmall) s := by
  obtain ⟨busy, free⟩ := busy_tests hb
  have need : needTr s = .ok () s := by
    rw [needTr, bind_ok (get_run s), if_pos loaded]
    rfl
  rw [phaseA, bind_ok (require_ok busy), bind_ok (require_ok free), bind_ok (require_ok present),
    bind_ok (require_ok (by simpa using long)), bind_ok need, bind_ok (get_run s), if_pos small]
  rfl

end

end

/-! ## Phase E -/

/-- Memory, the segment registers and LDTR may differ, and nothing else: what the checks of phase E load. -/
def SegmentsOnly (s t : State) : Prop :=
  t = { s with mem := t.mem, dirty := t.dirty, tlb := t.tlb, draws := t.draws, io := t.io, seg := t.seg,
               ldtr := t.ldtr }

theorem SegmentsOnly.trans {a b c : State} (h : SegmentsOnly a b) (k : SegmentsOnly b c) : SegmentsOnly a c := by
  unfold SegmentsOnly at *
  rw [k, h]

/-- The segment registers `xs` have been through their checks of phase E: nothing else has changed, their selectors are
as they were, and they are valid unless those are null. -/
structure SegsLoaded (xs : List SegReg) (s t : State) : Prop where
  frame : SegmentsOnly s t
  other : ∀ y, y ∉ xs → t.segOf y = s.segOf y
  ldtr : t.ldtr = s.ldtr
  sel : ∀ x, (t.segOf x).sel = (s.segOf x).sel
  valid : ∀ x ∈ xs, (s.segOf x).valid = false → (t.segOf x).valid = !isNull (s.segOf x).sel

theorem SegsLoaded.trans {xs ys : List SegReg} {s t u : State} (h : SegsLoaded xs s t) (k : SegsLoaded ys t u)
    (apart : ∀ y ∈ ys, y ∉ xs) : SegsLoaded (xs ++ ys) s u where
  frame := h.frame.trans k.frame
  other y out := by
    rw [List.mem_append, not_or] at out
    exact (k.other y out.2).trans (h.other y out.1)
  ldtr := k.ldtr.trans h.ldtr
  sel x := (k.sel x).trans (h.sel x)
  valid x hx v := by
    by_cases later : x ∈ ys
    · have same := h.other x (apart x later)
      rw [k.valid x later (by rw [same]; exact v), same]
    · rw [k.other x later]
      exact h.valid x ((List.mem_append.mp hx).resolve_right later) v

/-- With a null selector nothing is loaded. -/
theorem SegsLoaded.of_null {x : SegReg} {s : State} (h : isNull (s.segOf x).sel = true) : SegsLoaded [x] s s where
  frame := rfl
  other _ _ := rfl
  ldtr := rfl
  sel _ := rfl
  valid y hy v := by
    obtain rfl := List.mem_singleton.mp hy
    rw [v, h]
    rfl

/-- The descriptor of a selector that is not null, loaded. -/
theorem SegsLoaded.of_fetched {x : SegReg} {c : Desc} {s u : State} (f : Fetched (s.segOf x).sel c s u)
    (h : isNull (s.segOf x).sel = false) : SegsLoaded [x] s (u.setSegOf x (c.cache (s.segOf x).sel)) := by
  have frame := f.memoryOnly
  simp only [memoryOnly] at frame
  have other : ∀ y, y ≠ x → (u.setSegOf x (c.cache (s.segOf x).sel)).segOf y = s.segOf y := fun y ne => by
    rw [State.segOf_setSegOf_ne _ _ _ _ ne, frame]
    rfl
  refine ⟨?_, fun y ne => other y (by simpa using ne), ?_, fun y => ?_, fun y hy _ => ?_⟩
  · unfold SegmentsOnly
    rw [frame]
    cases x <;> rfl
  · rw [State.setSegOf_ldtr, frame]
  · by_cases e : y = x
    · rw [e, State.segOf_setSegOf]
      rfl
    · rw [other y e]
  · obtain rfl := List.mem_singleton.mp hy
    rw [State.segOf_setSegOf, h]
    rfl

theorem checkCs_loaded {ext : Bool} {s t : State} (h : checkCs ext s = .ok () t) : SegsLoaded [.cs] s t := by
  obtain ⟨c, u, null, f, rfl, -⟩ := checkCs_ok h
  exact SegsLoaded.of_fetched (x := .cs) f null

theorem checkSs_loaded {ext : Bool} {s t : State} (h : checkSs ext s = .ok () t) : SegsLoaded [.ss] s t := by
  obtain ⟨c, u, null, f, rfl, -⟩ := checkSs_ok h
  exact SegsLoaded.of_fetched (x := .ss) f null

theorem checkData_loaded {ext : Bool} {x : SegReg} {s t : State} (h : checkData ext x s = .ok () t) :
    SegsLoaded [x] s t := by
  have done := checkData_ok h
  split at done
  next null =>
    subst done
    exact SegsLoaded.of_null null
  next null =>
    obtain ⟨c, u, f, rfl, -⟩ := done
    exact SegsLoaded.of_fetched f (Bool.not_eq_true _ ▸ null)

/-- LDTR's check touches no segment register; LDTR keeps its selector and is valid unless that is null. -/
theorem checkLdt_loaded {ext : Bool} {s t : State} (h : checkLdt ext s = .ok () t) :
    SegmentsOnly s t ∧ (∀ x, t.segOf x = s.segOf x) ∧ t.ldtr.sel = s.ldtr.sel ∧
      (s.ldtr.valid = false → t.ldtr.valid = !isNull s.ldtr.sel) := by
  have done := checkLdt_ok h
  split at done
  next null =>
    subst done
    exact ⟨rfl, fun _ => rfl, rfl, fun v => by rw [v, null]; rfl⟩
  next null =>
    obtain ⟨-, l, b, found, -, -, -, rfl⟩ := done
    have frame := (memoryOnly_writes.fetchDesc _).ok found
    simp only [memoryOnly] at frame
    refine ⟨?_, fun x => ?_, rfl, fun _ => ?_⟩
    · unfold SegmentsOnly
      rw [frame]
    · rw [frame]
      cases x <;> rfl
    · rw [Bool.not_eq_true] at null
      rw [null]
      rfl

/-- What phase E has loaded, register after register (rule R346, decision D26). -/
theorem phaseE_ok {ext : Bool} {s t : State} (h : phaseE ext s = .ok () t) : ∃ e0 e1 e2 e3 e4 e5,
    checkLdt ext s = .ok () e0 ∧ checkCs ext e0 = .ok () e1 ∧ checkSs ext e1 = .ok () e2 ∧
      checkData ext .ds e2 = .ok () e3 ∧ checkData ext .es e3 = .ok () e4 ∧ checkData ext .fs e4 = .ok () e5 ∧
      checkData ext .gs e5 = .ok () t := by
  simp only [phaseE, bind_ok_iff] at h
  obtain ⟨_, e0, h0, _, e1, h1, _, e2, h2, _, e3, h3, _, e4, h4, _, e5, h5, h6⟩ := h
  exact ⟨e0, e1, e2, e3, e4, e5, h0, h1, h2, h3, h4, h5, h6⟩

section
variable {ext : Bool} {x : SegReg} {s t : State} {sel : BitVec 16} {l : BitVec 2} {eip : Word}

/-- LDTR of the incoming task, by its selector. -/
theorem checkLdt_sel (h : checkLdt ext s = .ok () t) (hs : s.ldtr.sel = sel) :
    if isNull sel then t = s
    else ti sel = false ∧ ∃ l b, fetchDesc sel s = .ok (some l) b ∧ l.s = false ∧ l.type = 2 ∧ l.present = true ∧
      t = { b with ldtr := { sel := sel, base := l.base, limit := l.limit, valid := true } } := by
  subst hs
  exact checkLdt_ok h

/-- CS of the incoming task, by its selector, whose RPL is the level, and the offset. -/
theorem checkCs_sel (h : checkCs ext s = .ok () t) (hs : (s.segOf .cs).sel = sel) (he : s.eip = eip) :
    ∃ c u, isNull sel = false ∧ Fetched sel c s u ∧ t = u.setSegOf .cs (c.cache sel) ∧ c.isCode = true ∧
      c.present = true ∧ (if c.ec then c.dpl ≤ rpl sel else c.dpl = rpl sel) ∧ eip ≤ c.limit := by
  subst hs he
  exact checkCs_ok h

/-- SS of the incoming task, by its selector and the level. -/
theorem checkSs_sel (h : checkSs ext s = .ok () t) (hs : (s.segOf .ss).sel = sel) (hl : s.cpl = l) :
    ∃ c u, isNull sel = false ∧ Fetched sel c s u ∧ t = u.setSegOf .ss (c.cache sel) ∧ c.isWritable = true ∧
      c.present = true ∧ rpl sel = l ∧ c.dpl = l := by
  subst hs hl
  exact checkSs_ok h

/-- A data-segment register of the incoming task, by its selector and the level. -/
theorem checkData_sel (h : checkData ext x s = .ok () t) (hs : (s.segOf x).sel = sel) (hl : s.cpl = l) :
    if isNull sel then t = s
    else ∃ c u, Fetched sel c s u ∧ t = u.setSegOf x (c.cache sel) ∧ c.s = true ∧ (c.exec = false ∨ c.rw = true) ∧
      c.present = true ∧ (c.isConforming = true ∨ (l ≤ c.dpl ∧ rpl sel ≤ c.dpl)) := by
  subst hs hl
  exact checkData_ok h

end

/-! ## The whole switch -/

/-- The phases of a switch that completed. -/
theorem taskSwitch_ok {kind : SwitchKind} {tsel : BitVec 16} {d : Desc} {ext : Bool} {ret : Word} {rf : Bool}
    {err : Option Word} {s t : State} (h : taskSwitch kind tsel d ext ret rf err s = .ok () t) :
    ∃ plan s1 s2 s3 bt s6 e6, phaseA kind tsel d ext s = .ok plan s1 ∧ phaseB kind plan ret rf s1 = .ok () s2 ∧
      phaseC tsel d plan s2 = .ok () s3 ∧ phaseD kind d plan s3 = .ok bt s6 ∧ phaseE ext s6 = .ok () e6 ∧
      pushErr ext err { e6 with pend := { e6.pend with bt := e6.pend.bt || bt } } = .ok () t := by
  simp only [taskSwitch, bind_ok_iff] at h
  obtain ⟨plan, s1, h1, _, s2, h2, _, s3, h3, bt, s6, h4, _, e6, h5, _, e7, h6, h7⟩ := h
  refine ⟨plan, s1, s2, s3, bt, s6, e6, h1, h2, h3, h4, inIncoming_ok h5, ?_⟩
  have trap : e7 = { e6 with pend := { e6.pend with bt := e6.pend.bt || bt } } := by
    rw [onlyIf_run] at h6
    cases bt <;> cases h6 <;> simp
  rw [← trap]
  exact inIncoming_ok h7

/-- The state that phase D leaves, but for memory: the image's registers, TR, TS and CR3 (rules R340, R342, R343). -/
def switchedTo (kind : SwitchKind) (tsel : BitVec 16) (d : Desc) (word : Nat → Word) (cr3 : Word) (s : State) : State :=
  { taskLoaded kind word s with
    tr := { sel := tsel, base := d.base, limit := d.limit, loaded := true }
    cr := { s.cr with cr0 := s.cr.cr0 ||| 8#32, cr3 := cr3 } }

section
variable {kind : SwitchKind} {tsel : BitVec 16} {d : Desc} {ext : Bool} {ret : Word} {rf : Bool} {plan : SwitchPlan}
  {word : Nat → Word} {s s1 s2 s3 s4 s6 : State} (h1 : phaseA kind tsel d ext s = .ok plan s1)
  (h2 : phaseB kind plan ret rf s1 = .ok () s2) (h3 : phaseC tsel d plan s2 = .ok () s3)
  (h4 : if s3.pg then ∃ c u, readBytes ((plan.newTss.drop 0x1C).take 4) s3 = .ok c u ∧ s4 = u.switchCr3 (leWord c)
    else s4 = s3)
include h1 h2 h3

/-- Phases A to C leave paging as it was. -/
theorem pg_beforeImage : s3.pg = s.pg := by
  have f1 := (phaseA_memoryOnly kind tsel d ext).ok h1
  have f2 := (phaseB_memoryOnly kind plan ret rf).ok h2
  have f3 := phaseC_ok h3
  simp only [memoryOnly] at f1 f2 f3
  rw [f3, f2, f1]
  simp [State.pg]

include h4

/-- Up to the load of CR3 nothing changes but TR, TS, CR3 and memory. -/
theorem beforeImage_frame : memoryOnly.r { s with
    tr := { sel := tsel, base := d.base, limit := d.limit, loaded := true }
    cr := { s.cr with cr0 := s.cr.cr0 ||| 8#32, cr3 := s4.cr.cr3 } } s4 := by
  have f1 := (phaseA_memoryOnly kind tsel d ext).ok h1
  have f2 := (phaseB_memoryOnly kind plan ret rf).ok h2
  have f3 := phaseC_ok h3
  simp only [memoryOnly] at f1 f2 f3 ⊢
  rw [f2, f1] at f3
  split at h4
  · obtain ⟨c, u, read, rfl⟩ := h4
    have f4 := (memoryOnly_writes.readBytes _).ok read
    simp only [memoryOnly] at f4
    rw [switchCr3_eq, f4, f3]
  · rw [h4, f3]

/-- Phases A to D, together: the image's registers, TR, TS and CR3 are loaded, and memory is written. -/
theorem phaseD_frame (h6 : memoryOnly.r (taskLoaded kind word s4) s6) :
    memoryOnly.r (switchedTo kind tsel d word s4.cr.cr3 s) s6 := by
  have f4 := beforeImage_frame h1 h2 h3 h4
  simp only [memoryOnly] at f4 h6 ⊢
  rw [f4] at h6
  rw [h6]
  rfl

end

/-! ## Exceptions of a switch -/

theorem readBytes_not_error {ps : List Nat} {s t : State} {x : Exit} : readBytes ps s ≠ .error x t := by
  obtain ⟨bs, n, io, h, -⟩ := readBytes_ok ps s
  simp [h]

theorem updateWord_not_error {ps : List Nat} {f : Word → Word} {s t : State} {x : Exit} :
    updateWord ps f s ≠ .error x t := by
  simp [updateWord, bind_error_iff, readBytes_not_error, -bind_run]

/-- Writing the outgoing task's state raises nothing (rules R341, R578). -/
theorem phaseB_not_error {kind : SwitchKind} {plan : SwitchPlan} {ret : Word} {rf : Bool} {s t : State} {x : Exit} :
    phaseB kind plan ret rf s ≠ .error x t := by
  simp [phaseB, drawSix, bind_error_iff, updateWord_not_error, -bind_run]

/-- Making the incoming task current raises nothing (rules R342, R578). -/
theorem phaseC_not_error {tsel : BitVec 16} {d : Desc} {plan : SwitchPlan} {s t : State} {x : Exit} :
    phaseC tsel d plan s ≠ .error x t := by
  simp [phaseC, bind_error_iff, updateWord_not_error, -bind_run]

/-- What is raised in the incoming task is marked so (rule R345). -/
theorem inIncoming_exc {α : Type} {m : M α} {s t : State} {e : Exc} (h : inIncoming m s = .error (.exc e) t) :
    e.incoming = true := by
  unfold inIncoming at h
  split at h
  next =>
    cases h
    rfl
  next other => exact absurd h (other e t)

/-- An exception of a switch is one of phase A, or is raised in the incoming task (rules R345, R348, R578). -/
theorem taskSwitch_exc {kind : SwitchKind} {tsel : BitVec 16} {d : Desc} {ext : Bool} {ret : Word} {rf : Bool}
    {err : Option Word} {s t : State} {e : Exc} (h : taskSwitch kind tsel d ext ret rf err s = .error (.exc e) t) :
    phaseA kind tsel d ext s = .error (.exc e) t ∨ e.incoming = true := by
  simp only [taskSwitch, bind_error_iff, phaseB_not_error, phaseC_not_error, phaseD_not_exc, false_or] at h
  rcases h with h | ⟨_, _, -, _, _, -, _, _, -, bt, _, -, h | ⟨_, u, -, h | ⟨_, _, -, h⟩⟩⟩
  · exact .inl h
  · exact .inr (inIncoming_exc h)
  · rw [onlyIf_run] at h
    cases bt <;> cases h
  · exact .inr (inIncoming_exc h)

/-! ## The statement -/

/-- Where the selector of each segment register stands in a TSS (rule R321). -/
def selectorPlace : SegReg → Nat
  | .es => 0x48 | .cs => 0x4C | .ss => 0x50 | .ds => 0x54 | .fs => 0x58 | .gs => 0x5C

section
variable {kind : SwitchKind} {tsel : BitVec 16} {d : Desc} {word : Nat → Word} {cr3 : Word} {s s6 e0 e : State}
  {xs : List SegReg} (h6 : memoryOnly.r (switchedTo kind tsel d word cr3 s) s6) (h0 : SegmentsOnly s6 e0)

include h6

/-- Before phase E each segment register has its selector from the image, and is not valid. -/
theorem segOf_afterImage (x : SegReg) : s6.segOf x = (s.segOf x).unchecked (lo16 (word (selectorPlace x))) := by
  simp only [memoryOnly] at h6
  rw [h6]
  cases x <;> rfl

theorem ldtr_afterImage : s6.ldtr = { s.ldtr with sel := lo16 (word 0x60), valid := false } := by
  simp only [memoryOnly] at h6
  rw [h6]
  rfl

include h0

/-- What phase E does not load is as the image has it. -/
theorem regs_afterImage : e0.cpl = rpl (lo16 (word 0x4C)) ∧ e0.eip = word 0x20 := by
  simp only [memoryOnly] at h6
  rw [h0, h6]
  exact ⟨rfl, rfl⟩

/-- The state in which the switch ends: that of the image with the segment registers and LDTR that phase E has loaded,
the debug trap of the T bit, and ESP moved by an error code (rules R346, R349, R606). -/
theorem switchEnd_frame {ext bt : Bool} {err : Option Word} {t : State} (hp : s.pe = true)
    (h : pushErr ext err { e0 with pend := { e0.pend with bt := e0.pend.bt || bt } } = .ok () t) :
    (∀ x, t.segOf x = e0.segOf x) ∧ t.ldtr = e0.ldtr ∧ t = { switchedTo kind tsel d word cr3 s with
      mem := t.mem, dirty := t.dirty, tlb := t.tlb, draws := t.draws, io := t.io
      gpr := { (switchedTo kind tsel d word cr3 s).gpr with
        esp := if err.isSome then stackSet t.seg.ss.big (word 0x38) (word 0x38 - 4) else word 0x38 }
      seg := e0.seg, ldtr := e0.ldtr
      pend := { s.pend with bt := s.pend.bt || bt } } := by
  simp only [memoryOnly] at h6
  unfold SegmentsOnly at h0
  rw [h6] at h0
  have pe : e0.pe = true := by
    rw [h0]
    simpa [State.pe, switchedTo] using hp
  have pushed := pushErr_ok (s := { e0 with pend := { e0.pend with bt := e0.pend.bt || bt } }) pe h
  simp only [memoryOnly] at pushed
  have seg : t.seg = e0.seg := by rw [pushed]
  have ldtr : t.ldtr = e0.ldtr := by rw [pushed]
  refine ⟨fun x => by cases x <;> simp only [State.segOf, seg], ldtr, ?_⟩
  rw [seg, pushed, h0]
  rfl

end

/-- Settles O48: the phases that `taskSwitch_ok` names, each with what it has loaded; then what a switch raises. -/
theorem taskSwitchLoads : Obligations.TaskSwitchLoads := by
  refine ⟨fun s v => ⟨switchCr3_eq s v, fun h => by rw [State.switchCr3_tlb, if_pos h], switchCr3_flushes⟩,
    fun kind tsel d ext ret rf err s t hp h => ?_, fun kind tsel d ext ret rf err s t e h own => ?_,
    fun _ _ _ _ _ _ => phaseD_not_exc, fun kind tsel d ext ret rf err s => ?_⟩
  · obtain ⟨plan, s1, s2, s3, bt, s6, e6, hA, hB, hC, hD, hE, hPush⟩ := taskSwitch_ok h
    obtain ⟨a, read, image⟩ := phaseA_ok hA
    obtain ⟨s4, ps, s5, word, hCr3, hAddrs, hRead, vm, rfl, f6⟩ := phaseD_ok hD
    obtain ⟨-, addrs⟩ := imageAddrs_ok hAddrs
    obtain ⟨e0, e1, e2, e3, e4, e5, h0, h1, h2, h3, h4, h5, h6⟩ := phaseE_ok hE
    have f6 := phaseD_frame hA hB hC hCr3 f6
    have segs := segOf_afterImage f6
    -- Phase E loads one register after another, so each check sees its selector and the level as the image has them.
    obtain ⟨f0, seg0, ldtSel, ldtValid⟩ := checkLdt_loaded h0
    have l1 := checkCs_loaded h1
    have l2 := l1.trans (checkSs_loaded h2) (by decide)
    have l3 := l2.trans (checkData_loaded h3) (by decide)
    have l4 := l3.trans (checkData_loaded h4) (by decide)
    have l5 := l4.trans (checkData_loaded h5) (by decide)
    have l6 := l5.trans (checkData_loaded h6) (by decide)
    have cpl : ∀ {xs e}, SegsLoaded xs e0 e → e.cpl = rpl (lo16 (word 0x4C)) := fun l =>
      (regs_afterImage f6 (f0.trans l.frame)).1
    have sel : ∀ {xs e}, SegsLoaded xs e0 e → ∀ x, (e.segOf x).sel = lo16 (word (selectorPlace x)) := fun l x => by
      rw [l.sel, seg0, segs]
      rfl
    obtain ⟨segEnd, ldtrEnd, ending⟩ := switchEnd_frame f6 (f0.trans l6.frame) hp hPush
    refine ⟨plan, a, s1, s2, s3, s4, ps, s5, s6, word, e0, e1, e2, e3, e4, e5, e6, hA, hB, read, ?_, hC, ?_, ?_, ?_,
      hRead, f6, vm, ?_, ?_, ?_, ?_, ?_, ?_, ?_, ?_⟩
    · have found := probeTss_ok image
      rw [read.1.pg, read.1.cr] at found
      exact found
    · rw [← pg_beforeImage hA hB hC]
      exact hCr3
    · intro q u here
      change translateImage d s4 = _ at here
      rw [here] at addrs
      exact addrs
    · intro nowhere
      change ∀ q u, translateImage d s4 ≠ .ok q u at nowhere
      split at addrs
      next q u here => exact absurd here (nowhere q u)
      next => exact addrs.1
      next => exact addrs.elim
    · exact checkLdt_sel h0 (by rw [ldtr_afterImage f6])
    · exact checkCs_sel h1 (by rw [seg0, segs]; rfl) (regs_afterImage f6 f0).2
    · exact checkSs_sel h2 (sel l1 _) (cpl l1)
    · intro p hp
      simp only [List.mem_cons, List.not_mem_nil, or_false] at hp
      rcases hp with rfl | rfl | rfl | rfl
      · exact checkData_sel h3 (sel l2 _) (cpl l2)
      · exact checkData_sel h4 (sel l3 _) (cpl l3)
      · exact checkData_sel h5 (sel l4 _) (cpl l4)
      · exact checkData_sel h6 (sel l5 _) (cpl l5)
    · exact ending
    · have all : ∀ x : SegReg, x ∈ [.cs, .ss, .ds, .es, .fs, .gs] := by intro x; cases x <;> decide
      have image : ∀ x, (t.segOf x).sel = lo16 (word (selectorPlace x)) ∧
          (t.segOf x).valid = !isNull (lo16 (word (selectorPlace x))) := fun x => by
        rw [segEnd]
        refine ⟨sel l6 x, ?_⟩
        rw [l6.valid x (all x) (by rw [seg0, segs]; rfl), seg0, segs]
        rfl
      intro x k hx
      simp only [List.mem_cons, List.not_mem_nil, or_false, Prod.mk.injEq] at hx
      rcases hx with ⟨rfl, rfl⟩ | ⟨rfl, rfl⟩ | ⟨rfl, rfl⟩ | ⟨rfl, rfl⟩ | ⟨rfl, rfl⟩ | ⟨rfl, rfl⟩ <;> exact image _
    · rw [ldtrEnd, l6.ldtr, ldtSel, ldtr_afterImage f6]
    · rw [ldtrEnd, l6.ldtr, ldtValid (by rw [ldtr_afterImage f6]), ldtr_afterImage f6]
  · have first := (taskSwitch_exc h).resolve_right (by rw [own]; decide)
    have frame := (phaseA_memoryOnly kind tsel d ext).error first
    refine ⟨first, frame, fun hm => ?_⟩
    have quiet := ((phaseA_readOnly kind tsel d ext).error first).2 hm
    exact quiet.2
  · exact ⟨fun hk hb => bind_error (phaseA_notBusy hk hb), fun hk hb => bind_error (phaseA_busy hk hb),
      fun hb absent => bind_error (phaseA_absent hb absent),
      fun hb present short => bind_error (phaseA_short hb present short),
      fun hb present long => ⟨fun never => bind_error (phaseA_neverLoaded hb present long never),
        fun loaded small => bind_error (phaseA_tooSmall hb present long loaded small)⟩⟩

end Sys2Proof.Machine

/-! SUPPORT. Protection: what raises #UD in real-address mode and #GP(0) above level 0, and the tests of selectors. -/

namespace Sys2Proof.Machine

/-! ## Mode and privilege -/

section
variable {s : State}

theorem protectedOnly_ok (hp : s.pe = true) : protectedOnly s = .ok () s :=
  (bind_ok (look_run s _)).trans (require_ok hp)

theorem protectedOnly_error (hp : s.pe = false) : protectedOnly s = .error (.exc excUD) s :=
  (bind_ok (look_run s _)).trans (require_error hp)

theorem privileged_error (hp : s.pe = true) (hc : s.cpl ≠ 0) : privileged s = .error (.exc excGP0) s :=
  (bind_ok (look_run s _)).trans (require_error (by simpa [level_of_pe hp] using hc))

/-- An instruction that begins with a test which fails takes the exception of the test. -/
theorem run_test_error {α : Type} {m : M α} {e : Exc} (h : m s = .error (.exc e) s) (f : α → M Done) :
    run (m >>= f) s = takeException e s :=
  run_exc (bind_error h)

end

/-- Settles O23: after the tests of the operand's form and of the mode, which pass, comes the test of the level. -/
theorem privilegedDenied : Obligations.PrivilegedDenied := by
  intro i s hi hp hc
  have denied : ∀ f, run (privileged >>= f) s = takeException (excGP (.sel 0)) s := run_test_error (privileged_error hp hc)
  have selector : ∀ f, run (protectedOnly >>= fun _ => privileged >>= f) s = takeException (excGP (.sel 0)) s :=
    fun f => (run_congr (bind_ok (protectedOnly_ok hp))).trans (denied f)
  cases i with
  | lldt src => exact selector _
  | ltr src => exact selector _
  | lgdt o src =>
    cases src with
    | reg r => cases hi
    | mem m => exact denied _
  | lidt o src =>
    cases src with
    | reg r => cases hi
    | mem m => exact denied _
  | lmsw src => exact denied _
  | clts => exact denied _
  | hlt => exact denied _
  | movRegCr dst n => exact denied _
  | movCrReg n src => exact denied _
  | movRegDr dst n => exact denied _
  | movDrReg n src => exact denied _
  | movRegTr dst n => exact denied _
  | movTrReg n src => exact denied _
  | _ => cases hi

/-! ## Tests of selectors -/

section
variable {src : Rm} {s s1 t : State} {sel : BitVec 16} {r : Option Desc} {ok : BitVec 2 → BitVec 16 → Desc → Bool}

/-- A null selector finds nothing, any other what its table holds (rule R221). -/
theorem examine_ok (h : (isNull sel = true ∧ r = none ∧ t = s) ∨ (isNull sel = false ∧ fetchDesc sel s = .ok r t)) :
    examine sel s = .ok r t := by
  rcases h with ⟨null, rfl, rfl⟩ | ⟨named, h⟩
  · exact congrFun (if_pos null) _
  · exact (congrFun (if_neg (by simp [named])) _).trans h

theorem examine_readOnly (sel : BitVec 16) : Does readOnly (examine sel) :=
  Does.ite (Does.pure _) (readOnly_access.fetchDesc sel)

/-- The descriptor found, where the test accepts it at the level of the instruction (rule R221). -/
theorem inspect_ok (hp : s.pe = true) (operand : readRm16 src s = .ok sel s1) (found : examine sel s1 = .ok r t) :
    inspect src ok s = .ok (r.filter (ok s.level sel)) t := by
  have level := ((readOnly_access.readRm16 src).ok operand).1.level
  rw [inspect, bind_ok (protectedOnly_ok hp), bind_ok operand, bind_ok (look_run s1 _), bind_ok found, level]
  rfl

/-- VERR and VERW say in ZF whether a descriptor was accepted (rules R227, R228). -/
theorem run_verify (h : inspect src ok s = .ok r t) : run (verify src ok) s = .next (s.retires (t.withZf r.isSome)) :=
  run_ok ((bind_ok h).trans rfl)

/-- Where no descriptor is accepted LAR and LSL clear ZF (rules R223, R225). -/
theorem exec_lar_none {o : OpSize} {dst : Reg} (h : inspect src larOk s = .ok none t) :
    exec (.lar o dst src) s = .next (s.retires (t.withZf false)) :=
  run_ok ((bind_ok h).trans rfl)

theorem exec_lsl_none {o : OpSize} {dst : Reg} (h : inspect src lslOk s = .ok none t) :
    exec (.lsl o dst src) s = .next (s.retires (t.withZf false)) :=
  run_ok ((bind_ok h).trans rfl)

theorem exec_lar_some {o : OpSize} {dst : Reg} {d : Desc} (h : inspect src larOk s = .ok (some d) t) :
    exec (.lar o dst src) s = .next (s.retires
      ((t.drawn.setRegSz o dst (larResult o d (Config.freeWord t.draws))).withZf true)) :=
  run_ok ((bind_ok h).trans rfl)

theorem exec_lsl_some {o : OpSize} {dst : Reg} {d : Desc} (h : inspect src lslOk s = .ok (some d) t) :
    exec (.lsl o dst src) s = .next (s.retires ((t.setRegSz o dst d.limit).withZf true)) :=
  run_ok ((bind_ok h).trans rfl)

end

/-- A level may see a descriptor (rule R221). -/
theorem visible_eq (cpl : BitVec 2) (sel : BitVec 16) (d : Desc) :
    visible cpl sel d = (d.isConforming || decide (cpl ≤ d.dpl ∧ rpl sel ≤ d.dpl)) := by
  rw [visible, Bool.decide_and]

/-- The system types that LAR reports (Table 6-4). -/
theorem larOk_eq (cpl : BitVec 2) (sel : BitVec 16) (d : Desc) :
    larOk cpl sel d = ((d.s || decide (d.type ∈ [1, 2, 3, 4, 5, 6, 7, 9, 11, 12, 14, 15])) && visible cpl sel d) := by
  have types : ∀ k : BitVec 4, (!(k == 0 || k == 8 || k == 10 || k == 13)) =
      decide (k ∈ [1, 2, 3, 4, 5, 6, 7, 9, 11, 12, 14, 15]) := by decide
  rw [larOk, types]

/-- The system types that LSL reports (Table 6-4). -/
theorem lslOk_eq (cpl : BitVec 2) (sel : BitVec 16) (d : Desc) :
    lslOk cpl sel d = ((d.s || decide (d.type ∈ [1, 2, 3, 9, 11])) && visible cpl sel d) := by
  have types : ∀ (b : Bool) (k : BitVec 4), (b || k == 1 || k == 2 || k == 3 || k == 9 || k == 11) =
      (b || decide (k ∈ [1, 2, 3, 9, 11])) := by decide
  rw [lslOk, types]

/-- The nine instructions that real-address mode does not know (rule R199). -/
theorem exec_protectedInstr {i : Instr} {s : State} (hi : protectedInstr i = true) (hp : s.pe = false) :
    exec i s = takeException excUD s := by
  have denied : ∀ f : Unit → M Done, run (protectedOnly >>= f) s = takeException excUD s :=
    run_test_error (protectedOnly_error hp)
  have inspected : ∀ src ok (f : Option Desc → M Done), run (inspect src ok >>= f) s = takeException excUD s :=
    fun src ok => run_test_error (bind_error (protectedOnly_error hp))
  cases i with
  | arpl dst src => exact denied _
  | lar o dst src => exact inspected _ _ _
  | lsl o dst src => exact inspected _ _ _
  | verr src => exact inspected _ _ _
  | verw src => exact inspected _ _ _
  | sldt o dst => exact denied _
  | str o dst => exact denied _
  | lldt src => exact denied _
  | ltr src => exact denied _
  | _ => cases hi

/-- Settles O17: what `inspect` answers decides ZF and the destination. -/
theorem selectorTests : Obligations.SelectorTests := by
  refine ⟨fun i s => exec_protectedInstr, fun src s s1 sel hp operand null => ?_,
    fun o dst src s s1 s2 sel r hp operand h => ?_⟩
  · have found := examine_ok (s := s1) (.inl ⟨null, rfl, rfl⟩)
    exact ⟨(readOnly_access.readRm16 src).ok operand, run_verify (inspect_ok hp operand found),
      run_verify (inspect_ok hp operand found)⟩
  · have found := examine_ok h
    have lar := inspect_ok (ok := larOk) hp operand found
    have lsl := inspect_ok (ok := lslOk) hp operand found
    refine ⟨((readOnly_access.readRm16 src).ok operand).trans ((examine_readOnly sel).ok found), ?_, ?_⟩
    · simp only [← visible_eq, ← larOk_eq]
      cases accepted : r.filter (larOk s.level sel) with
      | none => exact exec_lar_none (accepted ▸ lar)
      | some d => cases o <;> exact exec_lar_some (accepted ▸ lar)
    · simp only [← visible_eq, ← lslOk_eq]
      cases accepted : r.filter (lslOk s.level sel) with
      | none => exact exec_lsl_none (accepted ▸ lsl)
      | some d => exact exec_lsl_some (accepted ▸ lsl)

end Sys2Proof.Machine

/-! SUPPORT. What is out of reach above level 0: `Guarded` lists it, and every computation of the model but the bodies
of the privileged instructions does only what `Guarded` allows, a delivery and a task switch included. -/

namespace Sys2Proof.Machine

/-! ## The registers of the system -/

/-- From `s` to `t` the table registers, the test registers, the debug registers and CR0 are as they were, but for TS
and the local enables, which a task switch sets and clears (rules R340, R606). -/
structure Guarded (s t : State) : Prop where
  gdtr : t.gdtr = s.gdtr
  idtr : t.idtr = s.idtr
  test : t.test = s.test
  dr0 : t.dr.dr0 = s.dr.dr0
  dr1 : t.dr.dr1 = s.dr.dr1
  dr2 : t.dr.dr2 = s.dr.dr2
  dr3 : t.dr.dr3 = s.dr.dr3
  dr6 : t.dr.dr6 = s.dr.dr6
  dr7 : t.dr.dr7 = s.dr.dr7 ∨ t.dr.dr7 = s.dr.dr7 &&& ~~~0x155#32
  cr0 : t.cr.cr0 &&& ~~~8#32 = s.cr.cr0 &&& ~~~8#32

/-- The registers that `Guarded` speaks of. -/
def State.systemRegs (s : State) : TableReg × TableReg × TestRegs × DebugRegs × CtrlRegs :=
  (s.gdtr, s.idtr, s.test, s.dr, s.cr)

section
variable (s : State)

theorem State.setReg_systemRegs (r : Reg) (v : Word) : (s.setReg r v).systemRegs = s.systemRegs := by
  simp [State.systemRegs]

theorem State.setRegSz_systemRegs (o : OpSize) (r : Reg) (v : Word) :
    (s.setRegSz o r v).systemRegs = s.systemRegs := by simp [State.systemRegs]

theorem State.setReg8_systemRegs (r : Reg8) (v : Byte) : (s.setReg8 r v).systemRegs = s.systemRegs := by
  simp [State.systemRegs]

theorem State.bumpStr_systemRegs (a : AddrSize) (r : Reg) (k : Word) :
    (s.bumpStr a r k).systemRegs = s.systemRegs := by simp [State.systemRegs]

theorem State.setSegOf_systemRegs (x : SegReg) (c : SegCache) : (s.setSegOf x c).systemRegs = s.systemRegs := by
  simp [State.systemRegs]

theorem State.nullOuter_systemRegs : s.nullOuter.systemRegs = s.systemRegs := by simp [State.systemRegs]

theorem complete_systemRegs (tf : Bool) (d : Done) : (complete tf d s).systemRegs = s.systemRegs := by
  cases d <;> rfl

end

theorem Guarded.of_systemRegs {s t : State} (h : t.systemRegs = s.systemRegs) : Guarded s t := by
  simp only [State.systemRegs, Prod.mk.injEq] at h
  obtain ⟨gdtr, idtr, test, dr, cr⟩ := h
  constructor <;> simp [gdtr, idtr, test, dr, cr]

theorem Guarded.refl (s : State) : Guarded s s := .of_systemRegs rfl

theorem Guarded.trans {a b c : State} (h : Guarded a b) (k : Guarded b c) : Guarded a c where
  gdtr := k.gdtr.trans h.gdtr
  idtr := k.idtr.trans h.idtr
  test := k.test.trans h.test
  dr0 := k.dr0.trans h.dr0
  dr1 := k.dr1.trans h.dr1
  dr2 := k.dr2.trans h.dr2
  dr3 := k.dr3.trans h.dr3
  dr6 := k.dr6.trans h.dr6
  dr7 := by
    rcases h.dr7 with h | h <;> rcases k.dr7 with k | k <;> rw [k, h] <;> simp [BitVec.and_assoc]
  cr0 := k.cr0.trans h.cr0

/-- Memory and the TLB are apart from the registers of the system. -/
theorem Guarded.of_memoryOnly {s t : State} (h : memoryOnly.r s t) : Guarded s t := by
  simp only [memoryOnly] at h
  rw [h]
  exact .of_systemRegs rfl

/-- A page fault puts its address in CR2, which is not among them. -/
theorem Guarded.of_memoryFault {s t : State} (h : memoryOnly.e s t) : Guarded s t := by
  simp only [memoryOnly] at h
  rw [h]
  constructor <;> simp

/-- What a computation may do that changes none of the registers of the system, whichever way it ends. -/
def guarded : Rel where
  r := Guarded
  e := Guarded
  refl := Guarded.refl
  trans := Guarded.trans
  stop := Guarded.refl
  early := Guarded.trans

/-- Where an outcome function answers a next state only what a relation allows has happened. -/
def Leads (R : Rel) (f : State → Host.Outcome State Fault Refusal) : Prop := ∀ ⦃s t⦄, f s = .next t → R.r s t

/-! ## Accesses and changes -/

section
variable {α : Type} {R : Rel} {m : M α}

theorem Does.inIncoming (h : Does R m) : Does R (Machine.inIncoming m) := by
  intro s
  have k := h s
  unfold Machine.inIncoming
  split
  next hm => rwa [hm] at k
  next => exact k

theorem Does.withExt (x : Bool) (h : Does R m) : Does R (Machine.withExt x m) := by
  intro s
  have k := h s
  unfold Machine.withExt
  split
  next hm => rwa [hm] at k
  next => exact k

theorem Does.memOnly (rm : Rm) : Does R (Machine.memOnly rm) := by
  cases rm with
  | mem m => exact Does.pure _
  | reg r => exact Does.raise _

theorem Does.protectedOnly : Does R Machine.protectedOnly := Does.bind (Does.look _) fun _ => Does.require _ _

theorem Does.nearCheck (dst : Word) : Does R (Machine.nearCheck dst) :=
  Does.bind Does.get fun _ => Does.require _ _

theorem Does.ioplCheck : Does R Machine.ioplCheck := Does.bind Does.get fun _ => Does.require _ _

theorem holds_guarded {s : State} {x : EStateM.Result Exit State α} (h : memoryOnly.holds s x) :
    guarded.holds s x := by
  cases x with
  | ok a t => exact Guarded.of_memoryOnly h
  | error e t => exact Guarded.of_memoryFault h

theorem memoryOnly_guarded (h : Does memoryOnly m) : Does guarded m := fun s => holds_guarded (h s)

/-- Every access to memory leaves the registers of the system alone. -/
theorem guarded_stores : Stores guarded where
  draws s n := .of_memoryOnly (memoryOnly_writes.draws s n)
  pend _ _ := .of_systemRegs rfl
  cr2 s v := .of_memoryFault (memoryOnly_writes.cr2 s v)
  drop s i := .of_memoryOnly (memoryOnly_writes.drop s i)
  io s e h := .of_memoryOnly (memoryOnly_writes.io s e h)
  walk lin w u s h := holds_guarded (memoryOnly_writes.walk lin w u s h)
  store s a v := .of_memoryOnly (memoryOnly_writes.store s a v)

theorem change_guarded {f : State → State} (h : ∀ s, (f s).systemRegs = s.systemRegs) : Does guarded (change f) :=
  Does.change fun s => Guarded.of_systemRegs (h s)

theorem changeEnd_guarded {f : State → State} {a : α} (h : ∀ s, (f s).systemRegs = s.systemRegs) :
    Does guarded (do change f; return a : M α) := Does.bind (change_guarded h) fun _ => Does.pure _

/-- An exception that is forgotten leaves the control registers as they were before. -/
theorem attempt_guarded (h : Does guarded m) : Does guarded (attempt m) := by
  intro s
  have k := h s
  unfold attempt
  cases hm : m s with
  | ok a t => rwa [hm] at k
  | error x t =>
    rw [hm] at k
    cases x with
    | exc e => exact { (show Guarded s t from k) with cr0 := rfl }
    | fault f => exact k
    | refuse r => exact k

theorem anyOrder_guarded (h : Does guarded m) : Does guarded (anyOrder m) := by
  intro s
  have k := h s
  unfold anyOrder
  cases hm : m s with
  | ok a t =>
    rw [hm] at k
    exact k.trans (.of_systemRegs rfl)
  | error x t => rwa [hm] at k

end

end Sys2Proof.Machine

/-! SUPPORT. Loads of segment registers, task switches, deliveries and the runs of instructions do only what `Guarded`
allows: TS and the local enables are what a task switch changes of it. -/

namespace Sys2Proof.Machine

/-! ## Segment registers and operands -/

theorem loadSeg_guarded (x : SegReg) (sel : BitVec 16) : Does guarded (loadSeg x sel) := by
  have set : ∀ x (c : State → SegCache), Does guarded (change fun s => s.setSegOf x (c s)) := fun x c =>
    change_guarded fun s => s.setSegOf_systemRegs x (c s)
  refine Does.bind (Does.look _) fun _ => Does.ite (set _ _) (Does.ite ?_ (Does.ite (set _ _) ?_))
  · refine Does.bind (Does.require _ _) fun _ => Does.bind (Does.look _) fun _ => ?_
    refine Does.bind (guarded_stores.fetchOr _ _) fun d => ?_
    iterate 4 refine Does.bind (Does.require _ _) fun _ => ?_
    exact Does.bind (guarded_stores.setLoaded d) fun _ => set _ _
  · refine Does.bind (Does.look _) fun _ => Does.bind (guarded_stores.fetchOr _ _) fun d => ?_
    iterate 4 refine Does.bind (Does.require _ _) fun _ => ?_
    exact Does.bind (guarded_stores.setLoaded d) fun _ => set _ _

theorem setRegSz_guarded (o : OpSize) (r : Reg) (v : State → Word) :
    Does guarded (change fun s => s.setRegSz o r (v s)) := change_guarded fun s => s.setRegSz_systemRegs o r (v s)

theorem writeRm_guarded (o : OpSize) (rm : Rm) (v : Word) : Does guarded (writeRm o rm v) := by
  cases rm with
  | reg r => exact setRegSz_guarded o r _
  | mem m => exact Does.bind (guarded_stores.memWindow _ _ _ _) fun w => guarded_stores.winWrite w v

theorem storeSel_guarded (o : OpSize) (rm : Rm) (v : BitVec 16) : Does guarded (storeSel o rm v) := by
  cases rm with
  | mem m => exact writeRm_guarded .w16 (.mem m) (zx16 v)
  | reg r =>
    cases o with
    | w16 => exact setRegSz_guarded _ r _
    | w32 => exact Does.bind (guarded_stores.draw _) fun _ => change_guarded fun s => s.setReg_systemRegs r _

theorem push_guarded (n : Nat) (v : Word) : Does guarded (push n v) :=
  Does.bind (guarded_stores.preparePushes _ _) fun _ => Does.bind (guarded_stores.writeWins _ _) fun _ =>
    change_guarded fun _ => rfl

/-! ## Task switches -/

/-- Phase C sets TS (rule R340). -/
theorem phaseC_guarded (sel : BitVec 16) (d : Desc) (plan : SwitchPlan) : Does guarded (phaseC sel d plan) := by
  refine Does.bind (Does.look _) fun _ => Does.bind (memoryOnly_guarded (updateWord_memoryOnly _ _)) fun _ => ?_
  refine Does.bind (Does.change fun s => ?_) fun _ =>
    Does.bind (guarded_stores.draw _) fun _ => guarded_stores.writeBytes _ _
  exact { Guarded.refl s with cr0 := by simp [BitVec.and_or_distrib_right] }

theorem loadFields_guarded (ps : List Nat) (fs : List (Nat × (Word → State → State)))
    (h : ∀ p ∈ fs, ∀ v s, (p.2 v s).systemRegs = s.systemRegs) : Does guarded (loadFields ps fs) := by
  induction fs with
  | nil => exact Does.pure _
  | cons p r ih =>
    exact Does.bind (Does.bind (guarded_stores.readBytes _) fun _ => Does.pure _) fun v =>
      Does.bind (change_guarded (h p List.mem_cons_self v)) fun _ => ih fun q hq => h q (List.mem_cons_of_mem p hq)

theorem tssFields_systemRegs : ∀ p ∈ tssFields, ∀ v s, (p.2 v s).systemRegs = s.systemRegs := by
  intro p hp
  fin_cases hp <;> exact fun _ _ => rfl

/-- Phase D clears the local enables of DR7 (rule R606). -/
theorem loadTask_guarded (kind : SwitchKind) (ps : List Nat) : Does guarded (loadTask kind ps) := by
  have word : ∀ k, Does guarded (imageWord ps k) := fun k =>
    Does.bind (guarded_stores.readBytes _) fun _ => Does.pure _
  refine Does.bind (loadFields_guarded ps _ ?_) fun _ => Does.bind (word _) fun _ => Does.ite (Does.refuse _) ?_
  · simp only [List.forall_mem_singleton]
    exact fun _ _ => rfl
  · refine Does.bind (change_guarded fun _ => rfl) fun _ =>
      Does.bind (loadFields_guarded ps _ tssFields_systemRegs) fun _ => Does.bind (word _) fun _ =>
      Does.bind (Does.change fun s => ?_) fun _ => Does.pure _
    exact { Guarded.refl s with dr7 := .inr rfl }

theorem switchCr3_guarded (s : State) (v : Word) : Guarded s (s.switchCr3 v) := by
  constructor <;> simp

theorem phaseD_guarded (kind : SwitchKind) (d : Desc) (plan : SwitchPlan) : Does guarded (phaseD kind d plan) :=
  Does.bind (Does.look _) fun _ =>
    Does.bind (Does.onlyIf _ (Does.bind (guarded_stores.readBytes _) fun _ =>
      Does.change fun s => switchCr3_guarded s _)) fun _ =>
    Does.bind (Does.bind (attempt_guarded (guarded_stores.translateRange _ _ _ _)) fun _ => Does.pure _) fun _ =>
    loadTask_guarded _ _

theorem phaseE_guarded (x : Bool) : Does guarded (phaseE x) := by
  have ldt : Does guarded (checkLdt x) := by
    refine Does.bind (Does.look _) fun _ => Does.ite (Does.pure _) (Does.bind (Does.require _ _) fun _ => ?_)
    exact Does.bind (guarded_stores.fetchOr _ _) fun _ => Does.bind (Does.require _ _) fun _ =>
      Does.bind (Does.require _ _) fun _ => change_guarded fun _ => rfl
  have load : ∀ (d : Desc) r c, Does guarded (do setA d; change fun s => s.setSegOf r c : M Unit) := fun d r c =>
    Does.bind (guarded_stores.setA d) fun _ => change_guarded fun s => s.setSegOf_systemRegs r c
  have cs : Does guarded (checkCs x) := by
    refine Does.bind (Does.look _) fun _ => Does.bind (Does.require _ _) fun _ => ?_
    refine Does.bind (guarded_stores.fetchOr _ _) fun d => ?_
    iterate 4 refine Does.bind (Does.require _ _) fun _ => ?_
    exact Does.bind (guarded_stores.setA d) fun _ =>
      Does.bind (change_guarded fun s => s.setSegOf_systemRegs _ _) fun _ =>
      Does.bind (Does.look _) fun _ => Does.require _ _
  have ss : Does guarded (checkSs x) := by
    refine Does.bind (Does.look _) fun _ => Does.bind (Does.look _) fun _ => Does.bind (Does.require _ _) fun _ => ?_
    refine Does.bind (guarded_stores.fetchOr _ _) fun d => ?_
    iterate 4 refine Does.bind (Does.require _ _) fun _ => ?_
    exact load d _ _
  have data : ∀ r, Does guarded (checkData x r) := by
    intro r
    refine Does.bind (Does.look _) fun _ => Does.bind (Does.look _) fun _ => Does.ite (Does.pure _) ?_
    refine Does.bind (guarded_stores.fetchOr _ _) fun d => ?_
    iterate 3 refine Does.bind (Does.require _ _) fun _ => ?_
    exact load d _ _
  exact Does.bind ldt fun _ => Does.bind cs fun _ => Does.bind ss fun _ => Does.bind (data _) fun _ =>
    Does.bind (data _) fun _ => Does.bind (data _) fun _ => data _

theorem pushErr_guarded (x : Bool) (err : Option Word) : Does guarded (pushErr x err) := by
  cases err with
  | none => exact Does.pure _
  | some v => exact Does.bind (Does.withExt x (guarded_stores.preparePushes _ _)) fun _ =>
      Does.bind (guarded_stores.writeWins _ _) fun _ => change_guarded fun _ => rfl

theorem taskSwitch_guarded (kind : SwitchKind) (sel : BitVec 16) (d : Desc) (x : Bool) (ret : Word) (rf : Bool)
    (err : Option Word) : Does guarded (taskSwitch kind sel d x ret rf err) :=
  Does.bind (memoryOnly_guarded (phaseA_memoryOnly _ _ _ _)) fun _ =>
    Does.bind (memoryOnly_guarded (phaseB_memoryOnly _ _ _ _)) fun _ => Does.bind (phaseC_guarded _ _ _) fun _ =>
    Does.bind (phaseD_guarded _ _ _) fun _ => Does.bind (Does.inIncoming (phaseE_guarded _)) fun _ =>
    Does.bind (Does.onlyIf _ (change_guarded fun _ => rfl)) fun _ => Does.inIncoming (pushErr_guarded _ _)

/-- A TSS that a gate or a back link names is switched to, or refused (rules R331, R332). -/
theorem toTss_guarded (kind : SwitchKind) (sel : BitVec 16) (d : Desc) (x : Bool) (ret : Word) (rf : Bool)
    (err : Option Word) (e : Exc) : Does guarded (do
      require (!d.s) e
      if d.type == 1 || d.type == 3 then refuse .descriptor286 else
      require (d.type == 9 || d.type == 11) e
      taskSwitch kind sel d x ret rf err : M Unit) :=
  Does.bind (Does.require _ _) fun _ => Does.ite (Does.refuse _)
    (Does.bind (Does.require _ _) fun _ => taskSwitch_guarded _ _ _ _ _ _ _)

theorem gateToTss_guarded (kind : SwitchKind) (sel : BitVec 16) (x : Bool) (ret : Word) (rf : Bool)
    (err : Option Word) : Does guarded (gateToTss kind sel x ret rf err) :=
  Does.bind (Does.require _ _) fun _ => Does.bind (guarded_stores.fetchOr _ _) fun _ => toTss_guarded _ _ _ _ _ _ _ _

theorem iretTask_guarded : Does guarded iretTask :=
  Does.bind Does.needTr fun _ => Does.bind Does.get fun _ => Does.bind (guarded_stores.sysRead _ _) fun _ =>
    Does.bind (Does.require _ _) fun _ => Does.bind (guarded_stores.fetchOr _ _) fun _ =>
    toTss_guarded _ _ _ _ _ _ _ _

theorem viaTss_guarded (kind : SwitchKind) (sel : BitVec 16) (d : Desc) : Does guarded (viaTss kind sel d) :=
  Does.bind (Does.require _ _) fun _ => Does.bind (Does.look _) fun _ => Does.bind (Does.require _ _) fun _ =>
    Does.bind (Does.look _) fun _ => taskSwitch_guarded _ _ _ _ _ _ _

theorem viaTaskGate_guarded (kind : SwitchKind) (sel : BitVec 16) (g : Desc) :
    Does guarded (viaTaskGate kind sel g) :=
  Does.bind (Does.look _) fun _ => Does.bind (Does.require _ _) fun _ => Does.bind (Does.require _ _) fun _ =>
    Does.bind (Does.look _) fun _ => gateToTss_guarded _ _ _ _ _ _

/-! ## Delivery -/

theorem enterSame_guarded (sel : BitVec 16) (off : Word) (t : Desc) (img : Word) (err : Option Word) (ev : Event) :
    Does guarded (enterSame sel off t img err ev) :=
  Does.bind Does.get fun _ => Does.bind (Does.withExt _ (Does.stackRange _ _)) fun _ =>
    Does.bind (Does.require _ _) fun _ => Does.bind (guarded_stores.prepareA _) fun _ =>
    Does.bind (Does.withExt _ (guarded_stores.preparePushes _ _)) fun _ =>
    Does.bind (guarded_stores.pushedSel _ _) fun _ => Does.bind (guarded_stores.commitA _ _) fun _ =>
    Does.bind (guarded_stores.writeWins _ _) fun _ => change_guarded fun _ => rfl

theorem enterInner_guarded (sel : BitVec 16) (off : Word) (t : Desc) (img : Word) (err : Option Word) (ev : Event) :
    Does guarded (enterInner sel off t img err ev) :=
  Does.bind (guarded_stores.innerStack _ _) fun _ => Does.bind (Does.require _ _) fun _ =>
    Does.bind (Does.require _ _) fun _ => Does.bind (guarded_stores.prepareA _) fun _ =>
    Does.bind (guarded_stores.prepareA _) fun _ => Does.bind (guarded_stores.innerWindows _ _ _ _ _) fun _ =>
    Does.bind Does.get fun _ => Does.bind (guarded_stores.pushedSel _ _) fun _ =>
    Does.bind (guarded_stores.pushedSel _ _) fun _ => Does.bind (guarded_stores.commitA _ _) fun _ =>
    Does.bind (guarded_stores.commitA _ _) fun _ => Does.bind (guarded_stores.writeWins _ _) fun _ =>
    change_guarded fun _ => rfl

theorem deliverProtected_guarded (ev : Event) : Does guarded (deliverProtected ev) := by
  unfold deliverProtected
  refine Does.bind Does.get fun _ => Does.bind (Does.require _ _) fun _ => ?_
  refine Does.bind (guarded_stores.readDesc _) fun g => Does.ite (Does.refuse _) ?_
  iterate 3 refine Does.bind (Does.require _ _) fun _ => ?_
  refine Does.bind (guarded_stores.pushedCode _) fun err => Does.ite ?_ ?_
  · exact Does.bind (gateToTss_guarded _ _ _ _ _ _) fun _ => Does.pure _
  · have gate : Does guarded (enterGate g err ev) :=
      Does.bind (guarded_stores.handlerSegment _ _) fun _ => Does.bind Does.get fun _ =>
        Does.ite (enterInner_guarded _ _ _ _ _ _) (enterSame_guarded _ _ _ _ _ _)
    exact Does.bind gate fun _ => changeEnd_guarded fun _ => rfl

theorem deliverReal_guarded (ev : Event) : Does guarded (deliverReal ev) :=
  Does.bind Does.get fun _ => Does.bind (Does.require _ _) fun _ => Does.bind (guarded_stores.physRead _ _) fun _ =>
    Does.bind (guarded_stores.preparePushes _ _) fun _ => Does.bind (guarded_stores.writeWins _ _) fun _ =>
    changeEnd_guarded fun _ => rfl

theorem deliver_guarded (ev : Event) : Does guarded (deliver ev) :=
  Does.bind (Does.look _) fun _ => Does.ite (deliverProtected_guarded ev) (deliverReal_guarded ev)

/-- However deliveries follow one another (rules R550 to R557). -/
theorem deliverChain_guarded {k : Nat} {ev : Event} {s t : State} (h : deliverChain k ev s = .next t) :
    Guarded s t := by
  induction k generalizing ev s with
  | zero =>
    cases h
    exact .of_systemRegs rfl
  | succ k ih =>
    rcases deliverChain_next_cases h with ⟨b, u, hd, rfl⟩ | ⟨e, u, hd, ⟨-, rfl⟩ | ⟨-, h⟩⟩
    · exact ((deliver_guarded ev).ok hd).trans (.of_systemRegs rfl)
    · exact ((deliver_guarded ev).error hd).trans (.of_systemRegs rfl)
    · have first : Guarded s { u with pend := .none } := ((deliver_guarded ev).error hd).trans (.of_systemRegs rfl)
      exact first.trans (ih h)

theorem takeException_guarded (e : Exc) : Leads guarded (takeException e) := by
  intro s t h
  have start : Guarded s { s with pend := .none, ended := .raised e.vector, draws := s.draws + 1 } := .of_systemRegs rfl
  exact start.trans (deliverChain_guarded h)

/-- An instruction whose body leaves the registers of the system alone, whether it completes or takes an exception. -/
theorem run_guarded {m : M Done} (hm : Does guarded m) : Leads guarded (run m) := by
  intro s t h
  rcases run_next_cases h with ⟨d, u, hd, rfl⟩ | ⟨e, u, he, h⟩
  · exact (hm.ok hd).trans (.of_systemRegs (complete_systemRegs _ _ _))
  · exact (hm.error he).trans (takeException_guarded e h)

theorem softInt_guarded (n : Byte) : Does guarded (softInt n) :=
  Does.bind (Does.look _) fun _ => Does.bind (deliver_guarded _) fun _ => Does.pure _

end Sys2Proof.Machine

/-! SUPPORT. The instructions that are not privileged do only what `Guarded` allows. -/

namespace Sys2Proof.Machine

/-! ## Returns -/

theorem returnSame_guarded (eip : Word) (rcs : BitVec 16) (d : Desc) (n : Word) :
    Does guarded (returnSame eip rcs d n) :=
  Does.bind (Does.require _ _) fun _ => Does.bind (guarded_stores.prepareA _) fun _ =>
    Does.bind (guarded_stores.commitA _ _) fun _ => change_guarded fun _ => rfl

theorem returnStack_guarded (rss rcs : BitVec 16) : Does guarded (returnStack rss rcs) := by
  refine Does.bind (Does.require _ _) fun _ => Does.bind (guarded_stores.fetchOr _ _) fun _ => ?_
  iterate 4 refine Does.bind (Does.require _ _) fun _ => ?_
  exact Does.pure _

theorem returnOuter_guarded (o : OpSize) (eip : Word) (rcs : BitVec 16) (d : Desc) (k n : Word) :
    Does guarded (returnOuter o eip rcs d k n) :=
  Does.bind (guarded_stores.stackRead _ _) fun _ => Does.bind (guarded_stores.stackRead _ _) fun _ =>
    Does.bind (returnStack_guarded _ _) fun _ => Does.bind (Does.require _ _) fun _ =>
    Does.bind (guarded_stores.prepareA _) fun _ => Does.bind (guarded_stores.prepareA _) fun _ =>
    Does.bind (guarded_stores.commitA _ _) fun _ => Does.bind (guarded_stores.commitA _ _) fun _ =>
    Does.bind (change_guarded fun _ => rfl) fun _ => change_guarded State.nullOuter_systemRegs

theorem iretTo_guarded (o : OpSize) (eip : Word) (rcs : BitVec 16) (d : Desc) (vm : Bool) :
    Does guarded (iretTo o eip rcs d vm) :=
  Does.bind Does.get fun _ => Does.ite (Does.ite (Does.refuse _) (returnSame_guarded _ _ _ _))
    (Does.bind (Does.stackRange _ _) fun _ => Does.ite (Does.refuse _) (returnOuter_guarded _ _ _ _ _ _))

theorem iretOp_guarded (o : OpSize) : Does guarded (iretOp o) := by
  have nmi : ∀ d, Does guarded (do clearNmi; return d : M Done) := fun d =>
    changeEnd_guarded fun _ => rfl
  refine Does.bind Does.get fun _ => Does.ite ?_ (Does.ite (Does.bind iretTask_guarded fun _ => nmi _) ?_)
  · iterate 3 refine Does.bind (guarded_stores.stackRead _ _) fun _ => ?_
    exact Does.bind (change_guarded fun _ => rfl) fun _ => nmi _
  · refine Does.bind Does.get fun _ => Does.bind (Does.stackRange _ _) fun _ => ?_
    iterate 3 refine Does.bind (guarded_stores.stackRead _ _) fun _ => ?_
    exact Does.bind (guarded_stores.returnSegment _) fun _ => Does.bind (iretTo_guarded _ _ _ _ _) fun _ =>
      Does.bind (change_guarded fun _ => rfl) fun _ => nmi _

/-! ## Transfers -/

theorem nearJump_guarded (dst : Word) : Does guarded (nearJump dst) :=
  Does.bind (Does.nearCheck _) fun _ => changeEnd_guarded fun _ => rfl

theorem nearCall_guarded (o : OpSize) (dst : Word) : Does guarded (nearCall o dst) :=
  Does.bind (Does.nearCheck _) fun _ => Does.bind (Does.look _) fun _ => Does.bind (push_guarded _ _) fun _ =>
    changeEnd_guarded fun _ => rfl

theorem nearRet_guarded (o : OpSize) (n : BitVec 16) : Does guarded (nearRet o n) :=
  Does.bind (guarded_stores.stackRead _ _) fun _ => Does.bind (Does.nearCheck _) fun _ =>
    changeEnd_guarded fun _ => rfl

theorem prepareRet_guarded (call : Bool) (o : OpSize) : Does guarded (prepareRet call o) :=
  Does.listIf _ (guarded_stores.preparePushes _ _)

theorem pushRet_guarded (call : Bool) (o : OpSize) (ws : List Win) : Does guarded (pushRet call o ws) :=
  Does.onlyIf _ (Does.bind Does.get fun _ => Does.bind (guarded_stores.pushedSel _ _) fun _ =>
    Does.bind (guarded_stores.writeWins _ _) fun _ => change_guarded fun _ => rfl)

theorem sameLevel_guarded (call : Bool) (o : OpSize) (sel : BitVec 16) (off : Word) (d : Desc) :
    Does guarded (sameLevel call o sel off d) :=
  Does.bind (Does.require _ _) fun _ => Does.bind (prepareRet_guarded _ _) fun _ =>
    Does.bind (guarded_stores.prepareA _) fun _ => Does.bind (pushRet_guarded _ _ _) fun _ =>
    Does.bind (Does.bind (guarded_stores.commitA _ _) fun _ => change_guarded fun _ => rfl) fun _ => Does.pure _

theorem directFar_guarded (call : Bool) (o : OpSize) (sel : BitVec 16) (off : Word) (d : Desc) :
    Does guarded (directFar call o sel off d) := by
  refine Does.bind (Does.look _) fun _ => ?_
  iterate 4 refine Does.bind (Does.require _ _) fun _ => ?_
  exact sameLevel_guarded _ _ _ _ _

theorem readParams_guarded (i n : Nat) : Does guarded (readParams i n) := by
  induction n generalizing i with
  | zero => exact Does.pure _
  | succ n ih => exact Does.bind (guarded_stores.stackRead _ _) fun _ => Does.bind (ih _) fun _ => Does.pure _

theorem innerCall_guarded (sel : BitVec 16) (off : Word) (count : Nat) (t : Desc) :
    Does guarded (innerCall sel off count t) :=
  Does.bind (guarded_stores.innerStack _ _) fun _ => Does.bind (Does.require _ _) fun _ =>
    Does.bind (readParams_guarded _ _) fun _ => Does.bind (Does.require _ _) fun _ =>
    Does.bind (guarded_stores.prepareA _) fun _ => Does.bind (guarded_stores.prepareA _) fun _ =>
    Does.bind (guarded_stores.innerWindows _ _ _ _ _) fun _ => Does.bind Does.get fun _ =>
    Does.bind (guarded_stores.pushedSel _ _) fun _ => Does.bind (guarded_stores.pushedSel _ _) fun _ =>
    Does.bind (guarded_stores.commitA _ _) fun _ => Does.bind (guarded_stores.commitA _ _) fun _ =>
    Does.bind (guarded_stores.writeWins _ _) fun _ => changeEnd_guarded fun _ => rfl

theorem gateTarget_guarded (call : Bool) (sel : BitVec 16) : Does guarded (gateTarget call sel) := by
  refine Does.bind (Does.look _) fun _ => Does.bind (Does.require _ _) fun _ => ?_
  refine Does.bind (guarded_stores.fetchOr _ _) fun _ => ?_
  iterate 4 refine Does.bind (Does.require _ _) fun _ => ?_
  exact Does.pure _

theorem viaCallGate_guarded (call : Bool) (sel : BitVec 16) (g : Desc) : Does guarded (viaCallGate call sel g) :=
  Does.bind (Does.look _) fun _ => Does.bind (Does.require _ _) fun _ => Does.bind (Does.require _ _) fun _ =>
    Does.bind (gateTarget_guarded _ _) fun _ => Does.ite (innerCall_guarded _ _ _ _) (sameLevel_guarded _ _ _ _ _)

theorem farTransfer_guarded (call : Bool) (o : OpSize) (sel : BitVec 16) (off : Word) :
    Does guarded (farTransfer call o sel off) := by
  have real : Does guarded (farReal call o sel off) :=
    Does.bind (prepareRet_guarded _ _) fun _ => Does.bind (pushRet_guarded _ _ _) fun _ =>
      changeEnd_guarded fun _ => rfl
  have prot : Does guarded (farProtected call o sel off) := by
    refine Does.bind (Does.require _ _) fun _ => Does.bind (guarded_stores.fetchOr _ _) fun d => ?_
    refine Does.ite (directFar_guarded _ _ _ _ _) (Does.bind (Does.require _ _) fun _ => ?_)
    refine Does.ite (viaCallGate_guarded _ _ _) (Does.ite ?_ ?_)
    · exact Does.bind (viaTaskGate_guarded _ _ _) fun _ => Does.pure _
    · exact Does.ite (Does.bind (viaTss_guarded _ _ _) fun _ => Does.pure _)
        (Does.ite (Does.refuse _) (Does.raise _))
  exact Does.bind (Does.bind (Does.look _) fun _ => Does.ite prot real) fun _ =>
    changeEnd_guarded fun _ => rfl

theorem farRet_guarded (o : OpSize) (n : BitVec 16) : Does guarded (farRet o n) := by
  have returned : ∀ eip rcs d, Does guarded (farRetTo o eip rcs d n) := fun eip rcs d =>
    Does.bind Does.get fun _ => Does.ite (returnSame_guarded _ _ _ _)
      (Does.bind (Does.stackRange _ _) fun _ => returnOuter_guarded _ _ _ _ _ _)
  refine Does.bind Does.get fun s => Does.bind (Does.stackRange _ _) fun _ => ?_
  iterate 2 refine Does.bind (guarded_stores.stackRead _ _) fun _ => ?_
  refine Does.ite (changeEnd_guarded fun _ => rfl) ?_
  exact Does.bind (guarded_stores.returnSegment _) fun _ => Does.bind (returned _ _ _) fun _ => Does.pure _

/-! ## Segment registers, selectors and table registers -/

theorem setInhibit_guarded (x : SegReg) : Does guarded (setInhibit x) :=
  Does.ite (change_guarded fun _ => rfl) (Does.pure _)

theorem popSeg_guarded (o : OpSize) (x : SegReg) : Does guarded (popSeg o x) :=
  Does.bind (guarded_stores.stackRead _ _) fun _ => Does.bind (loadSeg_guarded _ _) fun _ =>
    Does.bind (change_guarded fun _ => rfl) fun _ => Does.bind (setInhibit_guarded x) fun _ => Does.pure _

theorem pushSeg_guarded (o : OpSize) (x : SegReg) : Does guarded (pushSeg o x) :=
  Does.bind (Does.look _) fun _ => Does.bind (guarded_stores.pushedSel _ _) fun _ =>
    Does.bind (push_guarded _ _) fun _ => Does.pure _

theorem loadFarPtr_guarded (x : SegReg) (o : OpSize) (dst : Reg) (src : Rm) :
    Does guarded (loadFarPtr x o dst src) :=
  Does.bind (Does.memOnly _) fun _ => Does.bind (guarded_stores.readFarPtr _ _) fun _ =>
    Does.bind (loadSeg_guarded _ _) fun _ => Does.bind (setRegSz_guarded _ _ _) fun _ => Does.pure _

theorem setZf_guarded (b : Bool) : Does guarded (do setZf b; return .next : M Done) :=
  changeEnd_guarded fun _ => rfl

theorem inspect_guarded (src : Rm) (ok : BitVec 2 → BitVec 16 → Desc → Bool) : Does guarded (inspect src ok) :=
  Does.bind Does.protectedOnly fun _ => Does.bind (guarded_stores.readRm16 _) fun _ => Does.bind (Does.look _) fun _ =>
    Does.bind (Does.ite (Does.pure _) (guarded_stores.fetchDesc _)) fun _ => Does.pure _

theorem verify_guarded (src : Rm) (ok : BitVec 2 → BitVec 16 → Desc → Bool) : Does guarded (verify src ok) :=
  Does.bind (inspect_guarded _ _) fun _ => setZf_guarded _

theorem storeReg_guarded {α : Type} (f : State → α) (o : OpSize) (dst : Rm) (v : α → BitVec 16) :
    Does guarded (do let a ← look f; storeSel o dst (v a); return .next : M Done) :=
  Does.bind (Does.look _) fun _ => Does.bind (storeSel_guarded _ _ _) fun _ => Does.pure _

theorem writePseudo_guarded (o : OpSize) (m : MemOp) (t : TableReg) : Does guarded (writePseudo o m t) :=
  Does.bind (guarded_stores.memWindow _ _ _ _) fun _ => Does.bind (guarded_stores.memWindow _ _ _ _) fun _ =>
    Does.bind (guarded_stores.draw _) fun _ => Does.bind (guarded_stores.winWrite _ _) fun _ =>
    guarded_stores.winWrite _ _

theorem storeTable_guarded (f : State → TableReg) (o : OpSize) (dst : Rm) :
    Does guarded (do let m ← memOnly dst; let t ← look f; writePseudo o m t; return .next : M Done) :=
  Does.bind (Does.memOnly _) fun _ => Does.bind (Does.look _) fun _ => Does.bind (writePseudo_guarded _ _ _) fun _ =>
    Does.pure _

/-! ## Ports -/

theorem mapAllows_guarded (base : Word) (limit mb p n : Nat) : Does guarded (mapAllows base limit mb p n) := by
  induction n generalizing p with
  | zero => exact Does.pure _
  | succ n ih =>
    exact Does.ite (Does.pure _) (Does.bind (guarded_stores.sysRead _ _) fun _ => Does.ite (Does.pure _) (ih _))

theorem ioCheck_guarded (port : BitVec 16) (n : Nat) : Does guarded (ioCheck port n) := by
  have bitmap : Does guarded (bitmapAllows port n) :=
    Does.bind Does.needTr fun _ => Does.bind (Does.look _) fun _ => Does.bind (guarded_stores.sysRead _ _) fun _ =>
      Does.ite (Does.pure _) (mapAllows_guarded _ _ _ _ _)
  exact Does.bind Does.get fun _ => Does.ite (Does.pure _) (Does.bind bitmap fun _ => Does.require _ _)

theorem ioRead_guarded (port : BitVec 16) (n : Nat) : Does guarded (ioRead port n) :=
  Does.bind (Does.ite (Does.pure _) (Does.refuse _)) fun _ => Does.bind (guarded_stores.draw _) fun _ =>
    changeEnd_guarded fun _ => rfl

theorem ioWrite_guarded (port : BitVec 16) (n : Nat) (v : Word) : Does guarded (ioWrite port n v) :=
  Does.bind (Does.ite (Does.pure _) (Does.refuse _)) fun _ => change_guarded fun _ => rfl

theorem inByte_guarded (port : BitVec 16) : Does guarded (inByte port) :=
  Does.bind (ioCheck_guarded _ _) fun _ => Does.bind (ioRead_guarded _ _) fun _ =>
    changeEnd_guarded fun s => s.setReg8_systemRegs _ _

theorem inWord_guarded (o : OpSize) (port : BitVec 16) : Does guarded (inWord o port) :=
  Does.bind (ioCheck_guarded _ _) fun _ => Does.bind (ioRead_guarded _ _) fun _ =>
    Does.bind (setRegSz_guarded _ _ _) fun _ => Does.pure _

theorem outByte_guarded (port : BitVec 16) : Does guarded (outByte port) :=
  Does.bind (ioCheck_guarded _ _) fun _ => Does.bind (Does.look _) fun _ => Does.bind (ioWrite_guarded _ _ _) fun _ =>
    Does.pure _

theorem outWord_guarded (o : OpSize) (port : BitVec 16) : Does guarded (outWord o port) :=
  Does.bind (ioCheck_guarded _ _) fun _ => Does.bind (Does.look _) fun _ => Does.bind (ioWrite_guarded _ _ _) fun _ =>
    Does.pure _

theorem insElement_guarded (n : Nat) (a : AddrSize) : Does guarded (insElement n a) :=
  Does.bind (Does.look _) fun _ => Does.bind (ioCheck_guarded _ _) fun _ => Does.bind Does.get fun _ =>
    Does.bind (guarded_stores.segWindow _ _ _ _) fun _ => Does.bind (ioRead_guarded _ _) fun _ =>
    Does.bind (guarded_stores.winWrite _ _) fun _ => change_guarded fun s => s.bumpStr_systemRegs _ _ _

theorem outsElement_guarded (n : Nat) (a : AddrSize) (x : Option SegReg) : Does guarded (outsElement n a x) :=
  Does.bind (Does.look _) fun _ => Does.bind (ioCheck_guarded _ _) fun _ => Does.bind Does.get fun _ =>
    Does.bind (guarded_stores.segRead _ _ _) fun _ => Does.bind (ioWrite_guarded _ _ _) fun _ =>
    change_guarded fun s => s.bumpStr_systemRegs _ _ _

theorem repeated_guarded (a : AddrSize) {m : M Unit} (h : Does guarded m) : Does guarded (repeated a m) :=
  Does.bind Does.get fun _ => Does.ite (Does.pure _) (Does.bind h fun _ =>
    Does.bind (change_guarded fun s => s.bumpStr_systemRegs _ _ _) fun _ => Does.bind Does.get fun _ => Does.pure _)

/-! ## The coprocessor and exchanges -/

theorem escWindow_guarded (m : MemOp) (k : Nat) (w : Bool) : Does guarded (escWindow m k w) :=
  Does.bind Does.get fun _ => guarded_stores.segWindow _ _ _ _

theorem escBytes_guarded (m : MemOp) (w : Bool) (k n : Nat) : Does guarded (escBytes m w k n) := by
  induction n generalizing k with
  | zero => exact Does.pure _
  | succ n ih =>
    exact Does.bind (attempt_guarded (escWindow_guarded _ _ _)) fun _ => Does.bind (ih _) fun _ => Does.pure _

theorem drawBytes_guarded (n : Nat) : Does guarded (drawBytes n) := by
  induction n with
  | zero => exact Does.pure _
  | succ n ih => exact Does.bind (guarded_stores.draw _) fun _ => Does.bind ih fun _ => Does.pure _

theorem escMove_guarded (store : Bool) (ws : List Win) : Does guarded (escMove store ws) := by
  refine anyOrder_guarded ?_
  induction ws with
  | nil => exact Does.pure _
  | cons w ws ih =>
    exact Does.ite
      (Does.bind (drawBytes_guarded _) fun _ => Does.bind (guarded_stores.winWriteList _ _) fun _ => ih)
      (Does.bind (guarded_stores.winReadList _) fun _ => Does.bind ih fun _ => Does.pure _)

theorem escWindows_guarded (m : MemOp) (n : Nat) (store : Bool) : Does guarded (escWindows m n store) := by
  refine Does.bind Does.get fun s => Does.ite (Does.pure _) (Does.ite ?_ ?_)
  · exact Does.bind (guarded_stores.memWindow _ _ _ _) fun _ => Does.pure _
  · refine Does.bind (escWindow_guarded _ _ _) fun _ => Does.bind (escWindow_guarded _ _ _) fun _ =>
      Does.bind (escBytes_guarded _ _ _ _) fun ws => Does.ite (Does.pure _) (Does.ite ?_ (Does.raise _))
    exact Does.bind (Does.listIf _ (escMove_guarded _ _)) fun _ => Does.raise _

theorem escMemory_guarded (op : BitVec 3) (b : Byte) (m : MemOp) : Does guarded (escMemory op b m) :=
  Does.bind (guarded_stores.draw _) fun _ => Does.bind (escWindows_guarded _ _ _) fun _ =>
    Does.bind (escMove_guarded _ _) fun _ => changeEnd_guarded fun _ => rfl

theorem escRegister_guarded (op : BitVec 3) (b : Byte) : Does guarded (escRegister op b) :=
  Does.bind (Does.onlyIf _ (Does.bind (drawBytes_guarded _) fun _ => setRegSz_guarded _ _ _)) fun _ =>
    changeEnd_guarded fun _ => rfl

theorem xchgByte_guarded (rm : Rm8) (r : Reg8) : Does guarded (xchgByte rm r) := by
  refine Does.bind (Does.look _) fun v => ?_
  cases rm with
  | reg q =>
    refine changeEnd_guarded fun s => ?_
    exact (State.setReg8_systemRegs _ _ _).trans (s.setReg8_systemRegs _ _)
  | mem m =>
    exact Does.bind (guarded_stores.memWindow _ _ _ _) fun _ => Does.bind (guarded_stores.winRead _) fun _ =>
      Does.bind (guarded_stores.winWrite _ _) fun _ =>
      changeEnd_guarded fun s => s.setReg8_systemRegs _ _

theorem xchgWord_guarded (o : OpSize) (rm : Rm) (r : Reg) : Does guarded (xchgWord o rm r) := by
  refine Does.bind (Does.look _) fun v => ?_
  cases rm with
  | reg q =>
    refine changeEnd_guarded fun s => ?_
    exact (State.setRegSz_systemRegs _ _ _ _).trans (s.setRegSz_systemRegs _ _ _)
  | mem m =>
    exact Does.bind (guarded_stores.memWindow _ _ _ _) fun _ => Does.bind (guarded_stores.winRead _) fun _ =>
      Does.bind (guarded_stores.winWrite _ _) fun _ => Does.bind (setRegSz_guarded _ _ _) fun _ => Does.pure _

/-! ## Every instruction -/

theorem execMovSregRm_guarded (n : BitVec 3) (src : Rm) : Leads guarded (execMovSregRm n src) := by
  refine run_guarded (Does.bind (guarded_stores.readRm16 _) fun _ => ?_)
  split
  next => exact Does.raise _
  next => exact Does.raise _
  next => exact Does.bind (loadSeg_guarded _ _) fun _ => Does.bind (setInhibit_guarded _) fun _ => Does.pure _

theorem execLar_guarded (o : OpSize) (dst : Reg) (src : Rm) : Leads guarded (execLar o dst src) := by
  refine run_guarded (Does.bind (inspect_guarded _ _) fun r => ?_)
  cases r with
  | none => exact setZf_guarded _
  | some d =>
    exact Does.bind (guarded_stores.draw _) fun _ => Does.bind (setRegSz_guarded _ _ _) fun _ => setZf_guarded _

theorem execLsl_guarded (o : OpSize) (dst : Reg) (src : Rm) : Leads guarded (execLsl o dst src) := by
  refine run_guarded (Does.bind (inspect_guarded _ _) fun r => ?_)
  cases r with
  | none => exact setZf_guarded _
  | some d => exact Does.bind (setRegSz_guarded _ _ _) fun _ => setZf_guarded _

theorem execRep_guarded (r : RepTarget) : Leads guarded (execRep r) := by
  cases r with
  | insb a => exact run_guarded (repeated_guarded _ (insElement_guarded _ _))
  | ins o a => exact run_guarded (repeated_guarded _ (insElement_guarded _ _))
  | outsb a x => exact run_guarded (repeated_guarded _ (outsElement_guarded _ _ _))
  | outs o a x => exact run_guarded (repeated_guarded _ (outsElement_guarded _ _ _))
  | application => exact fun _ _ h => nomatch h

theorem execEsc_guarded (op ext : BitVec 3) (rm : Rm) : Leads guarded (execEsc op ext rm) := by
  refine run_guarded (Does.bind Does.get fun s => Does.bind (Does.require _ _) fun _ =>
    Does.bind (Does.require _ _) fun _ => Does.ite (Does.pure _) (Does.bind (Does.require _ _) fun _ => ?_))
  cases rm with
  | reg r => exact escRegister_guarded _ _
  | mem m => exact escMemory_guarded _ _ _

theorem execLock_guarded (l : LockTarget) : Leads guarded (execLock l) := by
  cases l with
  | xchg8 m r => exact run_guarded (xchgByte_guarded _ _)
  | xchg o m r => exact run_guarded (xchgWord_guarded _ _ _)
  | application => exact fun _ _ h => nomatch h
  | illegal => exact run_guarded (Does.raise _)

theorem execOrEaxImm_guarded (v : Imm) : Leads guarded (execOrEaxImm v) := by
  refine run_guarded (Does.bind (guarded_stores.draw _) fun _ => changeEnd_guarded fun s => ?_)
  simp [State.systemRegs]

theorem execOrAlImm_guarded (v : BitVec 8) : Leads guarded (execOrAlImm v) := by
  refine run_guarded (Does.bind (guarded_stores.draw _) fun _ => changeEnd_guarded fun s => ?_)
  simp [State.systemRegs]

/-- Every instruction that is not privileged leaves the registers of the system alone, whatever it raises. -/
theorem exec_guarded {i : Instr} (hi : privilegedInstr i = false) : Leads guarded (exec i) := by
  cases i with
  | arpl dst src =>
    exact run_guarded (Does.bind Does.protectedOnly fun _ => Does.bind (guarded_stores.readRm16 _) fun _ =>
      Does.bind (Does.look _) fun _ => Does.ite (Does.bind (writeRm_guarded _ _ _) fun _ => setZf_guarded _)
        (setZf_guarded _))
  | lar o dst src => exact execLar_guarded o dst src
  | lsl o dst src => exact execLsl_guarded o dst src
  | verr src => exact run_guarded (verify_guarded _ _)
  | verw src => exact run_guarded (verify_guarded _ _)
  | sldt o dst => exact run_guarded (Does.bind Does.protectedOnly fun _ => storeReg_guarded _ _ _ id)
  | str o dst => exact run_guarded (Does.bind Does.protectedOnly fun _ => storeReg_guarded _ _ _ id)
  | sgdt o dst => exact run_guarded (storeTable_guarded _ _ _)
  | sidt o dst => exact run_guarded (storeTable_guarded _ _ _)
  | lgdt o src =>
    cases src with
    | reg r => exact fun _ _ h => takeException_guarded excUD h
    | mem m => cases hi
  | lidt o src =>
    cases src with
    | reg r => exact fun _ _ h => takeException_guarded excUD h
    | mem m => cases hi
  | movSregRm n src => exact execMovSregRm_guarded n src
  | movRmSreg o dst x => exact run_guarded (storeReg_guarded _ _ _ id)
  | popEs o => exact run_guarded (popSeg_guarded o .es)
  | popSs o => exact run_guarded (popSeg_guarded o .ss)
  | popDs o => exact run_guarded (popSeg_guarded o .ds)
  | popFs o => exact run_guarded (popSeg_guarded o .fs)
  | popGs o => exact run_guarded (popSeg_guarded o .gs)
  | pushEs o => exact run_guarded (pushSeg_guarded o .es)
  | pushCs o => exact run_guarded (pushSeg_guarded o .cs)
  | pushSs o => exact run_guarded (pushSeg_guarded o .ss)
  | pushDs o => exact run_guarded (pushSeg_guarded o .ds)
  | pushFs o => exact run_guarded (pushSeg_guarded o .fs)
  | pushGs o => exact run_guarded (pushSeg_guarded o .gs)
  | lds o dst src => exact run_guarded (loadFarPtr_guarded .ds o dst src)
  | les o dst src => exact run_guarded (loadFarPtr_guarded .es o dst src)
  | lss o dst src => exact run_guarded (loadFarPtr_guarded .ss o dst src)
  | lfs o dst src => exact run_guarded (loadFarPtr_guarded .fs o dst src)
  | lgs o dst src => exact run_guarded (loadFarPtr_guarded .gs o dst src)
  | jmpRel8 o rel => exact run_guarded (Does.bind (Does.look _) fun _ => nearJump_guarded _)
  | jmpRel rel => exact run_guarded (Does.bind (Does.look _) fun _ => nearJump_guarded _)
  | jmpRm o src => exact run_guarded (Does.bind (guarded_stores.readRm _ _) fun _ => nearJump_guarded _)
  | jmpFar off sel => exact run_guarded (farTransfer_guarded _ _ _ _)
  | jmpFarM o src =>
    exact run_guarded (Does.bind (Does.memOnly _) fun _ => Does.bind (guarded_stores.readFarPtr _ _) fun _ =>
      farTransfer_guarded _ _ _ _)
  | callRel rel => exact run_guarded (Does.bind (Does.look _) fun _ => nearCall_guarded _ _)
  | callRm o src => exact run_guarded (Does.bind (guarded_stores.readRm _ _) fun _ => nearCall_guarded _ _)
  | callFar off sel => exact run_guarded (farTransfer_guarded _ _ _ _)
  | callFarM o src =>
    exact run_guarded (Does.bind (Does.memOnly _) fun _ => Does.bind (guarded_stores.readFarPtr _ _) fun _ =>
      farTransfer_guarded _ _ _ _)
  | ret o => exact run_guarded (nearRet_guarded o 0)
  | retImm o n => exact run_guarded (nearRet_guarded o n)
  | retFar o => exact run_guarded (farRet_guarded o 0)
  | retFarImm o n => exact run_guarded (farRet_guarded o n)
  | inAlImm port => exact run_guarded (inByte_guarded _)
  | inEaxImm o port => exact run_guarded (inWord_guarded o _)
  | inAlDx => exact run_guarded (Does.bind (Does.look _) fun _ => inByte_guarded _)
  | inEaxDx o => exact run_guarded (Does.bind (Does.look _) fun _ => inWord_guarded o _)
  | outImmAl port => exact run_guarded (outByte_guarded _)
  | outImmEax o port => exact run_guarded (outWord_guarded o _)
  | outDxAl => exact run_guarded (Does.bind (Does.look _) fun _ => outByte_guarded _)
  | outDxEax o => exact run_guarded (Does.bind (Does.look _) fun _ => outWord_guarded o _)
  | insb a => exact run_guarded (Does.bind (insElement_guarded _ _) fun _ => Does.pure _)
  | ins o a => exact run_guarded (Does.bind (insElement_guarded _ _) fun _ => Does.pure _)
  | outsb a x => exact run_guarded (Does.bind (outsElement_guarded _ _ _) fun _ => Does.pure _)
  | outs o a x => exact run_guarded (Does.bind (outsElement_guarded _ _ _) fun _ => Does.pure _)
  | rep r => exact execRep_guarded r
  | cli => exact run_guarded (Does.bind Does.ioplCheck fun _ => changeEnd_guarded fun _ => rfl)
  | sti => exact run_guarded (Does.bind Does.ioplCheck fun _ => changeEnd_guarded fun _ => rfl)
  | pushf o =>
    exact run_guarded (Does.bind (Does.look _) fun _ => Does.bind (push_guarded _ _) fun _ => Does.pure _)
  | popf o =>
    exact run_guarded (Does.bind (guarded_stores.stackRead _ _) fun _ => changeEnd_guarded fun _ => rfl)
  | int3 => exact run_guarded (softInt_guarded 3)
  | intN n => exact run_guarded (softInt_guarded n)
  | into => exact run_guarded (Does.bind (Does.look _) fun _ => Does.ite (softInt_guarded _) (Does.pure _))
  | iret o => exact run_guarded (iretOp_guarded o)
  | bound o r src =>
    exact run_guarded (Does.bind (Does.memOnly _) fun _ => Does.bind (guarded_stores.memRead _ _ _) fun _ =>
      Does.bind (guarded_stores.memRead _ _ _) fun _ => Does.bind (Does.look _) fun _ =>
      Does.bind (Does.require _ _) fun _ => Does.pure _)
  | smsw o dst => exact run_guarded (storeReg_guarded _ _ _ lo16)
  | esc op ext rm => exact execEsc_guarded op ext rm
  | wait =>
    exact run_guarded (Does.bind Does.get fun _ => Does.bind (Does.require _ _) fun _ => Does.ite (Does.pure _)
      (Does.bind (Does.require _ _) fun _ => Does.pure _))
  | lock l => exact execLock_guarded l
  | xchg8 rm r => exact run_guarded (xchgByte_guarded rm r)
  | xchg o rm r => exact run_guarded (xchgWord_guarded o rm r)
  | nop => exact run_guarded (Does.pure _)
  | movRegImm dst v => exact run_guarded (changeEnd_guarded fun s => s.setRegSz_systemRegs _ _ _)
  | movReg8Imm dst v => exact run_guarded (changeEnd_guarded fun s => s.setReg8_systemRegs _ _)
  | movRmReg o dst src =>
    exact run_guarded (Does.bind (Does.look _) fun _ => Does.bind (writeRm_guarded _ _ _) fun _ => Does.pure _)
  | movRegRm o dst src =>
    exact run_guarded (Does.bind (guarded_stores.readRm _ _) fun _ =>
      changeEnd_guarded fun s => s.setRegSz_systemRegs _ _ _)
  | pushReg o src =>
    exact run_guarded (Does.bind (Does.look _) fun _ => Does.bind (push_guarded _ _) fun _ => Does.pure _)
  | popReg o dst =>
    exact run_guarded (Does.bind (guarded_stores.stackRead _ _) fun _ =>
      changeEnd_guarded fun _ => State.setRegSz_systemRegs _ _ _ _)
  | orEaxImm v => exact execOrEaxImm_guarded v
  | orAlImm v => exact execOrAlImm_guarded v
  | lldt | ltr | lmsw | clts | hlt | movRegCr | movCrReg | movRegDr | movDrReg | movRegTr | movTrReg => cases hi

/-- Settles O7: above level 0 a privileged instruction takes #GP(0), and any other leaves the registers of the system
alone. -/
theorem privilegedStateKept : Obligations.PrivilegedStateKept := by
  intro i s t hp hc h
  have kept : Guarded s t := by
    cases hi : privilegedInstr i with
    | true => exact takeException_guarded _ (privilegedDenied i s hi hp hc ▸ h)
    | false => exact exec_guarded hi h
  exact ⟨kept.gdtr, kept.idtr, kept.test, kept.dr0, kept.dr1, kept.dr2, kept.dr3, kept.dr6, kept.dr7, kept.cr0⟩

end Sys2Proof.Machine

/-! SUPPORT. The decoder reads what the encoder writes (30_encoding.md): field by field, then the prefixes, then every
instruction. -/

namespace Sys2Proof

/-! ## Fields of an encoding -/

@[simp] theorem Reg.ofNum_num (r : Reg) : Reg.ofNum r.num = r := by cases r <;> rfl

@[simp] theorem Reg8.ofNum_num (r : Reg8) : Reg8.ofNum r.num = r := by cases r <;> rfl

@[simp] theorem SegReg.ofNum_num (x : SegReg) : SegReg.ofNum x.num = some x := by cases x <;> rfl

@[simp] theorem Base16.ofNum_num (k : Base16) : Base16.ofNum k.num = k := by cases k <;> rfl

theorem indexOf_indexNum {x : Option Reg} (h : indexOk x = true) : indexOf (indexNum x) = x := by
  match x, h with
  | none, _ => rfl
  | some .eax, _ | some .ecx, _ | some .edx, _ | some .ebx, _ | some .ebp, _ | some .esi, _ | some .edi, _ => rfl

/-- The three fields of a ModR/M or SIB byte (rules R193, R194). -/
@[simp] theorem mod2_packModRm (m : BitVec 2) (n r : BitVec 3) : mod2 (packModRm m n r) = m := by
  revert m n r; decide

@[simp] theorem mid3_packModRm (m : BitVec 2) (n r : BitVec 3) : mid3 (packModRm m n r) = n := by
  revert m n r; decide

@[simp] theorem low3_packModRm (m : BitVec 2) (n r : BitVec 3) : low3 (packModRm m n r) = r := by
  revert m n r; decide

/-! ## Displacements and immediates -/

/-- A reader after one that has read its part. -/
theorem read_bind {α β : Type} {x : Except DecodeError α} {a : α} (h : x = .ok a)
    (f : α → Except DecodeError β) : (x >>= f) = f a := by rw [h]; rfl

section
variable (rest : List Byte)

theorem take16_bytes16 (v : BitVec 16) : take16 (bytes16 v ++ rest) = .ok (v, rest) := by
  have whole : lo16 (leWord (leBytes 2 (zx16 v))) = v := by
    ext i hi
    simp only [leBytes, leWord, lo16, zx16]
    interval_cases i <;> simp
  exact congrArg (fun w => Except.ok (w, rest)) whole

theorem take32_bytes32 (v : BitVec 32) : take32 (bytes32 v ++ rest) = .ok (v, rest) :=
  congrArg (fun w => Except.ok (w, rest)) (Machine.leWord_leBytes4 v)

theorem takeImm_bytes (v : Imm) : takeImm v.osz (v.bytes ++ rest) = .ok (v, rest) := by
  cases v with
  | i16 v => exact read_bind (take16_bytes16 rest v) _
  | i32 v => exact read_bind (take32_bytes32 rest v) _

theorem takeDisp32_bytes {d : Disp} (h : d.ok32 = true) : takeDisp32 d.mod (d.bytes ++ rest) = .ok (d, rest) := by
  cases d with
  | none => rfl
  | d8 v => rfl
  | d16 v => cases h
  | d32 v => exact read_bind (take32_bytes32 rest v) _

theorem takeDisp16_bytes {d : Disp} (h : d.ok16 = true) : takeDisp16 d.mod (d.bytes ++ rest) = .ok (d, rest) := by
  cases d with
  | none => rfl
  | d8 v => rfl
  | d16 v => exact read_bind (take16_bytes16 rest v) _
  | d32 v => cases h

end

theorem Disp.mod_eq_zero {d : Disp} : d.mod = 0 ↔ d = .none := by cases d <;> simp [Disp.mod]

theorem Disp.mod_ne_three (d : Disp) : d.mod ≠ 3 := by cases d <;> simp [Disp.mod]

/-! ## Effective addresses -/

/-- The `mod` field of an effective address (rule R193). -/
def Ea.mod : Ea → BitVec 2
  | .base _ d | .sib _ _ _ d | .mem16 _ d => d.mod
  | .abs32 _ | .sibAbs _ _ _ | .abs16 _ => 0

/-- The `rm` field of an effective address (rule R193). -/
def Ea.rm : Ea → BitVec 3
  | .base r _ => r.num
  | .abs32 _ => 5
  | .sib _ _ _ _ | .sibAbs _ _ _ => 4
  | .mem16 k _ => k.num
  | .abs16 _ => 6

/-- What follows the ModR/M byte of an effective address (rules R193, R194). -/
def Ea.tail : Ea → List Byte
  | .base _ d | .mem16 _ d => d.bytes
  | .abs32 a => bytes32 a
  | .sib s x b d => packModRm s (indexNum x) b.num :: d.bytes
  | .sibAbs s x a => packModRm s (indexNum x) 5 :: bytes32 a
  | .abs16 a => bytes16 a

theorem Ea.encode_eq (n : BitVec 3) (e : Ea) : e.encode n = packModRm e.mod n e.rm :: e.tail := by cases e <;> rfl

theorem Ea.mod_ne_three (e : Ea) : e.mod ≠ 3 := by
  cases e with
  | base r d => exact d.mod_ne_three
  | sib s x b d => exact d.mod_ne_three
  | mem16 k d => exact d.mod_ne_three
  | abs32 a => simp [Ea.mod]
  | sibAbs s x a => simp [Ea.mod]
  | abs16 a => simp [Ea.mod]

/-- The base registers that need no SIB byte, and a displacement where the base is EBP (rules R193, R194). -/
theorem Ea.wf_base {r : Reg} {d : Disp} (h : (Ea.base r d).wf = true) :
    d.ok32 = true ∧ r.num ≠ 4 ∧ (decide (r.num = 5) && decide (d.mod = 0)) = false := by
  cases r <;> cases d <;> simp_all [Ea.wf, Disp.ok32, Reg.num, Disp.mod]

theorem Ea.wf_sib {s : BitVec 2} {x : Option Reg} {b : Reg} {d : Disp} (h : (Ea.sib s x b d).wf = true) :
    d.ok32 = true ∧ indexOk x = true ∧ (decide (b.num = 5) && decide (d.mod = 0)) = false := by
  have five : b.num = 5 → b = .ebp := by cases b <;> simp [Reg.num]
  simp only [Ea.wf, Bool.and_eq_true, Bool.not_eq_true', Bool.and_eq_false_iff, beq_eq_false_iff_ne] at h
  obtain ⟨⟨hx, hd⟩, hb⟩ := h
  refine ⟨hd, hx, Bool.and_eq_false_iff.mpr (hb.imp ?_ ?_)⟩
  · exact fun n => decide_eq_false fun h5 => n (five h5)
  · exact fun n => decide_eq_false fun h0 => n (Disp.mod_eq_zero.mp h0)

theorem Ea.wf_mem16 {k : Base16} {d : Disp} (h : (Ea.mem16 k d).wf = true) :
    d.ok16 = true ∧ (decide (k.num = 6) && decide (d.mod = 0)) = false := by
  cases k <;> cases d <;> simp_all [Ea.wf, Disp.ok16, Base16.num, Disp.mod]

/-- A 32-bit effective address is read back (rules R193, R194). -/
theorem takeEa32_tail {e : Ea} (h : e.wf = true) (ha : e.asz = .a32) (rest : List Byte) :
    takeEa32 e.mod e.rm (e.tail ++ rest) = .ok (e, rest) := by
  cases e with
  | base r d =>
    obtain ⟨hd, h4, h5⟩ := Ea.wf_base h
    refine (if_neg h4).trans ((if_neg (Bool.eq_false_iff.mp h5)).trans ?_)
    exact (read_bind (takeDisp32_bytes rest hd) _).trans (by simp [Ea.rm])
  | abs32 a => exact read_bind (take32_bytes32 rest a) _
  | sib s x b d =>
    obtain ⟨hd, hx, h5⟩ := Ea.wf_sib h
    refine (if_pos rfl).trans ((if_neg (by rw [low3_packModRm]; exact Bool.eq_false_iff.mp h5)).trans ?_)
    exact (read_bind (takeDisp32_bytes rest hd) _).trans (by simp [indexOf_indexNum hx])
  | sibAbs s x a =>
    refine (if_pos rfl).trans ((if_pos (by simp [Ea.mod])).trans ?_)
    exact (read_bind (take32_bytes32 rest a) _).trans (by simp [indexOf_indexNum h])
  | mem16 k d => cases ha
  | abs16 a => cases ha

/-- A 16-bit effective address is read back (rule R193). -/
theorem takeEa16_tail {e : Ea} (h : e.wf = true) (ha : e.asz = .a16) (rest : List Byte) :
    takeEa16 e.mod e.rm (e.tail ++ rest) = .ok (e, rest) := by
  cases e with
  | mem16 k d =>
    obtain ⟨hd, h6⟩ := Ea.wf_mem16 h
    refine (if_neg (Bool.eq_false_iff.mp h6)).trans ?_
    exact (read_bind (takeDisp16_bytes rest hd) _).trans (by simp [Ea.rm])
  | abs16 a => exact read_bind (take16_bytes16 rest a) _
  | base r d => cases ha
  | abs32 a => cases ha
  | sib s x b d => cases ha
  | sibAbs s x a => cases ha

/-! ## Operands -/

/-- A ModR/M operand before its encoding: the register number is not yet read as one of a size (rule R193). -/
def Rm.num : Rm → RmNum
  | .reg r => .reg r.num
  | .mem m => .mem m

def Rm8.num : Rm8 → RmNum
  | .reg r => .reg r.num
  | .mem m => .mem m

@[simp] theorem Rm.rm_num (o : Rm) : o.num.rm = o := by
  cases o with
  | reg r => exact congrArg Rm.reg (Reg.ofNum_num r)
  | mem m => rfl

@[simp] theorem Rm8.rm8_num (o : Rm8) : o.num.rm8 = o := by
  cases o with
  | reg r => exact congrArg Rm8.reg (Reg8.ofNum_num r)
  | mem m => rfl

/-- The bytes of an operand, its ModR/M byte first (rule R193). -/
def RmNum.encode (n : BitVec 3) : RmNum → List Byte
  | .reg r => [packModRm 3 n r]
  | .mem m => m.ea.encode n

theorem Rm.encode_num (n : BitVec 3) (o : Rm) : o.encode n = o.num.encode n := by cases o <;> rfl

theorem Rm8.encode_num (n : BitVec 3) (o : Rm8) : o.encode n = o.num.encode n := by cases o <;> rfl

/-- Operands that some encoding denotes. -/
def RmNum.wf : RmNum → Bool
  | .reg _ => true
  | .mem m => m.wf

theorem Rm.wf_num (o : Rm) : o.num.wf = o.wf := by cases o <;> rfl

theorem Rm8.wf_num (o : Rm8) : o.num.wf = o.wf := by cases o <;> rfl

/-- The override an operand is read under. -/
def RmNum.ovr : RmNum → Option SegReg
  | .reg _ => none
  | .mem m => m.ovr

/-- The address size an operand is read under: a register needs none but the default of the segment (rule R192). -/
def RmNum.asz (d : Bool) : RmNum → AddrSize
  | .reg _ => aszOf d false
  | .mem m => m.ea.asz

/-- The sizes and the override an operand is read under, with a given operand size, in a segment whose D bit is `d`. -/
def RmNum.ctx (d : Bool) (o : OpSize) (x : RmNum) : Ctx := { osz := o, asz := x.asz d, ovr := x.ovr }

/-- An operand is read back under its own sizes and override, after its ModR/M byte, which holds `n` too. -/
theorem takeOperand_encode {x : RmNum} (h : x.wf = true) (d : Bool) (o : OpSize) (n : BitVec 3) :
    ∃ b bs, x.encode n = b :: bs ∧ mid3 b = n ∧ ∀ rest, takeOperand (x.ctx d o) b (bs ++ rest) = .ok (x, rest) := by
  cases x with
  | reg r =>
    exact ⟨_, _, rfl, mid3_packModRm _ _ _, fun rest => by simp [takeOperand]⟩
  | mem m =>
    refine ⟨_, _, m.ea.encode_eq n, mid3_packModRm _ _ _, fun rest => ?_⟩
    obtain ⟨ovr, e⟩ := m
    refine (if_neg (by simpa using e.mod_ne_three)).trans ?_
    simp only [mod2_packModRm, low3_packModRm, RmNum.ctx, RmNum.asz, RmNum.ovr]
    cases ha : e.asz with
    | a32 => exact read_bind (takeEa32_tail h ha rest) _
    | a16 => exact read_bind (takeEa16_tail h ha rest) _

section
variable {x : RmNum} (hx : x.wf = true) (d : Bool) (o : OpSize) (n : BitVec 3) (rest : List Byte)
include hx

theorem takeModRm_encode : takeModRm (x.ctx d o) (x.encode n ++ rest) = .ok ((n, x), rest) := by
  obtain ⟨b, bs, he, hn, hr⟩ := takeOperand_encode hx d o n
  rw [he, ← hn]
  exact read_bind (hr rest) _

theorem withModRm_encode {i : Instr} {f : BitVec 3 → RmNum → Except DecodeError Instr} (hf : f n x = .ok i) :
    withModRm (x.ctx d o) (x.encode n ++ rest) f = .ok (i, rest) :=
  (read_bind (takeModRm_encode hx d o n rest) _).trans (read_bind hf _)

end

section
variable {rm : Rm} (h : rm.wf = true) (d : Bool) (o : OpSize) (rest : List Byte)
include h

theorem withRm_encode (r : Reg) (f : Reg → Rm → Instr) :
    withRm (rm.num.ctx d o) (rm.encode r.num ++ rest) f = .ok (f r rm, rest) := by
  rw [rm.encode_num]
  exact withModRm_encode (rm.wf_num.trans h) d o _ rest (by simp)

theorem withGroup_encode {n : BitVec 3} {f : Nat → Except DecodeError (Rm → Instr)} {g : Rm → Instr}
    (hf : f n.toNat = .ok g) : withGroup (rm.num.ctx d o) (rm.encode n ++ rest) f = .ok (g rm, rest) := by
  obtain ⟨b, bs, he, hn, hr⟩ := takeOperand_encode (rm.wf_num.trans h) d o n
  rw [rm.encode_num, he, List.cons_append, withGroup, hn, hf]
  exact (read_bind (hr rest) _).trans (by simp)

end

/-! ## Prefixes -/

/-- Bytes that stand before an opcode and change what the prefixes select from `p` to `q` (rules R191, R192). -/
def Selects (pre : List Byte) (p q : PrefixSet) : Prop := ∀ bs, readPrefixes p (pre ++ bs) = readPrefixes q bs

theorem Selects.append {xs ys : List Byte} {p q r : PrefixSet} (h : Selects xs p q) (k : Selects ys q r) :
    Selects (xs ++ ys) p r := fun bs => by rw [List.append_assoc, h, k]

theorem selects_oszByte (d : Bool) (o : OpSize) {p : PrefixSet} (h : p.osz = false) :
    Selects (oszByte d o) p { p with osz := o != oszOf d false } := by
  obtain ⟨x, _, a, l, r⟩ := p
  cases h
  cases d <;> cases o <;> exact fun _ => rfl

theorem selects_aszByte (d : Bool) (a : AddrSize) {p : PrefixSet} (h : p.asz = false) :
    Selects (aszByte d a) p { p with asz := a != aszOf d false } := by
  obtain ⟨x, o, _, l, r⟩ := p
  cases h
  cases d <;> cases a <;> exact fun _ => rfl

theorem selects_ovrByte (x : Option SegReg) {p : PrefixSet} (h : p.ovr = none) :
    Selects (ovrByte x) p { p with ovr := x } := by
  obtain ⟨_, o, a, l, r⟩ := p
  cases h
  match x with
  | none | some .es | some .cs | some .ss | some .ds | some .fs | some .gs => exact fun _ => rfl

/-- What the prefixes must select for an opcode to be read in a given context (rule R192). -/
def Ctx.prefixes (c : Ctx) (d lock : Bool) (rep : Option RepByte) : PrefixSet :=
  { ovr := c.ovr, osz := c.osz != oszOf d false, asz := c.asz != aszOf d false, lock := lock, rep := rep }

theorem Ctx.prefixes_ctx (c : Ctx) (d lock : Bool) (rep : Option RepByte) : (c.prefixes d lock rep).ctx d = c := by
  obtain ⟨o, a, x⟩ := c
  cases d <;> cases o <;> cases a <;> rfl

/-- The size and override bytes of a context, in the encoder's order. -/
def Ctx.bytes (c : Ctx) (d : Bool) : List Byte := oszByte d c.osz ++ (ovrByte c.ovr ++ aszByte d c.asz)

theorem Ctx.selects_bytes (c : Ctx) (d lock : Bool) (rep : Option RepByte) :
    Selects (c.bytes d) { lock := lock, rep := rep } (c.prefixes d lock rep) :=
  (selects_oszByte d c.osz rfl).append ((selects_ovrByte c.ovr rfl).append (selects_aszByte d c.asz rfl))

theorem RmNum.ctx_mem_bytes (d : Bool) (o : OpSize) (m : MemOp) :
    ((RmNum.mem m).ctx d o).bytes d = oszByte d o ++ m.bytes d := rfl

theorem Rm.ctx_bytes (d : Bool) (o : OpSize) (rm : Rm) : (rm.num.ctx d o).bytes d = oszByte d o ++ rm.bytes d := by
  cases rm with
  | reg r => cases d <;> rfl
  | mem m => rfl

theorem Rm8.ctx_bytes (d : Bool) (o : OpSize) (rm : Rm8) : (rm.num.ctx d o).bytes d = oszByte d o ++ rm.bytes d := by
  cases rm with
  | reg r => cases d <;> rfl
  | mem m => rfl

theorem oszByte_default (d : Bool) : oszByte d (oszOf d false) = [] := if_pos rfl

theorem aszByte_default (d : Bool) : aszByte d (aszOf d false) = [] := if_pos rfl

/-! ## Instructions -/

/-- What the prefixes before a byte are does not decide whether it is one too (rule R192). -/
theorem add_eq_none {p : PrefixSet} {b : Byte} (h : ({} : PrefixSet).add b = none) : p.add b = none := by
  unfold PrefixSet.add at h ⊢
  split at h
  all_goals cases h
  rfl

/-- The decoder gives an instruction back from what the encoder writes, whatever follows. -/
def Decodes (d : Bool) (i : Instr) : Prop :=
  ∀ rest, decode d (encode d i ++ rest) = .ok (i, (encode d i).length)

section
variable {d : Bool} {i : Instr} {op : Byte} {body : List Byte} (hop : ({} : PrefixSet).add op = none)
include hop

theorem decodes_of_selects {pre : List Byte} {p : PrefixSet} (hp : Selects pre {} p)
    (he : encode d i = pre ++ op :: body)
    (h : ∀ rest, decodeAfter p d op (body ++ rest) = .ok (i, rest)) : Decodes d i := by
  intro rest
  have prefixes : readPrefixes {} (encode d i ++ rest) = (p, op :: (body ++ rest)) := by
    rw [he, List.append_assoc, hp, List.cons_append, readPrefixes, add_eq_none hop]
  rw [decode, prefixes]
  simp only [h rest, List.length_append, Nat.add_sub_cancel]

/-- An instruction that needs prefixes for its sizes and override alone. -/
theorem decodes_of_ctx (c : Ctx) (he : encode d i = c.bytes d ++ op :: body)
    (h : ∀ rest, decodeOp c op (body ++ rest) = .ok (i, rest)) : Decodes d i := by
  refine decodes_of_selects hop (c.selects_bytes d false none) he fun rest => ?_
  refine Eq.trans ?_ (h rest)
  exact congrArg (decodeOp · op (body ++ rest)) (c.prefixes_ctx d false none)

/-- An instruction after REP (rule R381). -/
theorem decodes_of_rep (c : Ctx) (he : encode d i = [0xF3] ++ c.bytes d ++ op :: body)
    (h : ∀ rest, decodeRep c op (body ++ rest) = .ok (i, rest)) : Decodes d i := by
  have before : Selects [0xF3] {} { rep := some .rep } := fun _ => rfl
  refine decodes_of_selects hop (before.append (c.selects_bytes d false (some .rep))) he fun rest => ?_
  refine Eq.trans ?_ (h rest)
  exact congrArg (decodeRep · op (body ++ rest)) (c.prefixes_ctx d false (some .rep))

/-- An instruction after LOCK (rule R480). -/
theorem decodes_of_lock (c : Ctx) (he : encode d i = [0xF0] ++ c.bytes d ++ op :: body)
    (h : ∀ rest, decodeLock c op (body ++ rest) = .ok (i, rest)) : Decodes d i := by
  have before : Selects [0xF0] {} { lock := true } := fun _ => rfl
  refine decodes_of_selects hop (before.append (c.selects_bytes d true none)) he fun rest => ?_
  refine Eq.trans ?_ (h rest)
  exact congrArg (decodeLock · op (body ++ rest)) (c.prefixes_ctx d true none)

theorem decodes_plain (he : encode d i = op :: body) (h : ∀ c rest, decodeOp c op (body ++ rest) = .ok (i, rest)) :
    Decodes d i := by
  refine decodes_of_ctx hop { osz := oszOf d false, asz := aszOf d false, ovr := none } ?_ (h _)
  rw [he, Ctx.bytes, oszByte_default, aszByte_default]
  rfl

theorem decodes_sized {o : OpSize} (he : encode d i = oszByte d o ++ op :: body)
    (h : ∀ a x rest, decodeOp { osz := o, asz := a, ovr := x } op (body ++ rest) = .ok (i, rest)) : Decodes d i := by
  refine decodes_of_ctx hop { osz := o, asz := aszOf d false, ovr := none } ?_ (h _ _)
  rw [he, Ctx.bytes, aszByte_default]
  simp [ovrByte]

/-- An instruction with an operand size and a ModR/M operand. -/
theorem decodes_rmSz {o : OpSize} {n : BitVec 3} {rm : Rm} (he : encode d i = encRmSz d o (op :: body) n rm)
    (h : ∀ rest, decodeOp (rm.num.ctx d o) op (body ++ (rm.encode n ++ rest)) = .ok (i, rest)) : Decodes d i := by
  refine decodes_of_ctx hop (rm.num.ctx d o) (body := body ++ rm.encode n) ?_ fun rest => ?_
  · rw [he, encRmSz, encRm, rm.ctx_bytes]
    simp only [List.append_assoc, List.cons_append]
  · rw [List.append_assoc]
    exact h rest

theorem decodes_rm {n : BitVec 3} {rm : Rm} (he : encode d i = encRm d (op :: body) n rm)
    (h : ∀ rest, decodeOp (rm.num.ctx d (oszOf d false)) op (body ++ (rm.encode n ++ rest)) = .ok (i, rest)) :
    Decodes d i :=
  decodes_rmSz hop (o := oszOf d false) (by rw [he, encRmSz, oszByte_default, List.nil_append]) h

end

/-! ### Registers and escape numbers in the opcode -/

section
variable (c : Ctx) (bs : List Byte)

theorem decodeOp_pushReg (r : Reg) : decodeOp c (plusReg 0x50 r.num) bs = .ok (.pushReg c.osz r, bs) := by
  cases r <;> rfl

theorem decodeOp_popReg (r : Reg) : decodeOp c (plusReg 0x58 r.num) bs = .ok (.popReg c.osz r, bs) := by
  cases r <;> rfl

theorem decodeOp_movReg8Imm (r : Reg8) : decodeOp c (plusReg 0xB0 r.num) bs = withImm8 bs (.movReg8Imm r) := by
  cases r <;> rfl

theorem decodeOp_movRegImm (r : Reg) : decodeOp c (plusReg 0xB8 r.num) bs = withImm c bs (.movRegImm r) := by
  cases r <;> rfl

theorem esc_no_prefix : ∀ op : BitVec 3, ({} : PrefixSet).add (plusReg 0xD8 op) = none := by decide

theorem decodeOp_esc (op : BitVec 3) :
    decodeOp c (plusReg 0xD8 op) bs = withModRm c bs fun n o => .ok (.esc op n o.rm) := by
  have group : (plusReg 0xD8 op).toNat / 8 = 0x1B := by revert op; decide
  have number : low3 (plusReg 0xD8 op) = op := by revert op; decide
  unfold decodeOp
  simp only [group, number]

end

/-! ### Immediates -/

section
variable (rest : List Byte)

theorem withImm_bytes (a : AddrSize) (x : Option SegReg) (v : Imm) (f : Imm → Instr) :
    withImm { osz := v.osz, asz := a, ovr := x } (v.bytes ++ rest) f = .ok (f v, rest) :=
  read_bind (takeImm_bytes rest v) _

theorem withImm16_bytes (v : BitVec 16) (f : BitVec 16 → Instr) : withImm16 (bytes16 v ++ rest) f = .ok (f v, rest) :=
  read_bind (take16_bytes16 rest v) _

theorem takeFar_bytes (off : Imm) (sel : BitVec 16) (f : Imm → BitVec 16 → Instr) :
    takeFar off.osz (off.bytes ++ bytes16 sel ++ rest) f = .ok (f off sel, rest) := by
  rw [List.append_assoc]
  exact (read_bind (takeImm_bytes _ off) _).trans (read_bind (take16_bytes16 rest sel) _)

/-- MOV to or from a special register (rule R202). -/
theorem withSpecial_encode (n : BitVec 3) (r : Reg) (f : Reg → BitVec 3 → Instr) :
    withSpecial (packModRm 3 n r.num :: rest) f = .ok (f r n, rest) :=
  (read_bind rfl _).trans (by simp)

end

/-! ### Every instruction -/

section
variable (d : Bool)

theorem decodes_rep (t : RepTarget) : Decodes d (.rep t) := by
  cases t with
  | insb a =>
    exact decodes_of_rep (op := 0x6C) (body := []) rfl { osz := oszOf d false, asz := a, ovr := none }
      (by simp [encode, Ctx.bytes, oszByte_default, ovrByte]) fun _ => rfl
  | ins o a =>
    exact decodes_of_rep (op := 0x6D) (body := []) rfl { osz := o, asz := a, ovr := none }
      (by simp [encode, Ctx.bytes, ovrByte]) fun _ => rfl
  | outsb a x =>
    exact decodes_of_rep (op := 0x6E) (body := []) rfl { osz := oszOf d false, asz := a, ovr := x }
      (by simp [encode, Ctx.bytes, oszByte_default]) fun _ => rfl
  | outs o a x =>
    exact decodes_of_rep (op := 0x6F) (body := []) rfl { osz := o, asz := a, ovr := x }
      (by simp [encode, Ctx.bytes]) fun _ => rfl
  | application =>
    exact decodes_of_selects (pre := [0xF3]) (body := []) rfl (p := { rep := some .rep }) (fun _ => rfl) rfl fun _ => rfl

theorem decodes_lock {t : LockTarget} (h : t.wf = true) : Decodes d (.lock t) := by
  cases t with
  | xchg8 m r =>
    refine decodes_of_lock (op := 0x86) (body := m.ea.encode r.num) rfl ((RmNum.mem m).ctx d (oszOf d false))
      (by simp [encode, RmNum.ctx_mem_bytes, oszByte_default]) fun rest => ?_
    exact (read_bind (takeModRm_encode (x := .mem m) h d _ r.num rest) _).trans (by simp)
  | xchg o m r =>
    refine decodes_of_lock (op := 0x87) (body := m.ea.encode r.num) rfl ((RmNum.mem m).ctx d o)
      (by simp [encode, RmNum.ctx_mem_bytes]) fun rest => ?_
    exact (read_bind (takeModRm_encode (x := .mem m) h d o r.num rest) _).trans (by simp [RmNum.ctx])
  | application =>
    exact decodes_of_selects (pre := [0xF0]) (body := [0]) rfl (p := { lock := true }) (fun _ => rfl) rfl fun _ => rfl
  | illegal =>
    exact decodes_of_selects (pre := [0xF0]) (body := []) rfl (p := { lock := true }) (fun _ => rfl) rfl fun _ => rfl

/-- What the encoder writes for a well-formed instruction is read back, operand form by operand form. -/
theorem decodes_encode {i : Instr} (h : i.wf = true) : Decodes d i := by
  cases i with
  | arpl rm r => exact decodes_rm rfl rfl (withRm_encode h d _ · r fun r x => .arpl x r)
  | xchg o rm r => exact decodes_rmSz rfl rfl (withRm_encode h d o · r fun r x => .xchg o x r)
  | movRmReg o rm r => exact decodes_rmSz rfl rfl (withRm_encode h d o · r fun r x => .movRmReg o x r)
  | lar o r rm | lsl o r rm | lds o r rm | les o r rm | lss o r rm | lfs o r rm | lgs o r rm | bound o r rm
  | movRegRm o r rm => exact decodes_rmSz rfl rfl (withRm_encode h d o · r _)
  | verr rm | verw rm | lldt rm | ltr rm | lmsw rm => exact decodes_rm rfl rfl (withGroup_encode h d _ · rfl)
  | sldt o rm | str o rm | sgdt o rm | sidt o rm | lgdt o rm | lidt o rm | smsw o rm
  | jmpRm o rm | jmpFarM o rm | callRm o rm | callFarM o rm =>
    exact decodes_rmSz rfl rfl (withGroup_encode h d o · rfl)
  | movRmSreg o rm x =>
    refine decodes_rmSz rfl rfl fun rest => ?_
    refine withGroup_encode h d o rest (f := movRmSregOf o) (g := (.movRmSreg o · x)) ?_
    cases x <;> rfl
  | movSregRm n rm =>
    refine decodes_rm rfl rfl fun rest => ?_
    rw [rm.encode_num]
    exact withModRm_encode (rm.wf_num.trans h) d _ n rest (by simp [movSregOf])
  | esc op n rm =>
    refine decodes_rm (esc_no_prefix op) rfl fun rest => ?_
    rw [decodeOp_esc, rm.encode_num]
    exact withModRm_encode (rm.wf_num.trans h) d _ n rest (by simp)
  | xchg8 rm r =>
    refine decodes_of_ctx (op := 0x86) (body := rm.encode r.num) rfl (rm.num.ctx d (oszOf d false)) ?_ fun rest => ?_
    · simp [encode, rm.ctx_bytes, oszByte_default]
    · rw [rm.encode_num]
      exact withModRm_encode (rm.wf_num.trans h) d _ r.num rest
        (f := fun n o => .ok (.xchg8 o.rm8 (Reg8.ofNum n))) (by simp)
  | popEs o | popSs o | popDs o | popFs o | popGs o | pushEs o | pushCs o | pushSs o | pushDs o | pushFs o | pushGs o
  | ret o | retFar o | inEaxDx o | outDxEax o | pushf o | popf o | iret o =>
    exact decodes_sized rfl rfl fun _ _ _ => rfl
  | jmpRel8 o v | inEaxImm o v | outImmEax o v => exact decodes_sized rfl rfl fun _ _ _ => rfl
  | jmpRel v | callRel v | orEaxImm v =>
    exact decodes_sized rfl (List.append_assoc _ _ _) fun a x rest => withImm_bytes rest a x v _
  | retImm o n | retFarImm o n =>
    exact decodes_sized rfl (List.append_assoc _ _ _) fun _ _ rest => withImm16_bytes rest n _
  | jmpFar off sel | callFar off sel =>
    refine decodes_sized rfl ((List.append_assoc _ _ _).trans (List.append_assoc _ _ _)) fun _ _ rest => ?_
    exact takeFar_bytes rest off sel _
  | movRegImm r v =>
    refine decodes_sized (by cases r <;> rfl) (List.append_assoc _ _ _) fun a x rest => ?_
    exact (decodeOp_movRegImm _ _ r).trans (withImm_bytes rest a x v (.movRegImm r))
  | movReg8Imm r v => exact decodes_plain (by cases r <;> rfl) rfl fun c rest => decodeOp_movReg8Imm c _ r
  | pushReg o r => exact decodes_sized (by cases r <;> rfl) rfl fun _ _ rest => decodeOp_pushReg _ rest r
  | popReg o r => exact decodes_sized (by cases r <;> rfl) rfl fun _ _ rest => decodeOp_popReg _ rest r
  | insb a =>
    exact decodes_of_ctx (op := 0x6C) (body := []) rfl { osz := oszOf d false, asz := a, ovr := none }
      (by simp [encode, Ctx.bytes, oszByte_default, ovrByte]) fun _ => rfl
  | ins o a =>
    exact decodes_of_ctx (op := 0x6D) (body := []) rfl { osz := o, asz := a, ovr := none }
      (by simp [encode, Ctx.bytes, ovrByte]) fun _ => rfl
  | outsb a x =>
    exact decodes_of_ctx (op := 0x6E) (body := []) rfl { osz := oszOf d false, asz := a, ovr := x }
      (by simp [encode, Ctx.bytes, oszByte_default]) fun _ => rfl
  | outs o a x =>
    exact decodes_of_ctx (op := 0x6F) (body := []) rfl { osz := o, asz := a, ovr := x }
      (by simp [encode, Ctx.bytes]) fun _ => rfl
  | rep t => exact decodes_rep d t
  | lock t => exact decodes_lock d h
  | movRegCr r n | movRegDr r n | movRegTr r n =>
    exact decodes_plain rfl rfl fun _ rest => withSpecial_encode rest n r _
  | movCrReg n r => exact decodes_plain rfl rfl fun _ rest => withSpecial_encode rest n r fun r n => .movCrReg n r
  | movDrReg n r => exact decodes_plain rfl rfl fun _ rest => withSpecial_encode rest n r fun r n => .movDrReg n r
  | movTrReg n r => exact decodes_plain rfl rfl fun _ rest => withSpecial_encode rest n r fun r n => .movTrReg n r
  | inAlImm v | outImmAl v | intN v | orAlImm v => exact decodes_plain rfl rfl fun _ _ => rfl
  | inAlDx | outDxAl | cli | sti | int3 | into | clts | hlt | wait | nop => exact decodes_plain rfl rfl fun _ _ => rfl

end

/-- Settles O8: every well-formed instruction is one that `Decodes`. -/
theorem decodeEncode : Obligations.DecodeEncode := fun d _ rest h => decodes_encode d h rest

/-- Settles O9, word by word. -/
theorem decodeWords : Obligations.DecodeWords := ⟨rfl, rfl, rfl, rfl, rfl, rfl, rfl, rfl⟩

end Sys2Proof

/-! SUPPORT. Segment registers, table registers, the stack and the auxiliary instructions: what each body does once its
operand is there, and what it leaves unchanged. -/

namespace Sys2Proof.Machine

/-! ## Operands and pushes -/

section
variable {s s1 : State} {w : Win}

/-- A value stored in the window of an operand touches no register, and no byte outside the window. -/
theorem memWindow_put_accessed {m : MemOp} {k : Word} {n : Nat} (h : memWindow m k n true s = .ok w s1) (v : Word) :
    Accessed w.phys s (s1.put w v) :=
  (Accessed.ofReadOnly ((readOnly_access.memWindow m k n true).ok h) _).trans (put_accessed (memWindow_phys h).1 s1 v)

theorem writeRm_mem {o : OpSize} {m : MemOp} (h : memWindow m 0 o.bytes true s = .ok w s1) (v : Word) :
    writeRm o (.mem m) v s = .ok () (s1.put w v) :=
  (bind_ok h).trans rfl

/-- A push of one value: its slot is written and the stack pointer moves (rule R216). -/
theorem push_run {n : Nat} (h : preparePushes true [n] s = .ok [w] s1) (v : Word) :
    push n v s = .ok () ((s1.put w v).moveSp (-(BitVec.ofNat 32 n))) :=
  (bind_ok h).trans rfl

theorem preparePushes_puts_accessed {ns : List Nat} {ws : List Win} (h : preparePushes true ns s = .ok ws s1)
    (vs : List Word) : Accessed (ws.flatMap (·.phys)) s (s1.puts ws vs) :=
  (Accessed.ofReadOnly ((readOnly_access.preparePushes true ns).ok h) _).trans
    (puts_accessed (preparePushes_phys h).1 vs s1)

theorem retWord_one (o : OpSize) : retWord o 1 = BitVec.ofNat 32 o.bytes := by rw [retWord, Nat.one_mul]

end

/-! ## Auxiliary instructions -/

/-- Each flag after OR (rule R215): the six status flags, and the others as they were. -/
theorem getLsbD_orFlags (old r : Word) (w : Nat) (af : Bool) (k : Nat) :
    (orFlags old r w af).getLsbD k =
      if 4 = k then af else if 2 = k then evenParity (r.truncate 8) else if 6 = k then r.extractLsb' 0 w == 0
      else if 7 = k then r.getLsbD (w - 1) else if 0 = k then false else if 11 = k then false
      else old.getLsbD k := by
  simp only [orFlags, bitAF, bitPF, bitZF, bitSF, bitCF, bitOF]
  simp only [getLsbD_setBit (by decide : 4 < 32), getLsbD_setBit (by decide : 2 < 32),
    getLsbD_setBit (by decide : 6 < 32), getLsbD_setBit (by decide : 7 < 32), getLsbD_setBit (by decide : 0 < 32),
    getLsbD_setBit (by decide : 11 < 32)]


/-- What OR of result `r` and width `w` says of the flags `fl` it leaves of `old` (rule R215): AF is free. -/
theorem orFlags_spec (old r : Word) (w : Nat) (af : Bool) :
    (∀ k, k ∉ [0, 2, 4, 6, 7, 11] → (orFlags old r w af).getLsbD k = old.getLsbD k) ∧
      (orFlags old r w af).getLsbD 0 = false ∧ (orFlags old r w af).getLsbD 11 = false ∧
      (orFlags old r w af).getLsbD 7 = r.getLsbD (w - 1) ∧
      (orFlags old r w af).getLsbD 6 = (r.extractLsb' 0 w == 0) ∧
      (orFlags old r w af).getLsbD 2 = evenParity (r.truncate 8) := by
  refine ⟨fun k hk => ?_, ?_, ?_, ?_, ?_, ?_⟩ <;> rw [getLsbD_orFlags]
  · simp only [List.mem_cons, List.not_mem_nil, or_false, not_or] at hk
    simp [hk, eq_comm]
  all_goals rfl

/-- A result that fits its width is zero where the bits of the width are. -/
theorem extractLsb'_beq_zero {r : Word} {w : Nat} (h : r.toNat < 2 ^ w) : (r.extractLsb' 0 w == 0) = decide (r = 0) := by
  rw [Bool.eq_iff_iff, beq_iff_eq, decide_eq_true_eq, BitVec.toNat_eq, BitVec.toNat_eq, BitVec.extractLsb'_toNat,
    Nat.shiftRight_zero, Nat.mod_eq_of_lt h]
  rfl

theorem extractLsb'_zeroExtend (x : Byte) : (x.zeroExtend 32).extractLsb' 0 8 = x := by
  ext i hi
  simp [hi, Nat.lt_trans hi]

theorem zx16_lt (v : BitVec 16) : (zx16 v).toNat < 2 ^ 16 := by simp [zx16]; omega

/-- The result of OR fits the operand size. -/
theorem regSz_or_lt (s : State) (r : Reg) (v : Imm) : (s.regSz v.osz r ||| v.word).toNat < 2 ^ (8 * v.osz.bytes) := by
  cases v with
  | i16 v => exact Nat.or_lt_two_pow (zx16_lt _) (zx16_lt v)
  | i32 v => exact BitVec.isLt _

/-- Settles O59. -/
theorem auxiliaryInstructions : Obligations.AuxiliaryInstructions := by
  intro s
  refine ⟨rfl, fun r v => rfl, fun r v => rfl, fun o q r => rfl, fun o m r w s1 h => ?_,
    fun o r src v s1 h => ?_, fun v => ?_, fun v => ?_⟩
  · exact ⟨run_ok ((bind_ok (look_run s _)).trans (bind_ok (writeRm_mem h _))), memWindow_put_accessed h _⟩
  · exact ⟨run_ok (bind_ok h), (readOnly_access.readRm o src).ok h⟩
  · obtain ⟨kept, cf, of, sf, zf, pf⟩ := orFlags_spec s.eflags (s.regSz v.osz .eax ||| v.word) (8 * v.osz.bytes)
      ((Config.freeWord s.draws).getLsbD bitAF)
    refine ⟨_, rfl, kept, cf, of, sf, zf.trans (extractLsb'_beq_zero (regSz_or_lt s .eax v)), pf⟩
  · obtain ⟨kept, cf, of, sf, zf, pf⟩ := orFlags_spec s.eflags ((s.reg8 .al ||| v).zeroExtend 32) 8
      ((Config.freeWord s.draws).getLsbD bitAF)
    refine ⟨_, rfl, kept, cf, of, sf.trans (by simp), zf.trans ?_, pf.trans (by simp)⟩
    rw [extractLsb'_zeroExtend]
    rfl

/-! ## ARPL -/

/-- The selector that ARPL leaves where the source's RPL is larger (rule R222). -/
theorem arplAdjust_of_lt {d r : BitVec 16} (h : rpl d < rpl r) : arplAdjust d r = withRpl d (rpl r) := by
  rw [arplAdjust, maxLevel, if_pos h]

section
variable {dst : Rm} {src : Reg} {s s1 : State} {d : BitVec 16} (hp : s.pe = true) (operand : readRm16 dst s = .ok d s1)
include hp operand

/-- A destination whose RPL is not below the source's is left alone (rule R222). -/
theorem exec_arpl_keeps (h : rpl (lo16 (s.reg src)) ≤ rpl d) :
    exec (.arpl dst src) s = .next (s.retires (s1.withZf false)) := by
  have reg := ((readOnly_access.readRm16 dst).ok operand).1.reg src
  refine run_ok ((bind_ok (protectedOnly_ok hp)).trans ((bind_ok operand).trans ((bind_ok (look_run s1 _)).trans ?_)))
  rw [reg, if_neg (BitVec.not_lt.mpr h)]
  rfl

/-- A destination whose RPL is below the source's is written (rule R222). -/
theorem exec_arpl_writes {t : State} (h : rpl d < rpl (lo16 (s.reg src)))
    (write : writeRm .w16 dst (zx16 (withRpl d (rpl (lo16 (s.reg src))))) s1 = .ok () t) :
    exec (.arpl dst src) s = .next (s.retires (t.withZf true)) := by
  have reg := ((readOnly_access.readRm16 dst).ok operand).1.reg src
  refine run_ok ((bind_ok (protectedOnly_ok hp)).trans ((bind_ok operand).trans ((bind_ok (look_run s1 _)).trans ?_)))
  rw [reg, if_pos h, arplAdjust_of_lt h, bind_ok write]
  rfl

end

/-- Settles O16: the two outcomes of the test, and the write in a register or in memory. -/
theorem arplAdjustsRpl : Obligations.ArplAdjustsRpl := by
  refine ⟨fun dst src s => exec_protectedInstr rfl, fun dst src s s1 d hp operand => ?_⟩
  have read := (readOnly_access.readRm16 dst).ok operand
  refine ⟨read, exec_arpl_keeps hp operand, ?_, ?_⟩
  · rintro lt q rfl
    exact exec_arpl_writes hp operand lt rfl
  · rintro lt m w s2 rfl h
    exact ⟨exec_arpl_writes hp operand lt (writeRm_mem (o := .w16) h _),
      (Accessed.ofReadOnly read _).trans (memWindow_put_accessed h _)⟩

/-! ## LGDT and LIDT -/

/-- A pseudo-descriptor read: the limit, then the base (rules R236, R238). -/
theorem readPseudo_ok {o : OpSize} {m : MemOp} {l b : Word} {s s1 s2 : State} (limit : memRead m 0 2 s = .ok l s1)
    (base : memRead m 2 4 s1 = .ok b s2) : readPseudo o m s =
      .ok { base := if o = .w16 then b &&& 0xFFFFFF#32 else b, limit := lo16 l } s2 := by
  refine (bind_ok limit).trans ((bind_ok base).trans ?_)
  cases o <;> rfl

/-- Settles O22: past the test of the level both instructions read a pseudo-descriptor. -/
theorem tableLoads : Obligations.TableLoads := by
  intro o s
  refine ⟨fun q => ⟨rfl, rfl⟩, fun m l b s1 s2 level limit base => ?_⟩
  have table := readPseudo_ok (o := o) limit base
  have loads : ∀ f : TableReg → State → State,
      run (do let m ← memOnly (.mem m); privileged; let t ← readPseudo o m; change (f t); return .next) s =
        .next (s.retires (f { base := if o = .w16 then b &&& 0xFFFFFF#32 else b, limit := lo16 l } s2)) :=
    fun f => run_ok ((bind_ok (pure_run s m)).trans ((bind_ok (privileged_ok level)).trans (bind_ok table)))
  exact ⟨loads fun t s => { s with gdtr := t }, loads fun t s => { s with idtr := t },
    ((readOnly_access.memRead m 0 2).ok limit).trans ((readOnly_access.memRead m 2 4).ok base)⟩

/-! ## Loads of segment registers -/

theorem setInhibit_run (x : SegReg) (s : State) : setInhibit x s = .ok () (s.inhibits x) := by
  unfold setInhibit State.inhibits
  split <;> rfl

/-- In real-address mode a load reads no descriptor (rule R258). -/
theorem loadSeg_real {s : State} (hp : s.pe = false) (x : SegReg) (sel : BitVec 16) :
    loadSeg x sel s = .ok () (s.setSegOf x ((s.segOf x).realLoad sel)) := by
  rw [loadSeg, bind_ok (look_run s _), hp]
  rfl

theorem exec_movSregRm {x : SegReg} {src : Rm} {sel : BitVec 16} {s s1 s2 : State} (hx : x ≠ .cs)
    (operand : readRm16 src s = .ok sel s1) (load : loadSeg x sel s1 = .ok () s2) :
    exec (.movSregRm x.num src) s = .next (s.retires (s2.inhibits x)) := by
  have body : (do loadSeg x sel; setInhibit x; return .next : M Done) s1 = .ok .next (s2.inhibits x) :=
    (bind_ok load).trans (bind_ok (setInhibit_run x s2))
  refine run_ok ((bind_ok operand).trans ?_)
  cases x with
  | cs => exact absurd rfl hx
  | _ => exact body

/-- CS and the numbers 6 and 7 (rule R260). -/
theorem exec_movSregRm_invalid {n : BitVec 3} {src : Rm} {sel : BitVec 16} {s s1 : State} (hn : n = 1 ∨ n = 6 ∨ n = 7)
    (operand : readRm16 src s = .ok sel s1) : exec (.movSregRm n src) s = takeException excUD s1 := by
  refine run_exc ((bind_ok operand).trans ?_)
  rcases hn with rfl | rfl | rfl <;> rfl

/-- POP of a segment register (rule R261). -/
theorem run_popSeg {o : OpSize} {x : SegReg} {v : Word} {s s1 s2 : State} (top : stackRead 0 o.bytes s = .ok v s1)
    (load : loadSeg x (lo16 v) s1 = .ok () s2) :
    run (popSeg o x) s = .next (s.retires ((s2.moveSp (retWord o 1)).inhibits x)) :=
  run_ok ((bind_ok top).trans ((bind_ok load).trans ((bind_ok (change_run s2 _)).trans (bind_ok (setInhibit_run x _)))))

/-- LDS to LGS (rules R262, R263). -/
theorem run_loadFarPtr {o : OpSize} {x : SegReg} {dst : Reg} {m : MemOp} {off : Word} {sel : BitVec 16} {s s1 s2 : State}
    (pointer : readFarPtr o m s = .ok (off, sel) s1) (load : loadSeg x sel s1 = .ok () s2) :
    run (loadFarPtr x o dst (.mem m)) s = .next (s.retires (s2.setRegSz o dst off)) :=
  run_ok ((bind_ok (pure_run s m)).trans ((bind_ok pointer).trans ((bind_ok load).trans (bind_ok (change_run s2 _)))))

theorem Quiet.offsetOf {s t : State} (h : Quiet s t) (m : MemOp) (k : Word) : t.offsetOf m k = s.offsetOf m k := by
  rw [h.1]
  rfl

section
variable {o : OpSize} {m : MemOp} {off : Word} {s t : State} (offset : memRead m 0 o.bytes s = .ok off t)
include offset

/-- A far pointer whose bytes leave the limit together: the offset has been read (rule R152). -/
theorem readFarPtr_outside (h : limitOk (s.segOf m.seg) (s.offsetOf m 0) (o.bytes + 2) = false) :
    readFarPtr o m s = .error (.exc (segExc m.seg)) t := by
  have read := ((readOnly_access.memRead m 0 o.bytes).ok offset).1
  refine (bind_ok offset).trans ((bind_ok (get_run t)).trans (bind_error (require_error ?_)))
  rwa [read.segOf, read.offsetOf]

/-- A far pointer inside the limit: after the offset the selector is read (rules R262, R263). -/
theorem readFarPtr_inside (h : limitOk (s.segOf m.seg) (s.offsetOf m 0) (o.bytes + 2) = true) :
    readFarPtr o m s =
      (do let v ← segRead m.seg (s.offsetOf m 0 + BitVec.ofNat 32 o.bytes) 2; return (off, lo16 v) : M _) t := by
  have read := ((readOnly_access.memRead m 0 o.bytes).ok offset).1
  refine (bind_ok offset).trans ((bind_ok (get_run t)).trans ((bind_ok (require_ok ?_)).trans ?_))
  · rwa [read.segOf, read.offsetOf]
  · rw [read.offsetOf]

end

/-- Settles O26, clause by clause. -/
theorem segmentLoadInstructions : Obligations.SegmentLoadInstructions := by
  intro s
  refine ⟨fun x sel hp => loadSeg_real hp x sel, fun x src sel s1 s2 hx operand load => ?_,
    fun src n sel s1 hn operand => ?_, fun src n e s1 operand => run_exc (bind_error operand),
    fun o i x v s1 s2 hi top load => ?_, fun o m => ⟨fun e t h => bind_error h, fun off t offset => ?_⟩,
    fun o dst src i x hi => ?_⟩
  · exact ⟨exec_movSregRm hx operand load, (readOnly_access.readRm16 src).ok operand⟩
  · exact ⟨exec_movSregRm_invalid hn operand, (readOnly_access.readRm16 src).ok operand⟩
  · refine ⟨?_, (readOnly_access.stackRead 0 o.bytes).ok top⟩
    simp only [List.mem_cons, Prod.mk.injEq, List.not_mem_nil, or_false] at hi
    rcases hi with ⟨rfl, rfl⟩ | ⟨rfl, rfl⟩ | ⟨rfl, rfl⟩ | ⟨rfl, rfl⟩ | ⟨rfl, rfl⟩ <;> exact run_popSeg top load
  · refine ⟨readFarPtr_outside offset, fun h => ?_⟩
    rw [readFarPtr_inside offset h, bind_run]
    cases segRead m.seg (s.offsetOf m 0 + BitVec.ofNat 32 o.bytes) 2 t <;> rfl
  · have loads : exec i s = run (loadFarPtr x o dst src) s := by
      simp only [List.mem_cons, Prod.mk.injEq, List.not_mem_nil, or_false] at hi
      rcases hi with ⟨rfl, rfl⟩ | ⟨rfl, rfl⟩ | ⟨rfl, rfl⟩ | ⟨rfl, rfl⟩ | ⟨rfl, rfl⟩ <;> rfl
    rw [loads]
    refine ⟨?_, ?_⟩
    · rintro q rfl
      rfl
    · rintro m off sel s1 s2 rfl pointer load
      exact ⟨run_loadFarPtr pointer load, (readOnly_access.readFarPtr o m).ok pointer⟩

/-! ## The stack -/

/-- An instruction that pushes a value, once it has it (rule R216). -/
theorem run_push {o : OpSize} {m : M Word} {v : Word} {s s0 s1 : State} {w : Win} (value : m s = .ok v s0)
    (slot : preparePushes true [o.bytes] s0 = .ok [w] s1) :
    run (do let v ← m; push o.bytes v; return .next) s =
      .next (s.retires ((s1.put w v).moveSp (-(retWord o 1)))) := by
  rw [retWord_one]
  exact run_ok ((bind_ok value).trans (bind_ok (push_run slot v)))

/-- The one slot of a push. -/
theorem push_accessed {n : Nat} {s s0 s1 : State} {w : Win} (h : ReadOnly s s0)
    (slot : preparePushes true [n] s0 = .ok [w] s1) (v : Word) : Accessed w.phys s (s1.put w v) ∧ w.n = n := by
  have stored := preparePushes_puts_accessed slot [v]
  have sizes := (preparePushes_phys slot).2
  simp only [List.flatMap_cons, List.flatMap_nil, List.append_nil] at stored
  exact ⟨(Accessed.ofReadOnly h _).trans stored, by simpa using sizes⟩

/-- A selector as it is pushed: with 32 bits its upper half is free (rule R265). -/
theorem pushedSel_run {o : OpSize} {sel : BitVec 16} {s s0 : State} {v : Word}
    (h : if o = .w16 then s0 = s ∧ v = zx16 sel else s0 = s.drawn ∧ v = hiLo (lo16 (Config.freeWord s.draws)) sel) :
    pushedSel o sel s = .ok v s0 := by
  cases o with
  | w16 => obtain ⟨rfl, rfl⟩ := h; rfl
  | w32 => obtain ⟨rfl, rfl⟩ := h; rfl

/-- Settles O27: each form has its value and then pushes it. -/
theorem pushes : Obligations.Pushes := by
  intro o s s0 i v form w s1 slot
  have pushed : ReadOnly s s0 ∧ exec i s = .next (s.retires ((s1.put w v).moveSp (-(retWord o 1)))) := by
    rcases form with ⟨x, hi, value⟩ | ⟨rfl, rfl, rfl⟩ | ⟨r, rfl, rfl, rfl⟩
    · have value := pushedSel_run value
      refine ⟨(readOnly_access.pushedSel o _).ok value, ?_⟩
      have pushes : exec i s = run (do let v ← pushedSel o (s.segOf x).sel; push o.bytes v; return .next) s := by
        simp only [List.mem_cons, Prod.mk.injEq, List.not_mem_nil, or_false] at hi
        rcases hi with ⟨rfl, rfl⟩ | ⟨rfl, rfl⟩ | ⟨rfl, rfl⟩ | ⟨rfl, rfl⟩ | ⟨rfl, rfl⟩ | ⟨rfl, rfl⟩ <;>
          exact run_congr (bind_ok (look_run s _))
      exact pushes.trans (run_push value slot)
    · exact ⟨ReadOnly.refl _, run_push (look_run _ _) slot⟩
    · exact ⟨ReadOnly.refl _, run_push (look_run _ _) slot⟩
  obtain ⟨read, hx⟩ := pushed
  exact ⟨hx, push_accessed read slot v⟩

theorem getLsbD_ite_zero {c : Prop} [Decidable c] (v : Word) (k : Nat) :
    (if c then v else 0).getLsbD k = true ↔ v.getLsbD k = true ∧ c := by
  split
  next h => exact (and_iff_left h).symm
  next h => simp [h]

/-- The bits that POPF loads (rules R393, R394). -/
theorem getLsbD_popMask (o : OpSize) (pe : Bool) (cpl : BitVec 2) (old : Word) (k : Nat) :
    (popMask o pe cpl old).getLsbD k = true ↔ k ∈ [0, 2, 4, 6, 7, 8, 10, 11, 14] ∨ (k = 16 ∧ o = .w32) ∨
      ((k = 12 ∨ k = 13) ∧ (pe = false ∨ cpl = 0)) ∨ (k = 9 ∧ (pe = false ∨ cpl ≤ ioplOf old)) := by
  by_cases lt : k < 32
  · have always : ∀ k < 32, popAlways.getLsbD k = decide (k ∈ [0, 2, 4, 6, 7, 8, 10, 11, 14]) := by decide
    have rf : ∀ k < 32, (0x10000#32).getLsbD k = decide (k = 16) := by decide
    have iopl : ∀ k < 32, (0x3000#32).getLsbD k = decide (k = 12 ∨ k = 13) := by decide
    have enable : ∀ k < 32, (0x200#32).getLsbD k = decide (k = 9) := by decide
    simp only [popMask, BitVec.getLsbD_or, Bool.or_eq_true, getLsbD_ite_zero, always k lt, rf k lt, iopl k lt,
      enable k lt, decide_eq_true_eq, Bool.not_eq_true', or_assoc]
  · simp [BitVec.getLsbD_of_ge _ k (by omega : 32 ≤ k)]
    omega

/-- Settles O28: the bits of POPF one by one, and the value on top of the stack. -/
theorem pops : Obligations.Pops := by
  refine ⟨fun o pe cpl old v k => ?_, fun o s s1 v top => ?_⟩
  · refine (getLsbD_mergeBits (popMask o pe cpl old) old v k).trans ?_
    simp only [getLsbD_popMask]
  · have read := (readOnly_access.stackRead 0 o.bytes).ok top
    refine ⟨read, fun r => run_ok (bind_ok top), ?_⟩
    rw [← read.1.pe, ← read.1.level, ← read.1.eflags]
    exact run_ok (bind_ok top)

/-! ## Far transfers in real-address mode -/

/-- Once its far pointer is there, a JMP or CALL is its transfer (rule R283). -/
theorem exec_far {call : Bool} {i : Instr} {o : OpSize} {off : Word} {sel : BitVec 16} {s s1 t : State} {d : Done}
    (operand : FarOperand call i o off sel s s1) (h : farTransfer call o sel off s1 = .ok d t) :
    exec i s = .next (complete (s.flag bitTF) d t) := by
  rcases operand with ⟨v, rfl, rfl, rfl, rfl⟩ | ⟨m, pointer, rfl⟩
  · cases call <;> exact run_ok h
  · cases call <;> exact run_ok ((bind_ok (pure_run s m)).trans ((bind_ok pointer).trans h))

theorem FarOperand.readOnly {call : Bool} {i : Instr} {o : OpSize} {off : Word} {sel : BitVec 16} {s s1 : State}
    (operand : FarOperand call i o off sel s s1) : ReadOnly s s1 := by
  rcases operand with ⟨v, -, -, rfl, -⟩ | ⟨m, pointer, -⟩
  · exact ReadOnly.refl _
  · exact (readOnly_access.readFarPtr o m).ok pointer

/-- CS:EIP loaded in real-address mode; the high-address latch falls (rules R66, R258). -/
def State.entersReal (s : State) (sel : BitVec 16) (off : Word) : State :=
  { s.setSegOf .cs (s.seg.cs.realLoad sel) with eip := off, highLatch := false }

section
variable {o : OpSize} {off : Word} {sel : BitVec 16} {s : State} (hp : s.pe = false)
include hp

theorem farTo_real (call : Bool) : farTo call o sel off s = farReal call o sel off s := by
  rw [farTo, bind_ok (look_run s _), hp]
  rfl

theorem farTransfer_jmp_real : farTransfer false o sel off s = .ok .transfer (s.entersReal sel off) :=
  bind_ok (farTo_real hp false)

theorem farTransfer_call_real {ws : List Win} {c : Word} {s1 s2 : State}
    (slots : preparePushes true [o.bytes, o.bytes] s = .ok ws s1) (selector : pushedSel o s1.seg.cs.sel s1 = .ok c s2) :
    farTransfer true o sel off s =
      .ok .transfer (((s2.puts ws [c, s1.eipNext]).moveSp (-(retWord o 2))).entersReal sel off) := by
  have pushed : pushRet true o ws s1 = .ok () ((s2.puts ws [c, s1.eipNext]).moveSp (-(retWord o 2))) :=
    (bind_ok (get_run s1)).trans (bind_ok selector)
  exact bind_ok ((farTo_real hp true).trans ((bind_ok (m := prepareRet true o) slots).trans (bind_ok pushed)))

end

/-- Settles O30: the operand, then the transfer of real-address mode, whose accesses leave CS and EIP as they were. -/
theorem farTransfersReal : Obligations.FarTransfersReal := by
  refine ⟨fun o q s => ⟨rfl, rfl⟩, fun call i o off sel s s1 hp operand => ?_⟩
  have read := operand.readOnly
  have real := read.1.pe.trans hp
  refine ⟨read, ?_, ?_⟩
  · rintro rfl
    rw [exec_far operand (farTransfer_jmp_real real), State.entersReal, read.1.seg]
    rfl
  · rintro rfl ws s2 c s3 slots selector
    have opened := read.trans ((readOnly_access.preparePushes true _).ok slots)
    have drawn := opened.trans ((readOnly_access.pushedSel o _).ok selector)
    have stored := (Accessed.ofReadOnly drawn _).trans (puts_accessed (preparePushes_phys slots).1 [c, s.eipNext] s3)
    rw [← opened.1.seg] at selector
    refine ⟨?_, stored⟩
    rw [exec_far operand (farTransfer_call_real real slots selector), State.entersReal, opened.1.eipNext,
      State.moveSp_seg, stored.1.seg]
    rfl

end Sys2Proof.Machine

/-! SUPPORT. VERR and VERW: the selectors that are not null, and the exceptions on the way to a descriptor. -/

namespace Sys2Proof.Machine

section
variable {src : Rm} {s s1 t : State} {sel : BitVec 16} {r : Option Desc} {e : Exc}
  {ok : BitVec 2 → BitVec 16 → Desc → Bool}

/-- A selector that is not null is looked up in its table (rule R221). -/
theorem examine_named (named : isNull sel = false) : examine sel = fetchDesc sel := if_neg (by simp [named])

/-- An exception of `inspect` leaves ZF unwritten and is taken. -/
theorem run_verify_exc (h : inspect src ok s = .error (.exc e) t) : run (verify src ok) s = takeException e t :=
  run_exc (bind_error h)

/-- An exception of the selector operand goes before any test of a descriptor (rule R221). -/
theorem inspect_operand_exc (hp : s.pe = true) (operand : readRm16 src s = .error (.exc e) t) :
    inspect src ok s = .error (.exc e) t := by
  rw [inspect, bind_ok (protectedOnly_ok hp), bind_error operand]

/-- So does an exception of the read of the table. -/
theorem inspect_table_exc (hp : s.pe = true) (operand : readRm16 src s = .ok sel s1) (named : isNull sel = false)
    (table : fetchDesc sel s1 = .error (.exc e) t) : inspect src ok s = .error (.exc e) t := by
  rw [inspect, bind_ok (protectedOnly_ok hp), bind_ok operand, bind_ok (look_run s1 _), examine_named named,
    bind_error table]

/-- ZF says whether the table holds a descriptor that the test accepts (rules R227, R228). -/
theorem run_verify_named (hp : s.pe = true) (operand : readRm16 src s = .ok sel s1) (named : isNull sel = false)
    (found : fetchDesc sel s1 = .ok r t) :
    run (verify src ok) s = .next (s.retires (t.withZf (r.any (ok s.level sel)))) := by
  rw [run_verify (inspect_ok hp operand (examine_ok (.inr ⟨named, found⟩))), Option.isSome_filter]

end

/-- The bits of a descriptor that VERR tests (rule R227). That the descriptor is one of a segment is tested before its
C bit is, so the exemption of conforming code need not say it again. -/
theorem verrOk_eq (cpl : BitVec 2) (sel : BitVec 16) (d : Desc) :
    verrOk cpl sel d = (d.d1.getLsbD 12 && (!d.d1.getLsbD 11 || d.d1.getLsbD 9) &&
      ((d.d1.getLsbD 11 && d.d1.getLsbD 10) ||
        decide (cpl ≤ d.d1.extractLsb' 13 2 ∧ rpl sel ≤ d.d1.extractLsb' 13 2))) := by
  rw [verrOk, visible_eq]
  change (d.d1.getLsbD 12 && (!d.d1.getLsbD 11 || d.d1.getLsbD 9) &&
    ((d.d1.getLsbD 12 && d.d1.getLsbD 11 && d.d1.getLsbD 10) || _)) = _
  cases d.d1.getLsbD 12 with
  | false => rfl
  | true => rfl

/-- The bits of a descriptor that VERW tests (rule R228). -/
theorem verwOk_eq (cpl : BitVec 2) (sel : BitVec 16) (d : Desc) :
    verwOk cpl sel d = (d.d1.getLsbD 12 && !d.d1.getLsbD 11 && d.d1.getLsbD 9 &&
      decide (cpl ≤ d.d1.extractLsb' 13 2 ∧ rpl sel ≤ d.d1.extractLsb' 13 2)) := by
  rw [verwOk, Bool.and_assoc, ← Bool.decide_and]
  rfl

/-- Settles O18: the exceptions on the way to the descriptor, then ZF by the test of each instruction. -/
theorem verifyTests : Obligations.VerifyTests := by
  refine fun src s => ⟨fun hp => ⟨exec_protectedInstr rfl hp, exec_protectedInstr rfl hp⟩, fun hp => ⟨fun e t h => ?_,
    fun sel s1 operand named => ⟨fun e t h => ?_, fun r s2 found => ?_⟩⟩⟩
  · exact ⟨run_verify_exc (inspect_operand_exc hp h), run_verify_exc (inspect_operand_exc hp h)⟩
  · have table : ∀ ok, inspect src ok s = .error (.exc e) t := fun ok => inspect_table_exc hp operand named h
    exact ⟨run_verify_exc (table _), run_verify_exc (table _)⟩
  · have verified : ∀ ok, run (verify src ok) s = .next (s.retires (s2.withZf (r.any (ok s.level sel)))) :=
      fun ok => run_verify_named hp operand named found
    refine ⟨((readOnly_access.readRm16 src).ok operand).trans ((readOnly_access.fetchDesc sel).ok found), ?_, ?_⟩
    · simp only [← verrOk_eq]
      exact verified verrOk
    · simp only [← verwOk_eq]
      exact verified verwOk

end Sys2Proof.Machine

/-! SUPPORT. The descriptor-table registers: what SLDT, STR, SMSW, MOV from a segment register, SGDT and SIDT store,
and what LLDT and LTR do with each selector at level 0. -/

namespace Sys2Proof.Machine

/-! ## Stores of selectors and of table registers -/

section
variable {s t : State} {o : OpSize} {dst : Rm}

theorem lo16_zx16 (v : BitVec 16) : lo16 (zx16 v) = v := by simp [lo16, zx16]

/-- A word register takes the selector, and keeps its upper half (rules R242, R244, R264, R447). -/
theorem storeSel_wordReg (q : Reg) (v : BitVec 16) (s : State) :
    storeSel .w16 (.reg q) v s = .ok () (s.setReg q (setLo16 (s.reg q) v)) := by
  rw [storeSel, change_run, State.setRegSz, lo16_zx16]

/-- The upper half of a doubleword register is free (U22). -/
theorem storeSel_dwordReg (q : Reg) (v : BitVec 16) (s : State) :
    storeSel .w32 (.reg q) v s = .ok () (s.drawn.setReg q (hiLo (lo16 (Config.freeWord s.draws)) v)) := rfl

/-- Memory takes two bytes, whatever the operand size. -/
theorem storeSel_mem {m : MemOp} {w : Win} (h : memWindow m 0 2 true s = .ok w t) (v : BitVec 16) :
    storeSel o (.mem m) v s = .ok () (t.put w (zx16 v)) :=
  writeRm_mem (o := .w16) h _

theorem exec_sldt (hp : s.pe = true) (store : storeSel o dst s.ldtr.sel s = .ok () t) :
    exec (.sldt o dst) s = .next (s.retires t) :=
  run_ok ((bind_ok (protectedOnly_ok hp)).trans ((bind_ok (look_run s _)).trans (bind_ok store)))

theorem exec_str (hp : s.pe = true) (store : storeSel o dst s.tr.sel s = .ok () t) :
    exec (.str o dst) s = .next (s.retires t) :=
  run_ok ((bind_ok (protectedOnly_ok hp)).trans ((bind_ok (look_run s _)).trans (bind_ok store)))

theorem exec_smsw (store : storeSel o dst (lo16 s.cr.cr0) s = .ok () t) : exec (.smsw o dst) s = .next (s.retires t) :=
  run_ok ((bind_ok (look_run s _)).trans (bind_ok store))

theorem exec_movRmSreg {x : SegReg} (store : storeSel o dst (s.segOf x).sel s = .ok () t) :
    exec (.movRmSreg o dst x) s = .next (s.retires t) :=
  run_ok ((bind_ok (look_run s _)).trans (bind_ok store))

/-- The base field that SGDT and SIDT store: byte 5 is free with 16-bit operand size (rules R237, R240; U22). -/
def pseudoBase (o : OpSize) (base u : Word) : Word :=
  match o with
  | .w32 => base
  | .w16 => (base &&& 0xFFFFFF#32) ||| (u &&& 0xFF000000#32)

/-- Both windows are opened before the limit and the base are stored (decision D17). -/
theorem writePseudo_ok {m : MemOp} {wl wb : Win} {s1 s2 : State} (limit : memWindow m 0 2 true s = .ok wl s1)
    (base : memWindow m 2 4 true s1 = .ok wb s2) (r : TableReg) : writePseudo o m r s =
      .ok () ((s2.drawn.put wl (zx16 r.limit)).put wb (pseudoBase o r.base (Config.freeWord s2.draws))) :=
  (bind_ok limit).trans ((bind_ok base).trans (by cases o <;> rfl))

theorem exec_sgdt {m : MemOp} (store : writePseudo o m s.gdtr s = .ok () t) :
    exec (.sgdt o (.mem m)) s = .next (s.retires t) :=
  run_ok ((bind_ok (pure_run s m)).trans ((bind_ok (look_run s _)).trans (bind_ok store)))

theorem exec_sidt {m : MemOp} (store : writePseudo o m s.idtr s = .ok () t) :
    exec (.sidt o (.mem m)) s = .next (s.retires t) :=
  run_ok ((bind_ok (pure_run s m)).trans ((bind_ok (look_run s _)).trans (bind_ok store)))

/-- A free value is the model's own. -/
theorem drawn_readOnly (s : State) : ReadOnly s s.drawn := ReadOnly.ofMem (Quiet.of_eq rfl) rfl

/-- Two values stored in two windows that were opened before touch nothing else. -/
theorem memWindows_put_accessed {m : MemOp} {k k' : Word} {n n' : Nat} {w w' : Win} {s1 s2 : State}
    (first : memWindow m k n true s = .ok w s1) (second : memWindow m k' n' true s1 = .ok w' s2) (v v' : Word) :
    Accessed (w.phys ++ w'.phys) s ((s2.drawn.put w v).put w' v') := by
  have opened : ReadOnly s s2.drawn := (((readOnly_access.memWindow m k n true).ok first).trans
    ((readOnly_access.memWindow m k' n' true).ok second)).trans (drawn_readOnly s2)
  have low := put_accessed (memWindow_phys first).1 s2.drawn v
  have high := put_accessed (memWindow_phys second).1 (s2.drawn.put w v) v'
  exact ((Accessed.ofReadOnly opened _).trans (low.mono (List.subset_append_left _ _))).trans
    (high.mono (List.subset_append_right _ _))

end

/-- Settles O19: one store of a selector behind four instructions, one of a pseudo-descriptor behind two. -/
theorem systemStores : Obligations.SystemStores := by
  refine ⟨fun s f v hf => ?_, fun o s f r hf => ?_⟩
  · have stores : ∀ o dst t, storeSel o dst v s = .ok () t → exec (f o dst) s = .next (s.retires t) := by
      intro o dst t store
      rcases hf with ⟨hp, rfl, rfl⟩ | ⟨hp, rfl, rfl⟩ | ⟨rfl, rfl⟩ | ⟨x, rfl, rfl⟩
      · exact exec_sldt hp store
      · exact exec_str hp store
      · exact exec_smsw store
      · exact exec_movRmSreg store
    exact ⟨fun q => stores _ _ _ (storeSel_wordReg q v s), fun q => stores _ _ _ (storeSel_dwordReg q v s),
      fun o m w s1 h => ⟨stores _ _ _ (storeSel_mem h v), memWindow_put_accessed h _⟩⟩
  · have stores : ∀ m t, writePseudo o m r s = .ok () t → exec (f o (.mem m)) s = .next (s.retires t) := by
      intro m t store
      rcases hf with ⟨rfl, rfl⟩ | ⟨rfl, rfl⟩
      · exact exec_sgdt store
      · exact exec_sidt store
    refine ⟨fun q => ?_, fun m wl wb s1 s2 limit base => ⟨?_, memWindows_put_accessed limit base _ _⟩⟩
    · rcases hf with ⟨rfl, -⟩ | ⟨rfl, -⟩ <;> rfl
    · exact (stores m _ (writePseudo_ok limit base r)).trans (by cases o <;> rfl)

/-! ## Loads of LDTR and TR -/

/-- The error code of a selector, EXT clear (rule R560). -/
theorem selErr_false (sel : BitVec 16) : selErr sel false = .sel (sel &&& 0xFFFC) := by simp [selErr, extBit]

section
variable {d : Desc} {k : BitVec 4}

/-- The test of a system type (rule R146). -/
theorem systemType_iff : (!d.s && d.type == k) = true ↔ d.s = false ∧ d.type = k := by
  rw [Bool.and_eq_true, Bool.not_eq_true', beq_iff_eq]

theorem notSystemType_iff : (!d.s && d.type == k) = false ↔ d.s = true ∨ d.type ≠ k := by
  rw [Bool.and_eq_false_iff, Bool.not_eq_false', beq_eq_false_iff_ne]

end

section
variable {sel : BitVec 16} {d : Desc} {s t : State} {e : Exc}

/-- No LDT and no TSS is described in the LDT (rules R241, R243). -/
theorem tableDescriptor_local (hti : ti sel = true) (f : Desc → M Done) :
    (do require (!ti sel) e; let d ← fetchOr sel e; f d : M Done) s = .error (.exc e) s :=
  bind_error (require_error (by rw [hti]; rfl))

/-- A selector past the limit of the GDT describes nothing (rule R102). -/
theorem tableDescriptor_none (hti : ti sel = false) (found : fetchDesc sel s = .ok none t) (f : Desc → M Done) :
    (do require (!ti sel) e; let d ← fetchOr sel e; f d : M Done) s = .error (.exc e) t :=
  (bind_ok (require_ok (by rw [hti]; rfl))).trans (bind_error (fetchOr_of_none found))

/-- Any other names the descriptor that the GDT holds at its place (rule R102). -/
theorem tableDescriptor_some (hti : ti sel = false) (found : fetchDesc sel s = .ok (some d) t) (f : Desc → M Done) :
    (do require (!ti sel) e; let d ← fetchOr sel e; f d : M Done) s = f d t :=
  (bind_ok (require_ok (by rw [hti]; rfl))).trans (bind_ok (fetchOr_of_some found))

end

section
variable {src : Rm} {s s1 s2 : State} {sel : BitVec 16} {d : Desc} (hp : s.pe = true) (hc : s.cpl = 0)
  (operand : readRm16 src s = .ok sel s1)
include hp hc operand

/-- At level 0 of protected mode LLDT and LTR come to read their selector (rules R235, R241, R243). -/
theorem tableSelector_read (f : BitVec 16 → M Done) :
    (do protectedOnly; privileged; let sel ← readRm16 src; f sel : M Done) s = f sel s1 :=
  (bind_ok (protectedOnly_ok hp)).trans
    ((bind_ok (privileged_ok ((level_of_pe hp).trans hc))).trans (bind_ok operand))

/-- LLDT goes on with a selector that is not null. -/
theorem tableSelector_named (named : isNull sel = false) (g f : BitVec 16 → M Done) :
    (do protectedOnly; privileged; let sel ← readRm16 src; if isNull sel then g sel else f sel : M Done) s = f sel s1 :=
  (tableSelector_read hp hc operand _).trans (congrFun (if_neg (Bool.eq_false_iff.mp named)) s1)

/-- So does LTR. -/
theorem tableSelector_required (named : isNull sel = false) (f : BitVec 16 → M Done) :
    (do protectedOnly; privileged; let sel ← readRm16 src; require (!isNull sel) excGP0; f sel : M Done) s = f sel s1 :=
  (tableSelector_read hp hc operand _).trans (bind_ok (require_ok (by rw [named]; rfl)))

/-! ### LLDT (rule R241) -/

/-- A null selector makes LDTR invalid. -/
theorem exec_lldt_null (null : isNull sel = true) : exec (.lldt src) s =
    .next (s.retires { s1 with ldtr := { s1.ldtr with sel := sel, valid := false } }) :=
  run_ok ((tableSelector_read hp hc operand _).trans ((congrFun (if_pos null) s1).trans rfl))

/-! ### LTR (rule R243) -/

theorem exec_ltr_null (null : isNull sel = true) : exec (.ltr src) s = takeException (excGP (.sel 0)) s1 :=
  run_exc ((tableSelector_read hp hc operand _).trans (bind_error (require_error (by rw [null]; rfl))))

/-! ### Selectors that are not null -/

section
variable (named : isNull sel = false)
include named

theorem exec_lldt_local (hti : ti sel = true) :
    exec (.lldt src) s = takeException (excGP (.sel (sel &&& 0xFFFC))) s1 := by
  rw [← selErr_false]
  exact run_exc ((tableSelector_named hp hc operand named _ _).trans (tableDescriptor_local hti _))

theorem exec_ltr_local (hti : ti sel = true) :
    exec (.ltr src) s = takeException (excGP (.sel (sel &&& 0xFFFC))) s1 := by
  rw [← selErr_false]
  exact run_exc ((tableSelector_required hp hc operand named _).trans (tableDescriptor_local hti _))

variable (hti : ti sel = false)
include hti

theorem exec_lldt_outside (found : fetchDesc sel s1 = .ok none s2) :
    exec (.lldt src) s = takeException (excGP (.sel (sel &&& 0xFFFC))) s2 := by
  rw [← selErr_false]
  exact run_exc ((tableSelector_named hp hc operand named _ _).trans (tableDescriptor_none hti found _))

theorem exec_ltr_outside (found : fetchDesc sel s1 = .ok none s2) :
    exec (.ltr src) s = takeException (excGP (.sel (sel &&& 0xFFFC))) s2 := by
  rw [← selErr_false]
  exact run_exc ((tableSelector_required hp hc operand named _).trans (tableDescriptor_none hti found _))

variable (found : fetchDesc sel s1 = .ok (some d) s2)
include found

theorem exec_lldt_other (other : (!d.s && d.type == 2) = false) :
    exec (.lldt src) s = takeException (excGP (.sel (sel &&& 0xFFFC))) s2 := by
  rw [← selErr_false]
  exact run_exc ((tableSelector_named hp hc operand named _ _).trans ((tableDescriptor_some hti found _).trans
    (bind_error (require_error other))))

theorem exec_lldt_absent (ldt : (!d.s && d.type == 2) = true) (absent : d.present = false) :
    exec (.lldt src) s = takeException (excNP (.sel (sel &&& 0xFFFC))) s2 := by
  rw [← selErr_false]
  exact run_exc ((tableSelector_named hp hc operand named _ _).trans ((tableDescriptor_some hti found _).trans
    ((bind_ok (require_ok ldt)).trans (bind_error (require_error absent)))))

theorem exec_lldt_present (ldt : (!d.s && d.type == 2) = true) (there : d.present = true) : exec (.lldt src) s =
    .next (s.retires { s2 with ldtr := { sel := sel, base := d.base, limit := d.limit, valid := true } }) :=
  run_ok ((tableSelector_named hp hc operand named _ _).trans ((tableDescriptor_some hti found _).trans
    ((bind_ok (require_ok ldt)).trans (bind_ok (require_ok there)))))

/-- An 80286 TSS stops (decision D21). -/
theorem exec_ltr_tss286 (tss286 : (!d.s && d.type == 1) = true) : exec (.ltr src) s = .refused .descriptor286 :=
  run_refused ((tableSelector_required hp hc operand named _).trans ((tableDescriptor_some hti found _).trans
    (congrFun (if_pos tss286) s2)))

variable (not286 : (!d.s && d.type == 1) = false)
include not286

theorem exec_ltr_other (other : (!d.s && d.type == 9) = false) :
    exec (.ltr src) s = takeException (excGP (.sel (sel &&& 0xFFFC))) s2 := by
  rw [← selErr_false]
  exact run_exc ((tableSelector_required hp hc operand named _).trans ((tableDescriptor_some hti found _).trans
    ((congrFun (if_neg (Bool.eq_false_iff.mp not286)) s2).trans (bind_error (require_error other)))))

theorem exec_ltr_absent (tss : (!d.s && d.type == 9) = true) (absent : d.present = false) :
    exec (.ltr src) s = takeException (excNP (.sel (sel &&& 0xFFFC))) s2 := by
  rw [← selErr_false]
  exact run_exc ((tableSelector_required hp hc operand named _).trans ((tableDescriptor_some hti found _).trans
    ((congrFun (if_neg (Bool.eq_false_iff.mp not286)) s2).trans
      ((bind_ok (require_ok tss)).trans (bind_error (require_error absent))))))

/-- The busy bit is written before TR is loaded (rule R323). -/
theorem exec_ltr_present {t : State} (tss : (!d.s && d.type == 9) = true) (there : d.present = true)
    (busy : sysWrite (d.addr + 4) 4 (d.d1 ||| 0x200#32) s2 = .ok () t) : exec (.ltr src) s =
      .next (s.retires { t with tr := { sel := sel, base := d.base, limit := d.limit, loaded := true } }) :=
  run_ok ((tableSelector_required hp hc operand named _).trans ((tableDescriptor_some hti found _).trans
    ((congrFun (if_neg (Bool.eq_false_iff.mp not286)) s2).trans
      ((bind_ok (require_ok tss)).trans ((bind_ok (require_ok there)).trans (bind_ok busy))))))

end
end

/-- Settles O20: the selectors in the order in which LLDT tests them. -/
theorem lldtLoads : Obligations.LldtLoads := by
  intro src s s1 sel hp hc operand
  have read := (readOnly_access.readRm16 src).ok operand
  refine ⟨read, exec_lldt_null hp hc operand, exec_lldt_local hp hc operand, fun named hti r s2 found =>
    ⟨read.trans ((readOnly_access.fetchDesc sel).ok found), ?_⟩⟩
  cases r with
  | none => exact exec_lldt_outside hp hc operand named hti found
  | some d =>
    dsimp only
    split
    next other => exact exec_lldt_other hp hc operand named hti found (notSystemType_iff.mpr (by simpa using other))
    next type =>
    have ldt := systemType_iff.mpr (by simpa using type)
    split
    next absent => exact exec_lldt_absent hp hc operand named hti found ldt (by simpa using absent)
    next there => exact exec_lldt_present hp hc operand named hti found ldt (by simpa using there)

/-- A system write that was translated stores its bytes, and touches nothing else (rules R12, R186). -/
theorem sysWrite_ok {lin : Word} {n : Nat} {ps : List Nat} {s t : State}
    (h : translateRange lin n true false s = .ok ps t) (v : Word) :
    sysWrite lin n v s = .ok () (t.storeAll ps (leBytes n v)) ∧ Accessed ps s (t.storeAll ps (leBytes n v)) :=
  ⟨bind_ok h, (Accessed.ofReadOnly ((readOnly_access.translateRange lin n true false).ok h) ps).trans
    (storeAll_accessed (translateRange_phys h).1 t _)⟩

/-- Settles O21: the selectors in the order in which LTR tests them, and the write of the busy bit. -/
theorem ltrLoads : Obligations.LtrLoads := by
  intro src s s1 sel hp hc operand
  have read := (readOnly_access.readRm16 src).ok operand
  refine ⟨read, exec_ltr_null hp hc operand, exec_ltr_local hp hc operand, fun named hti r s2 found => ?_⟩
  have opened : ReadOnly s s2 := read.trans ((readOnly_access.fetchDesc sel).ok found)
  refine ⟨opened, ?_⟩
  cases r with
  | none => exact exec_ltr_outside hp hc operand named hti found
  | some d =>
    have not286 : d.type = 9 → (!d.s && d.type == 1) = false := fun ht => notSystemType_iff.mpr (.inr (by simp [ht]))
    refine ⟨fun hs ht => ?_, fun other => ?_, fun hs ht absent => ?_, fun hs ht there ps s3 h => ?_⟩
    · exact exec_ltr_tss286 hp hc operand named hti found (systemType_iff.mpr ⟨hs, ht⟩)
    · exact exec_ltr_other hp hc operand named hti found (notSystemType_iff.mpr (other.imp_right And.left))
        (notSystemType_iff.mpr (other.imp_right And.right))
    · exact exec_ltr_absent hp hc operand named hti found (not286 ht) (systemType_iff.mpr ⟨hs, ht⟩) absent
    · obtain ⟨busy, stored⟩ := sysWrite_ok h (d.d1 ||| 0x200#32)
      exact ⟨exec_ltr_present hp hc operand named hti found (not286 ht) (systemType_iff.mpr ⟨hs, ht⟩) there busy,
        (Accessed.ofReadOnly opened ps).trans stored⟩

end Sys2Proof.Machine

/-! SUPPORT. Loads of DS, ES, FS, GS and SS in protected mode, and the far return at one level and in real-address
mode: the tests of a descriptor that raise one exception, taken as one test. -/

namespace Sys2Proof.Machine

/-! ## Tests that raise one exception -/

/-- Two tests that raise the same exception are one. -/
theorem require_require {α : Type} (a b : Bool) (e : Exc) (m : M α) :
    (do require a e; require b e; m : M α) = (do require (a && b) e; m) := by
  cases a <;> rfl

theorem maxLevel_le {a b c : BitVec 2} : maxLevel a b ≤ c ↔ a ≤ c ∧ b ≤ c := by
  simp only [maxLevel, BitVec.le_def, BitVec.lt_def]
  split <;> omega

/-! ## Direct loads of segment registers -/

/-- What a load of DS, ES, FS or GS at level `cpl` asks of a descriptor besides its presence (rule R256): readable, and
conforming or not more privileged than the level and the RPL. -/
def Desc.fitsData (d : Desc) (cpl : BitVec 2) (sel : BitVec 16) : Bool :=
  d.s && (!d.exec || d.rw) && (d.isConforming || decide (cpl ≤ d.dpl ∧ rpl sel ≤ d.dpl))

/-- What a load of SS asks (rule R257): a writable data segment of the level. -/
def Desc.fitsStack (d : Desc) (cpl : BitVec 2) (sel : BitVec 16) : Bool :=
  d.s && !d.exec && d.rw && decide (rpl sel = cpl ∧ d.dpl = cpl)

/-- A direct load from its descriptor on: the test `fits`, the presence, the accessed bit, the register. -/
def loadFrom (x : SegReg) (sel : BitVec 16) (d : Desc) (fits : Bool) (absent : Exc) : M Unit := do
  require fits (excGP (.sel (sel &&& 0xFFFC)))
  require d.present absent
  setLoaded d
  change fun s => s.setSegOf x (d.cache sel)

section
variable {x : SegReg} {sel : BitVec 16} {d : Desc} {fits : Bool} {absent : Exc} {s s1 : State} {ps : List Nat}

/-- What only reads, and then sets the accessed bit at `ps`, writes nothing else. -/
theorem markA_accessed_of_readOnly (read : ReadOnly s s1) (space : ∀ p ∈ ps, p < physSize) (d : Desc) :
    Accessed ps s (s1.markA d ps) :=
  (Accessed.ofReadOnly read ps).trans (markA_accessed space s1 d)

/-- The three ends of a direct load whose descriptor was read from `s` on. -/
theorem loadFrom_ends (read : ReadOnly s s1) :
    (fits = false → loadFrom x sel d fits absent s1 = .error (.exc (excGP (.sel (sel &&& 0xFFFC)))) s1) ∧
    (fits = true → d.present = false → loadFrom x sel d fits absent s1 = .error (.exc absent) s1) ∧
    (fits = true → d.present = true → ∀ ps s2, prepareLoad d s1 = .ok ps s2 →
      loadFrom x sel d fits absent s1 = .ok () ((s2.markA d ps).setSegOf x (d.cache sel)) ∧
        Accessed ps s (s2.markA d ps)) := by
  refine ⟨fun unfit => bind_error (require_error unfit), fun fit gone => ?_, fun fit there ps s2 write => ⟨?_, ?_⟩⟩
  · exact (bind_ok (require_ok fit)).trans (bind_error (require_error gone))
  · exact (bind_ok (require_ok fit)).trans
      ((bind_ok (require_ok there)).trans (bind_ok (setLoaded_of_prepareLoad write)))
  · exact markA_accessed_of_readOnly (read.trans ((readOnly_access.prepareLoad d).ok write)) (prepareLoad_phys write) d

end

section
variable {x : SegReg} {sel : BitVec 16} {d : Desc} {s s1 : State} (hp : s.pe = true)
include hp

theorem loadSeg_ss : loadSeg .ss sel s = loadSS sel s := by
  rw [loadSeg, bind_ok (look_run s _), hp]
  rfl

theorem loadSeg_ss_null (null : isNull sel = true) : loadSeg .ss sel s = .error (.exc (excGP (.sel 0))) s :=
  (loadSeg_ss hp).trans (bind_error (require_error (by rw [null]; rfl)))

section
variable (named : isNull sel = false)
include named

theorem loadSeg_ss_outside (found : fetchDesc sel s = .ok none s1) :
    loadSeg .ss sel s = .error (.exc (excGP (.sel (sel &&& 0xFFFC)))) s1 := by
  rw [← selErr_false]
  exact (loadSeg_ss hp).trans ((bind_ok (require_ok (by rw [named]; rfl))).trans
    ((bind_ok (look_run s _)).trans (bind_error (fetchOr_of_none found))))

/-- The tests of R257 are one test of the descriptor. -/
theorem loadSeg_ss_found (found : fetchDesc sel s = .ok (some d) s1) : loadSeg .ss sel s =
    loadFrom .ss sel d (d.fitsStack s.cpl sel) (excSS (.sel (sel &&& 0xFFFC))) s1 := by
  have tests : (rpl sel == s.level && d.isWritable && d.dpl == s.level) = d.fitsStack s.cpl sel := by
    rw [level_of_pe hp, Bool.eq_iff_iff]
    simp only [Desc.fitsStack, Desc.isWritable, Bool.and_eq_true, beq_iff_eq, decide_eq_true_eq]
    tauto
  refine (loadSeg_ss hp).trans ((bind_ok (require_ok (by rw [named]; rfl))).trans
    ((bind_ok (look_run s _)).trans ((bind_ok (fetchOr_of_some found)).trans ?_)))
  rw [require_require, require_require, tests, selErr_false, loadFrom]

end

variable (hx : x ≠ .ss)
include hx

theorem loadSeg_data : loadSeg x sel s = loadData x sel s := by
  rw [loadSeg, bind_ok (look_run s _), hp]
  exact congrFun (if_neg hx) s

theorem loadSeg_data_null (null : isNull sel = true) :
    loadSeg x sel s = .ok () (s.setSegOf x { s.segOf x with sel := sel, valid := false }) :=
  (loadSeg_data hp hx).trans (congrFun (if_pos null) s)

variable (named : isNull sel = false)
include named

theorem loadSeg_data_outside (found : fetchDesc sel s = .ok none s1) :
    loadSeg x sel s = .error (.exc (excGP (.sel (sel &&& 0xFFFC)))) s1 := by
  rw [← selErr_false]
  exact (loadSeg_data hp hx).trans ((congrFun (if_neg (Bool.eq_false_iff.mp named)) s).trans
    ((bind_ok (look_run s _)).trans (bind_error (fetchOr_of_none found))))

/-- The tests of R256 are one test of the descriptor. -/
theorem loadSeg_data_found (found : fetchDesc sel s = .ok (some d) s1) : loadSeg x sel s =
    loadFrom x sel d (d.fitsData s.cpl sel) (excNP (.sel (sel &&& 0xFFFC))) s1 := by
  have tests : (d.s && (!d.exec || d.rw) && (d.isConforming || decide (maxLevel s.level (rpl sel) ≤ d.dpl))) =
      d.fitsData s.cpl sel := by
    rw [level_of_pe hp, Desc.fitsData, decide_eq_decide.mpr maxLevel_le]
  refine (loadSeg_data hp hx).trans ((congrFun (if_neg (Bool.eq_false_iff.mp named)) s).trans
    ((bind_ok (look_run s _)).trans ((bind_ok (fetchOr_of_some found)).trans ?_)))
  rw [require_require, require_require, tests, selErr_false, loadFrom]

end

/-- Settles O24: the selectors that name no descriptor, then the tests of the one named. -/
theorem dataSegmentLoad : Obligations.DataSegmentLoad := by
  intro x sel s hp _ hx
  refine ⟨loadSeg_data_null hp hx, fun named r s1 found => ?_⟩
  have read := (readOnly_access.fetchDesc sel).ok found
  refine ⟨read, ?_⟩
  cases r with
  | none => exact loadSeg_data_outside hp hx named found
  | some d =>
    rw [loadSeg_data_found hp hx named found]
    exact loadFrom_ends read

/-- Settles O25, in the same way. -/
theorem stackSegmentLoad : Obligations.StackSegmentLoad := by
  intro sel s hp
  refine ⟨loadSeg_ss_null hp, fun named r s1 found => ?_⟩
  have read := (readOnly_access.fetchDesc sel).ok found
  refine ⟨read, ?_⟩
  cases r with
  | none => exact loadSeg_ss_outside hp named found
  | some d =>
    rw [loadSeg_ss_found hp named found]
    exact loadFrom_ends read

/-! ## The code segment that a return names -/

/-- What a return with RPL `p` asks of its code segment besides the presence (rows 6 and 8 of Table 6-3). -/
def Desc.fitsReturn (d : Desc) (p : BitVec 2) : Bool :=
  d.isCode && if d.ec then decide (d.dpl ≤ p) else decide (d.dpl = p)

theorem Desc.fitsReturn_iff {d : Desc} {p : BitVec 2} :
    d.fitsReturn p = true ↔ d.isCode = true ∧ if d.ec then d.dpl ≤ p else d.dpl = p := by
  rw [fitsReturn, Bool.and_eq_true]
  cases d.ec <;> simp

section
variable {rcs : BitVec 16} {d : Desc} {s t : State} (hp : s.pe = true)
include hp

/-- To an inner level there is no return (row 3 of Table 6-3). -/
theorem returnSegment_inner (h : rpl rcs < s.cpl) :
    returnSegment rcs s = .error (.exc (excGP (.sel (rcs &&& 0xFFFC)))) s := by
  rw [← selErr_false]
  refine (bind_ok (look_run s _)).trans (bind_error (require_error ?_))
  rw [level_of_pe hp, decide_eq_false_iff_not]
  exact BitVec.not_le.mpr h

variable (outward : s.cpl ≤ rpl rcs)
include outward

/-- To the level itself or an outer one there is. -/
theorem returnLevel_ok : decide (s.level ≤ rpl rcs) = true := by
  rw [level_of_pe hp]
  exact decide_eq_true outward

theorem returnSegment_null (null : isNull rcs = true) :
    returnSegment rcs s = .error (.exc (excGP (.sel 0))) s :=
  (bind_ok (look_run s _)).trans ((bind_ok (require_ok (returnLevel_ok hp outward))).trans
    (bind_error (require_error (by rw [null]; rfl))))

variable (named : isNull rcs = false)
include named

theorem returnSegment_outside (found : fetchDesc rcs s = .ok none t) :
    returnSegment rcs s = .error (.exc (excGP (.sel (rcs &&& 0xFFFC)))) t := by
  rw [← selErr_false]
  exact (bind_ok (look_run s _)).trans ((bind_ok (require_ok (returnLevel_ok hp outward))).trans
    ((bind_ok (require_ok (by rw [named]; rfl))).trans (bind_error (fetchOr_of_none found))))

/-- Rows 6 and 8 of Table 6-3 are one test of the descriptor. -/
theorem returnSegment_found (found : fetchDesc rcs s = .ok (some d) t) : returnSegment rcs s = (do
    require (d.fitsReturn (rpl rcs)) (excGP (.sel (rcs &&& 0xFFFC)))
    require d.present (excNP (.sel (rcs &&& 0xFFFC)))
    return d : M Desc) t := by
  have tests : (d.isCode && (d.ec || d.dpl == rpl rcs) && (!d.ec || decide (d.dpl ≤ rpl rcs))) =
      d.fitsReturn (rpl rcs) := by
    rw [Bool.eq_iff_iff, Desc.fitsReturn_iff]
    cases d.ec <;> simp
  refine (bind_ok (look_run s _)).trans ((bind_ok (require_ok (returnLevel_ok hp outward))).trans
    ((bind_ok (require_ok (by rw [named]; rfl))).trans ((bind_ok (fetchOr_of_some found)).trans ?_)))
  rw [require_require, require_require, tests, selErr_false]

end

/-! ## The same-level end of a return -/

section
variable {eip k : Word} {rcs : BitVec 16} {d : Desc} {s s1 : State}

theorem returnSame_outside (h : ¬ eip ≤ d.limit) :
    returnSame eip rcs d k s = .error (.exc (excGP (.sel 0))) s :=
  bind_error (require_error (decide_eq_false h))

theorem returnSame_inside {pa : List Nat} (h : eip ≤ d.limit) (write : prepareA d s = .ok pa s1) :
    returnSame eip rcs d k s =
      .ok () { ((s1.markA d pa).moveSp k).setSegOf .cs (d.cache rcs) with eip := eip } :=
  (bind_ok (require_ok (decide_eq_true h))).trans ((bind_ok write).trans (bind_ok (change_run s1 _)))

end

/-! ## Far RET -/

section
variable {off : Word} {n : Nat} {s : State}

/-- The room that a range of the stack has, which real-address mode does not ask for. -/
theorem stackRange_ok (h : s.pe = true → (s.seg.ss.valid && limitOk s.seg.ss off n) = true) :
    stackRange off n s = .ok () s := by
  refine (bind_ok (get_run s)).trans (require_ok ?_)
  cases hp : s.pe with
  | false => rfl
  | true => exact h hp

theorem stackRange_error (hp : s.pe = true) (h : (s.seg.ss.valid && limitOk s.seg.ss off n) = false) :
    stackRange off n s = .error (.exc (excSS (.sel 0))) s :=
  (bind_ok (get_run s)).trans (require_error (by rw [hp, h]; rfl))

end

theorem exec_retFar {i : Instr} {o : OpSize} {n : BitVec 16} (h : (i = .retFar o ∧ n = 0) ∨ i = .retFarImm o n)
    (s : State) : exec i s = run (farRet o n) s := by
  rcases h with ⟨rfl, rfl⟩ | rfl <;> rfl

section
variable {o : OpSize} {n : BitVec 16} {s s1 s2 : State} {eip v : Word}

theorem farRet_noRoom (hp : s.pe = true)
    (h : (s.seg.ss.valid && limitOk s.seg.ss (s.stackAt 0) (2 * o.bytes)) = false) :
    farRet o n s = .error (.exc (excSS (.sel 0))) s :=
  (bind_ok (get_run s)).trans (bind_error (stackRange_error hp h))

/-- CS:EIP of a far return read from the stack. -/
theorem returnPointer_readOnly (offset : stackRead 0 o.bytes s = .ok eip s1)
    (selector : stackRead (retWord o 1) o.bytes s1 = .ok v s2) : ReadOnly s s2 :=
  ((readOnly_access.stackRead _ _).ok offset).trans ((readOnly_access.stackRead _ _).ok selector)

variable (room : s.pe = true → (s.seg.ss.valid && limitOk s.seg.ss (s.stackAt 0) (2 * o.bytes)) = true)
  (offset : stackRead 0 o.bytes s = .ok eip s1) (selector : stackRead (retWord o 1) o.bytes s1 = .ok v s2)
include room offset selector

/-- In real-address mode what stands on the stack is loaded as it is (rule R258). -/
theorem farRet_real (hp : s.pe = false) : farRet o n s = .ok .transfer
    { (s2.moveSp (retWord o 2 + zx16 n)).setSegOf .cs (s.seg.cs.realLoad (lo16 v)) with eip := eip } := by
  refine (bind_ok (get_run s)).trans ((bind_ok (stackRange_ok room)).trans
    ((bind_ok offset).trans ((bind_ok selector).trans ?_)))
  rw [hp, ← (returnPointer_readOnly offset selector).1.seg]
  rfl

/-- In protected mode its code segment is looked at first (rules R300, R305). -/
theorem farRet_protected (hp : s.pe = true) : farRet o n s = (do
    let d ← returnSegment (lo16 v)
    farRetTo o eip (lo16 v) d n
    return .transfer : M Done) s2 := by
  refine (bind_ok (get_run s)).trans ((bind_ok (stackRange_ok room)).trans
    ((bind_ok offset).trans ((bind_ok selector).trans ?_)))
  rw [hp]
  rfl

end

/-- A return at the level of its RPL (rule R300). -/
theorem farRetTo_same {rcs : BitVec 16} {s : State} (hp : s.pe = true) (same : rpl rcs = s.cpl) (o : OpSize)
    (eip : Word) (d : Desc) (n : BitVec 16) :
    farRetTo o eip rcs d n s = returnSame eip rcs d (retWord o 2 + zx16 n) s :=
  (bind_ok (get_run s)).trans (congrFun (if_pos (by rw [level_of_pe hp, beq_iff_eq]; exact same)) s)

/-- Settles O34: the tests of the return selector in their order, then far RET by the mode and by what those tests
answer. -/
theorem farReturnSame : Obligations.FarReturnSame := by
  refine ⟨fun rcs s hp => ⟨returnSegment_inner hp, returnSegment_null hp, fun outward named r t found => ?_⟩,
    fun i o n s form => ?_⟩
  · cases r with
    | none => exact returnSegment_outside hp outward named found
    | some d =>
      rw [returnSegment_found hp outward named found]
      dsimp only
      cases fit : d.fitsReturn (rpl rcs) with
      | false =>
        rw [if_pos fun h => Bool.eq_false_iff.mp fit (Desc.fitsReturn_iff.mpr h)]
        rfl
      | true =>
        rw [if_neg (not_not.mpr (Desc.fitsReturn_iff.mp fit))]
        cases d.present <;> rfl
  · rw [exec_retFar form]
    refine ⟨fun hp small => run_exc (farRet_noRoom hp small), fun room eip v s1 s2 offset selector => ?_⟩
    have read := returnPointer_readOnly offset selector
    refine ⟨read, fun hp => run_ok (farRet_real room offset selector hp), fun hp => ?_⟩
    have body := farRet_protected (n := n) room offset selector hp
    refine ⟨fun e t bad => run_exc (body.trans (bind_error bad)), fun d s3 good same => ?_⟩
    have looked := read.trans ((readOnly_access.returnSegment _).ok good)
    have ret := farRetTo_same (looked.1.pe.trans hp) (same.trans looked.1.cpl.symm) o eip d n
    refine ⟨fun past => ?_, fun inside pa s4 write => ⟨?_, ?_⟩⟩
    · exact run_exc (body.trans ((bind_ok good).trans (bind_error (ret.trans (returnSame_outside past)))))
    · exact run_ok (body.trans ((bind_ok good).trans (bind_ok (ret.trans (returnSame_inside inside write)))))
    · exact markA_accessed_of_readOnly (looked.trans ((readOnly_access.prepareA d).ok write)) (prepareA_phys write) d

end Sys2Proof.Machine

/-! SUPPORT. JMP, CALL and RET: near transfers, and far transfers to a code segment, direct or through a call gate,
at the same level or an inner one. -/

namespace Sys2Proof.Machine

/-! ## What only reads, at the start of an instruction -/

section
variable {α : Type} {m : M α} {f : α → M Done} {a : α} {s s1 : State}

/-- The end of a transfer depends on what stood in the flags when it began, which reading leaves alone. -/
theorem Quiet.jumps (h : Quiet s s1) (t : State) : s1.jumps t = s.jumps t := by
  rw [State.jumps, State.jumps, h.flag]

/-- An instruction that first reads goes on from where it has read. -/
theorem run_of_readOnly (read : ReadOnly s s1) (h : m s = .ok a s1) : run (m >>= f) s = run (f a) s1 := by
  rw [run, run, bind_ok h, read.1.flag]

end

/-! ## Near transfers -/

section
variable {dst : Word} {value : M Word} {rest : Word → M Done} {s s1 t : State}

theorem nearCheck_ok (h : dst ≤ s.seg.cs.limit) : nearCheck dst s = .ok () s :=
  (bind_ok (get_run s)).trans (require_ok (decide_eq_true h))

theorem nearCheck_error (h : ¬ dst ≤ s.seg.cs.limit) : nearCheck dst s = .error (.exc (excGP (.sel 0))) s :=
  (bind_ok (get_run s)).trans (require_error (decide_eq_false h))

/-- A near transfer that has its destination and finds it past the limit of CS (rule R277). -/
theorem run_near_past (read : ReadOnly s s1) (target : value s = .ok dst s1) (past : ¬ dst ≤ s.seg.cs.limit) :
    run (do let d ← value; nearCheck d; rest d) s = takeException (excGP (.sel 0)) s1 := by
  rw [← read.1.seg] at past
  exact run_exc ((bind_ok target).trans (bind_error (nearCheck_error past)))

/-- A near transfer to a destination inside the limit. -/
theorem run_near_inside (read : ReadOnly s s1) (target : value s = .ok dst s1) (inside : dst ≤ s.seg.cs.limit)
    (h : rest dst s1 = .ok .transfer t) : run (do let d ← value; nearCheck d; rest d) s = .next (s.jumps t) := by
  rw [← read.1.seg] at inside
  exact run_ok ((bind_ok target).trans ((bind_ok (nearCheck_ok inside)).trans h))

/-- The two ends of a near transfer that needs nothing but its destination. -/
theorem run_near (read : ReadOnly s s1) (target : value s = .ok dst s1) (h : rest dst s1 = .ok .transfer t) :
    run (do let d ← value; nearCheck d; rest d) s =
      if dst ≤ s.seg.cs.limit then .next (s.jumps t) else takeException (excGP (.sel 0)) s1 := by
  split
  next inside => exact run_near_inside read target inside h
  next past => exact run_near_past read target past

end

theorem relTarget_run (o : OpSize) (rel : Word) (s : State) :
    relTarget o rel s = .ok (cutOff o (s.eipNext + rel)) s := look_run s _

/-- Settles O29: each form comes to its destination by reading, and then checks it. -/
theorem nearTransfers : Obligations.NearTransfers := by
  refine ⟨fun s s1 i o dst form => ?_, fun s s1 i o dst form => ?_, fun s s1 i o n dst form top => ?_⟩
  · have operand : ∃ value, value s = .ok dst s1 ∧ ReadOnly s s1 ∧
        exec i s = run (do let d ← value; nearJump d) s := by
      rcases form with ⟨rel, rfl, rfl, rfl⟩ | ⟨rel, rfl, rfl, rfl⟩ | ⟨src, rfl, operand⟩
      · exact ⟨_, relTarget_run _ _ _, ReadOnly.refl _, rfl⟩
      · exact ⟨_, relTarget_run _ _ _, ReadOnly.refl _, rfl⟩
      · exact ⟨_, operand, (readOnly_access.readRm o src).ok operand, rfl⟩
    obtain ⟨value, target, read, body⟩ := operand
    exact ⟨read, body.trans (run_near (rest := fun d => do setEip d; return .transfer) read target rfl)⟩
  · have operand : ∃ value, value s = .ok dst s1 ∧ ReadOnly s s1 ∧
        exec i s = run (do let d ← value; nearCall o d) s := by
      rcases form with ⟨rel, rfl, rfl, rfl, rfl⟩ | ⟨src, rfl, operand⟩
      · exact ⟨_, relTarget_run _ _ _, ReadOnly.refl _, rfl⟩
      · exact ⟨_, operand, (readOnly_access.readRm o src).ok operand, rfl⟩
    obtain ⟨value, target, read, body⟩ := operand
    refine ⟨read, fun past => body.trans (run_near_past read target past), fun inside w s2 slot => ⟨?_, ?_⟩⟩
    · rw [retWord_one, ← read.1.eipNext]
      exact body.trans (run_near_inside read target inside
        ((bind_ok (look_run s1 _)).trans (bind_ok (push_run slot s1.eipNext))))
    · exact push_accessed read slot s.eipNext
  · have read := (readOnly_access.stackRead 0 o.bytes).ok top
    have body : exec i s = run (nearRet o n) s := by rcases form with ⟨rfl, rfl⟩ | rfl <;> rfl
    exact ⟨read, body.trans (run_near read top (bind_ok (change_run s1 _)))⟩

/-! ## Far JMP and CALL in protected mode -/

section
variable {call : Bool} {i : Instr} {o : OpSize} {off : Word} {sel : BitVec 16} {s s1 t : State} (hp : s.pe = true)
  (operand : FarOperand call i o off sel s s1)
include operand

/-- Once its far pointer is there, a JMP or CALL runs its transfer (rule R283). -/
theorem exec_far_run : exec i s = run (farTransfer call o sel off) s1 := by
  rcases operand with ⟨v, rfl, rfl, rfl, rfl⟩ | ⟨m, pointer, rfl⟩
  · cases call <;> rfl
  · have memory : memOnly (.mem m) s = .ok m s := pure_run s m
    have read := (readOnly_access.readFarPtr o m).ok pointer
    have opened : run (do let m ← memOnly (.mem m); let (off, sel) ← readFarPtr o m; farTransfer call o sel off) s =
        run (farTransfer call o sel off) s1 := by
      rw [run_of_readOnly (ReadOnly.refl s) memory, run_of_readOnly read pointer]
    cases call <;> exact opened

include hp

theorem farTo_protected : farTo call o sel off s1 = farProtected call o sel off s1 := by
  rw [farTo, bind_ok (look_run s1 _), operand.readOnly.1.pe.trans hp]
  rfl

/-- The high-address latch falls when the transfer completes (rule R66). -/
theorem exec_far_next (h : farProtected call o sel off s1 = .ok .transfer t) :
    exec i s = .next (s.jumps { t with highLatch := false }) := by
  rw [exec_far_run operand, ← operand.readOnly.1.jumps]
  exact run_ok (bind_ok ((farTo_protected hp operand).trans h))

theorem exec_far_exc {e : Exc} (h : farProtected call o sel off s1 = .error (.exc e) t) :
    exec i s = takeException e t := by
  rw [exec_far_run operand]
  exact run_exc (bind_error ((farTo_protected hp operand).trans h))

theorem exec_far_refused {r : Refusal} (h : farProtected call o sel off s1 = .error (.refuse r) t) :
    exec i s = .refused r := by
  rw [exec_far_run operand]
  exact run_refused (bind_error ((farTo_protected hp operand).trans h))

end

/-! ### The descriptor that the selector names (rule R283) -/

section
variable {call : Bool} {o : OpSize} {off : Word} {sel : BitVec 16} {d : Desc} {s t : State}

theorem farProtected_null (null : isNull sel = true) :
    farProtected call o sel off s = .error (.exc (excGP (.sel 0))) s :=
  bind_error (require_error (by rw [null]; rfl))

variable (named : isNull sel = false)
include named

theorem farProtected_outside (found : fetchDesc sel s = .ok none t) :
    farProtected call o sel off s = .error (.exc (excGP (.sel (sel &&& 0xFFFC)))) t := by
  rw [← selErr_false]
  exact (bind_ok (require_ok (by rw [named]; rfl))).trans (bind_error (fetchOr_of_none found))

variable (found : fetchDesc sel s = .ok (some d) t)
include found

theorem farProtected_code (code : d.isCode = true) :
    farProtected call o sel off s = directFar call o sel off d t :=
  (bind_ok (require_ok (by rw [named]; rfl))).trans ((bind_ok (fetchOr_of_some found)).trans (congrFun (if_pos code) t))

theorem farProtected_data (segment : d.s = true) (data : d.isCode = false) :
    farProtected call o sel off s = .error (.exc (excGP (.sel (sel &&& 0xFFFC)))) t := by
  rw [← selErr_false]
  exact (bind_ok (require_ok (by rw [named]; rfl))).trans ((bind_ok (fetchOr_of_some found)).trans
    ((congrFun (if_neg (Bool.eq_false_iff.mp data)) t).trans (bind_error (require_error (by rw [segment]; rfl)))))

/-- What the type of a system descriptor makes of the transfer (rules R283, R327; decision D21). -/
theorem farProtected_system (system : d.s = false) : farProtected call o sel off s = (
    if d.type == 12 then viaCallGate call sel d
    else if d.type == 5 then do
      viaTaskGate (farKind call) sel d
      return .transferKeepRf
    else if d.type == 9 || d.type == 11 then do
      viaTss (farKind call) sel d
      return .transferKeepRf
    else if d.type == 1 || d.type == 3 || d.type == 4 then refuse .descriptor286
    else raise (excGP (.sel (sel &&& 0xFFFC))) : M Done) t := by
  have noCode : ¬ d.isCode = true := by simp [Desc.isCode, system]
  rw [← selErr_false]
  exact (bind_ok (require_ok (by rw [named]; rfl))).trans ((bind_ok (fetchOr_of_some found)).trans
    ((congrFun (if_neg noCode) t).trans (bind_ok (require_ok (by rw [system]; rfl)))))

theorem farProtected_gate (system : d.s = false) (gate : d.type = 12) :
    farProtected call o sel off s = viaCallGate call sel d t := by
  rw [farProtected_system named found system, gate]
  rfl

theorem farProtected_format286 (system : d.s = false) (format : d.type ∈ [1, 3, 4]) :
    farProtected call o sel off s = .error (.refuse .descriptor286) t := by
  rw [farProtected_system named found system]
  simp only [List.mem_cons, List.not_mem_nil, or_false] at format
  rcases format with h | h | h <;> rw [h] <;> rfl

theorem farProtected_other (system : d.s = false) (other : d.type ∉ [1, 3, 4, 5, 9, 11, 12]) :
    farProtected call o sel off s = .error (.exc (excGP (.sel (sel &&& 0xFFFC)))) t := by
  rw [farProtected_system named found system]
  simp only [List.mem_cons, List.not_mem_nil, or_false, not_or] at other
  simp only [Bool.or_eq_true, beq_iff_eq, other, or_self, if_false, raise_run]

end

/-! ### The transfer without a change of level (rules R284, R287, R295) -/

section
variable {o : OpSize} {off : Word} {sel : BitVec 16} {d : Desc} {pa : List Nat} {s s1 : State}

theorem sameLevel_past (call : Bool) (past : ¬ off ≤ d.limit) :
    sameLevel call o sel off d s = .error (.exc (excGP (.sel 0))) s :=
  bind_error (require_error (decide_eq_false past))

variable (hp : s.pe = true) (inside : off ≤ d.limit)
include hp

theorem enterCode_run : enterCode d pa sel off s = .ok () ((s.markA d pa).enters d sel s.cpl off) := by
  have level : (s.markA d pa).level = s.cpl := by rw [level_of_pe (by simpa [State.pe] using hp), State.markA_cpl]
  rw [← level]
  rfl

include inside

theorem sameLevel_jmp (write : prepareA d s = .ok pa s1) :
    sameLevel false o sel off d s = .ok .transfer ((s1.markA d pa).enters d sel s.cpl off) := by
  have read := (readOnly_access.prepareA d).ok write
  rw [← read.1.cpl]
  exact (bind_ok (require_ok (decide_eq_true inside))).trans ((bind_ok (m := prepareRet false o) rfl).trans
    ((bind_ok write).trans ((bind_ok (m := pushRet false o []) rfl).trans (bind_ok (enterCode_run (read.1.pe.trans hp))))))

/-- CALL pushes CS and the next offset, all of it translated before anything changes (rules R276, R287). -/
theorem sameLevel_call {ws : List Win} {c : Word} {s2 s3 : State}
    (slots : preparePushes true [o.bytes, o.bytes] s = .ok ws s1) (write : prepareA d s1 = .ok pa s2)
    (selector : pushedSel o s.seg.cs.sel s2 = .ok c s3) :
    sameLevel true o sel off d s = .ok .transfer
      ((((s3.puts ws [c, s.eipNext]).markA d pa).moveSp (-(retWord o 2))).enters d sel s.cpl off) := by
  have read := ((readOnly_access.preparePushes true _).ok slots).trans ((readOnly_access.prepareA d).ok write)
  have stored := (Accessed.ofReadOnly (read.trans ((readOnly_access.pushedSel o _).ok selector)) _).trans
    (puts_accessed (preparePushes_phys slots).1 [c, s.eipNext] s3)
  have pushed : pushRet true o ws s2 = .ok () ((s3.puts ws [c, s.eipNext]).moveSp (-(retWord o 2))) := by
    rw [← read.1.seg] at selector
    rw [← read.1.eipNext]
    exact (bind_ok (get_run s2)).trans (bind_ok selector)
  have entered := enterCode_run (d := d) (pa := pa) (sel := sel) (off := off)
    (s := (s3.puts ws [c, s.eipNext]).moveSp (-(retWord o 2))) (stored.1.pe.trans hp)
  rw [markA_moveSp, State.moveSp_cpl, stored.1.cpl] at entered
  exact (bind_ok (require_ok (decide_eq_true inside))).trans ((bind_ok (m := prepareRet true o) slots).trans
    ((bind_ok write).trans ((bind_ok pushed).trans (bind_ok entered))))

end

/-- The ends of a far JMP or CALL that has come, by reading, to a transfer without a change of level. -/
theorem exec_sameLevel_ends {call : Bool} {i : Instr} {o o' : OpSize} {off off' : Word} {sel sel' : BitVec 16} {d : Desc}
    {s s1 s2 : State} (hp : s.pe = true) (operand : FarOperand call i o off sel s s1) (read : ReadOnly s s2)
    (entry : farProtected call o sel off s1 = sameLevel call o' sel' off' d s2) :
    (¬ off' ≤ d.limit → exec i s = takeException (excGP (.sel 0)) s2) ∧
    (off' ≤ d.limit →
      (call = false → ∀ pa s3, prepareA d s2 = .ok pa s3 →
        exec i s = .next (s.jumps { (s3.markA d pa).enters d sel' s.cpl off' with highLatch := false }) ∧
          Accessed pa s (s3.markA d pa)) ∧
      (call = true → ∀ ws s3 pa s4 c s5, preparePushes true [o'.bytes, o'.bytes] s2 = .ok ws s3 →
        prepareA d s3 = .ok pa s4 → pushedSel o' s.seg.cs.sel s4 = .ok c s5 →
        let u := (s5.puts ws [c, s.eipNext]).markA d pa
        exec i s = .next (s.jumps
            { (u.moveSp (-(retWord o' 2))).enters d sel' s.cpl off' with highLatch := false }) ∧
          Accessed (ws.flatMap (·.phys) ++ pa) s u)) := by
  have hp2 := read.1.pe.trans hp
  refine ⟨fun past => exec_far_exc hp operand (entry.trans (sameLevel_past call past)), fun inside => ⟨?_, ?_⟩⟩
  · rintro rfl pa s3 write
    rw [← read.1.cpl]
    exact ⟨exec_far_next hp operand (entry.trans (sameLevel_jmp hp2 inside write)),
      markA_accessed_of_readOnly (read.trans ((readOnly_access.prepareA d).ok write)) (prepareA_phys write) d⟩
  · rintro rfl ws s3 pa s4 c s5 slots write selector
    rw [← read.1.seg] at selector
    rw [← read.1.cpl, ← read.1.eipNext]
    refine ⟨exec_far_next hp operand (entry.trans (sameLevel_call hp2 inside slots write selector)), ?_⟩
    have opened := ((read.trans ((readOnly_access.preparePushes true _).ok slots)).trans
      ((readOnly_access.prepareA d).ok write)).trans ((readOnly_access.pushedSel o' _).ok selector)
    exact (Accessed.ofReadOnly opened _).trans
      (((puts_accessed (preparePushes_phys slots).1 _ s5).mono (List.subset_append_left _ _)).trans
        ((markA_accessed (prepareA_phys write) _ d).mono (List.subset_append_right _ _)))

/-! ### Direct transfers (rules R284, R285) -/

/-- What a direct transfer from level `cpl` asks of its code segment besides the presence (rule R285). -/
def Desc.fitsTransfer (d : Desc) (cpl : BitVec 2) (sel : BitVec 16) : Bool :=
  if d.ec then decide (d.dpl ≤ cpl) else decide (d.dpl = cpl ∧ rpl sel ≤ cpl)

/-- The tests of R285 are one test of the descriptor. -/
theorem directFar_eq {s : State} (hp : s.pe = true) (call : Bool) (o : OpSize) (sel : BitVec 16) (off : Word) (d : Desc) :
    directFar call o sel off d s = (do
      require (d.fitsTransfer s.cpl sel) (excGP (.sel (sel &&& 0xFFFC)))
      require d.present (excNP (.sel (sel &&& 0xFFFC)))
      sameLevel call o sel off d : M Done) s := by
  have tests : ((!d.ec || decide (d.dpl ≤ s.cpl)) && (d.ec || d.dpl == s.cpl) && (d.ec || decide (rpl sel ≤ s.cpl))) =
      d.fitsTransfer s.cpl sel := by
    rw [Desc.fitsTransfer, Bool.eq_iff_iff]
    cases d.ec <;> simp
  rw [directFar, bind_ok (look_run s _), level_of_pe hp, require_require, require_require, tests, selErr_false]

/-- Settles O31: what the selector names, then the tests of a code segment, then the transfer. -/
theorem farTransfersDirect : Obligations.FarTransfersDirect := by
  intro call i o off sel s s1 hp operand
  refine ⟨fun null => exec_far_exc hp operand (farProtected_null null), fun named r s2 found => ?_⟩
  have read := operand.readOnly.trans ((readOnly_access.fetchDesc sel).ok found)
  refine ⟨read, ?_⟩
  cases r with
  | none => exact exec_far_exc hp operand (farProtected_outside named found)
  | some d =>
    refine ⟨fun segment data => exec_far_exc hp operand (farProtected_data named found segment data),
      fun system other => exec_far_exc hp operand (farProtected_other named found system other),
      fun system format => exec_far_refused hp operand (farProtected_format286 named found system format), fun code => ?_⟩
    have direct := (farProtected_code (o := o) (off := off) named found code).trans
      (directFar_eq (read.1.pe.trans hp) call o sel off d)
    rw [read.1.cpl] at direct
    have tested (fit : d.fitsTransfer s.cpl sel = true) := direct.trans (bind_ok (require_ok fit))
    have checked (fit : d.fitsTransfer s.cpl sel = true) (there : d.present = true) :=
      exec_sameLevel_ends hp operand read ((tested fit).trans (bind_ok (require_ok there)))
    exact ⟨fun unfit => exec_far_exc hp operand (direct.trans (bind_error (require_error unfit))),
      fun fit gone => exec_far_exc hp operand ((tested fit).trans (bind_error (require_error gone))),
      fun fit there => (checked fit there).1, fun fit there => (checked fit there).2⟩

/-! ### Call gates (rules R290 to R295) -/

/-- What a transfer through a call gate asks of its target besides the presence (rule R293). -/
def Desc.fitsGate (t : Desc) (call : Bool) (cpl : BitVec 2) : Bool :=
  t.isCode && decide (t.dpl ≤ cpl) && (call || t.ec || decide (t.dpl = cpl))

/-- A call gate that has been found usable: its target, then the transfer (rules R293, R295, R296). -/
def throughGate (call : Bool) (g : Desc) (cpl : BitVec 2) : M Done := do
  let t ← gateTarget call g.gateSel
  if call && !t.ec && t.dpl < cpl then innerCall g.gateSel g.gateOff g.gateCount t
  else sameLevel call .w32 g.gateSel g.gateOff t

section
variable {call : Bool} {sel : BitVec 16} {g t : Desc} {s s1 : State}

theorem throughGate_null (cpl : BitVec 2) (null : isNull g.gateSel = true) :
    throughGate call g cpl s = .error (.exc (excGP (.sel 0))) s :=
  bind_error ((bind_ok (look_run s _)).trans (bind_error (require_error (by rw [null]; rfl))))

theorem throughGate_outside (cpl : BitVec 2) (named : isNull g.gateSel = false)
    (found : fetchDesc g.gateSel s = .ok none s1) :
    throughGate call g cpl s = .error (.exc (excGP (.sel (g.gateSel &&& 0xFFFC)))) s1 := by
  rw [← selErr_false]
  exact bind_error ((bind_ok (look_run s _)).trans ((bind_ok (require_ok (by rw [named]; rfl))).trans
    (bind_error (fetchOr_of_none found))))

variable (hp : s.pe = true)
include hp

theorem viaCallGate_denied (denied : ¬ (s.cpl ≤ g.dpl ∧ rpl sel ≤ g.dpl)) :
    viaCallGate call sel g s = .error (.exc (excGP (.sel (sel &&& 0xFFFC)))) s := by
  rw [← selErr_false]
  refine (bind_ok (look_run s _)).trans (bind_error (require_error ?_))
  rwa [level_of_pe hp, decide_eq_false_iff_not, maxLevel_le]

section
variable (usable : s.cpl ≤ g.dpl ∧ rpl sel ≤ g.dpl)
include usable

theorem viaCallGate_usable : viaCallGate call sel g s = (do
    require g.present (excNP (.sel (sel &&& 0xFFFC)))
    throughGate call g s.cpl : M Done) s := by
  rw [viaCallGate, bind_ok (look_run s _), level_of_pe hp, selErr_false]
  exact bind_ok (require_ok (decide_eq_true (maxLevel_le.mpr usable)))

theorem viaCallGate_absent (absent : g.present = false) :
    viaCallGate call sel g s = .error (.exc (excNP (.sel (sel &&& 0xFFFC)))) s :=
  (viaCallGate_usable hp usable).trans (bind_error (require_error absent))

theorem viaCallGate_present (there : g.present = true) : viaCallGate call sel g s = throughGate call g s.cpl s :=
  (viaCallGate_usable hp usable).trans (bind_ok (require_ok there))

end

variable (named : isNull g.gateSel = false) (found : fetchDesc g.gateSel s = .ok (some t) s1)
include named found

/-- The tests of R293 are one test of the target. -/
theorem gateTarget_found : gateTarget call g.gateSel s = (do
    require (t.fitsGate call s.cpl) (excGP (.sel (g.gateSel &&& 0xFFFC)))
    require t.present (excNP (.sel (g.gateSel &&& 0xFFFC)))
    return t : M Desc) s1 := by
  have tests : (t.isCode && decide (t.dpl ≤ s.cpl) && (call || t.ec || t.dpl == s.cpl)) = t.fitsGate call s.cpl := rfl
  refine (bind_ok (look_run s _)).trans ((bind_ok (require_ok (by rw [named]; rfl))).trans
    ((bind_ok (fetchOr_of_some found)).trans ?_))
  rw [require_require, require_require, level_of_pe hp, tests, selErr_false]

theorem throughGate_unfit (unfit : t.fitsGate call s.cpl = false) :
    throughGate call g s.cpl s = .error (.exc (excGP (.sel (g.gateSel &&& 0xFFFC)))) s1 :=
  bind_error ((gateTarget_found hp named found).trans (bind_error (require_error unfit)))

variable (fit : t.fitsGate call s.cpl = true)
include fit

theorem throughGate_absent (absent : t.present = false) :
    throughGate call g s.cpl s = .error (.exc (excNP (.sel (g.gateSel &&& 0xFFFC)))) s1 :=
  bind_error ((gateTarget_found hp named found).trans
    ((bind_ok (require_ok fit)).trans (bind_error (require_error absent))))

theorem gateTarget_ok (there : t.present = true) : gateTarget call g.gateSel s = .ok t s1 :=
  (gateTarget_found hp named found).trans ((bind_ok (require_ok fit)).trans (bind_ok (require_ok there)))

theorem throughGate_same (there : t.present = true) (same : (call && !t.ec && decide (t.dpl < s.cpl)) = false) :
    throughGate call g s.cpl s = sameLevel call .w32 g.gateSel g.gateOff t s1 :=
  (bind_ok (gateTarget_ok hp named found fit there)).trans (congrFun (if_neg (Bool.eq_false_iff.mp same)) s1)

theorem throughGate_inner (there : t.present = true) (inner : (call && !t.ec && decide (t.dpl < s.cpl)) = true) :
    throughGate call g s.cpl s = innerCall g.gateSel g.gateOff g.gateCount t s1 :=
  (bind_ok (gateTarget_ok hp named found fit there)).trans (congrFun (if_pos inner) s1)

end

/-- A code segment that keeps the level may be entered through a gate, and no inner stack is needed (rule R295). -/
theorem Desc.fitsGate_of_same {t : Desc} {cpl : BitVec 2} (code : t.isCode = true)
    (level : if t.ec then t.dpl ≤ cpl else t.dpl = cpl) (call : Bool) :
    t.fitsGate call cpl = true ∧ (call && !t.ec && decide (t.dpl < cpl)) = false := by
  rw [fitsGate, code]
  cases conforming : t.ec with
  | true => simpa [conforming] using level
  | false =>
    have equal : t.dpl = cpl := by simpa [conforming] using level
    simp [equal]

/-- Settles O33: the gate's own tests, then those of its target, then the transfer. -/
theorem callGateSameLevel : Obligations.CallGateSameLevel := by
  intro call i o off sel g s s1 s2 hp operand named found system gate
  have read := operand.readOnly.trans ((readOnly_access.fetchDesc sel).ok found)
  have hp2 := read.1.pe.trans hp
  have via := farProtected_gate (call := call) (o := o) (off := off) named found system gate
  refine ⟨fun denied => exec_far_exc hp operand (via.trans (viaCallGate_denied hp2 (read.1.cpl ▸ denied))),
    fun level rplOk => ?_⟩
  have usable : s2.cpl ≤ g.dpl ∧ rpl sel ≤ g.dpl := ⟨read.1.cpl ▸ level, rplOk⟩
  have opens (there : g.present = true) := via.trans (viaCallGate_present hp2 usable there)
  refine ⟨fun absent => exec_far_exc hp operand (via.trans (viaCallGate_absent hp2 usable absent)),
    fun there null => exec_far_exc hp operand ((opens there).trans (throughGate_null _ null)),
    fun there named' r s3 found' => ?_⟩
  cases r with
  | none => exact exec_far_exc hp operand ((opens there).trans (throughGate_outside _ named' found'))
  | some t =>
    rw [← read.1.cpl]
    refine ⟨fun unfit => exec_far_exc hp operand ((opens there).trans (throughGate_unfit hp2 named' found' unfit)),
      fun fit gone => exec_far_exc hp operand ((opens there).trans (throughGate_absent hp2 named' found' fit gone)),
      fun code same there' => ?_⟩
    obtain ⟨fit, stays⟩ := Desc.fitsGate_of_same code same call
    have ends := exec_sameLevel_ends hp operand (read.trans ((readOnly_access.fetchDesc g.gateSel).ok found'))
      ((opens there).trans (throughGate_same hp2 named' found' fit there' stays))
    rw [show retWord .w32 2 = 8 from rfl] at ends
    rw [read.1.cpl]
    exact ends

/-! ### The stack of an inner level (rule R297) -/

/-- From the selector of an inner stack on: its tests, with `esp` read beside it. -/
def innerSegment (p : BitVec 2) (ext : Bool) (esp : Word) (sel : BitVec 16) : M (BitVec 16 × Word × Desc) := do
  require (!isNull sel) (excTS (selErr sel ext))
  let d ← fetchOr sel (excTS (selErr sel ext))
  require (rpl sel == p && d.isWritable) (excTS (selErr sel ext))
  require (d.dpl == p) (excSS (nullErr ext))
  require d.present (excSS (selErr sel ext))
  return (sel, esp, d)

theorem needTr_ok {s : State} (loaded : s.tr.loaded = true) : needTr s = .ok () s :=
  (bind_ok (get_run s)).trans (congrFun (if_pos loaded) s)

/-- What needs a TSS is refused where TR was never loaded (U23). -/
theorem needTr_error {s : State} (never : s.tr.loaded = false) : needTr s = .error (.refuse .trNeverLoaded) s :=
  (bind_ok (get_run s)).trans (congrFun (if_neg (Bool.eq_false_iff.mp never)) s)

section
variable {p : BitVec 2} {ext : Bool} {esp : Word} {s s1 s2 : State}

theorem innerStack_neverLoaded (never : s.tr.loaded = false) :
    innerStack p ext s = .error (.refuse .trNeverLoaded) s :=
  bind_error (needTr_error never)

variable (loaded : s.tr.loaded = true)
include loaded

theorem innerStack_short (short : s.tr.limit.toNat < 4 + 8 * p.toNat + 5) :
    innerStack p ext s = .error (.exc (excTS (selErr s.tr.sel ext))) s :=
  (bind_ok (needTr_ok loaded)).trans ((bind_ok (get_run s)).trans
    (bind_error (require_error (decide_eq_false (Nat.not_le.mpr short)))))

/-- A slot inside the TSS is read, ESP and then the selector. -/
theorem innerStack_slot {v : Word} (inside : 4 + 8 * p.toNat + 5 ≤ s.tr.limit.toNat)
    (pointer : sysRead (s.tr.base + BitVec.ofNat 32 (4 + 8 * p.toNat)) 4 s = .ok esp s1)
    (selector : sysRead (s.tr.base + BitVec.ofNat 32 (4 + 8 * p.toNat + 4)) 2 s1 = .ok v s2) :
    innerStack p ext s = innerSegment p ext esp (lo16 v) s2 := by
  refine (bind_ok (needTr_ok loaded)).trans ((bind_ok (get_run s)).trans
    ((bind_ok (require_ok (decide_eq_true inside))).trans ((bind_ok pointer).trans ((bind_ok selector).trans ?_))))
  simp only [innerSegment, require_require]

end

section
variable {p : BitVec 2} {ext : Bool} {esp : Word} {sel : BitVec 16} {s t : State}

theorem innerSegment_null (null : isNull sel = true) :
    innerSegment p ext esp sel s = .error (.exc (excTS (selErr sel ext))) s :=
  bind_error (require_error (by rw [null]; rfl))

variable (named : isNull sel = false)
include named

theorem innerSegment_outside (found : fetchDesc sel s = .ok none t) :
    innerSegment p ext esp sel s = .error (.exc (excTS (selErr sel ext))) t :=
  (bind_ok (require_ok (by rw [named]; rfl))).trans (bind_error (fetchOr_of_none found))

/-- The tests of an inner stack's descriptor, in their order. -/
theorem innerSegment_found {d : Desc} (found : fetchDesc sel s = .ok (some d) t) : innerSegment p ext esp sel s =
    if rpl sel ≠ p ∨ d.isWritable = false then .error (.exc (excTS (selErr sel ext))) t
    else if d.dpl ≠ p then .error (.exc (excSS (.sel (extBit ext)))) t
    else if d.present = false then .error (.exc (excSS (selErr sel ext))) t
    else .ok (sel, esp, d) t := by
  refine (bind_ok (require_ok (by rw [named]; rfl))).trans ((bind_ok (fetchOr_of_some found)).trans ?_)
  split
  next unfit =>
    exact bind_error (require_error (by rcases unfit with h | h <;> simp [h]))
  next fit =>
    rw [not_or, not_not, Bool.not_eq_false] at fit
    refine (bind_ok (require_ok (by simp [fit]))).trans ?_
    split
    next outer => exact bind_error (require_error (by simp [outer]))
    next equal =>
      rw [bind_ok (require_ok (by simpa using equal))]
      cases d.present <;> rfl

end

/-! ### CALL to an inner level (rules R296, R299) -/

theorem Access.readParams {R : Rel} (A : Access R) (k n : Nat) : Does R (Machine.readParams k n) := by
  induction n generalizing k with
  | zero => exact Does.pure _
  | succ n ih => exact Does.bind (A.stackRead _ _) fun _ => Does.bind (ih _) fun _ => Does.pure _

/-- What only reads, and then sets two accessed bits, writes nothing else. -/
theorem markA_markA_accessed {d d' : Desc} {ps qs : List Nat} {s s1 : State} (read : ReadOnly s s1)
    (space : ∀ p ∈ ps, p < physSize) (space' : ∀ p ∈ qs, p < physSize) :
    Accessed (ps ++ qs) s ((s1.markA d ps).markA d' qs) :=
  ((markA_accessed_of_readOnly read space d).mono (List.subset_append_left _ _)).trans
    ((markA_accessed space' _ d').mono (List.subset_append_right _ _))

section
variable {sel nss : BitVec 16} {off nesp : Word} {count : Nat} {t sd : Desc} {ps : List Word} {s s1 s2 u : State} {e : Exc}

theorem innerCall_stack_exc (bad : innerStack t.dpl false s = .error (.exc e) u) :
    innerCall sel off count t s = .error (.exc e) u := bind_error bad

variable (stack : innerStack t.dpl false s = .ok (nss, nesp, sd) s1)
include stack

theorem innerCall_noRoom (small : stackRoom (sd.cache nss) nesp (4 * (4 + count)) = false) :
    innerCall sel off count t s = .error (.exc (excSS (.sel (nss &&& 0xFFFC)))) s1 := by
  rw [← selErr_false]
  exact (bind_ok stack).trans (bind_error (require_error small))

variable (room : stackRoom (sd.cache nss) nesp (4 * (4 + count)) = true)
include room

theorem innerCall_params_exc (bad : readParams 0 count s1 = .error (.exc e) u) :
    innerCall sel off count t s = .error (.exc e) u :=
  (bind_ok stack).trans ((bind_ok (require_ok room)).trans (bind_error bad))

variable (params : readParams 0 count s1 = .ok ps s2)
include params

theorem innerCall_past (past : ¬ off ≤ t.limit) :
    innerCall sel off count t s = .error (.exc (excGP (.sel 0))) s2 :=
  (bind_ok stack).trans ((bind_ok (require_ok room)).trans ((bind_ok params).trans
    (bind_error (require_error (decide_eq_false past)))))

/-- What is pushed on the inner stack is what stood in the registers when the CALL began. -/
theorem innerCall_done {pa pb : List Nat} {ws : List Win} {oldSs oldCs : Word} {s3 s4 s5 s6 s7 : State}
    (inside : off ≤ t.limit) (write : prepareA t s2 = .ok pa s3) (write' : prepareA sd s3 = .ok pb s4)
    (slots : innerWindows true (sd.cache nss) nesp 0 (List.replicate (4 + count) 4) s4 = .ok ws s5)
    (ss : pushedSel .w32 s.seg.ss.sel s5 = .ok oldSs s6) (cs : pushedSel .w32 s.seg.cs.sel s6 = .ok oldCs s7) :
    let v := ((s7.markA t pa).markA sd pb).puts ws ([oldSs, s.gpr.esp] ++ ps.reverse ++ [oldCs, s.eipNext])
    innerCall sel off count t s = .ok .transfer
        { (v.setInner (sd.cache nss) nesp (4 * (4 + count))).enters t sel t.dpl off with cpl := t.dpl } ∧
      Accessed (pa ++ pb ++ ws.flatMap (·.phys)) s v := by
  have read : ReadOnly s s5 := (readOnly_access.innerStack t.dpl false).ok stack
    |>.trans ((readOnly_access.readParams 0 count).ok params)
    |>.trans ((readOnly_access.prepareA t).ok write)
    |>.trans ((readOnly_access.prepareA sd).ok write')
    |>.trans ((readOnly_access.innerWindows true _ _ _ _).ok slots)
  have drawn := read.trans (((readOnly_access.pushedSel .w32 _).ok ss).trans ((readOnly_access.pushedSel .w32 _).ok cs))
  refine ⟨?_, ((markA_markA_accessed drawn (prepareA_phys write) (prepareA_phys write')).mono
    (List.subset_append_left _ _)).trans
      ((puts_accessed (innerWindows_phys slots) _ _).mono (List.subset_append_right _ _))⟩
  rw [← read.1.seg] at ss cs
  rw [← read.1.gpr, ← read.1.eipNext]
  exact (bind_ok stack).trans ((bind_ok (require_ok room)).trans ((bind_ok params).trans
    ((bind_ok (require_ok (decide_eq_true inside))).trans ((bind_ok write).trans ((bind_ok write').trans
      ((bind_ok slots).trans ((bind_ok (get_run s5)).trans ((bind_ok ss).trans (bind_ok cs)))))))))

end

/-- Settles O32: the slot in the TSS and its tests, the windows, and then the CALL to the end of each of its checks. -/
theorem callGateInner : Obligations.CallGateInner := by
  refine ⟨fun p ext s =>
      ⟨innerStack_neverLoaded, innerStack_short, fun loaded inside esp s1 v s2 pointer selector => ?_⟩,
    fun c esp n => rfl, fun watch c esp k n ns s s1 s2 phys ws => ⟨rfl, fun range rest => ?_⟩, ?_⟩
  · rw [innerStack_slot loaded inside pointer selector]
    refine ⟨innerSegment_null, fun named r s3 found => ?_⟩
    cases r with
    | none => exact innerSegment_outside named found
    | some d => exact innerSegment_found named found
  · exact (bind_ok range).trans (bind_ok rest)
  · intro i o off sel g t s s1 s2 s3 hp operand named found system gate level rplOk there named' found' code nonconforming
      inner there'
    have read := operand.readOnly.trans ((readOnly_access.fetchDesc sel).ok found)
    have read' := read.trans ((readOnly_access.fetchDesc g.gateSel).ok found')
    have hp2 := read.1.pe.trans hp
    rw [← read.1.cpl] at level inner
    have fit : t.fitsGate true s2.cpl = true := by simp [Desc.fitsGate, code, BitVec.le_of_lt inner]
    have deeper : (true && !t.ec && decide (t.dpl < s2.cpl)) = true := by simp [nonconforming, inner]
    have body := (farProtected_gate (call := true) (o := o) (off := off) named found system gate).trans
      ((viaCallGate_present hp2 ⟨level, rplOk⟩ there).trans (throughGate_inner hp2 named' found' fit there' deeper))
    refine ⟨fun e u bad => exec_far_exc hp operand (body.trans (innerCall_stack_exc bad)), fun nss nesp sd s4 stack =>
      ⟨fun small => exec_far_exc hp operand (body.trans (innerCall_noRoom stack small)), fun room =>
        ⟨fun e u bad => exec_far_exc hp operand (body.trans (innerCall_params_exc stack room bad)), fun ps s5 params =>
          ⟨fun past => exec_far_exc hp operand (body.trans (innerCall_past stack room params past)), ?_⟩⟩⟩⟩
    intro within pa s6 pb s7 ws s8 oldSs s9 oldCs s10 write write' slots ss cs
    rw [← read'.1.seg] at ss cs
    obtain ⟨done, stored⟩ := innerCall_done (sel := g.gateSel) stack room params within write write' slots ss cs
    rw [read'.1.gpr, read'.1.eipNext] at done stored
    exact ⟨exec_far_next hp operand (body.trans done), (Accessed.ofReadOnly read' _).trans stored⟩

end Sys2Proof.Machine

/-! SUPPORT. Returns to an outer level, and IRET: the registers that become null, the outer stack segment, and the ends of
a return that far RET and IRET share. -/

namespace Sys2Proof.Machine

/-! ## Data-segment registers at an outer level (rule R306) -/

/-- A data-segment register at level `p`: null where it was more privileged and not conforming code. -/
def SegCache.atLevel (c : SegCache) (p : BitVec 2) : SegCache :=
  if c.valid && decide (c.dpl < p) && !(c.exec && c.ec) then { c with sel := 0, valid := false } else c

theorem setSegOf_segOf (s : State) (x : SegReg) : s.setSegOf x (s.segOf x) = s := by cases x <;> rfl

theorem nullIfInaccessible_eq (s : State) (x : SegReg) :
    s.nullIfInaccessible x = s.setSegOf x ((s.segOf x).atLevel s.cpl) := by
  rw [State.nullIfInaccessible, SegCache.atLevel]
  split
  · rfl
  · exact (setSegOf_segOf s x).symm

/-- All four at once, CS and SS left alone. -/
theorem nullOuter_eq (s : State) : s.nullOuter = { s with seg := { s.seg with
    ds := s.seg.ds.atLevel s.cpl, es := s.seg.es.atLevel s.cpl, fs := s.seg.fs.atLevel s.cpl,
    gs := s.seg.gs.atLevel s.cpl } } := by
  simp only [State.nullOuter, nullIfInaccessible_eq]
  rfl

theorem nullOuter_segOf (s : State) {x : SegReg} (hc : x ≠ .cs) (hs : x ≠ .ss) :
    s.nullOuter.segOf x = (s.segOf x).atLevel s.cpl := by
  rw [nullOuter_eq]
  cases x with
  | cs => exact absurd rfl hc
  | ss => exact absurd rfl hs
  | es | ds | fs | gs => rfl

/-! ## The stack segment that an interlevel return names (rows 10 to 15 of Table 6-3) -/

/-- What an interlevel return with RPL `p` asks of its stack segment besides the presence. -/
def Desc.fitsOuterStack (d : Desc) (rss : BitVec 16) (p : BitVec 2) : Bool :=
  d.isWritable && decide (d.dpl = p) && decide (rpl rss = p)

theorem Desc.fitsOuterStack_iff {d : Desc} {rss : BitVec 16} {p : BitVec 2} :
    d.fitsOuterStack rss p = true ↔ d.isWritable = true ∧ d.dpl = p ∧ rpl rss = p := by
  simp only [fitsOuterStack, Bool.and_eq_true, decide_eq_true_eq, and_assoc]

section
variable {rss rcs : BitVec 16} {d : Desc} {s t : State}

theorem returnStack_null (null : isNull rss = true) :
    returnStack rss rcs s = .error (.exc (excGP (.sel 0))) s :=
  bind_error (require_error (by rw [null]; rfl))

variable (named : isNull rss = false)
include named

theorem returnStack_outside (found : fetchDesc rss s = .ok none t) :
    returnStack rss rcs s = .error (.exc (excGP (.sel (rss &&& 0xFFFC)))) t := by
  rw [← selErr_false]
  exact (bind_ok (require_ok (by rw [named]; rfl))).trans (bind_error (fetchOr_of_none found))

/-- The tests besides the presence are one test of the descriptor. -/
theorem returnStack_found (found : fetchDesc rss s = .ok (some d) t) : returnStack rss rcs s = (do
    require (d.fitsOuterStack rss (rpl rcs)) (excGP (.sel (rss &&& 0xFFFC)))
    require d.present (excSS (.sel (rss &&& 0xFFFC)))
    return d : M Desc) t := by
  have tests : (d.isWritable && d.dpl == rpl rcs && rpl rss == d.dpl) = d.fitsOuterStack rss (rpl rcs) := by
    rw [Bool.eq_iff_iff, Desc.fitsOuterStack_iff]
    simp only [Bool.and_eq_true, beq_iff_eq, and_assoc]
    exact and_congr_right fun _ => and_congr_right fun h => by rw [h]
  refine (bind_ok (require_ok (by rw [named]; rfl))).trans ((bind_ok (fetchOr_of_some found)).trans ?_)
  rw [require_require, require_require, tests, selErr_false]

end

/-- A test of a descriptor and then that of its presence. -/
theorem require_present {P : Prop} [Decidable P] {fit there : Bool} {unfit absent : Exc} {d : Desc} {s : State}
    (h : fit = true ↔ P) : (do require fit unfit; require there absent; return d : M Desc) s =
      if ¬ P then .error (.exc unfit) s else if there = false then .error (.exc absent) s else .ok d s := by
  cases fit with
  | false =>
    rw [if_pos fun holds => Bool.false_ne_true (h.mpr holds)]
    rfl
  | true =>
    rw [if_neg (not_not.mpr (h.mp rfl))]
    cases there <;> rfl

theorem returnStack_readOnly (rss rcs : BitVec 16) : Does readOnly (returnStack rss rcs) := by
  refine Does.bind (Does.require _ _) fun _ => Does.bind (readOnly_access.fetchOr _ _) fun _ => ?_
  iterate 4 refine Does.bind (Does.require _ _) fun _ => ?_
  exact Does.pure _

/-! ## The interlevel end of a return (rules R305, R424) -/

/-- CS:EIP and SS:ESP loaded at the level of the return's RPL, and the data-segment registers with them. -/
def State.returnsOuter (u : State) (d sd : Desc) (rcs rss : BitVec 16) (eip esp : Word) : State :=
  let w := (u.setSegOf .cs (d.cache rcs)).setSegOf .ss (sd.cache rss)
  State.nullOuter { w with cpl := rpl rcs, eip := eip, gpr := { w.gpr with esp := esp } }

section
variable {o : OpSize} {eip k n esp v : Word} {rcs : BitVec 16} {d sd : Desc} {s s1 s2 s3 t : State}
  (pointer : stackRead k o.bytes s = .ok esp s1) (selector : stackRead (k + retWord o 1) o.bytes s1 = .ok v s2)
include pointer selector

theorem returnOuter_stack_exc {e : Exc} (bad : returnStack (lo16 v) rcs s2 = .error (.exc e) t) :
    returnOuter o eip rcs d k n s = .error (.exc e) t :=
  (bind_ok pointer).trans ((bind_ok selector).trans (bind_error bad))

variable (stack : returnStack (lo16 v) rcs s2 = .ok sd s3)
include stack

theorem returnOuter_past (past : ¬ eip ≤ d.limit) :
    returnOuter o eip rcs d k n s = .error (.exc (excGP (.sel 0))) s3 :=
  (bind_ok pointer).trans ((bind_ok selector).trans ((bind_ok stack).trans
    (bind_error (require_error (decide_eq_false past)))))

theorem returnOuter_inside {pa pb : List Nat} {s4 s5 : State} (inside : eip ≤ d.limit)
    (write : prepareA d s3 = .ok pa s4) (write' : prepareA sd s4 = .ok pb s5) :
    returnOuter o eip rcs d k n s = .ok () (((s5.markA d pa).markA sd pb).returnsOuter d sd rcs (lo16 v) eip
      (stackSet (sd.cache (lo16 v)).big esp (esp + n))) :=
  (bind_ok pointer).trans ((bind_ok selector).trans ((bind_ok stack).trans
    ((bind_ok (require_ok (decide_eq_true inside))).trans ((bind_ok write).trans (bind_ok write')))))

end

/-- A computation that goes on as another does, where its first part has come to another's. -/
theorem bind_of_eq {α β : Type} {m m' : M α} {f : α → M β} {s t : State} (h : m s = m' t) :
    (m >>= f) s = (m' >>= f) t := by
  rw [bind_run, bind_run, h]

/-- The ends of an instruction that has come, by reading, to an interlevel return, and then does `rest`, which changes
the state by `after`. -/
theorem run_returnOuter_ends {body rest : M Done} {done : Done} {after : State → State} {o : OpSize} {eip k n : Word}
    {rcs : BitVec 16} {d : Desc} {s s0 : State} (rested : ∀ t, rest t = .ok done (after t)) (read : ReadOnly s s0)
    (entry : body s = (do returnOuter o eip rcs d k n; rest : M Done) s0) :
    ∀ esp v s1 s2, stackRead k o.bytes s0 = .ok esp s1 → stackRead (k + retWord o 1) o.bytes s1 = .ok v s2 →
      let rss := lo16 v
      (∀ e t, returnStack rss rcs s2 = .error (.exc e) t → run body s = takeException e t) ∧
      ∀ sd s3, returnStack rss rcs s2 = .ok sd s3 →
        (¬ eip ≤ d.limit → run body s = takeException (excGP (.sel 0)) s3) ∧
        (eip ≤ d.limit → ∀ pa pb s4 s5, prepareA d s3 = .ok pa s4 → prepareA sd s4 = .ok pb s5 →
          let u := (s5.markA d pa).markA sd pb
          run body s = .next (complete (s.flag bitTF) done (after (u.returnsOuter d sd rcs rss eip
              (stackSet (sd.cache rss).big esp (esp + n))))) ∧
            Accessed (pa ++ pb) s u) := by
  intro esp v s1 s2 pointer selector
  refine ⟨fun e t bad => run_exc (entry.trans (bind_error (returnOuter_stack_exc pointer selector bad))),
    fun sd s3 stack => ⟨fun past => run_exc (entry.trans (bind_error (returnOuter_past pointer selector stack past))),
      fun inside pa pb s4 s5 write write' => ⟨?_, ?_⟩⟩⟩
  · exact run_ok (entry.trans
      ((bind_ok (returnOuter_inside pointer selector stack inside write write')).trans (rested _)))
  · have opened := read
      |>.trans ((readOnly_access.stackRead _ _).ok pointer) |>.trans ((readOnly_access.stackRead _ _).ok selector)
      |>.trans ((returnStack_readOnly _ _).ok stack)
      |>.trans ((readOnly_access.prepareA d).ok write) |>.trans ((readOnly_access.prepareA sd).ok write')
    exact markA_markA_accessed opened (prepareA_phys write) (prepareA_phys write')

/-! ## Far RET to an outer level -/

section
variable {rcs : BitVec 16} {s : State} (hp : s.pe = true) (outer : s.cpl < rpl rcs)
include hp outer

/-- The level of the return is not the level itself. -/
theorem returnLevel_outer : ¬ (rpl rcs == s.level) = true := by
  rw [level_of_pe hp, beq_iff_eq]
  exact (BitVec.ne_of_lt outer).symm

theorem farRetTo_outer (o : OpSize) (eip : Word) (d : Desc) (n : BitVec 16) : farRetTo o eip rcs d n s = (do
    stackRange (s.stackAt 0) (4 * o.bytes + n.toNat)
    returnOuter o eip rcs d (retWord o 2 + zx16 n) (zx16 n) : M Unit) s :=
  (bind_ok (get_run s)).trans (congrFun (if_neg (returnLevel_outer hp outer)) s)

end

/-- The room of the stack, asked for again after reading: the register is as it was. -/
theorem ReadOnly.room {s t : State} (read : ReadOnly s t) (valid : s.seg.ss.valid = true) (n : Nat) :
    (t.seg.ss.valid && limitOk t.seg.ss (t.stackAt 0) n) = limitOk s.seg.ss (s.stackAt 0) n := by
  rw [read.1.seg, read.1.stackAt, valid, Bool.true_and]

/-- Settles O35: the registers that become null, the tests of the stack segment, and then the return. -/
theorem farReturnOuter : Obligations.FarReturnOuter := by
  refine ⟨fun s x hc hs => ⟨nullOuter_segOf s hc hs, by rw [nullOuter_eq]⟩,
    fun rss rcs s => ⟨returnStack_null, fun named r t found => ?_⟩,
    fun i o n eip v d s s1 s2 s3 form hp room offset selector => ?_⟩
  · cases r with
    | none => exact returnStack_outside named found
    | some d => exact (returnStack_found named found).trans (require_present Desc.fitsOuterStack_iff)
  · intro rcs k outer good
    have read := (returnPointer_readOnly offset selector).trans ((readOnly_access.returnSegment _).ok good)
    have body := (farRet_protected (n := n) (fun _ => room) offset selector hp).trans (bind_ok good)
    have toOuter := farRetTo_outer (read.1.pe.trans hp) (read.1.cpl.symm ▸ outer) o eip d n
    have again := read.room (Bool.and_eq_true_iff.mp room).1 (4 * o.bytes + n.toNat)
    rw [exec_retFar form]
    refine ⟨fun small => ?_, fun fits => ?_⟩
    · exact run_exc (body.trans (bind_error (toOuter.trans
        (bind_error (stackRange_error (read.1.pe.trans hp) (again.trans small))))))
    · have reached := toOuter.trans (bind_ok (stackRange_ok fun _ => again.trans fits))
      exact run_returnOuter_ends (after := id) (fun _ => rfl) read (body.trans (bind_of_eq reached))

/-! ## IRET -/

/-- The end of an IRET through the stack: the flags, then the NMI latch (rules R422, R423). -/
def iretEnd (fl : Word) : M Done := do
  change fun s => { s with eflags := fl }
  clearNmi
  return .transferKeepRf

theorem iretEnd_run (fl : Word) (s : State) :
    iretEnd fl s = .ok .transferKeepRf { s with eflags := fl, nmiLatch := false } := rfl

section
variable {o : OpSize} {eip v fl : Word} {s s1 s2 s3 : State}

theorem iretOp_real (hp : s.pe = false) : iretOp o s = iretReal o s :=
  (bind_ok (get_run s)).trans (congrFun (if_pos (by rw [hp]; rfl)) s)

theorem iretOp_stack (hp : s.pe = true) (hn : s.flag 14 = false) : iretOp o s = iretStack o s :=
  (bind_ok (get_run s)).trans ((congrFun (if_neg (by simp [hp])) s).trans
    (congrFun (if_neg (Bool.eq_false_iff.mp hn)) s))

theorem iretStack_noRoom (hp : s.pe = true)
    (h : (s.seg.ss.valid && limitOk s.seg.ss (s.stackAt 0) (3 * o.bytes)) = false) :
    iretStack o s = .error (.exc (excSS (.sel 0))) s :=
  (bind_ok (get_run s)).trans (bind_error (stackRange_error hp h))

section
variable (offset : stackRead 0 o.bytes s = .ok eip s1) (selector : stackRead (retWord o 1) o.bytes s1 = .ok v s2)
  (flags : stackRead (retWord o 2) o.bytes s2 = .ok fl s3)
include offset selector flags

/-- CS:EIP and the flags of an IRET read from the stack. -/
theorem returnFrame_readOnly : ReadOnly s s3 :=
  (returnPointer_readOnly offset selector).trans ((readOnly_access.stackRead _ _).ok flags)

/-- In real-address mode what stands on the stack is loaded as it is (rule R647). -/
theorem iretReal_run (hp : s.pe = false) : iretReal o s = .ok .transferKeepRf
    { (s3.moveSp (retWord o 3)).setSegOf .cs (s.seg.cs.realLoad (lo16 v)) with
      eip := eip, eflags := loadFlags o false 0 s.eflags fl, nmiLatch := false } := by
  have read := returnFrame_readOnly offset selector flags
  have level : s3.level = 0 := by simp [State.level, read.1.pe.trans hp]
  rw [← read.1.seg, ← read.1.eflags, ← level]
  exact (bind_ok offset).trans ((bind_ok selector).trans (bind_ok flags))

/-- In protected mode its code segment is looked at first (rules R421, R424). -/
theorem iretStack_protected (hp : s.pe = true)
    (room : (s.seg.ss.valid && limitOk s.seg.ss (s.stackAt 0) (3 * o.bytes)) = true) : iretStack o s = (do
      let d ← returnSegment (lo16 v)
      iretTo o eip (lo16 v) d (o == .w32 && s.cpl == 0 && fl.getLsbD 17)
      iretEnd (loadFlags o true s.cpl s.eflags fl) : M Done) s3 := by
  rw [← level_of_pe hp]
  exact (bind_ok (get_run s)).trans ((bind_ok (stackRange_ok fun _ => room)).trans
    ((bind_ok offset).trans ((bind_ok selector).trans (bind_ok flags))))

end

/-- An image that would set VM (decision D2): only with 32 bits and at level 0 does VM come from it. -/
theorem setsVm_iff {cpl : BitVec 2} : (o == .w32 && cpl == 0 && fl.getLsbD 17) = true ↔
    o = .w32 ∧ cpl = 0 ∧ fl.getLsbD 17 = true := by
  simp only [Bool.and_eq_true, beq_iff_eq, and_assoc]

end

section
variable {o : OpSize} {eip : Word} {rcs : BitVec 16} {d : Desc} {s : State} (hp : s.pe = true)
include hp

theorem iretTo_same (same : rpl rcs = s.cpl) (vm : Bool) : iretTo o eip rcs d vm s =
    (if vm then refuse .virtual8086 else returnSame eip rcs d (retWord o 3) : M Unit) s :=
  (bind_ok (get_run s)).trans (congrFun (if_pos (by rw [level_of_pe hp, beq_iff_eq]; exact same)) s)

theorem iretTo_outer (outer : s.cpl < rpl rcs) (vm : Bool) : iretTo o eip rcs d vm s = (do
    stackRange (s.stackAt 0) (5 * o.bytes)
    if vm then refuse .virtual8086 else returnOuter o eip rcs d (retWord o 3) 0 : M Unit) s :=
  (bind_ok (get_run s)).trans (congrFun (if_neg (returnLevel_outer hp outer)) s)

end

/-- Settles O46: the three items of the stack, and then what the mode and the code segment make of them. -/
theorem iretSame : Obligations.IretSame := by
  intro o s nt room
  refine ⟨fun hp small => run_exc ((iretOp_stack hp (nt hp)).trans (iretStack_noRoom hp small)),
    fun fits eip v fl s1 s2 s3 offset selector flags => ?_⟩
  have read := returnFrame_readOnly offset selector flags
  refine ⟨read, fun hp => run_ok ((iretOp_real hp).trans (iretReal_run offset selector flags hp)), fun hp => ?_⟩
  have body := (iretOp_stack hp (nt hp)).trans (iretStack_protected offset selector flags hp (fits hp))
  refine ⟨fun e t bad => run_exc (body.trans (bind_error bad)), fun d s4 good same => ?_⟩
  have looked := read.trans ((readOnly_access.returnSegment _).ok good)
  have entry := body.trans (bind_ok good)
  have ending (vm : Bool) :=
    iretTo_same (o := o) (eip := eip) (d := d) (looked.1.pe.trans hp) (same.trans looked.1.cpl.symm) vm
  have passes (noVm : ¬ (o = .w32 ∧ s.cpl = 0 ∧ fl.getLsbD 17 = true)) : iretOp o s = (do
      returnSame eip (lo16 v) d (retWord o 3)
      iretEnd (loadFlags o true s.cpl s.eflags fl) : M Done) s4 := by
    rw [Bool.eq_false_iff.mpr (mt setsVm_iff.mp noVm)] at entry
    exact entry.trans (bind_of_eq (ending false))
  refine ⟨fun vm => ?_, fun noVm past => run_exc ((passes noVm).trans (bind_error (returnSame_outside past))),
    fun noVm inside pa s5 write => ⟨run_ok ((passes noVm).trans (bind_ok (returnSame_inside inside write))), ?_⟩⟩
  · rw [setsVm_iff.mpr vm] at entry
    exact run_refused (entry.trans (bind_error (ending true)))
  · exact markA_accessed_of_readOnly (looked.trans ((readOnly_access.prepareA d).ok write)) (prepareA_phys write) d

/-- Settles O47: the three items of the stack and the code segment, and then a return as of far RET. -/
theorem iretOuter : Obligations.IretOuter := by
  intro o eip v fl d s s1 s2 s3 s4 hp nt room offset selector flags rcs outer good
  have read := (returnFrame_readOnly offset selector flags).trans ((readOnly_access.returnSegment _).ok good)
  have hp4 := read.1.pe.trans hp
  have entry := (iretOp_stack hp nt).trans
    ((iretStack_protected offset selector flags hp room).trans (bind_ok good))
  have ending (vm : Bool) := iretTo_outer (o := o) (eip := eip) (d := d) hp4 (read.1.cpl.symm ▸ outer) vm
  have again := read.room (Bool.and_eq_true_iff.mp room).1 (5 * o.bytes)
  have passed (fits : limitOk s.seg.ss (s.stackAt 0) (5 * o.bytes) = true) :=
    stackRange_ok fun _ : s4.pe = true => again.trans fits
  refine ⟨fun small => ?_, fun fits vm => ?_, fun fits noVm => ?_⟩
  · exact run_exc (entry.trans (bind_error ((ending _).trans (bind_error (stackRange_error hp4 (again.trans small))))))
  · rw [setsVm_iff.mpr vm] at entry
    exact run_refused (entry.trans (bind_error ((ending true).trans (bind_ok (passed fits)))))
  · rw [Bool.eq_false_iff.mpr (mt setsVm_iff.mp noVm)] at entry
    have reached : _ = returnOuter o eip rcs d (retWord o 3) 0 s4 := (ending false).trans (bind_ok (passed fits))
    have ends := run_returnOuter_ends (iretEnd_run _) read (entry.trans (bind_of_eq reached))
    simp only [add_zero] at ends
    exact ends

end Sys2Proof.Machine

/-! SUPPORT. The ways to a task switch (44_task_switch.md rules R330 to R332, R344, R349, R548). -/

namespace Sys2Proof.Machine

/-! ## The descriptor that a task gate or a back link names (rules R331, R332) -/

section
variable {kind : SwitchKind} {sel : BitVec 16} {ext rf : Bool} {ret : Word} {err : Option Word} {d : Desc} {s t : State}

/-- An 80386 TSS goes on, an 80286 TSS stops (decision D21), and anything else raises the exception. -/
theorem tssTests_run (d : Desc) (e : Exc) (m : M Unit) (t : State) :
    (do
      require (!d.s) e
      if d.type == 1 || d.type == 3 then refuse .descriptor286 else
      require (d.type == 9 || d.type == 11) e
      m : M Unit) t =
    if d.s = false ∧ (d.type = 9 ∨ d.type = 11) then m t
    else if d.s = false ∧ (d.type = 1 ∨ d.type = 3) then .error (.refuse .descriptor286) t
    else .error (.exc e) t := by
  cases segment : d.s with
  | true => simp
  | false =>
    by_cases format : d.type = 1#4 ∨ d.type = 3#4
    · have noTss : ¬ (d.type = 9#4 ∨ d.type = 11#4) := by rcases format with h | h <;> rw [h] <;> decide
      simp [format, noTss]
    · by_cases tss : d.type = 9#4 ∨ d.type = 11#4 <;> simp [format, tss]

/-- What a selector that must name a TSS must not be. -/
theorem tssSelector_bad (bad : isNull sel = true ∨ ti sel = true) : (!isNull sel && !ti sel) = false := by
  rcases bad with h | h <;> simp [h]

theorem tssSelector_good (named : isNull sel = false) (global : ti sel = false) : (!isNull sel && !ti sel) = true := by
  simp [named, global]

theorem gateToTss_badSelector (bad : isNull sel = true ∨ ti sel = true) :
    gateToTss kind sel ext ret rf err s = .error (.exc (excGP (selErr sel ext))) s :=
  bind_error (require_error (tssSelector_bad bad))

theorem gateToTss_outside (named : isNull sel = false) (global : ti sel = false)
    (found : fetchDesc sel s = .ok none t) :
    gateToTss kind sel ext ret rf err s = .error (.exc (excGP (selErr sel ext))) t :=
  (bind_ok (require_ok (tssSelector_good named global))).trans (bind_error (fetchOr_of_none found))

theorem gateToTss_found (named : isNull sel = false) (global : ti sel = false)
    (found : fetchDesc sel s = .ok (some d) t) : gateToTss kind sel ext ret rf err s =
    if d.s = false ∧ (d.type = 9 ∨ d.type = 11) then taskSwitch kind sel d ext ret rf err t
    else if d.s = false ∧ (d.type = 1 ∨ d.type = 3) then .error (.refuse .descriptor286) t
    else .error (.exc (excGP (selErr sel ext))) t :=
  (bind_ok (require_ok (tssSelector_good named global))).trans ((bind_ok (fetchOr_of_some found)).trans
    (tssTests_run d _ _ t))

end

/-! ## Far JMP and CALL (rules R330, R331) -/

section
variable {call : Bool} {o : OpSize} {off : Word} {sel : BitVec 16} {d : Desc} {s s2 : State}

/-- A far JMP or CALL that switches tasks: the switch to a TSS, or that of a task gate. -/
def switchTo (call : Bool) (sel : BitVec 16) (d : Desc) : M Unit :=
  if d.type = 5 then viaTaskGate (farKind call) sel d else viaTss (farKind call) sel d

theorem farProtected_switch (named : isNull sel = false) (found : fetchDesc sel s = .ok (some d) s2)
    (system : d.s = false) (task : d.type ∈ [5, 9, 11]) :
    farProtected call o sel off s = (do switchTo call sel d; return .transferKeepRf : M Done) s2 := by
  rw [farProtected_system named found system, switchTo]
  simp only [List.mem_cons, List.not_mem_nil, or_false] at task
  rcases task with h | h | h <;> rw [h] <;> rfl

theorem viaTss_ofLdt (ldt : ti sel = true) (kind : SwitchKind) :
    viaTss kind sel d s = .error (.exc (excGP (.sel (sel &&& 0xFFFC)))) s := by
  rw [← selErr_false]
  exact bind_error (require_error (by rw [ldt]; rfl))

variable (hp : s.pe = true) (kind : SwitchKind)
include hp

theorem viaTss_denied (global : ti sel = false) (denied : ¬ (s.cpl ≤ d.dpl ∧ rpl sel ≤ d.dpl)) :
    viaTss kind sel d s = .error (.exc (excGP (.sel (sel &&& 0xFFFC)))) s := by
  rw [← selErr_false]
  refine (bind_ok (require_ok (by rw [global]; rfl))).trans ((bind_ok (look_run s _)).trans
    (bind_error (require_error ?_)))
  rwa [level_of_pe hp, decide_eq_false_iff_not, maxLevel_le]

theorem viaTaskGate_denied (denied : ¬ (s.cpl ≤ d.dpl ∧ rpl sel ≤ d.dpl)) :
    viaTaskGate kind sel d s = .error (.exc (excGP (.sel (sel &&& 0xFFFC)))) s := by
  rw [← selErr_false]
  refine (bind_ok (look_run s _)).trans (bind_error (require_error ?_))
  rwa [level_of_pe hp, decide_eq_false_iff_not, maxLevel_le]

variable (usable : s.cpl ≤ d.dpl ∧ rpl sel ≤ d.dpl)
include usable

/-- The test of the level and the RPL against the DPL, met. -/
theorem level_usable (e : Exc) : require (decide (maxLevel s.level (rpl sel) ≤ d.dpl)) e s = .ok () s :=
  require_ok (by rw [level_of_pe hp]; exact decide_eq_true (maxLevel_le.mpr usable))

theorem viaTss_usable (global : ti sel = false) :
    viaTss kind sel d s = taskSwitch kind sel d false s.eipNext false none s :=
  (bind_ok (require_ok (by rw [global]; rfl))).trans ((bind_ok (look_run s _)).trans
    ((bind_ok (level_usable hp usable _)).trans (bind_ok (look_run s _))))

theorem viaTaskGate_absent (absent : d.present = false) :
    viaTaskGate kind sel d s = .error (.exc (excNP (.sel (sel &&& 0xFFFC)))) s := by
  rw [← selErr_false]
  exact (bind_ok (look_run s _)).trans ((bind_ok (level_usable hp usable _)).trans
    (bind_error (require_error absent)))

theorem viaTaskGate_present (there : d.present = true) :
    viaTaskGate kind sel d s = gateToTss kind d.gateSel false s.eipNext false none s :=
  (bind_ok (look_run s _)).trans ((bind_ok (level_usable hp usable _)).trans
    ((bind_ok (require_ok there)).trans (bind_ok (look_run s _))))

end

/-- A far JMP or CALL whose selector names a TSS or a task gate: its end is that of the switch (rules R66, R613). -/
theorem exec_switch_ends {call : Bool} {i : Instr} {o : OpSize} {off : Word} {sel : BitVec 16} {d : Desc}
    {s s1 s2 : State} (hp : s.pe = true) (operand : FarOperand call i o off sel s s1) (named : isNull sel = false)
    (found : fetchDesc sel s1 = .ok (some d) s2) (system : d.s = false) (task : d.type ∈ [5, 9, 11]) {go : M Unit}
    (same : switchTo call sel d s2 = go s2) :
    (∀ s3, go s2 = .ok () s3 → exec i s = .next (s.resumes { s3 with highLatch := false })) ∧
      (∀ e s3, go s2 = .error (.exc e) s3 → exec i s = takeException e s3) := by
  have entry := farProtected_switch (call := call) (o := o) (off := off) named found system task
  refine ⟨fun s3 done => ?_, fun e s3 raised =>
    exec_far_exc hp operand (entry.trans (bind_error (same.trans raised)))⟩
  rw [exec_far_run operand, State.resumes, ← operand.readOnly.1.flag]
  exact run_ok (bind_ok ((farTo_protected hp operand).trans (entry.trans (bind_ok (same.trans done)))))

/-! ## Events whose IDT entry is a task gate (rule R548) -/

theorem deliver_taskGate {ev : Event} {g : Desc} {err : Option Word} {s s1 s2 : State} (hp : s.pe = true)
    (inside : 8 * ev.vector.toNat + 7 ≤ s.idtr.limit.toNat)
    (gate : readDesc (s.idtr.base + BitVec.ofNat 32 (8 * ev.vector.toNat)) s = .ok g s1) (system : g.s = false)
    (task : g.type = 5) (usable : ev.cls = .software → s.cpl ≤ g.dpl) (there : g.present = true)
    (code : pushedCode ev.code s1 = .ok err s2) :
    deliver ev s = (do
      gateToTss .int g.gateSel ev.ext ev.ret ev.fault err
      return true : M Bool) s2 := by
  have level : (ev.cls != .software || decide (s.level ≤ g.dpl)) = true := by
    rw [level_of_pe hp]
    by_cases software : ev.cls = .software <;> simp [software, usable]
  rw [deliver, bind_ok (look_run s _), if_pos hp, deliverProtected, bind_ok (get_run s),
    bind_ok (require_ok (by simpa using inside)), bind_ok gate, system, task]
  exact (bind_ok (require_ok rfl)).trans ((bind_ok (require_ok level)).trans ((bind_ok (require_ok there)).trans
    (bind_ok code)))

/-! ## IRET with NT set (rule R332) -/

section
variable {o : OpSize} {v : Word} {d : Desc} {s s1 s2 : State}

theorem iretOp_task (hp : s.pe = true) (nt : s.flag 14 = true) : iretOp o s = (do
    iretTask
    clearNmi
    return .transferKeepRf : M Done) s :=
  (bind_ok (get_run s)).trans ((congrFun (if_neg (by simp [hp])) s).trans (congrFun (if_pos nt) s))

theorem iretTask_neverLoaded (never : s.tr.loaded = false) : iretTask s = .error (.refuse .trNeverLoaded) s :=
  bind_error (needTr_error never)

variable (loaded : s.tr.loaded = true) (link : sysRead s.tr.base 2 s = .ok v s1)
include loaded link

/-- From the back link on. -/
theorem iretTask_linked : iretTask s = (do
    require (!isNull (lo16 v) && !ti (lo16 v)) (excTS (.sel (lo16 v &&& 0xFFFC)))
    let d ← fetchOr (lo16 v) (excTS (.sel (lo16 v &&& 0xFFFC)))
    require (!d.s) (excTS (.sel (lo16 v &&& 0xFFFC)))
    if d.type == 1 || d.type == 3 then refuse .descriptor286 else
    require (d.type == 9 || d.type == 11) (excTS (.sel (lo16 v &&& 0xFFFC)))
    taskSwitch .iret (lo16 v) d false s.eipNext false none : M Unit) s1 := by
  rw [← selErr_false]
  exact (bind_ok (needTr_ok loaded)).trans ((bind_ok (get_run s)).trans (bind_ok link))

theorem iretTask_badLink (bad : isNull (lo16 v) = true ∨ ti (lo16 v) = true) :
    iretTask s = .error (.exc (excTS (.sel (lo16 v &&& 0xFFFC)))) s1 :=
  (iretTask_linked loaded link).trans (bind_error (require_error (tssSelector_bad bad)))

variable (named : isNull (lo16 v) = false) (global : ti (lo16 v) = false)
include named global

theorem iretTask_outside (found : fetchDesc (lo16 v) s1 = .ok none s2) :
    iretTask s = .error (.exc (excTS (.sel (lo16 v &&& 0xFFFC)))) s2 :=
  (iretTask_linked loaded link).trans ((bind_ok (require_ok (tssSelector_good named global))).trans
    (bind_error (fetchOr_of_none found)))

theorem iretTask_found (found : fetchDesc (lo16 v) s1 = .ok (some d) s2) : iretTask s =
    if d.s = false ∧ (d.type = 9 ∨ d.type = 11) then taskSwitch .iret (lo16 v) d false s.eipNext false none s2
    else if d.s = false ∧ (d.type = 1 ∨ d.type = 3) then .error (.refuse .descriptor286) s2
    else .error (.exc (excTS (.sel (lo16 v &&& 0xFFFC)))) s2 :=
  (iretTask_linked loaded link).trans ((bind_ok (require_ok (tssSelector_good named global))).trans
    ((bind_ok (fetchOr_of_some found)).trans (tssTests_run d _ _ s2)))

end

/-- Settles O49: what a task gate's selector must name, and then each of the ways that lead to the switch. -/
theorem taskTransfers : Obligations.TaskTransfers := by
  refine ⟨fun kind sel ext ret rf err s => ⟨gateToTss_badSelector, fun named global r t found => ?_⟩,
    fun call i o off sel d s s1 s2 hp operand named found system task => ?_,
    fun ev g err s s1 s2 hp inside gate system task usable there code => ?_, fun o s hp nt => ?_⟩
  · cases r with
    | none => exact gateToTss_outside named global found
    | some d => exact gateToTss_found named global found
  · have read := operand.readOnly.trans ((readOnly_access.fetchDesc sel).ok found)
    have hp2 := read.1.pe.trans hp
    have ends {go : M Unit} := exec_switch_ends (go := go) hp operand named found system task
    have direct (tss : d.type ≠ 5) : switchTo call sel d = viaTss (farKind call) sel d := if_neg tss
    have gate (task : d.type = 5) : switchTo call sel d = viaTaskGate (farKind call) sel d := if_pos task
    have raise (e : Exc) (h : switchTo call sel d s2 = .error (.exc e) s2) : exec i s = takeException e s2 :=
      (ends rfl).2 e s2 h
    rw [← read.1.cpl, ← read.1.eipNext]
    refine ⟨fun tss ldt => raise _ ((congrFun (direct tss) s2).trans (viaTss_ofLdt ldt _)), fun which denied => ?_,
      fun task usable absent => raise _ ((congrFun (gate task) s2).trans (viaTaskGate_absent hp2 _ usable absent)),
      fun go which usable => ends ?_⟩
    · by_cases task : d.type = 5
      · exact raise _ ((congrFun (gate task) s2).trans (viaTaskGate_denied hp2 _ denied))
      · exact raise _ ((congrFun (direct task) s2).trans (viaTss_denied hp2 _ (which.resolve_left task) denied))
    · rcases which with ⟨tss, global, rfl⟩ | ⟨task, there, rfl⟩
      · exact (congrFun (direct tss) s2).trans (viaTss_usable hp2 _ usable global)
      · exact (congrFun (gate task) s2).trans (viaTaskGate_present hp2 _ usable there)
  · have entry := deliver_taskGate hp inside gate system task usable there code
    exact ⟨fun t done => entry.trans (bind_ok done), fun x t raised => entry.trans (bind_error raised)⟩
  · have body := iretOp_task (o := o) hp nt
    have raise {e : Exc} {t : State} (h : iretTask s = .error (.exc e) t) : exec (.iret o) s = takeException e t :=
      run_exc (body.trans (bind_error h))
    have stop {r : Refusal} {t : State} (h : iretTask s = .error (.refuse r) t) : exec (.iret o) s = .refused r :=
      run_refused (body.trans (bind_error h))
    refine ⟨fun never => stop (iretTask_neverLoaded never), fun loaded v s1 link =>
      ⟨fun bad => raise (iretTask_badLink loaded link bad), fun named global r s2 found => ?_⟩⟩
    cases r with
    | none => exact raise (iretTask_outside loaded link named global found)
    | some d =>
      have found := iretTask_found loaded link named global found
      refine ⟨fun system format => ?_, fun other => ?_, fun system tss => ?_⟩
      · have noTss : ¬ (d.s = false ∧ (d.type = 9 ∨ d.type = 11)) := by
          rcases format with h | h <;> rw [h] <;> simp
        rw [if_neg noTss, if_pos ⟨system, format⟩] at found
        exact stop found
      · simp only [List.mem_cons, List.not_mem_nil, or_false, not_or] at other
        rw [if_neg (by grind), if_neg (by grind)] at found
        exact raise found
      · rw [if_pos ⟨system, tss⟩] at found
        exact ⟨fun s3 done => run_ok (body.trans (bind_ok (found.trans done))),
          fun e s3 raised => raise (found.trans raised)⟩

end Sys2Proof.Machine

/-! SUPPORT. What a task switch stores and reads with paging off (44_task_switch.md rules R321, R323, R340 to R349): each
part of memory that it stores to, and that nothing else changes. -/

namespace Sys2Proof.Machine

/-! ## Stores at given addresses -/

/-- No byte outside `ps` changes, memory stays canonical, and the map stays. -/
structure StoresOnly (ps : List Nat) (s t : State) : Prop where
  memOk : MemOk t
  plat : t.plat = s.plat
  same : ∀ a, a % physSize ∉ ps → t.byteAt a = s.byteAt a

section
variable {ps qs : List Nat} {s t u : State}

theorem StoresOnly.trans (h : StoresOnly ps s t) (k : StoresOnly qs t u) : StoresOnly (ps ++ qs) s u where
  memOk := k.memOk
  plat := k.plat.trans h.plat
  same a out := by
    rw [List.mem_append, not_or] at out
    exact (k.same a out.2).trans (h.same a out.1)

/-- A change of registers alone. -/
theorem StoresOnly.of_registers (hm : MemOk s) (mem : t.mem = s.mem) (plat : t.plat = s.plat) : StoresOnly [] s t where
  memOk := by rwa [MemOk, mem]
  plat := plat
  same a _ := byteAt_congr mem a

/-- Stores, and then a change of registers alone. -/
theorem StoresOnly.then_registers (h : StoresOnly ps s t) (mem : u.mem = t.mem) (plat : u.plat = t.plat) :
    StoresOnly ps s u where
  memOk := by rw [MemOk, mem]; exact h.memOk
  plat := plat.trans h.plat
  same a out := (byteAt_congr mem a).trans (h.same a out)

/-- A change of registers alone, and then stores. -/
theorem StoresOnly.after_registers (h : StoresOnly ps t u) (mem : t.mem = s.mem) (plat : t.plat = s.plat) :
    StoresOnly ps s u where
  memOk := h.memOk
  plat := h.plat.trans plat
  same a out := (h.same a out).trans (byteAt_congr mem a)

/-- With paging off no table entry changes either (rule R112). -/
theorem StoresOnly.of_accessed (hm : MemOk s) (hpg : s.pg = false) (h : Accessed ps s t) : StoresOnly ps s t where
  memOk := (h.2 hm).1
  plat := h.1.plat
  same a out := ((h.2 hm).2 a out).2 (.inr hpg)

theorem StoresOnly.of_readOnly (hm : MemOk s) (hpg : s.pg = false) (h : ReadOnly s t) : StoresOnly [] s t :=
  .of_accessed hm hpg (.ofReadOnly h _)

theorem StoresOnly.bytesAt (h : StoresOnly qs s t) (space : ∀ p ∈ ps, p < physSize) (apart : ps.Disjoint qs) :
    t.bytesAt ps = s.bytesAt ps :=
  bytesAt_congr fun p hp => h.same p (by rw [Nat.mod_eq_of_lt (space p hp)]; exact apart hp)

theorem StoresOnly.dwordAt (h : StoresOnly qs s t) {a : Word} (apart : (physRange a.toNat 4).Disjoint qs) :
    t.dwordAt a = s.dwordAt a := congrArg leWord (h.bytesAt (physRange_lt _ _) apart)

theorem StoresOnly.inRam (h : StoresOnly qs s t) (ram : s.inRam ps) : t.inRam ps := fun a ha =>
  (kindAt_congr h.plat a).trans (ram a ha)

end

/-- The bytes `bs` have been stored at `ps`, and nothing else; they can be read back from distinct addresses of RAM. -/
structure Wrote (ps : List Nat) (bs : List Byte) (s t : State) : Prop extends StoresOnly ps s t where
  bytes : ps.Nodup → s.inRam ps → ps.length = bs.length → t.bytesAt ps = bs

section
variable {ps : List Nat} {s t : State} (hm : MemOk s) (space : ∀ p ∈ ps, p < physSize)
include hm space

/-- A store, after a change of registers alone. -/
theorem wrote_storeAll {a : State} (mem : a.mem = s.mem) (plat : a.plat = s.plat) (bs : List Byte) :
    Wrote ps bs s (a.storeAll ps bs) where
  memOk := storeAll_wf a ps bs (by rwa [mem])
  plat := (a.storeAll_plat ps bs).trans plat
  same x out := by
    refine (byteAt_storeAll_out a ps bs x (fun p hp e => out ?_) (by rwa [mem])).trans (byteAt_congr mem x)
    rw [e, Nat.mod_eq_of_lt (space p hp)]
    exact hp
  bytes distinct ram len := bytesAt_storeAll a ps bs len (by rwa [map_mod_self space])
    (fun p hp => (kindAt_congr plat p).trans (ram p hp)) (by rwa [mem])

/-- The update of a busy bit (rule R323). -/
theorem updateWord_wrote {f : Word → Word} (dev : s.noDevice ps) (h : updateWord ps f s = .ok () t) :
    Wrote ps (leBytes ps.length (f (leWord (s.bytesAt ps)))) s t := by
  rw [updateWord, bind_ok (readBytes_run dev), writeBytes_run, State.bytesAt, List.length_map] at h
  cases h
  exact wrote_storeAll hm space rfl rfl _

end

/-! ## Phase A -/

/-- Addresses behind a linear address (rule R80). -/
theorem physRange_add (a : Word) (k n : Nat) :
    physRange (a + BitVec.ofNat 32 k).toNat n = physRange (a.toNat + k) n := by
  rw [← physRange_mod (a.toNat + k), BitVec.toNat_add, BitVec.toNat_ofNat, Nat.add_mod_mod]
  rfl

/-- What phase A finds with paging off (rule R340). -/
def flatPlan (kind : SwitchKind) (d : Desc) (s : State) : SwitchPlan where
  newTss := physRange d.base.toNat 104
  save := physRange (s.tr.base + 0x20).toNat 0x40
  link := if kind = .call ∨ kind = .int then physRange d.base.toNat 4 else []
  oldBusy := if kind = .call ∨ kind = .int then [] else
    physRange (s.gdtr.base + BitVec.ofNat 32 (8 * (s.tr.sel.toNat / 8)) + 4).toNat 4
  newBusy := if kind = .iret then [] else physRange (d.addr + 4).toNat 4
  image := physRange (d.base + 0x20).toNat 0x48

theorem needTr_same {s t : State} {u : Unit} (h : needTr s = .ok u t) : t = s := by
  rw [needTr, bind_ok (get_run s)] at h
  split at h <;> cases h
  rfl

section
variable {s : State} (hpg : s.pg = false)
include hpg

theorem listIf_off (b : Bool) (lin : Word) (n : Nat) (w u : Bool) :
    listIf b (translateRange lin n w u) s = .ok (if b then physRange lin.toNat n else []) s := by
  rw [listIf_run]
  cases b
  · rfl
  · exact translateRange_off hpg lin n w u

theorem probeTss_off (d : Desc) (newTss : List Nat) : probeTss d newTss s = .ok (newTss.drop 0x20) s := by
  rw [probeTss, bind_ok (get_run s), hpg]
  rfl

theorem phaseA_off {kind : SwitchKind} {tsel : BitVec 16} {d : Desc} {ext : Bool} {plan : SwitchPlan} {t : State}
    (h : phaseA kind tsel d ext s = .ok plan t) : plan = flatPlan kind d s ∧ t = s := by
  simp only [phaseA, bind_ok_iff, require_ok_iff, get_run, EStateM.Result.ok.injEq] at h
  obtain ⟨-, _, ⟨-, rfl⟩, -, _, ⟨-, rfl⟩, -, _, ⟨-, rfl⟩, -, _, ⟨-, rfl⟩, _, _, need, _, _, ⟨rfl, rfl⟩, h⟩ := h
  obtain rfl := needTr_same need
  split at h
  · cases h
  rw [bind_ok (translateRange_off hpg _ _ _ _), bind_ok (translateRange_off hpg _ _ _ _),
    bind_ok (listIf_off hpg _ _ _ _ _), bind_ok (listIf_off hpg _ _ _ _ _), bind_ok (listIf_off hpg _ _ _ _ _), bind_ok (probeTss_off hpg _ _)] at h
  cases h
  have image : (physRange d.base.toNat 104).drop 0x20 = physRange (d.base + 0x20).toNat 0x48 := by
    rw [← physRange_append d.base.toNat 0x20 0x48, List.drop_left' (by simp)]
    exact (physRange_add d.base 0x20 0x48).symm
  refine ⟨?_, rfl⟩
  rw [flatPlan, image, tableOff_eq]
  cases kind <;> rfl

end

/-! ## Phases B and C -/

/-- EFLAGS as an outgoing task saves them: NT clear for an IRET, RF set for a fault (rules R341, R548). -/
def savedFlags (kind : SwitchKind) (rf : Bool) (fl : Word) : Word :=
  let f := if kind = .iret then setBit fl 14 false else fl
  if rf then setBit f 16 true else f

section
variable {kind : SwitchKind} {tsel : BitVec 16} {d : Desc} {plan : SwitchPlan} {ret : Word} {rf : Bool} {s t : State}
  (hm : MemOk s)
include hm

/-- Phase B: the registers of the outgoing task, then its busy bit (rules R323, R341). -/
theorem phaseB_wrote (save : ∀ p ∈ plan.save, p < physSize) (busy : ∀ p ∈ plan.oldBusy, p < physSize)
    (dev : s.noDevice plan.oldBusy) (h : phaseB kind plan ret rf s = .ok () t) :
    ∃ u b, Wrote plan.save (saveImage s ret (savedFlags kind rf s.eflags) u) s b ∧
      Wrote plan.oldBusy (leBytes plan.oldBusy.length (leWord (b.bytesAt plan.oldBusy) &&& ~~~0x200#32)) b t := by
  obtain ⟨u, run⟩ : ∃ u, phaseB kind plan ret rf s = updateWord plan.oldBusy (fun w => w &&& ~~~0x200#32)
      (({ s with draws := s.draws + 6 } : State).storeAll plan.save
        (saveImage s ret (savedFlags kind rf s.eflags) u)) := by
    cases kind <;> exact ⟨_, rfl⟩
  have saved := wrote_storeAll hm save (a := { s with draws := s.draws + 6 }) rfl rfl
    (saveImage s ret (savedFlags kind rf s.eflags) u)
  refine ⟨u, _, saved, updateWord_wrote saved.memOk busy (fun p hp => ?_) (run.symm.trans h)⟩
  rw [isDevice_congr saved.plat]
  exact dev p hp

/-- Phase C: the busy bit of the incoming task, then the back link (rules R342, R347). -/
theorem phaseC_wrote (busy : ∀ p ∈ plan.newBusy, p < physSize) (link : ∀ p ∈ plan.link, p < physSize)
    (dev : s.noDevice plan.newBusy) (h : phaseC tsel d plan s = .ok () t) :
    ∃ v c, Wrote plan.newBusy (leBytes plan.newBusy.length (leWord (s.bytesAt plan.newBusy) ||| 0x200#32)) s c ∧
      Wrote plan.link (leBytes 4 (hiLo v s.tr.sel)) c t := by
  rw [phaseC, bind_ok (look_run s _), bind_ok_iff] at h
  obtain ⟨_, c, update, rest⟩ := h
  have marked := updateWord_wrote hm busy dev update
  obtain ⟨v, a, mem, plat, rfl⟩ : ∃ (v : Half) (a : State), a.mem = c.mem ∧ a.plat = c.plat ∧
      t = a.storeAll plan.link (leBytes 4 (hiLo v s.tr.sel)) := by
    cases rest
    refine ⟨_, _, ?_, ?_, rfl⟩ <;> rfl
  exact ⟨v, c, marked, wrote_storeAll marked.memOk link mem plat _⟩

end

/-! ## Phase D -/

section
variable {base : Word} {word : Nat → Word} {ks : List Nat} {s a t : State}

/-- Where memory answers, the doublewords read from an image are those that stood there at the start. -/
theorem ImageRead.off (places : ∀ k ∈ ks, 0x20 ≤ k ∧ k ≤ 0x64)
    (dev : ∀ k ∈ ks, s.noDevice (physRange (base + BitVec.ofNat 32 k).toNat 4)) (h : RegistersOnly s a)
    (r : ImageRead (physRange (base + 0x20).toNat 0x48) word ks a t) :
    (∀ k ∈ ks, word k = s.dwordAt (base + BitVec.ofNat 32 k)) ∧ RegistersOnly s t := by
  induction ks generalizing a with
  | nil => exact ⟨by simp, h.trans r⟩
  | cons k ks ih =>
    obtain ⟨b, bs, u, loads, read, value, rest⟩ := r
    have before := h.trans loads
    obtain ⟨low, high⟩ := places k List.mem_cons_self
    have answers : b.noDevice (physRange (base + BitVec.ofNat 32 k).toNat 4) := fun p hp => by
      rw [before]
      exact dev k List.mem_cons_self p hp
    rw [image_part base low high, readBytes_run answers] at read
    cases read
    obtain ⟨words, after⟩ := ih (fun j hj => places j (List.mem_cons_of_mem k hj))
      (fun j hj => dev j (List.mem_cons_of_mem k hj)) before rest
    refine ⟨fun j hj => ?_, after⟩
    rcases List.mem_cons.mp hj with rfl | hj
    · exact value.trans (before.dwordAt _)
    · exact words j hj

end

/-- The doublewords that phase D reads lie in bytes 20H to 67H of the TSS. -/
theorem imagePlaces_inside (base : Word) {k : Nat} (hk : k ∈ imagePlaces) : (0x20 ≤ k ∧ k ≤ 0x64) ∧
    physRange (base + BitVec.ofNat 32 k).toNat 4 ⊆ physRange (base + 0x20).toNat 0x48 := by
  have inside : ∀ k ∈ imagePlaces, 0x20 ≤ k ∧ k ≤ 0x64 := by decide
  obtain ⟨low, high⟩ := inside k hk
  refine ⟨⟨low, high⟩, ?_⟩
  rw [← image_part base low high]
  exact List.Subset.trans (List.take_subset _ _) (List.drop_subset _ _)

/-- Phase D with paging off: the registers take the doublewords of the image as memory holds them (rules R340, R343). -/
theorem phaseD_off {kind : SwitchKind} {d : Desc} {plan : SwitchPlan} {bt : Bool} {s t : State} (hpg : s.pg = false)
    (dev : s.noDevice (physRange (d.base + 0x20).toNat 0x48)) (h : phaseD kind d plan s = .ok bt t) :
    ∃ word, (∀ k ∈ imagePlaces, word k = s.dwordAt (d.base + BitVec.ofNat 32 k)) ∧ RegistersOnly s t ∧
      bt = (word 0x64).getLsbD 0 ∧ memoryOnly.r (taskLoaded kind word s) t := by
  obtain ⟨s', ps, s'', word, cr3, addrs, read, -, trap, loaded⟩ := phaseD_ok h
  rw [hpg] at cr3
  obtain rfl : s' = s := cr3
  rw [imageAddrs_off hpg] at addrs
  cases addrs
  obtain ⟨words, regs⟩ := read.off (fun k hk => (imagePlaces_inside d.base hk).1)
    (fun k hk p hp => dev p ((imagePlaces_inside d.base hk).2 hp)) (RegistersOnly.refl _)
  exact ⟨word, words, regs, trap, loaded⟩

/-! ## Phase E -/

/-- The doubleword with the accessed bit of the descriptor that a selector names; none for a null selector (rules R97,
R102). -/
def State.accessedDword (s : State) (sel : BitVec 16) : List Nat :=
  let base := if ti sel then s.ldtr.base else s.gdtr.base
  if isNull sel then [] else physRange (base + BitVec.ofNat 32 (8 * (sel.toNat / 8)) + 4).toNat 4

/-- Byte 5 of a descriptor is in its second doubleword. -/
theorem byteFive_subset (a : Word) : physRange (a + 5).toNat 1 ⊆ physRange (a + 4).toNat 4 := by
  rw [show a + 5 = a + 4 + BitVec.ofNat 32 1 by rw [BitVec.add_assoc]; rfl, physRange_add,
    ← physRange_part (i := 1) (m := 1) (n := 4) (by decide)]
  exact List.Subset.trans (List.take_subset _ _) (List.drop_subset _ _)

section
variable {sel : BitVec 16} {c : Desc} {s t : State} (hpg : s.pg = false) (hm : MemOk s)

/-- The descriptor that a selector names lies where the selector says (rule R102). -/
theorem fetchDesc_addr (h : fetchDesc sel s = .ok (some c) t) :
    c.addr = (if ti sel then s.ldtr.base else s.gdtr.base) + BitVec.ofNat 32 (8 * (sel.toNat / 8)) := by
  obtain ⟨base, limit, table, -, read⟩ := fetchDesc_some h
  rw [readDesc_addr read, tableOff_eq]
  congr 1
  unfold State.tableOf at table
  split at table
  next ldt =>
    rw [if_pos ldt]
    split at table <;> cases table
    rfl
  next gdt =>
    rw [if_neg gdt]
    cases table
    rfl

include hpg hm

/-- The fetch of a descriptor and the setting of its accessed bit store to its second doubleword alone (rule R97). -/
theorem Fetched.stores (named : isNull sel = false) (h : Fetched sel c s t) :
    StoresOnly (s.accessedDword sel) s t := by
  obtain ⟨a, ps, b, fetch, write, rfl⟩ := h
  have read := (readOnly_access.fetchDesc sel).ok fetch
  have inside : ps ⊆ s.accessedDword sel := by
    unfold prepareA at write
    split at write
    · cases write
      exact List.nil_subset _
    · rw [translateRange_off (read.1.pg.trans hpg)] at write
      cases write
      rw [State.accessedDword, named, ← fetchDesc_addr fetch]
      exact byteFive_subset c.addr
  exact .of_accessed hm hpg ((Accessed.ofReadOnly (read.trans ((readOnly_access.prepareA c).ok write)) _).trans
    ((markA_accessed (prepareA_phys write) b c).mono inside))

end

section
variable {ext : Bool} {x : SegReg} {s t : State} (hpg : s.pg = false) (hm : MemOk s)
include hpg hm

/-- The check of LDTR only reads. -/
theorem checkLdt_stores (h : checkLdt ext s = .ok () t) : StoresOnly [] s t := by
  have done := checkLdt_ok h
  split at done
  next =>
    subst done
    exact .of_registers hm rfl rfl
  next =>
    obtain ⟨-, l, b, fetch, -, -, -, rfl⟩ := done
    exact (StoresOnly.of_readOnly hm hpg ((readOnly_access.fetchDesc _).ok fetch)).then_registers rfl rfl

theorem checkCs_stores (h : checkCs ext s = .ok () t) : StoresOnly (s.accessedDword (s.segOf .cs).sel) s t := by
  obtain ⟨c, u, named, f, rfl, -⟩ := checkCs_ok h
  exact (f.stores hpg hm named).then_registers (State.setSegOf_mem _ _ _) (State.setSegOf_plat _ _ _)

theorem checkSs_stores (h : checkSs ext s = .ok () t) : StoresOnly (s.accessedDword (s.segOf .ss).sel) s t := by
  obtain ⟨c, u, named, f, rfl, -⟩ := checkSs_ok h
  exact (f.stores hpg hm named).then_registers (State.setSegOf_mem _ _ _) (State.setSegOf_plat _ _ _)

theorem checkData_stores (h : checkData ext x s = .ok () t) : StoresOnly (s.accessedDword (s.segOf x).sel) s t := by
  have done := checkData_ok h
  split at done
  next null =>
    subst done
    rw [State.accessedDword, null]
    exact .of_registers hm rfl rfl
  next named =>
    obtain ⟨c, u, f, rfl, -⟩ := done
    exact (f.stores hpg hm (Bool.eq_false_iff.mpr named)).then_registers (State.setSegOf_mem _ _ _)
      (State.setSegOf_plat _ _ _)

end

theorem SegmentsOnly.gdtr {s t : State} (h : SegmentsOnly s t) : t.gdtr = s.gdtr := by rw [h]

theorem SegmentsOnly.pg {s t : State} (h : SegmentsOnly s t) : t.pg = s.pg := by rw [h]; rfl

/-- Loads of segment registers move no descriptor. -/
theorem SegsLoaded.accessedDword {xs : List SegReg} {s t : State} (l : SegsLoaded xs s t) (x : SegReg) :
    t.accessedDword (t.segOf x).sel = s.accessedDword (s.segOf x).sel := by
  rw [l.sel, State.accessedDword, State.accessedDword, l.ldtr, l.frame.gdtr]

/-- The doublewords with the accessed bits of the segments that the segment registers hold, in the order of phase E. -/
def State.accessedDwords (s : State) : List Nat :=
  [SegReg.cs, .ss, .ds, .es, .fs, .gs].flatMap fun x => s.accessedDword (s.segOf x).sel

/-- Phase E stores to the doublewords with the accessed bits of the segments it loads alone, and changes hidden parts of
segment registers and LDTR alone (rules R97, R346). -/
theorem phaseE_off {ext : Bool} {s t : State} (hpg : s.pg = false) (hm : MemOk s) (h : phaseE ext s = .ok () t) :
    StoresOnly t.accessedDwords s t ∧ SegmentsOnly s t ∧ (∀ x, (t.segOf x).sel = (s.segOf x).sel) ∧
      t.ldtr.sel = s.ldtr.sel := by
  obtain ⟨e0, e1, e2, e3, e4, e5, h0, h1, h2, h3, h4, h5, h6⟩ := phaseE_ok h
  obtain ⟨f0, seg0, ldt0, -⟩ := checkLdt_loaded h0
  have pg0 : e0.pg = false := f0.pg.trans hpg
  have l1 := checkCs_loaded h1
  have l2 := l1.trans (checkSs_loaded h2) (by decide)
  have l3 := l2.trans (checkData_loaded h3) (by decide)
  have l4 := l3.trans (checkData_loaded h4) (by decide)
  have l5 := l4.trans (checkData_loaded h5) (by decide)
  have l6 := l5.trans (checkData_loaded h6) (by decide)
  have c0 := checkLdt_stores hpg hm h0
  have c1 := checkCs_stores pg0 c0.memOk h1
  have c2 := checkSs_stores (l1.frame.pg.trans pg0) c1.memOk h2
  have c3 := checkData_stores (l2.frame.pg.trans pg0) c2.memOk h3
  have c4 := checkData_stores (l3.frame.pg.trans pg0) c3.memOk h4
  have c5 := checkData_stores (l4.frame.pg.trans pg0) c4.memOk h5
  have c6 := checkData_stores (l5.frame.pg.trans pg0) c5.memOk h6
  rw [l1.accessedDword] at c2
  rw [l2.accessedDword] at c3
  rw [l3.accessedDword] at c4
  rw [l4.accessedDword] at c5
  rw [l5.accessedDword] at c6
  refine ⟨?_, f0.trans l6.frame, fun x => (l6.sel x).trans (by rw [seg0]), (congrArg _ l6.ldtr).trans ldt0⟩
  simp only [State.accessedDwords, l6.accessedDword]
  exact c0.trans (c1.trans (c2.trans (c3.trans (c4.trans (c5.trans (c6.trans (.of_registers c6.memOk rfl rfl)))))))

/-! ## The error code -/

/-- The linear address of the top of the stack, in protected mode (rule R216). -/
def State.stackTop (s : State) : Word :=
  s.seg.ss.base + (if s.seg.ss.big then s.gpr.esp else s.gpr.esp &&& 0xFFFF#32)

theorem setLo16_low (old v : Word) : setLo16 old (lo16 v) &&& 0xFFFF#32 = v &&& 0xFFFF#32 := by
  ext i hi
  interval_cases i <;> simp [setLo16, lo16, zx16]

section
variable {s t : State}

/-- The window of a doubleword's push with paging off (rule R216). -/
theorem preparePushes_off (hpg : s.pg = false) {watch : Bool} {ws : List Win}
    (h : preparePushes watch [4] s = .ok ws t) : t = s ∧
    ws = [{ lin := s.seg.ss.base + s.stackAt (-4), n := 4
            phys := physRange (s.seg.ss.base + s.stackAt (-4)).toNat 4, watch := watch }] := by
  simp only [preparePushes, stackRange, pushWindows, bind_ok_iff, get_run, pure_run, require_ok_iff,
    EStateM.Result.ok.injEq] at h
  obtain ⟨_, _, ⟨rfl, rfl⟩, _, _, ⟨_, _, ⟨rfl, rfl⟩, -, rfl⟩, _, _, ⟨rfl, rfl⟩, w, u, window, _, _, ⟨rfl, rfl⟩,
    rfl, rfl⟩ := h
  rw [segWindow_off hpg (segWindow_ok window).1] at window
  cases window
  exact ⟨rfl, by simp [State.segOf]⟩

variable (hp : s.pe = true)
include hp

theorem stackTop_moveSp (k : Word) : (s.moveSp k).stackTop = s.seg.ss.base + s.stackAt k := by
  simp only [State.stackTop, State.moveSp, State.stackAt, stackBig, stackSet, stackOff, hp, Bool.true_and]
  cases s.seg.ss.big
  · exact congrArg _ (setLo16_low _ _)
  · rfl

/-- The error code goes to the new top of the stack (rule R349). -/
theorem pushErr_wrote (hpg : s.pg = false) (hm : MemOk s) {ext : Bool} {v : Word}
    (h : pushErr ext (some v) s = .ok () t) : Wrote (physRange t.stackTop.toNat 4) (leBytes 4 v) s t := by
  simp only [pushErr, bind_ok_iff, writeWins, change_run, EStateM.Result.ok.injEq] at h
  obtain ⟨ws, s1, slots, _, _, ⟨-, rfl⟩, -, rfl⟩ := h
  obtain ⟨rfl, rfl⟩ := preparePushes_off hpg (withExt_ok slots)
  have top (ps : List Nat) (bs : List Byte) : ((s1.moveSp (-4)).storeAll ps bs).stackTop =
      s1.seg.ss.base + s1.stackAt (-4) := by
    rw [← stackTop_moveSp hp]
    simp only [State.stackTop, State.storeAll_seg, State.storeAll_gpr]
  have stored (t : State) (h : t = (s1.moveSp (-4)).storeAll (physRange (s1.seg.ss.base + s1.stackAt (-4)).toNat 4)
      (leBytes 4 v)) : Wrote (physRange t.stackTop.toNat 4) (leBytes 4 v) s1 t := by
    rw [h, top]
    exact wrote_storeAll hm (physRange_lt _ _) (a := s1.moveSp (-4)) rfl rfl _
  exact stored _ (storeAll_moveSp s1 _ _ _).symm

end

/-! ## The whole switch -/

/-- A doubleword that has been written is read back from RAM. -/
theorem Wrote.readBack {s t : State} {x v : Word} (w : Wrote (physRange x.toNat 4) (leBytes 4 v) s t)
    (ram : s.inRam (physRange x.toNat 4)) : t.dwordAt x = v := by
  rw [State.dwordAt, w.bytes (physRange_nodup _ (by decide)) ram (by simp), leWord_leBytes4]

/-- A doubleword of a TSS, in its bytes from 20H on. -/
theorem dwordAt_part {base : Word} {k n : Nat} {bs : List Byte} {t : State}
    (h : t.bytesAt (physRange (base + 0x20).toNat n) = bs) (low : 0x20 ≤ k) (high : k + 4 ≤ 0x20 + n) :
    t.dwordAt (base + BitVec.ofNat 32 k) = leWord ((bs.drop (k - 0x20)).take 4) := by
  have part : ((physRange (base + 0x20).toNat n).drop (k - 0x20)).take 4 =
      physRange (base + BitVec.ofNat 32 k).toNat 4 := by
    rw [show base + 0x20 = base + BitVec.ofNat 32 0x20 from rfl, physRange_add, physRange_add,
      physRange_part (by omega), Nat.add_assoc, Nat.add_sub_cancel' low]
  rw [← h, State.dwordAt, ← part, State.bytesAt, State.bytesAt, List.map_take, List.map_drop]

theorem lo16_hiLo (hi lo : Half) : lo16 (hiLo hi lo) = lo := by
  ext i hlt
  interval_cases i <;> simp [hiLo, lo16, zx16]

/-- The sixteen doublewords that an outgoing task saves, from 20H on (rule R321). -/
def savedWords (s : State) (ret fl : Word) (u : List Word) : List Word :=
  let slot (k : Nat) (sel : BitVec 16) : Word := hiLo (lo16 (u.getD k 0)) sel
  [ret, fl, s.gpr.eax, s.gpr.ecx, s.gpr.edx, s.gpr.ebx, s.gpr.esp, s.gpr.ebp, s.gpr.esi, s.gpr.edi,
    slot 0 s.seg.es.sel, slot 1 s.seg.cs.sel, slot 2 s.seg.ss.sel, slot 3 s.seg.ds.sel, slot 4 s.seg.fs.sel,
    slot 5 s.seg.gs.sel]

theorem saveImage_eq (s : State) (ret fl : Word) (u : List Word) :
    saveImage s ret fl u = (savedWords s ret fl u).flatMap (leBytes 4) := by
  simp only [saveImage, savedWords, List.flatMap_cons, List.flatMap_nil, List.append_nil, List.append_assoc]

/-- A doubleword among the bytes of many. -/
theorem flatMap_leBytes_part (ws : List Word) {i : Nat} (hi : i < ws.length) :
    ((ws.flatMap (leBytes 4)).drop (4 * i)).take 4 = leBytes 4 ws[i] := by
  induction ws generalizing i with
  | nil => simp at hi
  | cons w ws ih =>
    rw [List.flatMap_cons]
    cases i with
    | zero => exact List.take_left' (leBytes_length 4 w)
    | succ i =>
      rw [show 4 * (i + 1) = (leBytes 4 w).length + 4 * i by rw [leBytes_length]; omega, List.drop_length_add_append]
      exact ih (by simpa using hi)

/-- What an outgoing task has saved (rules R321, R341). -/
theorem dwordAt_saved {base ret fl : Word} {u : List Word} {s t : State}
    (h : t.bytesAt (physRange (base + 0x20).toNat 0x40) = saveImage s ret fl u) {i : Nat} (hi : i < 16) :
    t.dwordAt (base + BitVec.ofNat 32 (0x20 + 4 * i)) = (savedWords s ret fl u)[i] := by
  rw [saveImage_eq] at h
  rw [dwordAt_part h (by omega) (by omega), Nat.add_sub_cancel_left, flatMap_leBytes_part _ hi, leWord_leBytes4]

/-- The doublewords of `savedWords`, register by register; the upper halves of the selectors are free (U22). -/
theorem savedRegisters {base ret fl : Word} {u : List Word} {s t : State}
    (h : t.bytesAt (physRange (base + 0x20).toNat 0x40) = saveImage s ret fl u) :
    let old (k : Nat) : Word := t.dwordAt (base + BitVec.ofNat 32 k)
    old 0x20 = ret ∧ old 0x24 = fl ∧
      old 0x28 = s.gpr.eax ∧ old 0x2C = s.gpr.ecx ∧ old 0x30 = s.gpr.edx ∧ old 0x34 = s.gpr.ebx ∧
      old 0x38 = s.gpr.esp ∧ old 0x3C = s.gpr.ebp ∧ old 0x40 = s.gpr.esi ∧ old 0x44 = s.gpr.edi ∧
      lo16 (old 0x48) = s.seg.es.sel ∧ lo16 (old 0x4C) = s.seg.cs.sel ∧ lo16 (old 0x50) = s.seg.ss.sel ∧
      lo16 (old 0x54) = s.seg.ds.sel ∧ lo16 (old 0x58) = s.seg.fs.sel ∧ lo16 (old 0x5C) = s.seg.gs.sel := by
  have word {i : Nat} (hi : i < 16) := dwordAt_saved h hi
  have sel {i : Nat} (hi : i < 16) := congrArg lo16 (word hi)
  exact ⟨word (i := 0) (by decide), word (i := 1) (by decide), word (i := 2) (by decide), word (i := 3) (by decide),
    word (i := 4) (by decide), word (i := 5) (by decide), word (i := 6) (by decide), word (i := 7) (by decide),
    word (i := 8) (by decide), word (i := 9) (by decide), (sel (i := 10) (by decide)).trans (lo16_hiLo _ _),
    (sel (i := 11) (by decide)).trans (lo16_hiLo _ _), (sel (i := 12) (by decide)).trans (lo16_hiLo _ _),
    (sel (i := 13) (by decide)).trans (lo16_hiLo _ _), (sel (i := 14) (by decide)).trans (lo16_hiLo _ _),
    (sel (i := 15) (by decide)).trans (lo16_hiLo _ _)⟩

/-- The doubleword with the error code on the new stack, where there is one (rule R349). -/
def State.errorDword (s : State) (err : Option Word) : List Nat :=
  if err.isSome then physRange s.stackTop.toNat 4 else []

theorem pushErr_stores {ext : Bool} {err : Option Word} {s t : State} (hp : s.pe = true) (hpg : s.pg = false)
    (hm : MemOk s) (h : pushErr ext err s = .ok () t) : StoresOnly (t.errorDword err) s t ∧
      ∀ v, err = some v → s.inRam (t.errorDword err) → t.dwordAt t.stackTop = v := by
  cases err with
  | none =>
    cases h
    exact ⟨.of_registers hm rfl rfl, fun v none => by cases none⟩
  | some v =>
    have wrote := pushErr_wrote hp hpg hm h
    refine ⟨wrote.toStoresOnly, fun w same ram => ?_⟩
    cases same
    exact wrote.readBack ram

/-- The addresses of the plan lie in the space. -/
theorem flatPlan_space (kind : SwitchKind) (d : Desc) (s : State) :
    (∀ p ∈ (flatPlan kind d s).save, p < physSize) ∧ (∀ p ∈ (flatPlan kind d s).oldBusy, p < physSize) ∧
      (∀ p ∈ (flatPlan kind d s).newBusy, p < physSize) ∧ ∀ p ∈ (flatPlan kind d s).link, p < physSize := by
  have optional (c : Prop) [Decidable c] (a : Word) :
      (∀ p ∈ if c then physRange a.toNat 4 else [], p < physSize) ∧
      ∀ p ∈ if c then [] else physRange a.toNat 4, p < physSize := by
    by_cases hc : c <;> simpa [hc] using physRange_lt a.toNat 4
  exact ⟨physRange_lt _ _, (optional _ _).2, (optional _ _).2, (optional _ _).1⟩

/-- The outgoing state, the busy bits and the back link as phases B and C leave them, the incoming image as it was, and
nothing else stored (rules R323, R341, R342, R347). -/
structure SwitchStored (kind : SwitchKind) (d : Desc) (ret : Word) (rf : Bool) (s t : State) : Prop where
  stores : StoresOnly ((flatPlan kind d s).save ++ (flatPlan kind d s).oldBusy ++ (flatPlan kind d s).newBusy ++
    (flatPlan kind d s).link) s t
  save : ∃ u, t.bytesAt (flatPlan kind d s).save = saveImage s ret (savedFlags kind rf s.eflags) u
  oldBusy : ∀ x : Word, (flatPlan kind d s).oldBusy = physRange x.toNat 4 →
    t.dwordAt x = s.dwordAt x &&& ~~~0x200#32
  newBusy : ∀ x : Word, (flatPlan kind d s).newBusy = physRange x.toNat 4 →
    t.dwordAt x = s.dwordAt x ||| 0x200#32
  link : ∀ x : Word, (flatPlan kind d s).link = physRange x.toNat 4 → lo16 (t.dwordAt x) = s.tr.sel
  image : ∀ x : Word, physRange x.toNat 4 ⊆ (flatPlan kind d s).image → t.dwordAt x = s.dwordAt x

/-- The registers of the incoming task at the end of a switch: the doublewords of its image, but for what its segments
and an error code change (rules R343, R349). -/
structure ImageLoaded (kind : SwitchKind) (err : Option Word) (word : Nat → Word) (s t : State) : Prop where
  gpr : t.gpr = { eax := word 0x28, ecx := word 0x2C, edx := word 0x30, ebx := word 0x34, esp := t.gpr.esp,
                  ebp := word 0x3C, esi := word 0x40, edi := word 0x44 }
  esp : err = none → t.gpr.esp = word 0x38
  eip : t.eip = word 0x20
  eflags : t.eflags = incomingFlags kind (word 0x24)
  sel : ∀ x, (t.segOf x).sel = lo16 (word (selectorPlace x))
  ldtr : t.ldtr.sel = lo16 (word 0x60)
  trap : t.pend.bt = (s.pend.bt || (word 0x64).getLsbD 0)
  cr3 : t.cr.cr3 = s.cr.cr3

section
variable {kind : SwitchKind} {tsel : BitVec 16} {d : Desc} {ext : Bool} {ret : Word} {rf : Bool} {err : Option Word}
  {s s2 s3 t : State} (hpg : s.pg = false) (hm : MemOk s)
  (distinct : ((flatPlan kind d s).save ++ (flatPlan kind d s).oldBusy ++ (flatPlan kind d s).newBusy ++
    (flatPlan kind d s).link ++ (flatPlan kind d s).image).Nodup)
  (ram : s.inRam ((flatPlan kind d s).save ++ (flatPlan kind d s).oldBusy ++ (flatPlan kind d s).newBusy ++
    (flatPlan kind d s).link ++ (flatPlan kind d s).image))
include hm distinct ram

/-- Phases B and C, where the parts of memory that they store to and the incoming image lie apart in RAM. -/
theorem phasesBC_stored (hB : phaseB kind (flatPlan kind d s) ret rf s = .ok () s2)
    (hC : phaseC tsel d (flatPlan kind d s) s2 = .ok () s3) : SwitchStored kind d ret rf s s3 := by
  obtain ⟨saveSpace, oldSpace, newSpace, linkSpace⟩ := flatPlan_space kind d s
  have saveLength (fl : Word) (u : List Word) :
      (flatPlan kind d s).save.length = (saveImage s ret fl u).length := by simp [flatPlan, saveImage]
  generalize planned : flatPlan kind d s = plan at *
  simp only [List.nodup_append', List.disjoint_append_left] at distinct
  obtain ⟨⟨⟨⟨saveOnce, -, saveOld⟩, -, saveNew, oldNew⟩, -, ⟨saveLink, oldLink⟩, newLink⟩, -,
    ⟨⟨saveImg, oldImg⟩, newImg⟩, linkImg⟩ := distinct
  have part {ps : List Nat} (h : ps ⊆ plan.save ++ plan.oldBusy ++ plan.newBusy ++ plan.link ++ plan.image) :
      s.inRam ps := fun p hp => ram p (h hp)
  have oldRam : s.inRam plan.oldBusy := part fun p hp => by simp [hp]
  have newRam : s.inRam plan.newBusy := part fun p hp => by simp [hp]
  have linkRam : s.inRam plan.link := part fun p hp => by simp [hp]
  obtain ⟨u, b, saved, cleared⟩ := phaseB_wrote hm saveSpace oldSpace (noDevice_of_inRam oldRam) hB
  have first : StoresOnly (plan.save ++ plan.oldBusy) s s2 := saved.toStoresOnly.trans cleared.toStoresOnly
  obtain ⟨v, c, marked, linked⟩ := phaseC_wrote first.memOk newSpace linkSpace
    (noDevice_of_inRam (first.inRam newRam)) hC
  have sel : s2.tr.sel = s.tr.sel := by
    have frame := (phaseB_memoryOnly kind plan ret rf).ok hB
    simp only [memoryOnly] at frame
    rw [frame]
  have toLink := first.trans marked.toStoresOnly
  have last := marked.toStoresOnly.trans linked.toStoresOnly
  have all := toLink.trans linked.toStoresOnly
  constructor <;> rw [planned]
  case stores => exact all
  case save =>
    refine ⟨u, ?_⟩
    rw [(cleared.toStoresOnly.trans last).bytesAt saveSpace]
    · exact saved.bytes saveOnce (part fun p hp => by simp [hp]) (saveLength _ u)
    · simp only [List.disjoint_append_right]
      exact ⟨saveOld, saveNew, saveLink⟩
  case oldBusy =>
    intro x at_x
    rw [at_x] at cleared oldRam saveOld oldNew oldLink
    rw [physRange_length] at cleared
    rw [last.dwordAt (List.disjoint_append_right.mpr ⟨oldNew, oldLink⟩), cleared.readBack (saved.inRam oldRam)]
    exact congrArg (· &&& ~~~0x200#32) (saved.dwordAt saveOld.symm)
  case newBusy =>
    intro x at_x
    rw [at_x] at marked newRam newLink saveNew oldNew
    rw [physRange_length] at marked
    rw [linked.dwordAt newLink, marked.readBack (first.inRam newRam)]
    exact congrArg (· ||| 0x200#32) (first.dwordAt (List.disjoint_append_right.mpr ⟨saveNew.symm, oldNew.symm⟩))
  case link =>
    intro x at_x
    rw [at_x] at linked linkRam
    rw [linked.readBack (toLink.inRam linkRam), lo16_hiLo, sel]
  case image =>
    intro x inside
    refine all.dwordAt (List.disjoint_of_subset_left inside ?_)
    simp only [List.disjoint_append_right]
    exact ⟨⟨⟨saveImg.symm, oldImg.symm⟩, newImg.symm⟩, linkImg.symm⟩

include hpg

/-- A switch with paging off, where these parts lie apart in RAM: what phases B and C store and the image that phase D
loads; and then the accessed bits and the error code, and nothing else. -/
theorem taskSwitch_off (hp : s.pe = true) (h : taskSwitch kind tsel d ext ret rf err s = .ok () t) : ∃ u,
    SwitchStored kind d ret rf s u ∧ StoresOnly (t.accessedDwords ++ t.errorDword err) u t ∧
      (∀ v, err = some v → s.inRam (t.errorDword err) → t.dwordAt t.stackTop = v) ∧
      ∃ word, (∀ k ∈ imagePlaces, word k = s.dwordAt (d.base + BitVec.ofNat 32 k)) ∧
        ImageLoaded kind err word s t := by
  obtain ⟨plan, s1, s2, s3, bt, s6, e6, hA, hB, hC, hD, hE, hPush⟩ := taskSwitch_ok h
  obtain ⟨rfl, rfl⟩ := phaseA_off hpg hA
  have stored := phasesBC_stored hm distinct ram hB hC
  have imageRam : s1.inRam (physRange (d.base + 0x20).toNat 0x48) := fun p hp =>
    ram p (List.mem_append_right _ hp)
  have pg3 := (pg_beforeImage hA hB hC).trans hpg
  obtain ⟨word, words, regs, rfl, loaded⟩ := phaseD_off pg3 (noDevice_of_inRam (stored.stores.inRam imageRam)) hD
  have mem6 : StoresOnly [] s3 s6 := .of_registers stored.stores.memOk (by rw [regs]) (by rw [regs])
  have pg6 : s6.pg = false := by
    rw [regs]
    exact pg3
  obtain ⟨marked, frame, sel, ldtr⟩ := phaseE_off pg6 mem6.memOk hE
  have f6 := phaseD_frame hA hB hC (s4 := s3) (by rw [pg3]; rfl) loaded
  have pe6 : e6.pe = true := by
    simp only [memoryOnly] at f6
    rw [frame, f6]
    simpa [State.pe, switchedTo] using hp
  obtain ⟨pushed, top⟩ := pushErr_stores (s := { e6 with pend := { e6.pend with bt := e6.pend.bt || _ } }) pe6
    (frame.pg.trans pg6) marked.memOk hPush
  obtain ⟨segEnd, ldtrEnd, ending⟩ := switchEnd_frame f6 frame hp hPush
  have gdtrEnd : t.gdtr = e6.gdtr := by
    have only := pushErr_ok (s := { e6 with pend := { e6.pend with bt := e6.pend.bt || _ } }) pe6 hPush
    simp only [memoryOnly] at only
    rw [only]
  have dwords : t.accessedDwords = e6.accessedDwords := by
    simp only [State.accessedDwords, State.accessedDword, segEnd, ldtrEnd, gdtrEnd]
  have cr3 : s3.cr.cr3 = s1.cr.cr3 := by
    have f2 := (phaseB_memoryOnly kind _ ret rf).ok hB
    have f3 := phaseC_ok hC
    simp only [memoryOnly] at f2 f3
    rw [f3, f2]
  refine ⟨s3, stored, ?_, fun v code here => top v code ?_, word, fun k hk => ?_, ?_⟩
  · rw [dwords]
    exact mem6.trans (marked.trans (pushed.after_registers rfl rfl))
  · exact (stored.stores.trans (mem6.trans marked)).inRam here
  · exact (words k hk).trans (stored.image _ (imagePlaces_inside d.base hk).2)
  · constructor
    case gpr =>
      rw [ending]
      rfl
    case esp =>
      rintro rfl
      rw [ending]
      rfl
    case eip =>
      rw [ending]
      rfl
    case eflags =>
      rw [ending]
      rfl
    case sel =>
      intro x
      rw [segEnd, sel, segOf_afterImage f6]
      rfl
    case ldtr => rw [ldtrEnd, ldtr, ldtr_afterImage f6]
    case trap =>
      rw [ending]
    case cr3 =>
      rw [ending]
      exact cr3

end

/-- Settles O60: what stands where phases B and C have stored is as it was then, where the accessed bits and the error code
lie apart from it. -/
theorem taskSwitchMemory : Obligations.TaskSwitchMemory := by
  intro kind tsel d ext ret rf err s t hp hpg hm nests save image link oldAt oldBusy newBusy distinct ram h
  obtain ⟨u, stored, rest, top, word, words, loaded⟩ := taskSwitch_off hpg hm distinct ram hp h
  obtain ⟨free, saved⟩ := stored.save
  intro mark marks top' push apart f old new
  have later {ps : List Nat} (h : apart ps) : ps.Disjoint (t.accessedDwords ++ t.errorDword err) := fun p hp => h p hp
  have dword {x : Word} {ps : List Nat} (h : ps = physRange x.toNat 4) (ok : apart ps) : t.dwordAt x = u.dwordAt x :=
    rest.dwordAt (h ▸ later ok)
  have sel (x : SegReg) {k : Nat} (hk : k ∈ imagePlaces) (place : selectorPlace x = k) :
      (t.segOf x).sel = lo16 (new k) := by
    rw [loaded.sel, place, words k hk]
  have gpr (r : Gprs → Word) := congrArg r loaded.gpr
  refine ⟨fun a out => (stored.stores.trans rest).same a (by rwa [← List.append_assoc]),
    fun ok => savedRegisters ((rest.bytesAt (physRange_lt _ _) (later ok)).trans saved),
    fun single ok => (dword (if_neg single) ok).trans (stored.oldBusy oldAt (if_neg single)),
    fun other ok => (dword (if_neg other) ok).trans (stored.newBusy _ (if_neg other)),
    fun nested ok => (congrArg lo16 (dword (if_pos nested) ok)).trans (stored.link _ (if_pos nested)), top,
    loaded.eip.trans (words _ (by decide)), (gpr (·.eax)).trans (words _ (by decide)),
    (gpr (·.ecx)).trans (words _ (by decide)), (gpr (·.edx)).trans (words _ (by decide)),
    (gpr (·.ebx)).trans (words _ (by decide)), (gpr (·.ebp)).trans (words _ (by decide)),
    (gpr (·.esi)).trans (words _ (by decide)), (gpr (·.edi)).trans (words _ (by decide)),
    fun none => (loaded.esp none).trans (words _ (by decide)), ?_, sel .es (by decide) rfl, sel .cs (by decide) rfl,
    sel .ss (by decide) rfl, sel .ds (by decide) rfl, sel .fs (by decide) rfl, sel .gs (by decide) rfl, ?_, ?_,
    loaded.cr3⟩
  · rw [loaded.eflags, words _ (by decide)]
    cases kind <;> rfl
  · rw [loaded.ldtr, words _ (by decide)]
  · rw [loaded.trap, words _ (by decide)]

end Sys2Proof.Machine

/-! SUPPORT. The I/O permission check, IN, OUT, INS, OUTS and REP, and the interrupt flag (45_io.md). -/

namespace Sys2Proof.Machine

/-! ## The test against IOPL (rules R384, R389, R390) -/

section
variable {s : State}

theorem iopl_allows (h : s.pe = false ∨ s.cpl ≤ s.iopl) : (!s.pe || decide (s.level ≤ s.iopl)) = true := by
  cases hp : s.pe with
  | false => rfl
  | true => simpa [level_of_pe hp] using h.resolve_left (by simp [hp])

theorem iopl_denies (hp : s.pe = true) (h : s.iopl < s.cpl) : (!s.pe || decide (s.level ≤ s.iopl)) = false := by
  simpa [hp, level_of_pe hp] using h

theorem ioplCheck_ok (h : s.pe = false ∨ s.cpl ≤ s.iopl) : ioplCheck s = .ok () s :=
  (bind_ok (get_run s)).trans (require_ok (iopl_allows h))

theorem ioplCheck_error (hp : s.pe = true) (h : s.iopl < s.cpl) : ioplCheck s = .error (.exc (excGP (.sel 0))) s :=
  (bind_ok (get_run s)).trans (require_error (iopl_denies hp h))

end

/-- Settles O40: both instructions begin with the test against IOPL. -/
theorem interruptFlag : Obligations.InterruptFlag := fun _ =>
  ⟨fun allowed => ⟨run_ok (bind_ok (ioplCheck_ok allowed)), run_ok (bind_ok (ioplCheck_ok allowed))⟩,
    fun hp above =>
      ⟨run_exc (bind_error (ioplCheck_error hp above)), run_exc (bind_error (ioplCheck_error hp above))⟩⟩

/-! ## The I/O permission map (rule R386) -/

/-- The byte of a map that holds the bit of port `p`. -/
def mapSlot (base : Word) (mapbase p : Nat) : Nat := (base + BitVec.ofNat 32 (mapbase + p / 8)).toNat

/-- The bit of port `p` lies inside the TSS limit and is zero. -/
def State.mapClear (s : State) (base : Word) (limit mapbase p : Nat) : Prop :=
  mapbase + p / 8 ≤ limit ∧ (s.byteAt (mapSlot base mapbase p)).getLsbD (p % 8) = false

section
variable {s : State} {base : Word} {limit mapbase : Nat}

theorem physRange_one (a : Word) : physRange a.toNat 1 = [a.toNat] := by
  simpa [physRange, physSize] using a.isLt

theorem leWord_one_bit (b : Byte) {k : Nat} (hk : k < 8) : (leWord [b]).getLsbD k = b.getLsbD k := by
  have wide : k < 32 := by omega
  simp [leWord, hk, wide]

/-- With paging off and memory there, the byte of a map that holds the bit of port `p` is read as it stands. -/
theorem sysRead_mapSlot (pg : s.pg = false) {p : Nat} (dev : s.noDevice [mapSlot base mapbase p]) :
    sysRead (base + BitVec.ofNat 32 (mapbase + p / 8)) 1 s = .ok (leWord [s.byteAt (mapSlot base mapbase p)]) s := by
  have range : physRange (base + BitVec.ofNat 32 (mapbase + p / 8)).toNat 1 = [mapSlot base mapbase p] :=
    physRange_one _
  have read := sysRead_off pg (range.symm ▸ dev)
  rwa [range] at read

/-- The ports from `p` on: the first, and those after it. -/
theorem forall_ports_succ {P : Nat → Prop} {p n : Nat} :
    (∀ q, p ≤ q → q < p + (n + 1) → P q) ↔ P p ∧ ∀ q, p + 1 ≤ q → q < p + 1 + n → P q := by
  constructor
  · exact fun h => ⟨h p (by omega) (by omega), fun q lo hi => h q (by omega) (by omega)⟩
  · rintro ⟨first, rest⟩ q lo hi
    rcases Nat.eq_or_lt_of_le lo with rfl | lo
    · exact first
    · exact rest q lo (by omega)

/-- With paging off and memory at the bytes of a map, the test of `n` ports changes nothing, and allows them exactly if
the bit of each is inside the limit and clear. -/
theorem mapAllows_off (pg : s.pg = false) {p n : Nat}
    (dev : ∀ q, p ≤ q → q < p + n → s.noDevice [mapSlot base mapbase q]) :
    ∃ b, mapAllows base limit mapbase p n s = .ok b s ∧
      (b = true ↔ ∀ q, p ≤ q → q < p + n → s.mapClear base limit mapbase q) := by
  induction n generalizing p with
  | zero => exact ⟨true, rfl, by simp; omega⟩
  | succ n ih =>
    obtain ⟨devFirst, devRest⟩ := forall_ports_succ.mp dev
    rw [mapAllows, forall_ports_succ]
    by_cases inside : mapbase + p / 8 ≤ limit
    case neg =>
      exact ⟨false, by rw [if_pos (by omega)]; rfl, by simp [State.mapClear, inside]⟩
    rw [if_neg (by omega), bind_ok (sysRead_mapSlot pg devFirst)]
    have bit := leWord_one_bit (s.byteAt (mapSlot base mapbase p)) (Nat.mod_lt p (by decide : 0 < 8))
    cases clear : (s.byteAt (mapSlot base mapbase p)).getLsbD (p % 8) with
    | true => exact ⟨false, by rw [if_pos (bit.trans clear)]; rfl, by simp [State.mapClear, clear]⟩
    | false =>
      obtain ⟨b, run, allows⟩ := ih devRest
      exact ⟨b, by rw [if_neg (by simpa [clear] using bit)]; exact run, by simp [State.mapClear, clear, inside, allows]⟩

end

/-! ## The permission check (rules R383 to R386) -/

section
variable {port : BitVec 16} {n : Nat} {s : State}

theorem ioCheck_ok (h : s.pe = false ∨ s.cpl ≤ s.iopl) : ioCheck port n s = .ok () s := by
  rw [ioCheck, bind_ok (get_run s), if_pos (iopl_allows h)]
  rfl

/-- Above IOPL the map decides. -/
theorem ioCheck_above (hp : s.pe = true) (above : s.iopl < s.cpl) :
    ioCheck port n s = (do let ok ← bitmapAllows port n; require ok excGP0) s := by
  rw [ioCheck, bind_ok (get_run s), if_neg (by simp [iopl_denies hp above])]

/-- The ports of a range that exist, counted or bounded (log entry 86). -/
theorem add_min_ports (port : BitVec 16) (n : Nat) :
    port.toNat + min n (65536 - port.toNat) = min (port.toNat + n) 65536 := by
  have := port.isLt
  omega

/-- The map of the current task, with paging off and memory where it is read: base above the limit, or the test of each
port that exists. -/
theorem bitmapAllows_off (loaded : s.tr.loaded = true) (pg : s.pg = false)
    (devBase : s.noDevice (physRange (s.tr.base + 0x66).toNat 2)) :
    let base := (leWord (s.bytesAt (physRange (s.tr.base + 0x66).toNat 2))).toNat
    (∀ p, port.toNat ≤ p → p < min (port.toNat + n) 65536 → s.noDevice [mapSlot s.tr.base base p]) →
    ∃ b, bitmapAllows port n s = .ok b s ∧
      (b = true ↔ base < s.tr.limit.toNat ∧ ∀ p, port.toNat ≤ p → p < min (port.toNat + n) 65536 →
        s.mapClear s.tr.base s.tr.limit.toNat base p) := by
  intro base dev
  rw [bitmapAllows, bind_ok (needTr_ok loaded), bind_ok (look_run s _), bind_ok (sysRead_off pg devBase)]
  by_cases room : base < s.tr.limit.toNat
  · rw [if_neg (Nat.not_le.mpr room)]
    rw [← add_min_ports] at dev ⊢
    obtain ⟨b, run, allows⟩ := mapAllows_off (limit := s.tr.limit.toNat) pg dev
    exact ⟨b, run, by simp [room, allows]⟩
  · rw [if_pos (Nat.le_of_not_lt room)]
    exact ⟨false, rfl, by simp [room]⟩

end

/-- Settles O36: the test against IOPL, and above it TR and the map. -/
theorem ioPermission : Obligations.IoPermission := by
  refine fun port n s => ⟨ioCheck_ok, fun hp above unloaded => ?_, fun hp above loaded pg => ?_⟩
  · rw [ioCheck_above hp above]
    exact bind_error (bind_error (needTr_error unloaded))
  · intro mapBase base slot devBase dev allowed
    rw [ioCheck_above hp above]
    obtain ⟨b, run, allows⟩ := bitmapAllows_off (port := port) (n := n) loaded pg devBase dev
    have allows : b = true ↔ allowed := allows
    rw [bind_ok run, ← allows]
    exact ⟨require_ok, fun no => require_error (by simpa using no)⟩

/-! ## Port accesses -/

section
variable {port : BitVec 16} {n : Nat}

theorem mapAllows_readOnly (base : Word) (limit mapbase p n : Nat) :
    Does readOnly (mapAllows base limit mapbase p n) := by
  induction n generalizing p with
  | zero => exact Does.pure _
  | succ n ih =>
    exact Does.ite (Does.pure _) (Does.bind (readOnly_access.sysRead _ _) fun _ => Does.ite (Does.pure _) (ih _))

/-- The permission check reads the TSS at most. -/
theorem ioCheck_readOnly (port : BitVec 16) (n : Nat) : Does readOnly (ioCheck port n) := by
  have bitmap : Does readOnly (bitmapAllows port n) :=
    Does.bind Does.needTr fun _ => Does.bind (Does.look _) fun _ => Does.bind (readOnly_access.sysRead _ _) fun _ =>
      Does.ite (Does.pure _) (mapAllows_readOnly _ _ _ _ _)
  exact Does.bind Does.get fun _ => Does.ite (Does.pure _) (Does.bind bitmap fun _ => Does.require _ _)

theorem ioRead_fits (fits : port.toNat + n ≤ 65536) (s : State) :
    ioRead port n s = .ok (lowBytes n (Config.portInput s.draws)) (s.portIn port n) := by
  rw [ioRead, portFits, if_pos fits]
  rfl

theorem ioRead_past (past : 65536 < port.toNat + n) (s : State) :
    ioRead port n s = .error (.refuse .portWrap) s := by
  rw [ioRead, portFits, if_neg (Nat.not_le.mpr past)]
  rfl

theorem ioWrite_fits (fits : port.toNat + n ≤ 65536) (v : Word) (s : State) :
    ioWrite port n v s = .ok () (s.portOut port n v) := by
  rw [ioWrite, portFits, if_pos fits]
  rfl

theorem ioWrite_past (past : 65536 < port.toNat + n) (v : Word) (s : State) :
    ioWrite port n v s = .error (.refuse .portWrap) s := by
  rw [ioWrite, portFits, if_neg (Nat.not_le.mpr past)]
  rfl

end

/-! ## IN and OUT (rules R371, R372) -/

section
variable {port : BitVec 16} {o : OpSize} {s s1 : State}

theorem byte_fits (port : BitVec 16) : port.toNat + 1 ≤ 65536 := port.isLt

theorem inByte_run (allowed : ioCheck port 1 s = .ok () s1) : inByte port s =
    .ok .next ((s1.portIn port 1).setReg8 .al ((lowBytes 1 (Config.portInput s1.draws)).truncate 8)) :=
  (bind_ok allowed).trans (bind_ok (ioRead_fits (byte_fits port) s1))

theorem outByte_run (allowed : ioCheck port 1 s = .ok () s1) :
    outByte port s = .ok .next (s1.portOut port 1 s.gpr.eax) := by
  rw [← ((ioCheck_readOnly port 1).ok allowed).1.gpr]
  exact (bind_ok allowed).trans ((bind_ok (look_run s1 _)).trans (bind_ok (ioWrite_fits (byte_fits port) _ s1)))

theorem inWord_run (allowed : ioCheck port o.bytes s = .ok () s1) (fits : port.toNat + o.bytes ≤ 65536) :
    inWord o port s = .ok .next
      ((s1.portIn port o.bytes).setRegSz o .eax (lowBytes o.bytes (Config.portInput s1.draws))) :=
  (bind_ok allowed).trans (bind_ok (ioRead_fits fits s1))

theorem outWord_run (allowed : ioCheck port o.bytes s = .ok () s1) (fits : port.toNat + o.bytes ≤ 65536) :
    outWord o port s = .ok .next (s1.portOut port o.bytes s.gpr.eax) := by
  rw [← ((ioCheck_readOnly port o.bytes).ok allowed).1.gpr]
  exact (bind_ok allowed).trans ((bind_ok (look_run s1 _)).trans (bind_ok (ioWrite_fits fits _ s1)))

theorem inWord_past (allowed : ioCheck port o.bytes s = .ok () s1) (past : 65536 < port.toNat + o.bytes) :
    inWord o port s = .error (.refuse .portWrap) s1 :=
  (bind_ok allowed).trans (bind_error (ioRead_past past s1))

theorem outWord_past (allowed : ioCheck port o.bytes s = .ok () s1) (past : 65536 < port.toNat + o.bytes) :
    outWord o port s = .error (.refuse .portWrap) s1 :=
  (bind_ok allowed).trans ((bind_ok (look_run s1 _)).trans (bind_error (ioWrite_past past _ s1)))

end

/-- Settles O37: each form takes its port from the instruction or from DX, and then does what its size does. -/
theorem portMoves : Obligations.PortMoves := by
  intro port s s1 o p
  refine ⟨fun allowed => ?_, fun allowed fits => ?_, ?_⟩
  · have read := (ioCheck_readOnly port 1).ok allowed
    refine ⟨fun i form => ⟨?_, read⟩, fun i form => ⟨?_, read⟩⟩
    · have body : exec i s = run (inByte port) s := by rcases form with ⟨rfl, rfl⟩ | ⟨rfl, rfl⟩ <;> rfl
      exact body.trans (run_ok (inByte_run allowed))
    · have body : exec i s = run (outByte port) s := by rcases form with ⟨rfl, rfl⟩ | ⟨rfl, rfl⟩ <;> rfl
      exact body.trans (run_ok (outByte_run allowed))
  · have read := (ioCheck_readOnly port o.bytes).ok allowed
    refine ⟨fun i form => ⟨?_, read⟩, fun i form => ⟨?_, read⟩⟩
    · have body : exec i s = run (inWord o port) s := by rcases form with ⟨rfl, rfl⟩ | ⟨rfl, rfl⟩ <;> rfl
      exact body.trans (run_ok (inWord_run allowed fits))
    · have body : exec i s = run (outWord o port) s := by rcases form with ⟨rfl, rfl⟩ | ⟨rfl, rfl⟩ <;> rfl
      exact body.trans (run_ok (outWord_run allowed fits))
  · rintro allowed past rfl
    exact ⟨run_refused ((bind_ok (look_run s _)).trans (inWord_past allowed past)),
      run_refused ((bind_ok (look_run s _)).trans (outWord_past allowed past))⟩

/-! ## INS and OUTS (rules R373, R374, R380, R382) -/

theorem Quiet.strOff {s t : State} (h : Quiet s t) (a : AddrSize) (r : Reg) : t.strOff a r = s.strOff a r := by
  cases a <;> simp only [State.strOff, h.reg]

/-- The step of an index depends on DF alone. -/
theorem stride_congr {s t : State} (h : t.eflags = s.eflags) (n : Nat) : t.stride n = s.stride n := by
  rw [State.stride, State.stride, State.flag, State.flag, h]

section
variable {a : AddrSize} {n : Nat} {ovr : Option SegReg} {s s1 s2 : State} {w : Win} {v : Word}

/-- Once the port is allowed, INS checks its destination. -/
theorem insElement_allowed (allowed : ioCheck (lo16 s.gpr.edx) n s = .ok () s1) :
    insElement n a s = (do
      let w ← segWindow .es (s.strOff a .edi) n true
      let v ← ioRead (lo16 s.gpr.edx) n
      w.write v
      change fun s => s.bumpStr a .edi (s.stride n)) s1 := by
  rw [← ((ioCheck_readOnly _ n).ok allowed).1.strOff]
  exact (bind_ok (look_run s _)).trans ((bind_ok allowed).trans (bind_ok (get_run s1)))

/-- Once the port is allowed, OUTS reads its source. -/
theorem outsElement_allowed (allowed : ioCheck (lo16 s.gpr.edx) n s = .ok () s1) :
    outsElement n a ovr s = (do
      let v ← segRead (ovr.getD .ds) (s.strOff a .esi) n
      ioWrite (lo16 s.gpr.edx) n v
      change fun s => s.bumpStr a .esi (s.stride n)) s1 := by
  rw [← ((ioCheck_readOnly _ n).ok allowed).1.strOff]
  exact (bind_ok (look_run s _)).trans ((bind_ok allowed).trans (bind_ok (get_run s1)))

theorem insWindow_readOnly (allowed : ioCheck (lo16 s.gpr.edx) n s = .ok () s1)
    (window : segWindow .es (s.strOff a .edi) n true s1 = .ok w s2) : ReadOnly s s2 :=
  ((ioCheck_readOnly _ n).ok allowed).trans ((readOnly_access.segWindow _ _ n true).ok window)

theorem outsSource_readOnly (allowed : ioCheck (lo16 s.gpr.edx) n s = .ok () s1)
    (source : segRead (ovr.getD .ds) (s.strOff a .esi) n s1 = .ok v s2) : ReadOnly s s2 :=
  ((ioCheck_readOnly _ n).ok allowed).trans ((readOnly_access.segRead _ _ n).ok source)

/-- The state after one element of INS. -/
def State.afterIns (s : State) (port : BitVec 16) (n : Nat) (w : Win) : State :=
  (s.portIn port n).put w (lowBytes n (Config.portInput s.draws))

theorem afterIns_accessed (window : segWindow .es (s.strOff a .edi) n true s1 = .ok w s2) (port : BitVec 16) :
    Accessed w.phys (s2.portIn port n) (s2.afterIns port n w) :=
  put_accessed (segWindow_phys window).1 _ _

theorem insElement_run (allowed : ioCheck (lo16 s.gpr.edx) n s = .ok () s1)
    (window : segWindow .es (s.strOff a .edi) n true s1 = .ok w s2)
    (fits : (lo16 s.gpr.edx).toNat + n ≤ 65536) :
    insElement n a s = .ok () ((s2.afterIns (lo16 s.gpr.edx) n w).bumpStr a .edi (s.stride n)) := by
  have flags : (s2.afterIns (lo16 s.gpr.edx) n w).eflags = s.eflags :=
    (afterIns_accessed window _).1.eflags.trans (insWindow_readOnly allowed window).1.eflags
  rw [insElement_allowed allowed, bind_ok window, bind_ok (ioRead_fits fits s2), ← stride_congr flags]
  rfl

theorem insElement_past (allowed : ioCheck (lo16 s.gpr.edx) n s = .ok () s1)
    (window : segWindow .es (s.strOff a .edi) n true s1 = .ok w s2)
    (past : 65536 < (lo16 s.gpr.edx).toNat + n) : insElement n a s = .error (.refuse .portWrap) s2 := by
  rw [insElement_allowed allowed, bind_ok window, bind_error (ioRead_past past s2)]

theorem outsElement_run (allowed : ioCheck (lo16 s.gpr.edx) n s = .ok () s1)
    (source : segRead (ovr.getD .ds) (s.strOff a .esi) n s1 = .ok v s2)
    (fits : (lo16 s.gpr.edx).toNat + n ≤ 65536) :
    outsElement n a ovr s = .ok () ((s2.portOut (lo16 s.gpr.edx) n v).bumpStr a .esi (s.stride n)) := by
  have flags : (s2.portOut (lo16 s.gpr.edx) n v).eflags = s.eflags := (outsSource_readOnly allowed source).1.eflags
  rw [outsElement_allowed allowed, bind_ok source, bind_ok (ioWrite_fits fits v s2), ← stride_congr flags]
  rfl

theorem outsElement_past (allowed : ioCheck (lo16 s.gpr.edx) n s = .ok () s1)
    (source : segRead (ovr.getD .ds) (s.strOff a .esi) n s1 = .ok v s2)
    (past : 65536 < (lo16 s.gpr.edx).toNat + n) : outsElement n a ovr s = .error (.refuse .portWrap) s2 := by
  rw [outsElement_allowed allowed, bind_ok source, bind_error (ioWrite_past past v s2)]

end

/-- Settles O38: the element of each instruction, at the operand, at the end of the port space, and whole. -/
theorem stringMoves : Obligations.StringMoves := by
  intro a n s s1 s2 port allowed
  refine ⟨fun i form => ?_, fun i ovr form => ?_⟩
  · have body : exec i s = run (do insElement n a; return .next) s := by
      rcases form with ⟨rfl, rfl⟩ | ⟨o, rfl, rfl⟩ <;> rfl
    rw [body]
    refine ⟨fun e raised => ?_, fun w window => ⟨fun past => ?_, fun fits => ⟨?_, ?_, ?_⟩⟩⟩
    · exact run_exc (bind_error ((insElement_allowed allowed).trans (bind_error raised)))
    · exact run_refused (bind_error (insElement_past allowed window past))
    · exact run_ok (bind_ok (insElement_run allowed window fits))
    · exact insWindow_readOnly allowed window
    · exact afterIns_accessed window port
  · have body : exec i s = run (do outsElement n a ovr; return .next) s := by
      rcases form with ⟨rfl, rfl⟩ | ⟨o, rfl, rfl⟩ <;> rfl
    rw [body]
    refine ⟨fun e raised => ?_, fun v source => ⟨fun past => ?_, fun fits => ⟨?_, ?_⟩⟩⟩
    · exact run_exc (bind_error ((outsElement_allowed allowed).trans (bind_error raised)))
    · exact run_refused (bind_error (outsElement_past allowed source past))
    · exact run_ok (bind_ok (outsElement_run allowed source fits))
    · exact outsSource_readOnly allowed source

/-! ## REP (rule R381) -/

section
variable {a : AddrSize} {n : Nat} {ovr : Option SegReg} {element : M Unit} {s s1 : State}

theorem ioRead_eip {port : BitVec 16} {v : Word} (h : ioRead port n s = .ok v s1) : s1.eip = s.eip := by
  rcases Nat.lt_or_ge 65536 (port.toNat + n) with past | fits
  · rw [ioRead_past past] at h
    cases h
  · rw [ioRead_fits fits] at h
    cases h
    rfl

theorem ioWrite_eip {port : BitVec 16} {v : Word} (h : ioWrite port n v s = .ok () s1) : s1.eip = s.eip := by
  rcases Nat.lt_or_ge 65536 (port.toNat + n) with past | fits
  · rw [ioWrite_past past] at h
    cases h
  · rw [ioWrite_fits fits] at h
    cases h
    rfl

/-- An element leaves EIP, for the repetition that may follow. -/
theorem insElement_eip (h : insElement n a s = .ok () s1) : s1.eip = s.eip := by
  simp only [insElement, dxPort, bind_ok_iff, look_run, get_run, change_run, EStateM.Result.ok.injEq] at h
  obtain ⟨_, _, ⟨rfl, rfl⟩, _, t, allowed, _, _, ⟨rfl, rfl⟩, w, t2, window, v, t3, read, _, _, ⟨-, rfl⟩, -, rfl⟩ := h
  calc ((t3.put w v).bumpStr a .edi ((t3.put w v).stride n)).eip
    _ = (t3.put w v).eip := State.bumpStr_eip ..
    _ = t3.eip := (put_accessed (segWindow_phys window).1 t3 v).1.eip
    _ = t2.eip := ioRead_eip read
    _ = t.eip := ((readOnly_access.segWindow _ _ n true).ok window).1.eip
    _ = s.eip := ((ioCheck_readOnly _ n).ok allowed).1.eip

theorem outsElement_eip (h : outsElement n a ovr s = .ok () s1) : s1.eip = s.eip := by
  simp only [outsElement, dxPort, bind_ok_iff, look_run, get_run, change_run, EStateM.Result.ok.injEq] at h
  obtain ⟨_, _, ⟨rfl, rfl⟩, _, t, allowed, _, _, ⟨rfl, rfl⟩, v, t2, source, _, t3, written, -, rfl⟩ := h
  calc (t3.bumpStr a .esi (t3.stride n)).eip
    _ = t3.eip := State.bumpStr_eip ..
    _ = t2.eip := ioWrite_eip written
    _ = t.eip := ((readOnly_access.segRead _ _ n).ok source).1.eip
    _ = s.eip := ((ioCheck_readOnly _ n).ok allowed).1.eip

theorem repeated_zero (zero : s.strOff a .ecx = 0) : repeated a element s = .ok .next s := by
  rw [repeated, bind_ok (get_run s), if_pos (beq_iff_eq.mpr zero)]
  rfl

/-- One repetition: the element, the count less one, and the end by the count that is left. -/
theorem repeated_one (left : s.strOff a .ecx ≠ 0) (h : element s = .ok () s1) :
    repeated a element s =
      .ok (if (s1.bumpStr a .ecx (-1)).strOff a .ecx == 0 then .next else .again) (s1.bumpStr a .ecx (-1)) := by
  rw [repeated, bind_ok (get_run s), if_neg (by simpa using left), bind_ok h]
  rfl

end

/-- Settles O39: each form repeats its element, and no element touches EIP. -/
theorem repeatsElements : Obligations.RepeatsElements := by
  refine ⟨fun _ => rfl, fun t a element s form => ?_⟩
  have body : exec (.rep t) s = run (repeated a element) s ∧ ∀ s1, element s = .ok () s1 → s1.eip = s.eip := by
    rcases form with ⟨rfl, rfl⟩ | ⟨o, rfl, rfl⟩ | ⟨ovr, rfl, rfl⟩ | ⟨o, ovr, rfl, rfl⟩
    · exact ⟨rfl, fun _ => insElement_eip⟩
    · exact ⟨rfl, fun _ => insElement_eip⟩
    · exact ⟨rfl, fun _ => outsElement_eip⟩
    · exact ⟨rfl, fun _ => outsElement_eip⟩
  obtain ⟨body, eip⟩ := body
  refine ⟨fun zero => body.trans (run_ok (repeated_zero zero)), fun left s1 done => ?_⟩
  have one := repeated_one left done
  refine ⟨fun last => ?_, fun more => ⟨?_, ?_⟩⟩
  · rw [if_pos (beq_iff_eq.mpr last)] at one
    exact body.trans (run_ok one)
  · rw [if_neg (by simpa using more)] at one
    exact body.trans (run_ok one)
  · exact (State.bumpStr_eip ..).trans (eip s1 done)

end Sys2Proof.Machine

/-! SUPPORT. What the environment presents, RESET, and the invariant that paging is on only with protection on
(70_reset_and_hazards.md rules R640 to R642; 47_system_control.md rules R439, R446). -/

namespace Sys2Proof.Machine

/-! ## What the environment presents -/

/-- The writes of other bus masters change memory alone. -/
theorem State.busWrites_memoryOnly (s : State) (ws : List Host.Cell) : memoryOnly.r s (s.busWrites ws) := by
  induction ws generalizing s with
  | nil => rfl
  | cons w ws ih =>
    refine memoryOnly.trans ?_ (ih (s.busWrite w.1 w.2))
    unfold State.busWrite
    split <;> rfl

/-- The pins that the environment's next input leaves (rules R62, R64, R506; decision D36). -/
def State.presented (s : State) (p : Pins) (ps : List Pins) : State :=
  { s with env := ps, pins := { p with nmi := !s.nmiLatch && (p.nmi || s.pins.nmi), writes := [] } }

theorem State.sense_nil {s : State} (h : s.env = []) : s.sense = s := by
  unfold State.sense
  rw [h]

theorem State.sense_cons {s : State} {p : Pins} {ps : List Pins} (h : s.env = p :: ps) :
    s.sense = (s.presented p ps).busWrites p.writes := by
  unfold State.sense
  rw [h]
  rfl

/-- The environment's input changes pins and memory alone. -/
theorem State.sense_memoryOnly (s : State) : memoryOnly.r { s with env := s.sense.env, pins := s.sense.pins } s.sense := by
  cases h : s.env with
  | nil => rw [State.sense_nil h]; rfl
  | cons p ps =>
    have w := (s.presented p ps).busWrites_memoryOnly p.writes
    rw [State.sense_cons h, w]
    rfl

/-! ## Steps of a machine that is not stuck -/

/-- A machine to which the environment has something to present is not stuck, nor is one that it resets (rule R690). -/
theorem not_stuck_of_input {s : State} (h : s.env ≠ [] ∨ s.pins.reset = true) (r : RunState) : s.stuck r = false := by
  rcases h with h | h <;> simp [State.stuck, h]

/-- The step of a machine that is not stuck: RESET, shutdown, or the boundary (rule R511). -/
theorem step_of_not_stuck {s : State} (h : ∀ r, s.stuck r = false) : step s =
    if s.sense.pins.reset then .next s.sense.doReset
    else if s.sense.run == .shutdown then .next s.sense
    else if s.sense.flag bitVM then .refused .virtual8086
    else boundary s.sense := by
  simp [step, h]

/-- RESET is taken whatever else is presented (rule R640). -/
theorem step_reset {s : State} (h : s.sense.pins.reset = true) : step s = .next s.sense.doReset := by
  have input : s.env ≠ [] ∨ s.pins.reset = true := by
    by_cases env : s.env = []
    · exact .inr (State.sense_nil env ▸ h)
    · exact .inl env
  rw [step_of_not_stuck (not_stuck_of_input input), if_pos h]

/-! ## The state after RESET -/

/-- EAX after a self-test that BUSY# asked for says whether it passed (rule R641). -/
theorem resetEax_eq_zero_iff {s : State} (busy : s.pins.busy = true) :
    s.resetEax = 0 ↔ s.plat.selfTestPasses = true := by
  unfold State.resetEax
  cases s.plat.selfTestPasses with
  | true => simp
  | false =>
    simp only [busy, Bool.not_false, Bool.and_true, if_true]
    split <;> simp_all

/-- Of CR0 only ET can be set after RESET (rule R642). -/
theorem doReset_cr0_bit (s : State) (k : Nat) : s.doReset.cr.cr0.getLsbD k = (decide (k = 4) && s.plat.cop387) := by
  change BitVec.getLsbD (if s.plat.cop387 then 0x10#32 else 0#32) k = _
  cases s.plat.cop387 with
  | false => simp
  | true =>
    by_cases hk : k < 32
    · interval_cases k <;> rfl
    · simp [show ¬ k = 4 by omega, Nat.le_of_not_lt hk]

/-- DL after RESET is the stepping, and DH is 3 (rule R641). -/
theorem resetEdx_bytes (v : Byte) : (0x300#32 ||| v.zeroExtend 32).extractLsb' 0 8 = v ∧
    (0x300#32 ||| v.zeroExtend 32).extractLsb' 8 8 = 3#8 := by
  constructor <;> (ext i hi; interval_cases i <;> simp)

/-- Settles O1: the machine that RESET leaves is read off `doReset`, register by register. -/
theorem resetValues : Obligations.ResetValues := by
  refine ⟨fun _ => step_reset, fun _ => resetEax_eq_zero_iff, fun r h => ?_⟩
  obtain rfl | ⟨s, rfl⟩ := h
  · decide
  · obtain ⟨dl, dh⟩ := resetEdx_bytes s.plat.steppingId
    have cr0 := doReset_cr0_bit s
    have pe : s.doReset.pe = false := cr0 0
    have first : State.reset.fetchPhys [State.reset.fetchLin.toNat] = [0xFFFFFFF0] := by decide
    refine ⟨rfl, rfl, rfl, rfl, rfl, rfl, rfl, rfl, rfl, dh, dl, pe, cr0 31, cr0 1, cr0 2, cr0 3, cr0 4,
      if_neg (by simp [pe]), rfl, rfl, first⟩

/-! ## Paging and protection -/

/-- The predicate is one of two bits of CR0. -/
theorem PagingOk.of_bits {s t : State} (h : PagingOk s) (pg : t.pg = s.pg) (pe : t.pe = s.pe) : PagingOk t := by
  unfold PagingOk
  rw [pg, pe]
  exact h

theorem PagingOk.of_cr {s t : State} (h : PagingOk s) (e : t.cr = s.cr) : PagingOk t :=
  h.of_bits (by unfold State.pg; rw [e]) (by unfold State.pe; rw [e])

/-- Without paging there is nothing to show. -/
theorem PagingOk.of_off {s : State} (h : s.pg = false) : PagingOk s := fun on => absurd (h ▸ on) Bool.false_ne_true

/-- LMSW keeps PG, and PE where it is set (rule R446). -/
theorem lmswValue_paging (old : Word) (v : BitVec 16) : (lmswValue old v).getLsbD 31 = old.getLsbD 31 ∧
    (lmswValue old v).getLsbD 0 = (old.getLsbD 0 || v.getLsbD 0) := by
  constructor <;> simp [lmswValue, zx16]

/-- Accesses to memory change no control register but CR2. -/
theorem keepsPaging_stores : Stores (Rel.keeps PagingOk) where
  draws _ _ h := h
  pend _ _ h := h
  cr2 _ _ h := h
  drop _ _ h := h
  io _ _ _ h := h
  walk lin w u s _ := Does.walkOf (R := Rel.keeps PagingOk) (fun _ _ h => h) (fun _ _ _ h => h)
    (fun s a v h => h.of_cr (State.store_cr s a v)) (fun _ _ h => h)
    (fun _ _ _ => Keeps.fillTlb (fun _ _ h => h) fun _ _ h => h) lin w u s
  store s a v h := h.of_cr (State.store_cr s a v)

theorem keepsPaging_tlbWrite (v : Word) : Keeps PagingOk (tlbWrite v) :=
  Does.bind Does.get fun _ => Does.ite (Does.refuse _) (Does.bind (keepsPaging_stores.toReads.describedEntry v) fun _ =>
    Does.ite (Does.refuse _) (Does.change fun _ h => h))

/-- Each way in which the machine writes CR0 sets PG with PE alone, or keeps both but for a PE that LMSW sets (rules
R439, R446). -/
theorem pagingOk_invariant : Invariant PagingOk where
  toStores := keepsPaging_stores
  rest h e := h.of_cr e.2.2.1
  setFlag _ _ _ _ h := h
  freeStatus _ h := h
  loadFlags _ _ _ _ h := h
  taskFlags _ _ _ h := h
  oldFlags _ h := h
  setCr0 _ valid _ := valid
  lmsw {s} v h paging := by
    obtain ⟨pg, pe⟩ := lmswValue_paging s.cr.cr0 v
    have on : s.cr.cr0.getLsbD 0 = true := h (pg.symm.trans paging)
    exact pe.trans (by rw [on, Bool.true_or])
  setTs h := h.of_bits (by simp [State.pg]) (by simp [State.pe])
  clearTs h := h.of_bits (by simp [State.pg]) (by simp [State.pe])
  setCr3 _ h := h
  switchCr3 v h := h.of_bits (by simp [State.pg]) (by simp [State.pe])
  oldCr h _ := h
  oldPaging _ h := h
  unknownTlb h := h
  tlbWrite := keepsPaging_tlbWrite
  sense {s} h := h.of_cr (by rw [s.sense_memoryOnly])
  doReset {s} _ := PagingOk.of_off (doReset_cr0_bit s 31)

/-- Settles O5: `PagingOk` is an invariant. -/
theorem stepKeepsPaging : Obligations.StepKeepsPaging := fun _ _ hs h => pagingOk_invariant.step hs h

end Sys2Proof.Machine

/-! SUPPORT. Shutdown, and the order of events at an instruction boundary (60_exceptions.md rules R506 to R511, R521, R557;
61_debug.md rules R608 to R619). -/

namespace Sys2Proof.Machine

/-! ## Shutdown -/

/-- With an IDT of limit 0 no entry is inside its table: every delivery raises an exception and changes nothing. -/
theorem deliver_emptyIdt {s : State} (h : s.idtr.limit = 0) (ev : Event) : ∃ e, deliver ev s = .error (.exc e) s := by
  cases hp : s.pe with
  | true => exact ⟨_, deliver_outside hp (by simp [h])⟩
  | false =>
    refine ⟨{ vector := 13 }, ?_⟩
    unfold deliver
    rw [bind_ok (look_run _ _), hp]
    unfold deliverReal
    exact (bind_ok (get_run _)).trans (bind_error (require_error (by simp [h])))

/-- However many deliveries follow one another, shutdown ends them (rules R521, R557). -/
theorem deliverChain_emptyIdt (k : Nat) (ev : Event) {s : State} (h : s.idtr.limit = 0) :
    ∃ p, deliverChain k ev s = .next { s with run := .shutdown, pend := p } := by
  induction k generalizing ev s with
  | zero => exact ⟨s.pend, rfl⟩
  | succ k ih =>
    obtain ⟨e, he⟩ := deliver_emptyIdt h ev
    cases hd : ev.isDouble with
    | true => exact ⟨.none, by simp [deliverChain, he, hd]⟩
    | false =>
      obtain ⟨p, hk⟩ := ih (secondEvent ev e s.eip) (s := { s with pend := .none }) h
      exact ⟨p, by simp [deliverChain, he, hd, hk]⟩

section
variable {s : State} (down : s.run = .shutdown)
include down

/-- Nothing more is presented: the machine stays down (rule R557, decision D38). -/
theorem step_down_idle (env : s.env = []) (noReset : s.pins.reset = false) : step s = .fault .shutdown := by
  have stuck : s.stuck .shutdown = true := by simp [State.stuck, down, env, noReset]
  rw [step, if_pos stuck]

/-- The environment's next input is taken, and nothing else happens. -/
theorem step_down_input {p : Pins} {ps : List Pins} (env : s.env = p :: ps) (noReset : p.reset = false) :
    step s = .next ((s.presented p ps).busWrites p.writes) := by
  have sensed := State.sense_cons env
  have frame := (s.presented p ps).busWrites_memoryOnly p.writes
  have pins : s.sense.pins.reset = false := by rw [sensed, frame]; exact noReset
  have run : s.sense.run = .shutdown := by rw [sensed, frame]; exact down
  rw [step_of_not_stuck (not_stuck_of_input (.inl (by simp [env]))), pins, run, sensed]
  rfl

end

/-- Settles O45: no delivery finds an entry in an IDT of limit 0, and a step in shutdown only takes what is presented. -/
theorem shutdown : Obligations.Shutdown := by
  refine ⟨fun ev s h => ?_, fun s down => ⟨step_down_idle down, fun p ps => step_down_input down, fun t h up => ?_⟩⟩
  · obtain ⟨p, hp⟩ := deliverChain_emptyIdt 5 ev h
    exact ⟨_, hp, rfl, Quiet.of_eq rfl⟩
  · cases hr : s.sense.pins.reset with
    | true =>
      rw [step_reset hr] at h
      exact ⟨rfl, by simpa using h.symm⟩
    | false =>
      exfalso
      cases env : s.env with
      | nil =>
        rw [State.sense_nil env] at hr
        rw [step_down_idle down env hr] at h
        cases h
      | cons p ps =>
        have frame := (s.presented p ps).busWrites_memoryOnly p.writes
        rw [State.sense_cons env, frame] at hr
        rw [step_down_input down env hr, frame] at h
        cases h
        exact absurd (down.symm.trans up) (by decide)

/-! ## The boundary with nothing new from the environment -/

/-- A halt or a wait that something ends is not stuck. -/
theorem not_stuck_of_asked {s : State} (alive : s.run ≠ .shutdown)
    (asked : s.unasked = false ∨ s.run = .running ∨ (s.run = .waiting ∧ (s.pins.busy = false ∨ s.debugFaults = true)))
    (r : RunState) : s.stuck r = false := by
  cases r with
  | running => simp [State.stuck]
  | shutdown => simp [State.stuck, alive]
  | halted => rcases asked with h | h | ⟨h, -⟩ <;> simp [State.stuck, h]
  | waiting => rcases asked with h | h | ⟨-, h | h⟩ <;> simp [State.stuck, h]

section
variable {s : State}

/-- A request, a debug trap or the end of a wait: what a step does where no debug fault goes before it. -/
theorem boundary_of_noTrap (free : s.inhibit = false) (noTrap : s.pend.trap = false)
    (noFault : s.run = .halted ∨ s.debugFaults = false) :
    boundary s = interruptOr (if s.run == .halted then .next else execute) s := by
  unfold boundary
  rw [free, noTrap, if_neg Bool.false_ne_true, if_neg Bool.false_ne_true]
  cases hr : s.run == .halted with
  | true => rfl
  | false =>
    have h : s.debugFaults = false := noFault.resolve_left (by simpa using hr)
    rw [h]
    rfl

/-- No interrupt is taken (rules R506, R507). -/
theorem interruptOr_none {go : State → Host.Outcome State Fault Refusal}
    (noNmi : s.pins.nmi = false ∨ s.nmiLatch = true) (noIntr : s.flag bitIF = false ∨ s.pins.intr = none) :
    interruptOr go s = go { s with draws := s.draws + 1 } := by
  have hn : (s.pins.nmi && !s.nmiLatch) = false := by rcases noNmi with h | h <;> simp [h]
  have hi : s.intrNow = none := by rcases noIntr with h | h <;> simp [State.intrNow, h]
  unfold interruptOr
  rw [hn, hi]
  rfl

/-- The machine executes the instruction that it fetches (rules R509, R511). -/
theorem execute_fetched {i : Instr} {t : State} (defined : s.dr.undefinedOn = false)
    (fetched : nextInstr s.cleared = .ok i t) : execute s = exec i t := by
  unfold execute
  rw [defined, fetched]
  rfl

/-- The same where no event is pending. -/
theorem execute_opened {i : Instr} {t : State} (defined : s.dr.undefinedOn = false)
    (fetched : nextInstr s.opened = .ok i t) : execute { s with draws := s.draws + 1 } = exec i t :=
  execute_fetched (s := { s with draws := s.draws + 1 }) defined fetched

end

section
variable {s : State} (env : s.env = []) (noReset : s.pins.reset = false) (alive : s.run ≠ .shutdown)
  (noVm : s.flag bitVM = false)
include env noReset alive noVm

/-- Such a machine is at an instruction boundary (rule R511). -/
theorem step_eq_boundary
    (asked : s.unasked = false ∨ s.run = .running ∨ (s.run = .waiting ∧ (s.pins.busy = false ∨ s.debugFaults = true))) :
    step s = boundary s := by
  rw [step_of_not_stuck (not_stuck_of_asked alive asked), State.sense_nil env, noReset, noVm,
    if_neg Bool.false_ne_true, if_neg (by simpa using alive), if_neg Bool.false_ne_true]

end

/-- Settles O11: a calm boundary recognises nothing, and executes. -/
theorem stepRunsDecoded : Obligations.StepRunsDecoded := by
  intro s s1 i ⟨env, noReset, run, noVm, free, noTrap, noFault, noNmi, noIntr, defined⟩ fetched
  have alive : s.run ≠ .shutdown := by rcases run with h | ⟨h, -⟩ <;> simp [h]
  have awake : (s.run == .halted) = false := by rcases run with h | ⟨h, -⟩ <;> simp [h]
  have runs : s.run = .running ∨ s.run = .waiting ∧ (s.pins.busy = false ∨ s.debugFaults = true) :=
    run.imp_right fun ⟨wait, idle⟩ => ⟨wait, .inl idle⟩
  rw [step_eq_boundary env noReset alive noVm (.inr runs), boundary_of_noTrap free noTrap (.inr noFault), awake,
    interruptOr_none noNmi noIntr]
  exact execute_opened defined fetched

/-! ## The order of events -/

/-- The bits of a mask of breakpoints. -/
theorem getLsbD_maskOf (p : Nat → Bool) {n : Nat} (hn : n < 4) : (maskOf p).getLsbD n = p n := by
  have bits : ∀ a b c d : Bool, ∀ k < 4, (BitVec.ofBool d ++ BitVec.ofBool c ++ BitVec.ofBool b ++
      BitVec.ofBool a).getLsbD k = [a, b, c, d].getD k false := by decide
  rw [maskOf, bits _ _ _ _ n hn]
  interval_cases n <;> rfl

theorem generalDetect_iff (s : State) : s.generalDetect = true ↔ s.plat.iceActive = true ∧ s.level = 0 ∧
    ∃ i t, nextInstr s.opened = .ok i t ∧ usesDr i = true := by
  unfold State.generalDetect
  cases nextInstr s.opened <;> simp [and_assoc]

theorem debugFaults_iff (s : State) : s.debugFaults = true ↔
    s.flag bitRF = false ∧ (s.codeHits true ≠ 0 ∨ s.generalDetect = true) := by
  simp [State.debugFaults]

/-- Debug traps that are not those of the debug handler's own task are one exception (rule R608). -/
theorem debugTrap_reported {s : State} (h : s.pend.bt = false ∨ ∀ t, ownDebugTask s ≠ .ok true t) :
    debugTrap s = reportTraps s := by
  unfold debugTrap
  rcases h with h | h
  · rw [h]
    rfl
  · split
    · split
      · exact absurd ‹_› (h _)
      · rfl
    · rfl

section
variable {s s1 t : State} {i : Instr} (defined : s.dr.undefinedOn = false) (fetched : nextInstr s.opened = .ok i s1)
  (done : exec i s1 = .next t)
include defined fetched done

/-- An instruction with a debug fault that raises no fault of its own is not executed (rules R510, R568). -/
theorem breakOr_debugFault (ended : t.ended = .completed ∨ t.ended = .raised 9) : breakOr s = debugFault s := by
  have run := (execute_opened defined fetched).trans done
  unfold breakOr
  rcases ended with ended | ended <;> simp [defined, run, ended]

/-- A fault of its own goes first. -/
theorem breakOr_fault {v : Byte} (ended : t.ended = .raised v) (hv : v ≠ 9) : breakOr s = .next t := by
  have run := (execute_opened defined fetched).trans done
  unfold breakOr
  simp only [defined, run, ended, Bool.false_eq_true, if_false, if_neg hv]

end

/-- No event is there to end a halt or a wait (rules R455, R473). -/
theorem unasked_of_none {s : State} (free : s.inhibit = false) (noTrap : s.pend.trap = false)
    (noNmi : s.pins.nmi = false ∨ s.nmiLatch = true) (noIntr : s.flag bitIF = false ∨ s.pins.intr = none) :
    s.unasked = true := by
  have hn : (!s.pins.nmi || s.nmiLatch) = true := by rcases noNmi with h | h <;> simp [h]
  have hi : (!s.flag bitIF || s.pins.intr.isNone) = true := by rcases noIntr with h | h <;> simp [h]
  simp [State.unasked, free, noTrap, hn, hi]

section
variable {s : State} (env : s.env = []) (noReset : s.pins.reset = false)
include env noReset

theorem step_haltedForever (halted : s.run = .halted) (unasked : s.unasked = true) : step s = .fault .haltedForever := by
  simp [step, State.stuck, env, noReset, halted, unasked]

theorem step_waitingForever (waiting : s.run = .waiting) (unasked : s.unasked = true) (busy : s.pins.busy = true)
    (noFault : s.debugFaults = false) : step s = .fault .waitingForever := by
  simp [step, State.stuck, env, noReset, waiting, unasked, busy, noFault]

end

/-- Settles O51: the boundary's cases in their order. -/
theorem boundaryOrder : Obligations.BoundaryOrder := by
  refine ⟨fun s p ps h => ?_, fun s env noReset alive noVm => ?_⟩
  · have frame := (s.presented p ps).busWrites_memoryOnly p.writes
    rw [State.sense_cons h, frame]
    exact ⟨rfl, rfl⟩
  intro trap beside bd
  have atBoundary := step_eq_boundary env noReset alive noVm
  refine ⟨fun held defined i s1 fetched => ?_, fun on n hn => ?_, generalDetect_iff s, debugFaults_iff s, fun free =>
    ⟨fun trapped own => ?_, fun bt t own => ?_, fun noTrap awake faults defined i s1 fetched t done => ?_,
      fun noTrap noFault => ⟨fun nmi open_ => ?_, fun noNmi => ⟨fun n intr on sti => ?_, fun noIntr => ⟨?_, ?_⟩⟩⟩⟩⟩
  · rw [atBoundary (.inl (by simp [State.unasked, held])), boundary, if_pos held]
    exact execute_fetched defined fetched
  · rw [State.codeHits, getLsbD_maskOf _ hn]
    rw [Bool.eq_iff_iff]
    simp [DebugRegs.codeMatch, and_assoc]
  · rw [atBoundary (.inl (by simp [State.unasked, trapped])), boundary, free, if_neg Bool.false_ne_true, if_pos trapped,
      debugTrap_reported own]
    rfl
  · have trapped : s.pend.trap = true := by simp [Pending.trap, bt]
    rw [atBoundary (.inl (by simp [State.unasked, trapped])), boundary, free, if_neg Bool.false_ne_true, if_pos trapped,
      debugTrap, if_pos bt, own]
    rfl
  · have runs : s.run = .running ∨ s.run = .waiting ∧ (s.pins.busy = false ∨ s.debugFaults = true) :=
      awake.imp_right fun h => ⟨h, .inr faults⟩
    have notHalted : (s.run == .halted) = false := by rcases awake with h | h <;> simp [h]
    have taken : step s = breakOr s := by
      rw [atBoundary (.inr runs), boundary, free, noTrap, notHalted, faults]
      rfl
    exact ⟨fun ended => taken.trans (breakOr_debugFault defined fetched done ended),
      fun v ended hv => taken.trans (breakOr_fault defined fetched done ended hv)⟩
  · rw [atBoundary (.inl (by simp [State.unasked, nmi, open_])), boundary_of_noTrap free noTrap noFault, interruptOr, nmi,
      open_]
    rfl
  · have quiet : (s.pins.nmi && !s.nmiLatch) = false := by rcases noNmi with h | h <;> simp [h]
    have now : s.intrNow = some n := by simp [State.intrNow, on, sti, intr]
    rw [atBoundary (.inl (by simp [State.unasked, on, intr])), boundary_of_noTrap free noTrap noFault, interruptOr, quiet,
      now]
    rfl
  · exact fun halted => step_haltedForever env noReset halted (unasked_of_none free noTrap noNmi noIntr)
  · exact fun waiting busy => step_waitingForever env noReset waiting (unasked_of_none free noTrap noNmi noIntr) busy
      (noFault.resolve_left (by simp [waiting]))

end Sys2Proof.Machine

/-! SUPPORT. INT n, INT 3, INTO and BOUND, and an exception that an instruction raised
(46_interrupt_instructions.md; 60_exceptions.md rules R549 to R557). -/

namespace Sys2Proof.Machine

/-! ## Software interrupts (rules R411 to R414) -/

/-- The three forms that deliver vector `n` when they execute in `s`. -/
def SoftForm (s : State) (i : Instr) (n : Byte) : Prop :=
  i = .intN n ∨ (i = .int3 ∧ n = 3) ∨ (i = .into ∧ n = 4 ∧ s.flag 11 = true)

/-- The event of a software interrupt: it returns to the next instruction, and its delivery raises EXT 0. -/
def State.softEvent (s : State) (n : Byte) : Event :=
  { vector := n, cls := .software, ret := s.eipNext, ext := false }

section
variable {s t : State} {i : Instr} {n : Byte}

theorem exec_into_clear (clear : s.flag 11 = false) : exec .into s = .next (s.retires s) :=
  run_ok ((bind_ok (look_run s _)).trans (congrFun (if_neg (Bool.eq_false_iff.mp clear)) s))

theorem exec_softForm (form : SoftForm s i n) : exec i s = run (softInt n) s := by
  rcases form with rfl | ⟨rfl, rfl⟩ | ⟨rfl, rfl, overflow⟩
  · rfl
  · rfl
  · exact run_congr ((bind_ok (look_run s _)).trans (congrFun (if_pos overflow) s))

theorem softInt_done {task : Bool} (done : deliver (s.softEvent n) s = .ok task t) :
    softInt n s = .ok (if task then .transferKeepRf else .transfer) t :=
  (bind_ok (look_run s _)).trans ((bind_ok done).trans rfl)

/-- The handler's state. -/
theorem exec_softForm_jumps (form : SoftForm s i n) (done : deliver (s.softEvent n) s = .ok false t) :
    exec i s = .next (s.jumps t) := (exec_softForm form).trans (run_ok (softInt_done done))

/-- The handler's task. -/
theorem exec_softForm_resumes (form : SoftForm s i n) (done : deliver (s.softEvent n) s = .ok true t) :
    exec i s = .next (s.resumes t) := (exec_softForm form).trans (run_ok (softInt_done done))

theorem exec_softForm_exc {e : Exc} (form : SoftForm s i n) (raised : deliver (s.softEvent n) s = .error (.exc e) t) :
    exec i s = takeException e t := by
  rw [exec_softForm form]
  exact run_exc ((bind_ok (look_run s _)).trans (bind_error raised))

end

/-! ## Delivery in real-address mode (rule R646) -/

section
variable {ev : Event} {s : State} (hp : s.pe = false)
include hp

theorem deliver_real : deliver ev s = deliverReal ev s :=
  (bind_ok (look_run s _)).trans (congrFun (if_neg (Bool.eq_false_iff.mp hp)) s)

theorem deliver_real_outside (out : s.idtr.limit.toNat < 4 * ev.vector.toNat + 3) :
    deliver ev s = .error (.exc { vector := 13 }) s :=
  (deliver_real hp).trans ((bind_ok (get_run s)).trans
    (bind_error (require_error (decide_eq_false (Nat.not_le.mpr out)))))

/-- Three words are pushed, and CS:EIP is the vector's entry. -/
theorem deliver_real_inside (inside : 4 * ev.vector.toNat + 3 ≤ s.idtr.limit.toNat)
    (mem : s.noDevice (physRange (s.idtr.base + BitVec.ofNat 32 (4 * ev.vector.toNat)).toNat 4)) {ws : List Win}
    {s1 : State} (slots : preparePushes false [2, 2, 2] s = .ok ws s1) :
    let v := s.dwordAt (s.idtr.base + BitVec.ofNat 32 (4 * ev.vector.toNat))
    deliver ev s = .ok false
      { ((s1.puts ws [s.eflags, zx16 s.seg.cs.sel, ev.ret]).moveSp (-6)).setSegOf .cs
          (s.seg.cs.realLoad (v.extractLsb' 16 16)) with
        eip := zx16 (lo16 v), eflags := setBit (setBit s.eflags 9 false) 8 false } :=
  (deliver_real hp).trans ((bind_ok (get_run s)).trans ((bind_ok (require_ok (decide_eq_true inside))).trans
    ((bind_ok (physRead_run mem)).trans ((bind_ok slots).trans rfl))))

end

/-- What is stored in slots for pushes that were only translated touches no register, and no byte outside them. -/
theorem puts_accessed_of_slots {watch : Bool} {ns : List Nat} {ws : List Win} {s s0 s1 s2 : State} (read : ReadOnly s s0)
    (slots : preparePushes watch ns s0 = .ok ws s1) (read' : ReadOnly s1 s2) (vs : List Word) :
    Accessed (ws.flatMap (·.phys)) s (s2.puts ws vs) :=
  (Accessed.ofReadOnly ((read.trans ((readOnly_access.preparePushes watch ns).ok slots)).trans read') _).trans
    (puts_accessed (preparePushes_phys slots).1 vs s2)

/-- Settles O41: the forms deliver one event, which real-address mode takes by its vector's entry. -/
theorem softwareInterrupts : Obligations.SoftwareInterrupts := by
  refine fun s => ⟨exec_into_clear, fun i n form => ?_⟩
  intro ev
  have form : SoftForm s i n := form
  refine ⟨fun t => exec_softForm_jumps form, fun t => exec_softForm_resumes form, fun e t => exec_softForm_exc form,
    fun hp out => exec_softForm_exc form (deliver_real_outside hp out), fun hp inside => ?_⟩
  intro a mem ws s1 slots v u
  have done := deliver_real_inside (ev := ev) hp inside mem slots
  exact ⟨exec_softForm_jumps form done, puts_accessed_of_slots (ReadOnly.refl s) slots (ReadOnly.refl s1) _⟩

/-! ## BOUND (rule R415) -/

/-- An index between its bounds, both included, as signed numbers of the operand size. -/
def inBounds (o : OpSize) (lo hi idx : Word) : Bool := signedOf o lo ≤ signedOf o idx && signedOf o idx ≤ signedOf o hi

section
variable {o : OpSize} {r : Reg} {m : MemOp} {lo hi : Word} {s s1 s2 : State} (lower : memRead m 0 o.bytes s = .ok lo s1)
  (upper : memRead m (retWord o 1) o.bytes s1 = .ok hi s2)
include lower upper

theorem bounds_readOnly : ReadOnly s s2 :=
  ((readOnly_access.memRead m 0 o.bytes).ok lower).trans ((readOnly_access.memRead m _ o.bytes).ok upper)

theorem exec_bound_inside (inside : inBounds o lo hi (s.regSz o r) = true) :
    exec (.bound o r (.mem m)) s = .next (s.retires s2) := by
  rw [← (bounds_readOnly lower upper).1.regSz] at inside
  exact run_ok ((bind_ok (m := memOnly (.mem m)) rfl).trans ((bind_ok lower).trans ((bind_ok upper).trans
    ((bind_ok (look_run s2 _)).trans (bind_ok (require_ok inside))))))

theorem exec_bound_outside (outside : inBounds o lo hi (s.regSz o r) = false) :
    exec (.bound o r (.mem m)) s = takeException excBR s2 := by
  rw [← (bounds_readOnly lower upper).1.regSz] at outside
  exact run_exc ((bind_ok (m := memOnly (.mem m)) rfl).trans ((bind_ok lower).trans ((bind_ok upper).trans
    ((bind_ok (look_run s2 _)).trans (bind_error (require_error outside))))))

end

/-- Settles O50: both bounds are read, and then the index is tested. -/
theorem boundChecks : Obligations.BoundChecks := by
  refine fun o r s => ⟨fun q => rfl, fun m lo hi s1 s2 lower upper => ⟨bounds_readOnly lower upper, fun above below => ?_,
    fun outside => ?_⟩⟩
  · exact exec_bound_inside lower upper (by simp [inBounds, above, below])
  · exact exec_bound_outside lower upper (by simp [inBounds]; omega)

/-! ## An exception that an instruction raised (rules R550 to R557) -/

section
variable {e e' : Exc} {b : Bool} {k : Nat} {ev : Event} {s t : State}

theorem deliverChain_done (done : deliver ev s = .ok b t) : deliverChain (k + 1) ev s = .next t.fresh := by
  rw [deliverChain, done]

theorem deliverChain_double (double : ev.isDouble = true) (raised : deliver ev s = .error (.exc e') t) :
    deliverChain (k + 1) ev s = .next { t with run := .shutdown, pend := .none } := by
  simp only [deliverChain, raised, double, if_true]

theorem deliverChain_second (single : ev.isDouble = false) (raised : deliver ev s = .error (.exc e') t) :
    deliverChain (k + 1) ev s = deliverChain k (secondEvent ev e' t.eip) { t with pend := .none } := by
  simp only [deliverChain, raised, single, Bool.false_eq_true, if_false]

end

/-- Settles O44: one delivery, and the one that follows where it raises an exception. -/
theorem exceptionTaken : Obligations.ExceptionTaken := by
  intro e s notMp s' ev
  have taken : takeException e s = deliverChain 5 ev s' := by
    have ret : excRet e s = s.eip := if_neg (by simpa using notMp)
    rw [takeException, deliverEvent, ret]
  rw [taken]
  refine ⟨fun b t => deliverChain_done, fun e' t raised => ⟨fun eight => ?_, fun other => ?_⟩⟩
  · exact deliverChain_double (by simp [Event.isDouble, ev, eight]) raised
  · exact deliverChain_second (by simpa [Event.isDouble, ev] using other) raised

end Sys2Proof.Machine

/-! SUPPORT. The entry through an interrupt or trap gate (60_exceptions.md rules R541 to R547). -/

namespace Sys2Proof.Machine

/-! ## The EXT bit of what a delivery raises (rule R549) -/

section
variable {α : Type} {m : M α} {ext : Bool} {s t : State}

theorem withExt_of_ok {a : α} (h : m s = .ok a t) : withExt ext m s = .ok a t := by
  unfold withExt
  rw [h]

theorem withExt_of_exc {e : Exc} (h : m s = .error (.exc e) t) :
    withExt ext m s = .error (.exc { e with code := e.code.withExt ext }) t := by
  unfold withExt
  rw [h]

end

/-! ## The entry of the IDT (rules R541, R545) -/

/-- The handler entered through an interrupt or trap gate, with its flags (rule R546). -/
def enterHandler (g : Desc) (err : Option Word) (ev : Event) : M Bool := do
  enterGate g err ev
  change fun s => { s with eflags := handlerFlags s.eflags (g.type == 14) }
  return false

/-- The delivery of an event whose entry of the IDT has been read, at level `cpl` (rule R540). -/
def throughEntry (ev : Event) (cpl : BitVec 2) (g : Desc) : M Bool := do
  if !g.s && (g.type == 6 || g.type == 7) then refuse .descriptor286 else
  require (!g.s && (g.type == 5 || g.type == 14 || g.type == 15)) (excGP (idtErr ev.vector ev.ext))
  require (ev.cls != .software || cpl ≤ g.dpl) (excGP (idtErr ev.vector false))
  require g.present (excNP (idtErr ev.vector ev.ext))
  let err ← pushedCode ev.code
  if g.type == 5 then
    gateToTss .int g.gateSel ev.ext ev.ret ev.fault err
    return true
  else enterHandler g err ev

section
variable {ev : Event} {g : Desc} {s s1 : State}

theorem deliver_entry (hp : s.pe = true) (inside : 8 * ev.vector.toNat + 7 ≤ s.idtr.limit.toNat)
    (entry : readDesc (s.idtr.base + BitVec.ofNat 32 (8 * ev.vector.toNat)) s = .ok g s1) :
    deliver ev s = throughEntry ev s.cpl g s1 := by
  rw [← level_of_pe hp]
  exact (bind_ok (look_run s _)).trans ((congrFun (if_pos hp) s).trans ((bind_ok (get_run s)).trans
    ((bind_ok (require_ok (decide_eq_true inside))).trans (bind_ok entry))))

/-- Whether an event at level `cpl` may go through a gate: only a software interrupt needs its DPL (rule R541). -/
def mayUse (ev : Event) (cpl : BitVec 2) (g : Desc) : Prop := ev.cls = .software → cpl ≤ g.dpl

theorem mayUse_iff {cpl : BitVec 2} : (ev.cls != .software || decide (cpl ≤ g.dpl)) = true ↔ mayUse ev cpl g := by
  simp [mayUse, imp_iff_not_or]

variable {cpl : BitVec 2}

theorem throughEntry_286 (system : g.s = false) (old : g.type = 6 ∨ g.type = 7) :
    throughEntry ev cpl g s = .error (.refuse .descriptor286) s := by
  have h : (!g.s && (g.type == 6 || g.type == 7)) = true := by simpa [system] using old
  exact congrFun (if_pos h) s

theorem throughEntry_other (other : g.s = true ∨ g.type ∉ [5, 6, 7, 14, 15]) :
    throughEntry ev cpl g s = .error (.exc (excGP (idtErr ev.vector ev.ext))) s := by
  have h : (!g.s && (g.type == 6 || g.type == 7)) = false ∧
      (!g.s && (g.type == 5 || g.type == 14 || g.type == 15)) = false := by
    rcases other with h | h
    · simp [h]
    · have no : ∀ k ∈ [5, 6, 7, 14, 15], (g.type == k) = false := fun k hk => beq_eq_false_iff_ne.mpr fun e => h (e ▸ hk)
      rw [no 5 (by simp), no 6 (by simp), no 7 (by simp), no 14 (by simp), no 15 (by simp)]
      simp
  exact (congrFun (if_neg (Bool.eq_false_iff.mp h.1)) s).trans (bind_error (require_error h.2))

variable (system : g.s = false)
include system

section
variable (gate : g.type ∈ [5, 14, 15])
include gate

/-- The tests of a gate, past that of its type. -/
theorem throughEntry_gate : throughEntry ev cpl g s = (do
    require (ev.cls != .software || cpl ≤ g.dpl) (excGP (idtErr ev.vector false))
    require g.present (excNP (idtErr ev.vector ev.ext))
    let err ← pushedCode ev.code
    if g.type == 5 then
      gateToTss .int g.gateSel ev.ext ev.ret ev.fault err
      return true
    else enterHandler g err ev : M Bool) s := by
  have h : (!g.s && (g.type == 6 || g.type == 7)) = false ∧
      (!g.s && (g.type == 5 || g.type == 14 || g.type == 15)) = true := by
    simp only [List.mem_cons, List.not_mem_nil, or_false] at gate
    rcases gate with h | h | h <;> simp [system, h]
  exact (congrFun (if_neg (Bool.eq_false_iff.mp h.1)) s).trans (bind_ok (require_ok h.2))

theorem throughEntry_denied (denied : ¬ mayUse ev cpl g) :
    throughEntry ev cpl g s = .error (.exc (excGP (idtErr ev.vector false))) s :=
  (throughEntry_gate system gate).trans
    (bind_error (require_error (Bool.eq_false_iff.mpr fun h => denied (mayUse_iff.mp h))))

theorem throughEntry_absent (usable : mayUse ev cpl g) (absent : g.present = false) :
    throughEntry ev cpl g s = .error (.exc (excNP (idtErr ev.vector ev.ext))) s :=
  (throughEntry_gate system gate).trans
    ((bind_ok (require_ok (mayUse_iff.mpr usable))).trans (bind_error (require_error absent)))

end

/-- Through a usable interrupt or trap gate that is present the handler is entered. -/
theorem throughEntry_enters {err : Option Word} (gate : g.type = 14 ∨ g.type = 15) (usable : mayUse ev cpl g)
    (there : g.present = true) (code : pushedCode ev.code s = .ok err s1) :
    throughEntry ev cpl g s = enterHandler g err ev s1 := by
  have notTask : ¬ (g.type == 5) = true := by rcases gate with h | h <;> simp [h]
  have listed : g.type ∈ [5, 14, 15] := by rcases gate with h | h <;> simp [h]
  exact (throughEntry_gate system listed).trans ((bind_ok (require_ok (mayUse_iff.mpr usable))).trans
    ((bind_ok (require_ok there)).trans ((bind_ok code).trans (congrFun (if_neg notTask) s1))))

end

/-! ## The handler's code segment (rules R542, R545) -/

section
variable {sel : BitVec 16} {ext : Bool} {s s1 : State}

theorem handlerSegment_null (null : isNull sel = true) :
    handlerSegment sel ext s = .error (.exc (excGP (.sel (extBit ext)))) s :=
  bind_error (require_error (by rw [null]; rfl))

variable (named : isNull sel = false)
include named

theorem handlerSegment_outside (found : fetchDesc sel s = .ok none s1) :
    handlerSegment sel ext s = .error (.exc (excGP (selErr sel ext))) s1 :=
  (bind_ok (require_ok (by rw [named]; rfl))).trans ((bind_ok (look_run s _)).trans (bind_error (fetchOr_of_none found)))

/-- The tests of the segment's descriptor, in their order. -/
theorem handlerSegment_found (hp : s.pe = true) {t : Desc} (found : fetchDesc sel s = .ok (some t) s1) :
    handlerSegment sel ext s =
      if ¬ (t.isCode = true ∧ t.dpl ≤ s.cpl) then .error (.exc (excGP (selErr sel ext))) s1
      else if t.present = false then .error (.exc (excNP (selErr sel ext))) s1 else .ok t s1 := by
  have fit : (t.isCode && decide (t.dpl ≤ s.level)) = true ↔ t.isCode = true ∧ t.dpl ≤ s.cpl := by
    rw [level_of_pe hp, Bool.and_eq_true, decide_eq_true_eq]
  rw [← require_present (d := t) (s := s1) fit, ← require_require]
  exact (bind_ok (require_ok (by rw [named]; rfl))).trans ((bind_ok (look_run s _)).trans
    (bind_ok (fetchOr_of_some found)))

end

/-- A conforming segment of the level or of an inner one, or a nonconforming one of the level, is entered at the level. -/
theorem sameLevel_of_conforming {t : Desc} {cpl : BitVec 2} (h : if t.ec then t.dpl ≤ cpl else t.dpl = cpl) :
    t.dpl ≤ cpl ∧ (!t.ec && decide (t.dpl < cpl)) = false := by
  cases hec : t.ec with
  | true => exact ⟨by simpa [hec] using h, rfl⟩
  | false =>
    have equal : t.dpl = cpl := by simpa [hec] using h
    simp [equal]

/-! ## Entry without a change of level (rule R544) -/

/-- Whether the `n` bytes below the top of the stack lie inside its segment. -/
def State.roomBelow (s : State) (n : Nat) : Bool :=
  s.seg.ss.valid && limitOk s.seg.ss (s.stackAt (-(BitVec.ofNat 32 n))) n

theorem Quiet.roomBelow {s t : State} (h : Quiet s t) (n : Nat) : t.roomBelow n = s.roomBelow n := by
  simp only [State.roomBelow, h.seg, h.stackAt]

section
variable {sel : BitVec 16} {off img : Word} {t : Desc} {err : Option Word} {ev : Event} {s : State}

theorem enterSame_noRoom (hp : s.pe = true) (small : s.roomBelow (4 * (3 + err.toList.length)) = false) :
    enterSame sel off t img err ev s = .error (.exc (excSS (.sel (extBit ev.ext)))) s := by
  have raised := withExt_of_exc (ext := ev.ext) (stackRange_error hp small)
  rw [show (excSS (.sel 0)).code.withExt ev.ext = .sel (extBit ev.ext) from congrArg ErrorCode.sel BitVec.zero_or] at raised
  exact (bind_ok (get_run s)).trans (bind_error raised)

variable (room : s.roomBelow (4 * (3 + err.toList.length)) = true)
include room

theorem enterSame_past (past : ¬ off ≤ t.limit) :
    enterSame sel off t img err ev s = .error (.exc (excGP (.sel (extBit ev.ext)))) s :=
  (bind_ok (get_run s)).trans ((bind_ok (withExt_of_ok (stackRange_ok fun _ => room))).trans
    (bind_error (require_error (decide_eq_false past))))

/-- The frame is pushed, and CS:EIP is the gate's. -/
theorem enterSame_done (hp : s.pe = true) {pa : List Nat} {ws : List Win} {c : Word} {s1 s2 s3 : State} (inside : off ≤ t.limit)
    (write : prepareA t s = .ok pa s1)
    (slots : preparePushes false (List.replicate (3 + err.toList.length) 4) s1 = .ok ws s2)
    (selector : pushedSel .w32 s.seg.cs.sel s2 = .ok c s3) :
    let u := (s3.markA t pa).puts ws ([img, c, ev.ret] ++ err.toList)
    enterSame sel off t img err ev s = .ok ()
        ((u.moveSp (-(BitVec.ofNat 32 (4 * (3 + err.toList.length))))).enters t sel s.cpl off) ∧
      Accessed (pa ++ ws.flatMap (·.phys)) s u := by
  have read : ReadOnly s s3 := ((readOnly_access.prepareA t).ok write).trans
    (((readOnly_access.preparePushes false _).ok slots).trans ((readOnly_access.pushedSel .w32 _).ok selector))
  refine ⟨?_, ((markA_accessed_of_readOnly read (prepareA_phys write) t).mono (List.subset_append_left _ _)).trans
    ((puts_accessed (preparePushes_phys slots).1 _ _).mono (List.subset_append_right _ _))⟩
  rw [← level_of_pe hp]
  exact (bind_ok (get_run s)).trans ((bind_ok (withExt_of_ok (stackRange_ok fun _ => room))).trans
    ((bind_ok (require_ok (decide_eq_true inside))).trans ((bind_ok write).trans ((bind_ok (withExt_of_ok slots)).trans
      (bind_ok selector)))))

end

/-! ## Entry with a change of level (rule R543) -/

section
variable {sel nss : BitVec 16} {off img nesp : Word} {t sd : Desc} {err : Option Word} {ev : Event} {s s1 u : State} {e : Exc}

theorem enterInner_stack_exc (bad : innerStack t.dpl ev.ext s = .error (.exc e) u) :
    enterInner sel off t img err ev s = .error (.exc e) u := bind_error bad

variable (stack : innerStack t.dpl ev.ext s = .ok (nss, nesp, sd) s1)
include stack

theorem enterInner_noRoom (small : stackRoom (sd.cache nss) nesp (4 * (5 + err.toList.length)) = false) :
    enterInner sel off t img err ev s = .error (.exc (excSS (selErr nss ev.ext))) s1 :=
  (bind_ok stack).trans (bind_error (require_error small))

variable (room : stackRoom (sd.cache nss) nesp (4 * (5 + err.toList.length)) = true)
include room

theorem enterInner_past (past : ¬ off ≤ t.limit) :
    enterInner sel off t img err ev s = .error (.exc (excGP (.sel (extBit ev.ext)))) s1 :=
  (bind_ok stack).trans ((bind_ok (require_ok room)).trans (bind_error (require_error (decide_eq_false past))))

/-- The old SS and ESP and then the frame are pushed on the inner stack, and CS:EIP is the gate's. -/
theorem enterInner_done {pa pb : List Nat} {ws : List Win} {oldSs oldCs : Word} {s2 s3 s4 s5 s6 : State}
    (inside : off ≤ t.limit) (write : prepareA t s1 = .ok pa s2) (write' : prepareA sd s2 = .ok pb s3)
    (slots : innerWindows false (sd.cache nss) nesp 0 (List.replicate (5 + err.toList.length) 4) s3 = .ok ws s4)
    (ss : pushedSel .w32 s.seg.ss.sel s4 = .ok oldSs s5) (cs : pushedSel .w32 s.seg.cs.sel s5 = .ok oldCs s6) :
    let v := ((s6.markA t pa).markA sd pb).puts ws ([oldSs, s.gpr.esp, img, oldCs, ev.ret] ++ err.toList)
    enterInner sel off t img err ev s = .ok ()
        { (v.setInner (sd.cache nss) nesp (4 * (5 + err.toList.length))).enters t sel t.dpl off with cpl := t.dpl } ∧
      Accessed (pa ++ pb ++ ws.flatMap (·.phys)) s v := by
  have read : ReadOnly s s4 := (readOnly_access.innerStack t.dpl ev.ext).ok stack
    |>.trans ((readOnly_access.prepareA t).ok write)
    |>.trans ((readOnly_access.prepareA sd).ok write')
    |>.trans ((readOnly_access.innerWindows false _ _ _ _).ok slots)
  have drawn := read.trans (((readOnly_access.pushedSel .w32 _).ok ss).trans ((readOnly_access.pushedSel .w32 _).ok cs))
  refine ⟨?_, ((markA_markA_accessed drawn (prepareA_phys write) (prepareA_phys write')).mono
    (List.subset_append_left _ _)).trans
      ((puts_accessed (innerWindows_phys slots) _ _).mono (List.subset_append_right _ _))⟩
  rw [← read.1.seg] at ss cs
  rw [← read.1.gpr]
  exact (bind_ok stack).trans ((bind_ok (require_ok room)).trans ((bind_ok (require_ok (decide_eq_true inside))).trans
    ((bind_ok write).trans ((bind_ok write').trans ((bind_ok slots).trans ((bind_ok (get_run s4)).trans
      ((bind_ok ss).trans (bind_ok cs))))))))

end

/-! ## The handler -/

section
variable {ev : Event} {g t : Desc} {err : Option Word} {s s1 u : State} {e : Exc}

theorem enterHandler_segment_exc (bad : handlerSegment g.gateSel ev.ext s = .error (.exc e) u) :
    enterHandler g err ev s = .error (.exc e) u := bind_error (bind_error bad)

variable (segment : handlerSegment g.gateSel ev.ext s = .ok t s1)
include segment

theorem enterGate_same (same : (!t.ec && decide (t.dpl < s1.level)) = false) : enterGate g err ev s =
    enterSame g.gateSel g.gateOff t (pushedFlags s1.eflags ev.fault) err ev s1 :=
  (bind_ok segment).trans ((bind_ok (get_run s1)).trans (congrFun (if_neg (Bool.eq_false_iff.mp same)) s1))

theorem enterGate_inner (inner : (!t.ec && decide (t.dpl < s1.level)) = true) : enterGate g err ev s =
    enterInner g.gateSel g.gateOff t (pushedFlags s1.eflags ev.fault) err ev s1 :=
  (bind_ok segment).trans ((bind_ok (get_run s1)).trans (congrFun (if_pos inner) s1))

end

section
variable {ev : Event} {g : Desc} {err : Option Word} {s u : State}

theorem enterHandler_exc {e : Exc} (raised : enterGate g err ev s = .error (.exc e) u) :
    enterHandler g err ev s = .error (.exc e) u := bind_error raised

theorem enterHandler_done {fl : Word} (done : enterGate g err ev s = .ok () u) (flags : u.eflags = fl) :
    enterHandler g err ev s = .ok false { u with eflags := handlerFlags fl (g.type == 14) } := by
  subst flags
  exact bind_ok done

end

/-- The ends of an entry at the level `s.cpl`, of which everything that comes before only reads (rule R544). -/
theorem enterHandler_same_ends {ev : Event} {g t : Desc} {err : Option Word} {s s2 s3 : State} (hp : s.pe = true)
    (read : ReadOnly s s3) (enter : enterGate g err ev s2 =
      enterSame g.gateSel g.gateOff t (pushedFlags s3.eflags ev.fault) err ev s3) :
    let k := BitVec.ofNat 32 (4 * (3 + err.toList.length))
    (s.roomBelow (4 * (3 + err.toList.length)) = false →
      enterHandler g err ev s2 = .error (.exc (excSS (.sel (extBit ev.ext)))) s3) ∧
    (s.roomBelow (4 * (3 + err.toList.length)) = true → ¬ g.gateOff ≤ t.limit →
      enterHandler g err ev s2 = .error (.exc (excGP (.sel (extBit ev.ext)))) s3) ∧
    (s.roomBelow (4 * (3 + err.toList.length)) = true → g.gateOff ≤ t.limit → ∀ pa s4 ws s5 c s6,
      prepareA t s3 = .ok pa s4 → preparePushes false (List.replicate (3 + err.toList.length) 4) s4 = .ok ws s5 →
      pushedSel .w32 s.seg.cs.sel s5 = .ok c s6 →
      let u := (s6.markA t pa).puts ws ([pushedFlags s.eflags ev.fault, c, ev.ret] ++ err.toList)
      enterHandler g err ev s2 = .ok false
          { (u.moveSp (-k)).enters t g.gateSel s.cpl g.gateOff with
            eflags := handlerFlags s.eflags (g.type == 14) } ∧
        Accessed (pa ++ ws.flatMap (·.phys)) s u) := by
  have hp3 := read.1.pe.trans hp
  rw [← read.1.roomBelow, ← read.1.seg]
  refine ⟨fun small => enterHandler_exc (enter.trans (enterSame_noRoom hp3 small)),
    fun room past => enterHandler_exc (enter.trans (enterSame_past room past)), fun room within => ?_⟩
  intro pa s4 ws s5 c s6 write slots selector
  obtain ⟨done, stored⟩ := enterSame_done (sel := g.gateSel) (img := pushedFlags s3.eflags ev.fault) room hp3 within write
    slots selector
  have flags := stored.1.eflags
  rw [read.1.eflags] at done stored enter flags
  rw [read.1.cpl] at done
  exact ⟨enterHandler_done (enter.trans done) flags, (Accessed.ofReadOnly read _).trans stored⟩

/-- Settles O42: the entry's tests, then the segment's, then the ends of the entry at one level. -/
theorem gateEntrySame : Obligations.GateEntrySame := by
  intro ev g s s1 hp inside entry usable
  have body := deliver_entry hp inside entry
  refine ⟨fun system old => body.trans (throughEntry_286 system old), fun other => body.trans (throughEntry_other other),
    fun system gate denied => body.trans (throughEntry_denied system gate denied), fun system gate allowed absent =>
    body.trans (throughEntry_absent system gate allowed absent), fun system gate allowed there err s2 code => ?_⟩
  intro gp
  have enters := body.trans (throughEntry_enters system gate allowed there code)
  have read := ((readOnly_access.readDesc _).ok entry).trans ((readOnly_access.pushedCode _).ok code)
  refine ⟨fun null => enters.trans (enterHandler_segment_exc (handlerSegment_null null)), fun named r s3 found => ?_⟩
  cases r with
  | none => exact enters.trans (enterHandler_segment_exc (handlerSegment_outside named found))
  | some t =>
    have segment := handlerSegment_found (ext := ev.ext) named (read.1.pe.trans hp) found
    rw [read.1.cpl] at segment
    have read' := read.trans ((readOnly_access.fetchDesc _).ok found)
    refine ⟨fun unfit => enters.trans (enterHandler_segment_exc (segment.trans (if_pos unfit))),
      fun isCode le absent => enters.trans (enterHandler_segment_exc
        (segment.trans ((if_neg (not_not.mpr ⟨isCode, le⟩)).trans (if_pos absent)))), fun isCode level there' => ?_⟩
    obtain ⟨le, same⟩ := sameLevel_of_conforming level
    rw [← level_of_pe hp, ← read'.1.level] at same
    have ok := segment.trans ((if_neg (not_not.mpr ⟨isCode, le⟩)).trans (if_neg (by simp [there'])))
    rw [enters]
    exact enterHandler_same_ends hp read' (enterGate_same ok same)

/-- Settles O43: the way to the handler of the outer entry is that of the entry at one level; what follows is the ends of
the inner stack's lookup and of its room. -/
theorem gateEntryInner : Obligations.GateEntryInner := by
  intro ev g t err s s1 s2 s3 hp inside entry system gate allowed there code named found isCode nonconforming inner there'
  have enters := (deliver_entry hp inside entry).trans (throughEntry_enters system gate allowed there code)
  have read := ((readOnly_access.readDesc _).ok entry).trans ((readOnly_access.pushedCode _).ok code)
  have segment := handlerSegment_found (ext := ev.ext) named (read.1.pe.trans hp) found
  rw [read.1.cpl] at segment
  have read' := read.trans ((readOnly_access.fetchDesc _).ok found)
  have ok := segment.trans ((if_neg (not_not.mpr ⟨isCode, BitVec.le_of_lt inner⟩)).trans (if_neg (by simp [there'])))
  have deeper : (!t.ec && decide (t.dpl < s3.level)) = true := by
    simp [nonconforming, read'.1.level, level_of_pe hp, inner]
  have enter := enterGate_inner (err := err) ok deeper
  rw [enters]
  refine ⟨fun e u bad => enterHandler_exc (enter.trans (enterInner_stack_exc bad)), fun nss nesp sd s4 stack => ?_⟩
  intro n room
  refine ⟨fun small => enterHandler_exc (enter.trans (enterInner_noRoom stack small)),
    fun room past => enterHandler_exc (enter.trans (enterInner_past stack room past)), fun room within => ?_⟩
  intro pa s5 pb s6 ws s7 oldSs s8 oldCs s9 write write' slots ss cs img u
  rw [← read'.1.seg] at ss cs
  obtain ⟨done, stored⟩ := enterInner_done (sel := g.gateSel) (img := pushedFlags s3.eflags ev.fault) stack room within write
    write' slots ss cs
  have flags := stored.1.eflags
  rw [read'.1.eflags, read'.1.gpr] at done stored flags
  rw [read'.1.eflags] at enter
  exact ⟨enterHandler_done (enter.trans done) flags, (Accessed.ofReadOnly read' _).trans stored⟩

end Sys2Proof.Machine

/-! SUPPORT. LMSW, CLTS, HLT, WAIT and ESC, XCHG and LOCK (47_system_control.md; 48_coprocessor_and_lock.md). -/

namespace Sys2Proof.Machine

/-! ## LMSW, CLTS and HLT (47_system_control.md rules R446, R450, R455) -/

/-- LMSW takes bits 1 to 3 from its operand and may set bit 0, which it never clears. -/
theorem lmswValue_eq (old : Word) (v : BitVec 16) :
    lmswValue old v = (old &&& 0xFFFFFFF1#32) ||| (zx16 v &&& 0xF#32) := rfl

/-- PG is not LMSW's to set: the only obligation it makes is that of PE (rule R653). -/
theorem crHazard_lmsw (h : Hazard) (old : Word) (v : BitVec 16) : crHazard h old (lmswValue old v) =
    if old.getLsbD 0 = false ∧ v.getLsbD 0 = true then .pe else h := by
  obtain ⟨pg, pe⟩ := lmswValue_paging old v
  unfold crHazard
  rw [pg, pe]
  cases old.getLsbD 0 <;> cases v.getLsbD 0 <;> cases old.getLsbD 31 <;> rfl

/-- Setting PE sets the level to 0; LMSW leaves it where PE was set before or is not set now (rule R439). -/
theorem setCr0_lmsw (s : State) (v : BitVec 16) : s.setCr0 (lmswValue s.cr.cr0 v) = { s with
    cr := { s.cr with cr0 := (s.cr.cr0 &&& 0xFFFFFFF1#32) ||| (zx16 v &&& 0xF#32) }
    cpl := if s.pe then s.cpl else if v.getLsbD 0 then 0 else s.cpl
    hazard := if s.pe = false ∧ v.getLsbD 0 = true then .pe else s.hazard } := by
  have level : (if !s.pe && (lmswValue s.cr.cr0 v).getLsbD 0 then 0 else s.cpl) =
      if s.pe then s.cpl else if v.getLsbD 0 then 0 else s.cpl := by
    rw [(lmswValue_paging s.cr.cr0 v).2, show s.cr.cr0.getLsbD 0 = s.pe from rfl]
    cases s.pe <;> cases v.getLsbD 0 <;> rfl
  unfold State.setCr0
  rw [level, crHazard_lmsw, lmswValue_eq]
  rfl

/-- Settles O52: at level 0 the privilege check passes, and LMSW is a write of CR0 that leaves PG alone. -/
theorem machineStatus : Obligations.MachineStatus := by
  intro src s s1 v top
  have allowed := privileged_ok top
  refine ⟨fun operand => ?_, run_ok (bind_ok allowed), run_ok (bind_ok allowed)⟩
  have read := (readOnly_access.readRm16 src).ok operand
  refine ⟨?_, read⟩
  rw [← read.1.cr, ← read.1.cpl, ← read.1.hazard, ← read.1.pe, ← setCr0_lmsw]
  exact run_ok ((bind_ok allowed).trans (bind_ok operand))

/-! ## WAIT and ESC (48_coprocessor_and_lock.md rules R472, R473, R479) -/

section
variable {op ext : BitVec 3} {rm : Rm} {s : State}

theorem exec_esc_unavailable (h : s.em = true ∨ s.ts = true) : exec (.esc op ext rm) s = takeException excNM s := by
  refine run_exc ((bind_ok (get_run s)).trans ?_)
  cases em : s.em with
  | true => exact bind_error (require_error rfl)
  | false => exact (bind_ok (require_ok rfl)).trans (bind_error (require_error (by simp [h.resolve_left (by simp [em])])))

variable (em : s.em = false) (ts : s.ts = false)
include em ts

/-- Past the tests of EM and TS comes that of BUSY#, then that of ERROR# for the opcodes that make it. -/
theorem exec_esc_available : exec (.esc op ext rm) s = run (do
    if s.pins.busy then return .waiting
    else
      require (!(Config.escTestsError op (rm.modrm ext) && s.pins.error)) excMF
      match rm with
      | .reg _ => escRegister op (rm.modrm ext)
      | .mem m => escMemory op (rm.modrm ext) m) s :=
  run_congr ((bind_ok (get_run s)).trans ((bind_ok (require_ok (by rw [em]; rfl))).trans
    (bind_ok (require_ok (by rw [ts]; rfl)))))

theorem exec_esc_busy (busy : s.pins.busy = true) : exec (.esc op ext rm) s =
    .next { s with run := .waiting, pend := { s.pend with bs := false }, ended := .completed } :=
  (exec_esc_available em ts).trans (run_ok (congrFun (if_pos busy) s))

variable (idle : s.pins.busy = false)
include idle

theorem exec_esc_error (error : s.pins.error = true) (tested : Config.escTestsError op (rm.modrm ext) = true) :
    exec (.esc op ext rm) s = takeException excMF s :=
  (exec_esc_available em ts).trans (run_exc ((congrFun (if_neg (Bool.eq_false_iff.mp idle)) s).trans
    (bind_error (require_error (by rw [error, tested]; rfl)))))

/-- An opcode that does not test ERROR# is handed over where its operand is a register. -/
theorem exec_esc_untested (q : Reg) (untested : Config.escTestsError op ((Rm.reg q).modrm ext) = false) :
    ∃ t, exec (.esc op ext (.reg q)) s = .next (s.retires t) ∧
      t.io = .escape op ((Rm.reg q).modrm ext) none [] :: s.io := by
  obtain ⟨ax, n, done⟩ := escRegister_ok op ((Rm.reg q).modrm ext) s
  exact ⟨_, (exec_esc_available em ts).trans (run_ok ((congrFun (if_neg (Bool.eq_false_iff.mp idle)) s).trans
    ((bind_ok (require_ok (by rw [untested]; rfl))).trans done))), rfl⟩

end

section
variable {s : State}

theorem exec_wait_unavailable (h : s.mp = true ∧ s.ts = true) : exec .wait s = takeException excNM s :=
  run_exc ((bind_ok (get_run s)).trans (bind_error (require_error (by rw [h.1, h.2]; rfl))))

variable (available : s.mp = false ∨ s.ts = false)
include available

theorem exec_wait_available : exec .wait s = run (do
    if s.pins.busy then return .waiting
    else
      require (!s.pins.error) excMF
      return .next) s := by
  have h : (!(s.mp && s.ts)) = true := by rcases available with h | h <;> simp [h]
  exact run_congr ((bind_ok (get_run s)).trans (bind_ok (require_ok h)))

theorem exec_wait_busy (busy : s.pins.busy = true) : exec .wait s =
    .next { s with run := .waiting, pend := { s.pend with bs := false }, ended := .completed } :=
  (exec_wait_available available).trans (run_ok (congrFun (if_pos busy) s))

variable (idle : s.pins.busy = false)
include idle

theorem exec_wait_idle : exec .wait s = run (do
    require (!s.pins.error) excMF
    return .next) s :=
  (exec_wait_available available).trans (run_congr (congrFun (if_neg (Bool.eq_false_iff.mp idle)) s))

theorem exec_wait_error (error : s.pins.error = true) : exec .wait s = takeException excMF s :=
  (exec_wait_idle available idle).trans (run_exc (bind_error (require_error (by rw [error]; rfl))))

theorem exec_wait_done (error : s.pins.error = false) : exec .wait s = .next (s.retires s) :=
  (exec_wait_idle available idle).trans (run_ok (bind_ok (require_ok (by rw [error]; rfl))))

end

/-- Settles O56, one lemma for each test an instruction can stop at. -/
theorem coprocessorTests : Obligations.CoprocessorTests := by
  intro op ext rm s modrm
  refine ⟨exec_esc_unavailable, exec_wait_unavailable, exec_esc_busy, fun available =>
    ⟨exec_wait_busy available, exec_wait_error available, exec_wait_done available⟩, fun em ts idle error => ?_⟩
  split
  next tested => exact exec_esc_error em ts idle error tested
  next untested =>
    intro q operand
    subst operand
    exact exec_esc_untested em ts idle q (Bool.eq_false_iff.mpr untested)

/-! ## XCHG and LOCK (48_coprocessor_and_lock.md rules R480, R483) -/

section
variable {m : MemOp} {w : Win} {old : Word} {s s1 s2 : State}

/-- The memory form reads what it may write, and then only its bytes change. -/
theorem exchange_accessed {n : Nat} (v : Word) (window : memWindow m 0 n true s = .ok w s1)
    (read : w.read s1 = .ok old s2) : Accessed w.phys s (s2.put w v) :=
  (Accessed.ofReadOnly (((readOnly_access.memWindow m 0 n true).ok window).trans ((readOnly_access.winRead w).ok read)) _).trans
    (put_accessed (memWindow_phys window).1 s2 v)

theorem exec_xchg8_mem (r : Reg8) (window : memWindow m 0 1 true s = .ok w s1) (read : w.read s1 = .ok old s2) :
    exec (.xchg8 (.mem m) r) s =
      .next (s.retires ((s2.put w ((s.reg8 r).zeroExtend 32)).setReg8 r (old.truncate 8))) :=
  run_ok ((bind_ok (look_run s _)).trans ((bind_ok window).trans (bind_ok read)))

theorem exec_xchg_mem (o : OpSize) (r : Reg) (window : memWindow m 0 o.bytes true s = .ok w s1)
    (read : w.read s1 = .ok old s2) :
    exec (.xchg o (.mem m) r) s = .next (s.retires ((s2.put w (s.regSz o r)).setRegSz o r old)) :=
  run_ok ((bind_ok (look_run s _)).trans ((bind_ok window).trans (bind_ok read)))

end

/-- Settles O58: LOCK before an exchange runs what the exchange runs. -/
theorem exchanges : Obligations.Exchanges := fun _ =>
  ⟨run_exc rfl, rfl, fun _ _ => rfl, fun _ _ _ => rfl,
    fun _ r _ _ _ _ window read => ⟨exec_xchg8_mem r window read, rfl, exchange_accessed _ window read⟩,
    fun o _ r _ _ _ _ window read => ⟨exec_xchg_mem o r window read, rfl, exchange_accessed _ window read⟩⟩

end Sys2Proof.Machine

/-! SUPPORT. The conditions of the debug exception (61_debug.md rules R603 to R609, R620). -/

namespace Sys2Proof.Machine

/-! ## Where a data breakpoint matches (61_debug.md rules R604, R605) -/

/-- Two runs of bytes, modulo 2^32, meet exactly where one of them begins in the other. -/
theorem overlap_iff (a b : Word) (k m : Nat) :
    (∃ i < k, ∃ j < m, a + BitVec.ofNat 32 i = b + BitVec.ofNat 32 j) ↔
      (0 < k ∧ 0 < m) ∧ ((b - a).toNat < k ∨ (a - b).toNat < m) := by
  constructor
  · rintro ⟨i, hi, j, hj, meet⟩
    refine ⟨⟨by omega, by omega⟩, ?_⟩
    have sums := congrArg BitVec.toNat meet
    simp only [BitVec.toNat_add, BitVec.toNat_ofNat, BitVec.toNat_sub] at sums ⊢
    omega
  · rintro ⟨⟨hk, hm⟩, inside | inside⟩
    · refine ⟨_, inside, 0, hm, ?_⟩
      rw [BitVec.ofNat_toNat, BitVec.setWidth_eq, add_sub_cancel]
      exact (BitVec.add_zero b).symm
    · refine ⟨0, hk, _, inside, ?_⟩
      rw [BitVec.ofNat_toNat, BitVec.setWidth_eq, add_sub_cancel]
      exact BitVec.add_zero a

theorem fieldSize_eq (len : BitVec 2) :
    fieldSize len = if len = 0 then 1 else if len = 1 then 2 else if len = 3 then 4 else 0 := by
  revert len
  decide

theorem DebugRegs.addr_eq (d : DebugRegs) {n : Nat} (hn : n < 4) : d.addr n = [d.dr0, d.dr1, d.dr2, d.dr3].getD n 0 := by
  interval_cases n <;> rfl

/-- A breakpoint matches where its R/W field asks for the kind of access and its field meets the access. -/
theorem DebugRegs.dataMatch_iff (d : DebugRegs) (n : Nat) (lin : Word) {k : Nat} (hk : 0 < k) (write : Bool) :
    d.dataMatch n lin k write = true ↔ (d.rw n = 3 ∨ (d.rw n = 1 ∧ write = true)) ∧
      ∃ i < k, ∃ j < fieldSize (d.len n), lin + BitVec.ofNat 32 i =
        (d.addr n &&& ~~~(BitVec.ofNat 32 (fieldSize (d.len n) - 1))) + BitVec.ofNat 32 j := by
  rw [overlap_iff]
  simp [DebugRegs.dataMatch, hk, and_assoc]

/-! ## What an access records (rules R605, R607, R609) -/

/-- A mask of breakpoints that has lost none and gained only such as have the property. -/
def Gains (p : Nat → Bool) (b c : BitVec 4) : Prop :=
  ∀ n < 4, (b.getLsbD n = true → c.getLsbD n = true) ∧ (c.getLsbD n = true → b.getLsbD n = true ∨ p n = true)

theorem Gains.refl (p : Nat → Bool) (b : BitVec 4) : Gains p b b := fun _ _ => ⟨id, .inl⟩

theorem Gains.trans {p : Nat → Bool} {a b c : BitVec 4} (h : Gains p a b) (g : Gains p b c) : Gains p a c := by
  intro n hn
  obtain ⟨keep, gained⟩ := h n hn
  obtain ⟨keep', gained'⟩ := g n hn
  exact ⟨keep' ∘ keep, fun on => (gained' on).elim gained .inr⟩

/-- The mask with breakpoint `k` added. -/
theorem getLsbD_addBreakpoint (b : BitVec 4) (k : Nat) {n : Nat} (hn : n < 4) :
    (b ||| (1#4 <<< k)).getLsbD n = (b.getLsbD n || decide (n = k)) := by
  rw [BitVec.getLsbD_or, ← BitVec.twoPow_eq, BitVec.getLsbD_twoPow]
  by_cases e : n = k
  · simp [← e, hn]
  · simp [e, Ne.symm e]

theorem Gains.add {p : Nat → Bool} {k : Nat} (hit : p k = true) (b : BitVec 4) : Gains p b (b ||| (1#4 <<< k)) := by
  intro n hn
  rw [getLsbD_addBreakpoint b k hn, Bool.or_eq_true, decide_eq_true_eq]
  exact ⟨.inl, fun on => on.imp_right fun e : n = k => e ▸ hit⟩

/-- What recording matches with a property may do: free values, and matches recorded at once or late. -/
def Records (p : Nat → Bool) (s t : State) : Prop :=
  ∃ n h l, t = { s with draws := n, pend := { s.pend with hits := h, late := l } } ∧
    Gains p s.pend.hits h ∧ Gains p s.pend.late l

theorem Records.refl (p : Nat → Bool) (s : State) : Records p s s :=
  ⟨s.draws, s.pend.hits, s.pend.late, rfl, Gains.refl p _, Gains.refl p _⟩

theorem Records.trans {p : Nat → Bool} {s t u : State} (h : Records p s t) (g : Records p t u) : Records p s u := by
  obtain ⟨n, hits, late, rfl, first, first'⟩ := h
  obtain ⟨n', hits', late', rfl, second, second'⟩ := g
  exact ⟨n', hits', late', rfl, first.trans second, first'.trans second'⟩

theorem records_noteHit {p : Nat → Bool} {n : Nat} (hit : p n = true) (s : State) (atOnce : Bool) :
    Records p s (s.noteHit atOnce n) := by
  have keep := Gains.refl p
  have add := Gains.add hit
  cases atOnce with
  | true => exact ⟨s.draws, _, _, rfl, add _, keep _⟩
  | false =>
    simp only [State.noteHit, Bool.false_eq_true, if_false]
    split
    · exact ⟨_, _, _, rfl, add _, keep _⟩
    · split
      · exact ⟨_, _, _, rfl, keep _, add _⟩
      · exact ⟨_, _, _, rfl, keep _, keep _⟩

theorem records_noteHits (atOnce : Bool) (p : Nat → Bool) (ns : List Nat) (s : State) :
    Records p s (s.noteHits atOnce p ns) := by
  induction ns generalizing s with
  | nil => exact Records.refl p s
  | cons n ns ih =>
    rw [State.noteHits]
    split
    next hit => exact (records_noteHit hit s atOnce).trans (ih _)
    next => exact ih s

/-- With LE or GE set, exactly the matches are recorded, at once. -/
theorem noteHits_exact (p : Nat → Bool) (ns : List Nat) (s : State) :
    (s.noteHits true p ns).pend.late = s.pend.late ∧ ∀ n < 4, (s.noteHits true p ns).pend.hits.getLsbD n =
      (s.pend.hits.getLsbD n || (decide (n ∈ ns) && p n)) := by
  induction ns generalizing s with
  | nil => simp [State.noteHits]
  | cons k ns ih =>
    obtain ⟨late, hits⟩ := ih (if p k then s.noteHit true k else s)
    rw [State.noteHits]
    cases hit : p k with
    | false =>
      rw [hit, if_neg Bool.false_ne_true] at late hits
      refine ⟨late, fun n hn => (hits n hn).trans ?_⟩
      by_cases e : n = k
      · simp [e, hit]
      · simp [e]
    | true =>
      rw [hit, if_pos rfl] at late hits
      refine ⟨late, fun n hn => (hits n hn).trans ?_⟩
      rw [show (s.noteHit true k).pend.hits = s.pend.hits ||| (1#4 <<< k) from rfl, getLsbD_addBreakpoint _ _ hn]
      by_cases e : n = k
      · simp [e, hit]
      · simp [e]

/-- An access changes what is pending and takes free values; what it records are the matches that are enabled. -/
theorem noteAccess_records (s : State) (lin : Word) (k : Nat) (write : Bool) :
    ∃ n h l, s.noteAccess lin k write = { s with draws := n, pend := { s.pend with
        hits := h, late := l
        others := s.pend.others ||| maskOf fun n => !s.dr.enabled n && s.dr.dataMatch n lin k write } } ∧
      Gains (fun n => s.dr.enabled n && s.dr.dataMatch n lin k write) s.pend.hits h ∧
      Gains (fun n => s.dr.enabled n && s.dr.dataMatch n lin k write) s.pend.late l := by
  obtain ⟨n, h, l, noted, hits, late⟩ := records_noteHits s.dr.exact
    (fun n => s.dr.enabled n && s.dr.dataMatch n lin k write) [0, 1, 2, 3] s
  have added := congrArg (fun t : State => { t with pend := { t.pend with
    others := t.pend.others ||| maskOf fun n => !s.dr.enabled n && s.dr.dataMatch n lin k write } }) noted
  exact ⟨n, h, l, added, hits, late⟩

theorem noteAccess_exact {s : State} (ex : s.dr.exact = true) (lin : Word) (k : Nat) (write : Bool) :
    (s.noteAccess lin k write).pend.late = s.pend.late ∧
      ∀ n < 4, (s.noteAccess lin k write).pend.hits.getLsbD n =
        (s.pend.hits.getLsbD n || (s.dr.enabled n && s.dr.dataMatch n lin k write)) := by
  have noted := noteHits_exact (fun n => s.dr.enabled n && s.dr.dataMatch n lin k write) [0, 1, 2, 3] s
  rw [← ex] at noted
  refine ⟨noted.1, fun n hn => (noted.2 n hn).trans ?_⟩
  have listed : n ∈ [0, 1, 2, 3] := by simp; omega
  rw [decide_eq_true listed, Bool.true_and]

/-- A write is seen by the breakpoints if it is watched; the bytes stored make no trap. -/
theorem put_pend (s : State) (w : Win) (v : Word) : (s.put w v).pend = (s.watched w true).pend :=
  State.storeAll_pend _ _ _

theorem read_pend {s t : State} {w : Win} {v : Word} (read : w.read s = .ok v t) : t.pend = (s.watched w false).pend := by
  obtain ⟨bs, n, io, bytes, -⟩ := readBytes_ok w.phys (s.watched w false)
  have done : w.read s = .ok (leWord bs) { s.watched w false with draws := n, io := io } :=
    bind_ok ((bind_ok (change_run s _)).trans bytes)
  rw [done] at read
  cases read
  rfl

/-! ## DR6 and the single-step condition (rules R607, R608, R620) -/

theorem getLsbD_bitIf (b : Bool) {n : Nat} (hn : n < 32) (k : Nat) :
    (if b then BitVec.twoPow 32 n else 0).getLsbD k = (decide (k = n) && b) := by
  cases b with
  | false => simp
  | true =>
    rw [if_pos rfl, BitVec.getLsbD_twoPow, Bool.and_true]
    by_cases e : k = n
    · simp [e, hn]
    · simp [e, Ne.symm e]

theorem getLsbD_dr6After (old : Word) (b : BitVec 4) (bd bs bt : Bool) (k : Nat) :
    (dr6After old b bd bs bt).getLsbD k = (old.getLsbD k || b.getLsbD k || (decide (k = 13) && bd) ||
      (decide (k = 14) && bs) || (decide (k = 15) && bt)) := by
  have mask : (b.zeroExtend 32).getLsbD k = b.getLsbD k := by
    rw [BitVec.getLsbD_setWidth]
    by_cases hk : k < 32
    · simp [hk]
    · simp [hk, BitVec.getLsbD_of_ge b k (by omega)]
  rw [← getLsbD_bitIf bd (n := 13) (by decide), ← getLsbD_bitIf bs (n := 14) (by decide),
    ← getLsbD_bitIf bt (n := 15) (by decide), ← mask]
  simp only [← BitVec.getLsbD_or]
  rfl

/-- What DR6 takes for breakpoints that are not enabled is among them. -/
theorem freeB_and_not (others : BitVec 4) (n : Nat) : freeB others n &&& ~~~others = 0 := by
  unfold freeB
  rw [BitVec.and_comm others, BitVec.and_assoc, BitVec.and_not_self]
  exact BitVec.and_zero

theorem complete_pend (tf : Bool) (d : Done) (s : State) :
    (complete tf d s).pend = { s.pend with bs := tf && d != .waiting } := by
  cases d with
  | waiting => cases tf <;> rfl
  | next | nextKeepRf | transfer | transferKeepRf | again => cases tf <;> rfl

/-- Settles O54: where a breakpoint matches, what an access records, and what the exception makes of it. -/
theorem debugConditions : Obligations.DebugConditions := by
  refine ⟨fun d n lin k write hn hk _ => ?_, fun s lin k write => ?_, fun s w v => ⟨put_pend s w v, fun _ _ => read_pend⟩,
    getLsbD_dr6After, fun s b others bd bs bt => ⟨freeB others s.draws, freeB_and_not _ _, rfl⟩,
    fun s t tf d => ⟨complete_pend tf d s, fun _ => run_ok⟩⟩
  · intro kinds len size start
    refine ⟨rfl, (d.dataMatch_iff n lin hk write).trans ?_⟩
    rw [fieldSize_eq, d.addr_eq hn]
    rfl
  · intro t hit
    obtain ⟨draws, h, l, noted, hits, late⟩ := noteAccess_records s lin k write
    refine ⟨?_, fun n hn => ?_, rfl, fun ex => noteAccess_exact ex lin k write, fun n hn => ?_⟩
    · rw [show t = _ from noted]
    · rw [show t = _ from noted, BitVec.getLsbD_or, getLsbD_maskOf _ hn]
    · rw [show t = _ from noted]
      exact ⟨(hits n hn).1, (hits n hn).2, (late n hn).1, (late n hn).2⟩

end Sys2Proof.Machine
